-- ==== Sys2Proof/Word.lean ====
section
/-! DEFINITION. The word types of Xacon-3 (R73, R75, R78, R42). -/

namespace Sys2Proof

/-- A 64-bit g register, VA or CSR value (R73). -/
abbrev Word := BitVec 64
/-- One byte of memory. -/
abbrev Byte := BitVec 8
/-- A vector register, operand register, latch, plane row or tile row (R73, R79). -/
abbrev VReg := BitVec 4096
/-- A mask register (R73, R78). -/
abbrev KReg := BitVec 512

end Sys2Proof
end

