-- ==== Sys2Proof/Config.lean ====
section
/-! DEFINITION. What an implementation fixes and the spec leaves open: constants without a body, so that no proof can lean on
a value of theirs (log 5, log 15). -/

namespace Sys2Proof.Config

/-- A free byte: HBM read under another key (R214), a strip element that a resumed VBCAST broadcasts unread (R148). Log 5, 56. -/
opaque freeByte : Nat → Byte

/-- A free choice between two outcomes that the spec allows (R227, R237, R340, R350). Log 5. -/
opaque freeBool : Nat → Bool

/-- A free count: pipe cycles of meter 0, which depend on timing, and the energy of a fold (R371, R373); an entry of a span (R350). Log 5, 14. -/
opaque freeCount : Nat → Nat

/-- The serial field of a die's identity register (R377). Log 15. -/
opaque serial : Nat → BitVec 56

/-- Digests and versions of the Lantern and control-core images of a module, in a report (R385). Log 15. -/
opaque imageWords : Nat → List Word

/-- The SHA3-512 digest of a report (R385). Log 15. -/
opaque digest : List Word → List Word

/-- The signature by the identity key of a module over a digest, given the draw of the hedged signing (R385). Log 15. -/
opaque signature : Nat → Nat → List Word → List Word

/-- Spare rows that a bank or pseudo-channel starts with (R215). Log 15. -/
opaque spareRows : Nat → Nat

/-- Places of the 32-bit words of an SRAM row, given its row number (R215 to R217). Log 15. -/
opaque rowWords : Nat → List Nat

/-- Lines that the way of an L2 slice-bank or L1 data cache holds, given a row of it (R196, R217). Log 15. -/
opaque wayLines : Nat → Nat

end Sys2Proof.Config
end

