-- ==== Sys2Proof/Syntax.lean ====
section
/-! DEFINITION. The instructions and steps of spec/opcode_table.json, one constructor a row (R48 to R67; 95). -/

namespace Sys2Proof

/-- The fields of a 64-bit prefix with T = 0 that a base word may use (R64, R65): the metadata register,
mask, scale, clamp, and the six modifier bits N1 A1 N2 A2 N3 A3, N1 the highest. D and DIR must be 0. -/
structure Pfx where
  om    : BitVec 3
  k     : BitVec 3
  scale : BitVec 4
  clamp : BitVec 2
  mods  : BitVec 6
  deriving DecidableEq, Repr

/-- The two-source operations of the VV layout (R48): majors 0x42 to 0x5E, VPERM and VMERGE. -/
inductive VVOp
  | add | sub | mul | mulh | mulhu | mac | min | max | minu | maxu | and | or | xor | sll | srl | sra
  | sadd | saddu | ssub | ssubu
  | fadd | fsub | fmul | fdiv | fmin | fmax | fma | fms | fnma
  | perm | merge
  deriving DecidableEq, Repr

/-- The one-source operations of the VF layout without a g field (R59). -/
inductive VFOp
  | fsqrt | frcp | frsq | fexp2 | fclass
  | mv | id
  | compress | expand
  | redsum | redmin | redmax | redminu | redmaxu | fredsum | fredmin | fredmax | scan | fscan
  deriving DecidableEq, Repr

/-- The operations of the VF layout with a g field in [31:27] (R59). -/
inductive VGOp
  | bcast | ext | ins | slup | sldn
  deriving DecidableEq, Repr

/-- The operations of the VF-X layout (R60). -/
inductive VXOp
  | cvt | quant | qsc | deq | had | pack | unpack
  deriving DecidableEq, Repr

/-- A base word that a prefix with T = 0 may carry (R65), except VACQ and VREL, which are rows of their own. -/
inductive VBase
  /-- VV layout: sources 2 and 1, destination. -/
  | vv (op : VVOp) (vs2 vs1 vd : BitVec 7)
  /-- VV-K layout (R57): fl is true for VFCMP. -/
  | cmp (fl : Bool) (vs2 vs1 : BitVec 7) (cond : BitVec 4) (kd : BitVec 3)
  /-- VF layout without gs. -/
  | vf (op : VFOp) (vs vd : BitVec 7)
  /-- VF layout with gs; for VEXT vd holds rd in its low 5 bits. -/
  | vg (op : VGOp) (gs : BitVec 5) (vs vd : BitVec 7)
  /-- VF-X layout: flag S, the code in [30:27], funct4, source, destination. -/
  | vx (op : VXOp) (sat : BitVec 1) (f2 f1 : BitVec 4) (vs vd : BitVec 7)
  /-- VM-A layout (R63); vd = 31 is the non-blocking form. -/
  | amo (op cls : BitVec 4) (va vd vv : BitVec 5)
  deriving DecidableEq, Repr

/-- One constructor per row of spec/opcode_table.json. The constructors from commitUnit on are the steps of agents
other than a hart's own instruction stream (95); no parcel decodes to them. -/
inductive Instr
  /-- ADD (R116). -/
  | add (rd rs1 rs2 : BitVec 5)
  /-- SUB (R116). -/
  | sub (rd rs1 rs2 : BitVec 5)
  /-- AND (R116). -/
  | and (rd rs1 rs2 : BitVec 5)
  /-- OR (R116). -/
  | or (rd rs1 rs2 : BitVec 5)
  /-- XOR (R116). -/
  | xor (rd rs1 rs2 : BitVec 5)
  /-- SLL (R116). -/
  | sll (rd rs1 rs2 : BitVec 5)
  /-- SRL (R116). -/
  | srl (rd rs1 rs2 : BitVec 5)
  /-- SRA (R116). -/
  | sra (rd rs1 rs2 : BitVec 5)
  /-- SLT (R116). -/
  | slt (rd rs1 rs2 : BitVec 5)
  /-- SLTU (R116). -/
  | sltu (rd rs1 rs2 : BitVec 5)
  /-- MUL (R116). -/
  | mul (rd rs1 rs2 : BitVec 5)
  /-- MULH (R116). -/
  | mulh (rd rs1 rs2 : BitVec 5)
  /-- MULHU (R116). -/
  | mulhu (rd rs1 rs2 : BitVec 5)
  /-- DIV (R117). -/
  | div (rd rs1 rs2 : BitVec 5)
  /-- DIVU (R117). -/
  | divu (rd rs1 rs2 : BitVec 5)
  /-- REM (R117). -/
  | rem (rd rs1 rs2 : BitVec 5)
  /-- REMU (R117). -/
  | remu (rd rs1 rs2 : BitVec 5)
  /-- MIN (R116). -/
  | min (rd rs1 rs2 : BitVec 5)
  /-- MAX (R116). -/
  | max (rd rs1 rs2 : BitVec 5)
  /-- MINU (R116). -/
  | minu (rd rs1 rs2 : BitVec 5)
  /-- MAXU (R116). -/
  | maxu (rd rs1 rs2 : BitVec 5)
  /-- CLZ (R116). -/
  | clz (rd rs1 : BitVec 5)
  /-- CTZ (R116). -/
  | ctz (rd rs1 : BitVec 5)
  /-- POPC (R116). -/
  | popc (rd rs1 : BitVec 5)
  /-- ADDI (R118). -/
  | addi (rd rs1 : BitVec 5) (imm : BitVec 13)
  /-- ANDI (R118). -/
  | andi (rd rs1 : BitVec 5) (imm : BitVec 13)
  /-- ORI (R118). -/
  | ori (rd rs1 : BitVec 5) (imm : BitVec 13)
  /-- XORI (R118). -/
  | xori (rd rs1 : BitVec 5) (imm : BitVec 13)
  /-- SLTI (R118). -/
  | slti (rd rs1 : BitVec 5) (imm : BitVec 13)
  /-- SLTIU (R118). -/
  | sltiu (rd rs1 : BitVec 5) (imm : BitVec 13)
  /-- SLLI (R119). -/
  | slli (rd rs1 : BitVec 5) (sh : BitVec 6)
  /-- SRLI (R119). -/
  | srli (rd rs1 : BitVec 5) (sh : BitVec 6)
  /-- SRAI (R119). -/
  | srai (rd rs1 : BitVec 5) (sh : BitVec 6)
  /-- LUI (R120). -/
  | lui (rd : BitVec 5) (imm : BitVec 18)
  /-- AUIPC (R120). -/
  | auipc (rd : BitVec 5) (imm : BitVec 18)
  /-- JAL (R121). -/
  | jal (rd : BitVec 5) (imm : BitVec 18)
  /-- JALR (R121). -/
  | jalr (rd rs1 : BitVec 5) (imm : BitVec 13)
  /-- BEQ (R122). -/
  | beq (rs1 rs2 : BitVec 5) (imm : BitVec 13)
  /-- BNE (R122). -/
  | bne (rs1 rs2 : BitVec 5) (imm : BitVec 13)
  /-- BLT (R122). -/
  | blt (rs1 rs2 : BitVec 5) (imm : BitVec 13)
  /-- BGE (R122). -/
  | bge (rs1 rs2 : BitVec 5) (imm : BitVec 13)
  /-- BLTU (R122). -/
  | bltu (rs1 rs2 : BitVec 5) (imm : BitVec 13)
  /-- BGEU (R122). -/
  | bgeu (rs1 rs2 : BitVec 5) (imm : BitVec 13)
  /-- TRAP (R125). -/
  | trap (code : BitVec 15)
  /-- SRET (R126). -/
  | sret
  /-- MRET (R126). -/
  | mret
  /-- HALT (R127). -/
  | halt
  /-- SAFE (R129). -/
  | safe (idx : BitVec 23)
  /-- CSRR (R130). -/
  | csrr (rd : BitVec 5) (csr : BitVec 11)
  /-- CSRW (R130). -/
  | csrw (rd : BitVec 5) (csr : BitVec 11) (rs1 : BitVec 5)
  /-- CSRS (R130). -/
  | csrs (rd : BitVec 5) (csr : BitVec 11) (rs1 : BitVec 5)
  /-- CSRC (R130). -/
  | csrc (rd : BitVec 5) (csr : BitVec 11) (rs1 : BitVec 5)
  /-- LB (R247). -/
  | lb (r base : BitVec 5) (cls : BitVec 4) (imm : BitVec 9)
  /-- LH (R247). -/
  | lh (r base : BitVec 5) (cls : BitVec 4) (imm : BitVec 9)
  /-- LW (R247). -/
  | lw (r base : BitVec 5) (cls : BitVec 4) (imm : BitVec 9)
  /-- LD (R247). -/
  | ld (r base : BitVec 5) (cls : BitVec 4) (imm : BitVec 9)
  /-- LBU (R247). -/
  | lbu (r base : BitVec 5) (cls : BitVec 4) (imm : BitVec 9)
  /-- LHU (R247). -/
  | lhu (r base : BitVec 5) (cls : BitVec 4) (imm : BitVec 9)
  /-- LWU (R247). -/
  | lwu (r base : BitVec 5) (cls : BitVec 4) (imm : BitVec 9)
  /-- SB (R247). -/
  | sb (r base : BitVec 5) (cls : BitVec 4) (imm : BitVec 9)
  /-- SH (R247). -/
  | sh (r base : BitVec 5) (cls : BitVec 4) (imm : BitVec 9)
  /-- SW (R247). -/
  | sw (r base : BitVec 5) (cls : BitVec 4) (imm : BitVec 9)
  /-- SD (R247). -/
  | sd (r base : BitVec 5) (cls : BitVec 4) (imm : BitVec 9)
  /-- LDF (R275). -/
  | ldf (r base : BitVec 5) (cls : BitVec 4) (imm : BitVec 9)
  /-- LDFK (R275). -/
  | ldfk (r base : BitVec 5) (cls : BitVec 4) (imm : BitVec 9)
  /-- STE (R275). -/
  | ste (r base : BitVec 5) (cls : BitVec 4) (imm : BitVec 9)
  /-- STF (R275). -/
  | stf (r base : BitVec 5) (cls : BitVec 4) (imm : BitVec 9)
  /-- AMO_W (R265). -/
  | amoW (rd rs1 rs2 : BitVec 5) (op cls : BitVec 4)
  /-- AMO_D (R265). -/
  | amoD (rd rs1 rs2 : BitVec 5) (op cls : BitVec 4)
  /-- FENCE (R228). -/
  | fence (msk : BitVec 16) (scope : BitVec 3)
  /-- FENI (R287). -/
  | feni (rd : BitVec 5) (msk : BitVec 16)
  /-- FENW (R287). -/
  | fenw (rs1 : BitVec 5)
  /-- CCRD (R366). -/
  | ccrd (rd : BitVec 5) (n : BitVec 4)
  /-- CCWAIT_ALL (R366). -/
  | ccwaitAll (n : BitVec 4)
  /-- CCWAIT_GE (R366). -/
  | ccwaitGe (n : BitVec 4) (rs1 : BitVec 5)
  /-- CCSET (R366). -/
  | ccset (n : BitVec 4) (rs1 : BitVec 5)
  /-- NSPAWN (R301). -/
  | nspawn (rd rs1 : BitVec 5)
  /-- NEND (R302). -/
  | nend
  /-- NYIELD (R303). -/
  | nyield
  /-- CHINIT (R281). -/
  | chinit (rs1 rs2 : BitVec 5) (cls : BitVec 4)
  /-- CHARR (R282). -/
  | charr (rd rs1 rs2 : BitVec 5) (cls : BitVec 4)
  /-- CHWAIT (R283). -/
  | chwait (rs1 rs2 : BitVec 5) (cls : BitVec 4)
  /-- CHARM (R284). -/
  | charm (rs1 rs2 : BitVec 5) (cls : BitVec 4)
  /-- VACQ (R272). -/
  | vacq (c : Bool) (k : BitVec 3) (cls : BitVec 4) (va : BitVec 5) (kd : BitVec 3)
  /-- VREL (R273). -/
  | vrel (c : Bool) (k : BitVec 3) (cls : BitVec 4) (va : BitVec 5)
  /-- COLL (R320). -/
  | coll (rd rs1 rs2 : BitVec 5)
  /-- COLLW (R320). -/
  | collw (rd rs1 : BitVec 5)
  /-- RNGW (R346). -/
  | rngw (rs1 rs2 : BitVec 5) (w : BitVec 8)
  /-- RNGR (R346). -/
  | rngr (rd rs1 : BitVec 5) (w : BitVec 8)
  /-- PTINV (R352). -/
  | ptinv (rs1 rs2 : BitVec 5)
  /-- RRTW (R357). -/
  | rrtw (rs1 rs2 : BitVec 5) (w : BitVec 8)
  /-- ILTW (R355). -/
  | iltw (rs1 rs2 : BitVec 5) (w : BitVec 8)
  /-- WIN_OPEN (R360). -/
  | winOpen (rd rs1 rs2 : BitVec 5)
  /-- WIN_REV (R360). -/
  | winRev (rs1 : BitVec 5)
  /-- WIN_SYNC (R360). -/
  | winSync (rs1 : BitVec 5)
  /-- MTRRD (R374). -/
  | mtrrd (rd : BitVec 5) (meter : BitVec 3)
  /-- VSETVL (R134). -/
  | vsetvl (rd rs1 rs2 : BitVec 5)
  /-- VSETVLI (R134). -/
  | vsetvli (rd rs1 : BitVec 5) (imm : BitVec 13)
  /-- VADD (R140). -/
  | vadd (c : Bool) (k : BitVec 2) (vs2 vs1 vd : BitVec 7)
  /-- VSUB (R140). -/
  | vsub (c : Bool) (k : BitVec 2) (vs2 vs1 vd : BitVec 7)
  /-- VMUL (R140). -/
  | vmul (c : Bool) (k : BitVec 2) (vs2 vs1 vd : BitVec 7)
  /-- VMULH (R140). -/
  | vmulh (c : Bool) (k : BitVec 2) (vs2 vs1 vd : BitVec 7)
  /-- VMULHU (R140). -/
  | vmulhu (c : Bool) (k : BitVec 2) (vs2 vs1 vd : BitVec 7)
  /-- VMAC (R140). -/
  | vmac (c : Bool) (k : BitVec 2) (vs2 vs1 vd : BitVec 7)
  /-- VMIN (R140). -/
  | vmin (c : Bool) (k : BitVec 2) (vs2 vs1 vd : BitVec 7)
  /-- VMAX (R140). -/
  | vmax (c : Bool) (k : BitVec 2) (vs2 vs1 vd : BitVec 7)
  /-- VMINU (R140). -/
  | vminu (c : Bool) (k : BitVec 2) (vs2 vs1 vd : BitVec 7)
  /-- VMAXU (R140). -/
  | vmaxu (c : Bool) (k : BitVec 2) (vs2 vs1 vd : BitVec 7)
  /-- VAND (R140). -/
  | vand (c : Bool) (k : BitVec 2) (vs2 vs1 vd : BitVec 7)
  /-- VOR (R140). -/
  | vor (c : Bool) (k : BitVec 2) (vs2 vs1 vd : BitVec 7)
  /-- VXOR (R140). -/
  | vxor (c : Bool) (k : BitVec 2) (vs2 vs1 vd : BitVec 7)
  /-- VSLL (R140). -/
  | vsll (c : Bool) (k : BitVec 2) (vs2 vs1 vd : BitVec 7)
  /-- VSRL (R140). -/
  | vsrl (c : Bool) (k : BitVec 2) (vs2 vs1 vd : BitVec 7)
  /-- VSRA (R140). -/
  | vsra (c : Bool) (k : BitVec 2) (vs2 vs1 vd : BitVec 7)
  /-- VSADD (R140). -/
  | vsadd (c : Bool) (k : BitVec 2) (vs2 vs1 vd : BitVec 7)
  /-- VSADDU (R140). -/
  | vsaddu (c : Bool) (k : BitVec 2) (vs2 vs1 vd : BitVec 7)
  /-- VSSUB (R140). -/
  | vssub (c : Bool) (k : BitVec 2) (vs2 vs1 vd : BitVec 7)
  /-- VSSUBU (R140). -/
  | vssubu (c : Bool) (k : BitVec 2) (vs2 vs1 vd : BitVec 7)
  /-- VFADD (R141). -/
  | vfadd (c : Bool) (k : BitVec 2) (vs2 vs1 vd : BitVec 7)
  /-- VFSUB (R141). -/
  | vfsub (c : Bool) (k : BitVec 2) (vs2 vs1 vd : BitVec 7)
  /-- VFMUL (R141). -/
  | vfmul (c : Bool) (k : BitVec 2) (vs2 vs1 vd : BitVec 7)
  /-- VFDIV (R141). -/
  | vfdiv (c : Bool) (k : BitVec 2) (vs2 vs1 vd : BitVec 7)
  /-- VFMIN (R142). -/
  | vfmin (c : Bool) (k : BitVec 2) (vs2 vs1 vd : BitVec 7)
  /-- VFMAX (R142). -/
  | vfmax (c : Bool) (k : BitVec 2) (vs2 vs1 vd : BitVec 7)
  /-- VFMA (R141). -/
  | vfma (c : Bool) (k : BitVec 2) (vs2 vs1 vd : BitVec 7)
  /-- VFMS (R141). -/
  | vfms (c : Bool) (k : BitVec 2) (vs2 vs1 vd : BitVec 7)
  /-- VFNMA (R141). -/
  | vfnma (c : Bool) (k : BitVec 2) (vs2 vs1 vd : BitVec 7)
  /-- VFSQRT (R143). -/
  | vfsqrt (c : Bool) (k : BitVec 2) (vs vd : BitVec 7)
  /-- VFRCP (R143). -/
  | vfrcp (c : Bool) (k : BitVec 2) (vs vd : BitVec 7)
  /-- VFRSQ (R143). -/
  | vfrsq (c : Bool) (k : BitVec 2) (vs vd : BitVec 7)
  /-- VFEXP2 (R143). -/
  | vfexp2 (c : Bool) (k : BitVec 2) (vs vd : BitVec 7)
  /-- VFCLASS (R144). -/
  | vfclass (c : Bool) (k : BitVec 2) (vs vd : BitVec 7)
  /-- VCMP (R145). -/
  | vcmp (c : Bool) (k : BitVec 2) (vs2 vs1 : BitVec 7) (cond : BitVec 4) (kd : BitVec 3)
  /-- VFCMP (R145). -/
  | vfcmp (c : Bool) (k : BitVec 2) (vs2 vs1 : BitVec 7) (cond : BitVec 4) (kd : BitVec 3)
  /-- KAND (R146). -/
  | kand (c : Bool) (kd ks1 ks2 : BitVec 3)
  /-- KOR (R146). -/
  | kor (c : Bool) (kd ks1 ks2 : BitVec 3)
  /-- KXOR (R146). -/
  | kxor (c : Bool) (kd ks1 ks2 : BitVec 3)
  /-- KANDN (R146). -/
  | kandn (c : Bool) (kd ks1 ks2 : BitVec 3)
  /-- KNOT (R146). -/
  | knot (c : Bool) (kd ks1 : BitVec 3)
  /-- KMOV (R146). -/
  | kmov (c : Bool) (kd ks1 : BitVec 3)
  /-- KPOP (R147). -/
  | kpop (c : Bool) (rd : BitVec 5) (ks : BitVec 3)
  /-- KFIRST (R147). -/
  | kfirst (c : Bool) (rd : BitVec 5) (ks : BitVec 3)
  /-- VMV (R148). -/
  | vmv (c : Bool) (k : BitVec 2) (vs vd : BitVec 7)
  /-- VID (R148). -/
  | vid (c : Bool) (k : BitVec 2) (vd : BitVec 7)
  /-- VBCAST (R148). -/
  | vbcast (c : Bool) (gs : BitVec 5) (vs vd : BitVec 7)
  /-- VEXT (R150). -/
  | vext (c : Bool) (gs : BitVec 5) (vs : BitVec 7) (rd : BitVec 5)
  /-- VINS (R150). -/
  | vins (c : Bool) (gs : BitVec 5) (vs vd : BitVec 7)
  /-- VSLUP (R151). -/
  | vslup (c : Bool) (gs : BitVec 5) (vs vd : BitVec 7)
  /-- VSLDN (R151). -/
  | vsldn (c : Bool) (gs : BitVec 5) (vs vd : BitVec 7)
  /-- VPERM (R152). -/
  | vperm (c : Bool) (k : BitVec 2) (vs2 vs1 vd : BitVec 7)
  /-- VCOMPRESS (R153). -/
  | vcompress (c : Bool) (k : BitVec 2) (vs vd : BitVec 7)
  /-- VEXPAND (R153). -/
  | vexpand (c : Bool) (k : BitVec 2) (vs vd : BitVec 7)
  /-- VMERGE (R154). -/
  | vmerge (c : Bool) (k : BitVec 2) (vs2 vs1 vd : BitVec 7)
  /-- VREDSUM (R156). -/
  | vredsum (c : Bool) (k : BitVec 2) (vs vd : BitVec 7)
  /-- VREDMIN (R156). -/
  | vredmin (c : Bool) (k : BitVec 2) (vs vd : BitVec 7)
  /-- VREDMAX (R156). -/
  | vredmax (c : Bool) (k : BitVec 2) (vs vd : BitVec 7)
  /-- VREDMINU (R156). -/
  | vredminu (c : Bool) (k : BitVec 2) (vs vd : BitVec 7)
  /-- VREDMAXU (R156). -/
  | vredmaxu (c : Bool) (k : BitVec 2) (vs vd : BitVec 7)
  /-- VFREDSUM (R107). -/
  | vfredsum (c : Bool) (k : BitVec 2) (vs vd : BitVec 7)
  /-- VFREDMIN (R156). -/
  | vfredmin (c : Bool) (k : BitVec 2) (vs vd : BitVec 7)
  /-- VFREDMAX (R156). -/
  | vfredmax (c : Bool) (k : BitVec 2) (vs vd : BitVec 7)
  /-- VSCAN (R156). -/
  | vscan (c : Bool) (k : BitVec 2) (vs vd : BitVec 7)
  /-- VFSCAN (R108). -/
  | vfscan (c : Bool) (k : BitVec 2) (vs vd : BitVec 7)
  /-- VCVT (R160). -/
  | vcvt (c : Bool) (sat : BitVec 1) (sfmt dfmt : BitVec 4) (vs vd : BitVec 7)
  /-- VQUANT (R163). -/
  | vquant (c : Bool) (sfmt qfmt : BitVec 4) (vs vd : BitVec 7)
  /-- VQSC (R164). -/
  | vqsc (c : Bool) (sfmt qfmt : BitVec 4) (vs vd : BitVec 7)
  /-- VDEQ (R166). -/
  | vdeq (c : Bool) (qfmt dfmt : BitVec 4) (vs vd : BitVec 7)
  /-- VHAD (R168). -/
  | vhad (c : Bool) (j : BitVec 4) (vs vd : BitVec 7)
  /-- VPACK (R167). -/
  | vpack (c : Bool) (pfmt : BitVec 4) (vs vd : BitVec 7)
  /-- VUNPACK (R167). -/
  | vunpack (c : Bool) (pfmt : BitVec 4) (vs vd : BitVec 7)
  /-- VLD (R248). -/
  | vld (c : Bool) (m nb : BitVec 1) (cls : BitVec 4) (aux base : BitVec 5) (spec : BitVec 7)
  /-- VLDS (R249). -/
  | vlds (c : Bool) (m nb : BitVec 1) (cls : BitVec 4) (aux base : BitVec 5) (spec : BitVec 7)
  /-- VLDX (R249). -/
  | vldx (c : Bool) (m nb : BitVec 1) (cls : BitVec 4) (aux base : BitVec 5) (spec : BitVec 7)
  /-- VLDFF (R252). -/
  | vldff (c : Bool) (m : BitVec 1) (cls : BitVec 4) (aux base : BitVec 5) (spec : BitVec 7)
  /-- VST (R248). -/
  | vst (c : Bool) (m nb : BitVec 1) (cls : BitVec 4) (aux base : BitVec 5) (spec : BitVec 7)
  /-- VSTS (R249). -/
  | vsts (c : Bool) (m nb : BitVec 1) (cls : BitVec 4) (aux base : BitVec 5) (spec : BitVec 7)
  /-- VSTX (R249). -/
  | vstx (c : Bool) (m nb : BitVec 1) (cls : BitVec 4) (aux base : BitVec 5) (spec : BitVec 7)
  /-- VBIND (R254). -/
  | vbind (c : Bool) (cls : BitVec 4) (base : BitVec 5) (spec : BitVec 7)
  /-- VUNBIND (R254). -/
  | vunbind (c : Bool) (cls : BitVec 4) (spec : BitVec 7)
  /-- XCOPY (R259). -/
  | xcopy (c : Bool) (nb : BitVec 1) (cls : BitVec 4) (aux base gn : BitVec 5)
  /-- VLDF (R279). -/
  | vldf (c : Bool) (m nb : BitVec 1) (cls : BitVec 4) (aux base : BitVec 5) (spec : BitVec 7)
  /-- VSTE (R279). -/
  | vste (c : Bool) (m : BitVec 1) (cls : BitVec 4) (aux base : BitVec 5) (spec : BitVec 7)
  /-- VAMO (R268). -/
  | vamo (c : Bool) (op cls : BitVec 4) (va vd vv : BitVec 5)
  /-- VAMO_NB (R270). -/
  | vamoNb (c : Bool) (op cls : BitVec 4) (va vv : BitVec 5)
  /-- PREFIXED_64_BIT_FORM (R65). -/
  | prefixed64BitForm (c : Bool) (p : Pfx) (b : VBase)
  /-- TZERO (R182). -/
  | tzero (c : Bool) (t : BitVec 3)
  /-- TLD (R182). -/
  | tld (c : Bool) (k : BitVec 3) (dir : BitVec 2) (t : BitVec 3) (gi gb : BitVec 5) (cls : BitVec 4)
  /-- TST (R182). -/
  | tst (c : Bool) (k : BitVec 3) (dir : BitVec 2) (t : BitVec 3) (gi gb : BitVec 5) (cls : BitVec 4)
  /-- TRD (R182). -/
  | trd (c : Bool) (k : BitVec 3) (dir : BitVec 2) (t : BitVec 3) (gi : BitVec 5) (spec : BitVec 7)
  /-- TWR (R182). -/
  | twr (c : Bool) (k : BitVec 3) (dir : BitVec 2) (t : BitVec 3) (gi : BitVec 5) (spec : BitVec 7)
  /-- TDRAIN (R183). -/
  | tdrain (c : Bool) (k : BitVec 3) (clamp : BitVec 2) (scale : BitVec 4) (dir : BitVec 2) (t : BitVec 3) (gi : BitVec 5) (spec : BitVec 7) (fmt : BitVec 4)
  /-- TDRAIN_BP (R183). -/
  | tdrainBp (c : Bool) (k : BitVec 3) (clamp : BitVec 2) (scale : BitVec 4) (dir : BitVec 2) (t : BitVec 3) (gi : BitVec 5) (spec : BitVec 7) (fmt : BitVec 4)
  /-- BLD (R178). -/
  | bld (c : Bool) (gb gi : BitVec 5) (cls : BitVec 4)
  /-- BLD_W (R178). -/
  | bldW (c : Bool) (gb gi : BitVec 5) (cls : BitVec 4)
  /-- BINV (R180). -/
  | binv (c : Bool) (gb gi : BitVec 5)
  /-- MCFG (R174). -/
  | mcfg (c : Bool) (gi : BitVec 5)
  /-- MOPA (R187). -/
  | mopa (c : Bool) (k om t : BitVec 3) (spec : BitVec 7) (gb : BitVec 5)
  /-- MIPA (R189). -/
  | mipa (c : Bool) (k om t : BitVec 3) (gi : BitVec 5) (spec : BitVec 7) (gb : BitVec 5)
  /-- MRWA (R190). -/
  | mrwa (c : Bool) (k om t : BitVec 3) (gi : BitVec 5) (spec : BitVec 7) (gb : BitVec 5)
  /-- MRWS (R191). -/
  | mrws (c : Bool) (k om t : BitVec 3) (gi : BitVec 5) (spec : BitVec 7) (gb : BitVec 5)
  /-- C_ADDI (R67). -/
  | cAddi (rd imm : BitVec 5)
  /-- C_LI (R67). -/
  | cLi (rd imm : BitVec 5)
  /-- C_MV (R67). -/
  | cMv (rd rs : BitVec 5)
  /-- C_ADD (R67). -/
  | cAdd (rd rs : BitVec 5)
  /-- C_SLLI (R67). -/
  | cSlli (rd sh : BitVec 5)
  /-- C_LD (R67). -/
  | cLd (rd off : BitVec 5)
  /-- C_SD (R67). -/
  | cSd (rs off : BitVec 5)
  /-- C_J (R67). -/
  | cJ (imm : BitVec 10)
  /-- C_JR (R67). -/
  | cJr (rs : BitVec 5)
  /-- C_BEQZ (R67). -/
  | cBeqz (rs : BitVec 3) (imm : BitVec 7)
  /-- C_BNEZ (R67). -/
  | cBnez (rs : BitVec 3) (imm : BitVec 7)
  /-- C_NOP (R67). -/
  | cNop
  /-- C_SAFE (R129). -/
  | cSafe (idx : BitVec 10)
  /-- C_CCWAIT (R366). -/
  | cCcwait (n : BitVec 4)
  /-- C_VADD (R67). -/
  | cVadd (os2 os1 od : BitVec 3)
  /-- C_VMV (R67). -/
  | cVmv (vs : BitVec 6) (od : BitVec 3)
  /-- COMMIT_UNIT (R30). -/
  | commitUnit (h : Nat)
  /-- MPIPE_ACCEPT (R193). -/
  | mpipeAccept (h : Nat)
  /-- MAXVL_CHANGE (R86). -/
  | maxvlChange (core : Nat)
  /-- LANE_STALL_END (R86). -/
  | laneStallEnd (core : Nat)
  /-- NB_ELEMENT_COMPLETE (R235). -/
  | nbElementComplete (h op e : Nat)
  /-- LOAD_DATA_RETURN (R243). -/
  | loadDataReturn (h : Nat)
  /-- REMOTE_REQUEST_APPLY (R222). -/
  | remoteRequestApply (req : Nat)
  /-- REPLICA_INVALIDATE (R207). -/
  | replicaInvalidate (line die : Nat)
  /-- COLLAPSE_ACK (R207). -/
  | collapseAck (line die : Nat)
  /-- GENERATION_BOUNCE (R358). -/
  | generationBounce (req : Nat)
  /-- WINDOW_LINE_INVALIDATE (R209). -/
  | windowLineInvalidate (die entry : Nat)
  /-- COMBINING_BUFFER_SEND (R237). -/
  | combiningBufferSend (h n : Nat)
  /-- FENCE_TOKEN_COMPLETE (R287). -/
  | fenceTokenComplete (h : Nat)
  /-- PAGE_REQUEST_RETRY (R291). -/
  | pageRequestRetry (md n : Nat)
  /-- HOST_PAGE_ANSWER (R353). -/
  | hostPageAnswer (md req gen status : Nat)
  /-- SIDE_LOG_REPLAY (R244). -/
  | sideLogReplay (core : Nat)
  /-- REPLAY_QUEUE_READ (R245). -/
  | replayQueueRead (core n : Nat)
  /-- TRANSLATION_INVALIDATION_MESSAGE (R352). -/
  | translationInvalidationMessage (md : Nat) (ipa val : BitVec 64)
  /-- TLB_INVALIDATE (R352). -/
  | tlbInvalidate (inv die : Nat)
  /-- HOST_ACCESS (R288). -/
  | hostAccess (md owner : Nat) (write : Bool) (ipa size : Nat) (data : BitVec 64)
  /-- HOST_ATOMIC (R288). -/
  | hostAtomic (md owner op ipa size : Nat) (a cmp : BitVec 64)
  /-- TAG_RECORD_RETRY (R277). -/
  | tagRecordRetry (h : Nat)
  /-- TAG_WAIT_TIMEOUT (R278). -/
  | tagWaitTimeout (h op e : Nat)
  /-- CHAMBER_WAIT_TIMEOUT (R283). -/
  | chamberWaitTimeout (h : Nat)
  /-- TRIGGER_COPY_SEGMENT (R285). -/
  | triggerCopySegment (die n : Nat)
  /-- LAUNCH_WINDOW_WRITE (R295). -/
  | launchWindowWrite (md owner off size : Nat) (data : BitVec 512)
  /-- LAUNCH_PARSE (R295). -/
  | launchParse (md owner slot : Nat)
  /-- SPILL_ADMISSION (R298). -/
  | spillAdmission (md : Nat)
  /-- DISPATCH_DECISION (R299). -/
  | dispatchDecision (die : Nat)
  /-- NODE_PLACEMENT (R300). -/
  | nodePlacement (die : Nat)
  /-- SAFELIM_EXPIRY (R330). -/
  | safelimExpiry (h : Nat)
  /-- SAVE_COMPLETE (R337). -/
  | saveComplete (md node : Nat)
  /-- PARTITION_SUSPEND (R329). -/
  | partitionSuspend (die : Nat)
  /-- PARTITION_RESUME (R329). -/
  | partitionResume (die : Nat)
  /-- PARTITION_KILL (R340). -/
  | partitionKill (die : Nat)
  /-- HOST_KILL (R340). -/
  | hostKill (md owner : Nat)
  /-- KILL_TEARDOWN (R340). -/
  | killTeardown (md owner : Nat)
  /-- CONTEXT_OPEN (R292). -/
  | contextOpen (md owner : Nat) (parts : BitVec 4)
  /-- CONTEXT_START (R293). -/
  | contextStart (md owner : Nat)
  /-- OVERFLOW_SIZE_WRITE (R201). -/
  | overflowSizeWrite (die : Nat) (val : BitVec 64)
  /-- CONTROL_HART_RESTART (R379). -/
  | controlHartRestart (die : Nat) (val : BitVec 64)
  /-- CONTROL_REGISTER_WRITE (R377). -/
  | controlRegisterWrite (die off size : Nat) (val : BitVec 64)
  /-- PEER_TABLE_WRITE (R211). -/
  | peerTableWrite (md owner : Nat) (val : BitVec 64)
  /-- ROUTE_TABLE_WRITE (R361). -/
  | routeTableWrite (die dest : Nat) (val : BitVec 32)
  /-- KEY_STAGE (R312). -/
  | keyStage (src dst : Nat) (key : BitVec 256) (salt : BitVec 32)
  /-- CHANNEL_CLEAR (R310). -/
  | channelClear (src dst : Nat) (plane : Bool)
  /-- PACKET_TRANSMIT (R307). -/
  | packetTransmit (src dst : Nat) (plane : Bool)
  /-- PACKET_ACCEPT (R307). -/
  | packetAccept (src dst : Nat) (plane good : Bool)
  /-- PACKET_NAK (R307). -/
  | packetNak (src dst : Nat) (plane : Bool)
  /-- FLOW_PLANE_MOVE (R308). -/
  | flowPlaneMove (flow : Nat)
  /-- PACKET_AGE_TICK (R309). -/
  | packetAgeTick (die : Nat)
  /-- UNREACHABLE_DROP (R311). -/
  | unreachableDrop (src dst : Nat)
  /-- RESPONSE_TIMEOUT (R311). -/
  | responseTimeout (h : Nat)
  /-- SEQUENCER_STEP (R317). -/
  | sequencerStep (die q : Nat)
  /-- SEQ_CHUNK_ARRIVAL (R317). -/
  | seqChunkArrival (die q : Nat)
  /-- SEQ_CREDIT (R317). -/
  | seqCredit (die q : Nat)
  /-- SEQ_DATA_STEP_COMPLETE (R317). -/
  | seqDataStepComplete (die q : Nat)
  /-- LOSS_NOTICE (R321). -/
  | lossNotice (die q n : Nat)
  /-- GANG_PAUSE_REQUEST (R322). -/
  | gangPauseRequest (die q : Nat)
  /-- GANG_PAUSE_ANSWER (R322). -/
  | gangPauseAnswer (die q n : Nat)
  /-- GANG_PAUSE_TARGET (R322). -/
  | gangPauseTarget (die q n : Nat)
  /-- GANG_RESUME (R322). -/
  | gangResume (die q : Nat)
  /-- TARGETED_SELF_TEST (R382). -/
  | targetedSelfTest (die row : Nat)
  /-- SELF_TEST_COMPLETE (R382). -/
  | selfTestComplete (die row : Nat) (passed : Bool)
  /-- SHARED_SRAM_SHRINK (R217). -/
  | sharedSramShrink (die : Nat)
  /-- METER_FOLD (R372). -/
  | meterFold (die energy : Nat)
  /-- SNAPSHOT_REQUEST (R375). -/
  | snapshotRequest (md owner : Nat)
  /-- SNAPSHOT_FORM (R375). -/
  | snapshotForm (md owner : Nat)
  /-- ATTESTATION_REQUEST (R385). -/
  | attestationRequest (md : Nat) (nonce : BitVec 512)
  /-- POWER_ON (R380). -/
  | powerOn (md : Nat)
  /-- BRINGUP_STEP_DONE (R380); die is the die whose reset it concerns while no bring-up runs (R381). -/
  | bringupStepDone (md : Nat) (entry : BitVec 64) (failed : BitVec 4) (die : Nat)
  /-- BRINGUP_STEP_TIMEOUT (R380). -/
  | bringupStepTimeout (md : Nat) (failed : BitVec 4)
  /-- DIE_RESET (R381). -/
  | dieReset (die : Nat)
  /-- THERMAL_EVENT (R384). -/
  | thermalEvent (die temp : Nat)
  /-- CLOCK_RAISE (R384). -/
  | clockRaise (die : Nat)
  /-- FIELD_SERVICE_COMMAND (R362). -/
  | fieldServiceCommand (die : Nat)
  /-- PACKET_ACKNOWLEDGEMENT (R307). -/
  | packetAcknowledgement (src dst : Nat) (plane : Bool)
  deriving DecidableEq, Repr

end Sys2Proof
end

