-- ==== Sys2Proof/WellFormed.lean ====
section
/-! DEFINITION. Which instruction terms an encoding may hold: the static part of check 2 of R68. -/

namespace Sys2Proof

/-- Why a parcel, or a term, is not an instruction (check 2 of R68). -/
inductive DecodeErr
  /-- A major, funct8, funct4, sub-op or tile major that no table assigns (R48 to R51, R59, R60, R66). -/
  | reservedOpcode
  /-- A field that must be zero and is not, or a compressed field marked nonzero that is zero (R55, R65, R67). -/
  | mustBeZero
  /-- A scalar word with C = 1 (R43). -/
  | scalarC
  /-- An operand specifier 0b1001101 to 0b1001111 (R45). -/
  | reservedSpec
  /-- A format code the position does not allow (R56, R159, R183). -/
  | badFormat
  /-- A condition code, an atomic operation, a scope, a direction or a word number out of range (R57, R54, R12, R64, R55). -/
  | badCode
  /-- A CSR number that R80 does not assign, or a write to a read-only CSR (R52). -/
  | badCsr
  /-- A base word that its prefix does not allow, or a prefix-only major without one (R62, R65). -/
  | badBase
  /-- The bytes end before the instruction does. -/
  | short
  deriving DecidableEq, Repr

/-- Reserved operand specifiers (R45). -/
def specReserved (p : BitVec 7) : Bool := 0x4D ≤ p.toNat && p.toNat ≤ 0x4F

/-- The CSR numbers of R80. -/
def csrAssigned (n : BitVec 11) : Bool :=
  n.toNat ≤ 2 || (0x100 ≤ n.toNat && n.toNat ≤ 0x105) || (0x200 ≤ n.toNat && n.toNat ≤ 0x209) || n.toNat == 0x600

/-- Bit 8 of a CSR number marks it read-only (R52). -/
def csrReadOnly (n : BitVec 11) : Bool := n.getLsbD 8

/-- The formats VCVT converts between (R160): all of R56 but Q8 and Q4. -/
def cvtFmt (f : BitVec 4) : Bool := f.toNat ≤ 7 || f.toNat == 0xA || f.toNat == 0xB
/-- Float formats F32, F16, B16, F8A, F8B. -/
def fltFmt (f : BitVec 4) : Bool := f.toNat ≤ 4
/-- F32, F16 or B16 (R159). -/
def srcFmt (f : BitVec 4) : Bool := f.toNat ≤ 2
/-- Q8 or Q4. -/
def qFmt (f : BitVec 4) : Bool := f.toNat == 8 || f.toNat == 9
/-- The packed formats of R167. -/
def packFmt (f : BitVec 4) : Bool := 1 ≤ f.toNat && f.toNat ≤ 9
/-- The formats of TDRAIN (R183). -/
def drainFmt (f : BitVec 4) : Bool := f.toNat ≤ 7 || f.toNat == 0xA

/-- The first of a list of failed checks. -/
def firstErr : List (Bool × DecodeErr) → Option DecodeErr
  | [] => none
  | (true, e) :: _ => some e
  | (false, _) :: r => firstErr r

/-- A CSRS or CSRC writes unless rs1 is g0; a CSRW always writes (R52). -/
def csrWriteErr (csr : BitVec 11) (writes : Bool) : Option DecodeErr :=
  firstErr [(!csrAssigned csr, .badCsr), (csrReadOnly csr && writes, .badCsr)]

/-- Specifier checks of a list of operand fields. -/
def specErr (ps : List (BitVec 7)) : Option DecodeErr :=
  if ps.any specReserved then some .reservedSpec else none

/-- The static format checks of a VF-X word (R159). f2 is the code in [30:27], f1 is funct4. -/
def vxErr (op : VXOp) (sat : BitVec 1) (f2 f1 : BitVec 4) : Option DecodeErr :=
  match op with
  | .cvt => firstErr [(!cvtFmt f2 || !cvtFmt f1, .badFormat)]
  | .quant | .qsc => firstErr [(sat != 0, .mustBeZero), (!srcFmt f2 || !qFmt f1, .badFormat)]
  | .deq => firstErr [(sat != 0, .mustBeZero), (!qFmt f2 || !fltFmt f1, .badFormat)]
  | .had => firstErr [(sat != 0 || f2 != 0, .mustBeZero), (9 ≤ f1.toNat, .reservedOpcode)]
  | .pack => firstErr [(sat != 0, .mustBeZero), (f1 != 0, .reservedOpcode), (!packFmt f2, .badFormat)]
  | .unpack => firstErr [(sat != 0, .mustBeZero), (f1 != 1, .reservedOpcode), (!packFmt f2, .badFormat)]

/-- The base word alone (R45, R57, R63, R159). -/
def VBase.err : VBase → Option DecodeErr
  | .vv _ vs2 vs1 vd => specErr [vs2, vs1, vd]
  | .cmp fl vs2 vs1 cond _ =>
    (firstErr [((if fl then 8 else 10) ≤ cond.toNat, .badCode)]).or (specErr [vs2, vs1])
  | .vf .id vs vd => (firstErr [(vs != 0, .mustBeZero)]).or (specErr [vd])
  | .vf _ vs vd => specErr [vs, vd]
  | .vg .ext _ vs vd => (firstErr [(32 ≤ vd.toNat, .mustBeZero)]).or (specErr [vs])
  | .vg _ _ vs vd => specErr [vs, vd]
  | .vx op sat f2 f1 vs vd => (vxErr op sat f2 f1).or (specErr [vs, vd])
  | .amo op _ _ vd _ => firstErr [(12 ≤ op.toNat || (op == 9 && vd == 31), .badCode)]

/-- Which of the six modifier bits N1 A1 N2 A2 N3 A3 the instruction's sources allow (R65, R138, R152, R158, R63). -/
def VBase.modsAllowed : VBase → BitVec 6
  | .vv .mac _ _ _ | .vv .fma _ _ _ | .vv .fms _ _ _ | .vv .fnma _ _ _ => 0b111111
  | .vv .perm _ _ _ => 0b110000
  | .vv _ _ _ _ => 0b111100
  | .cmp _ _ _ _ _ => 0b111100
  | .vf .id _ _ => 0
  | .vf _ _ _ => 0b110000
  | .vg .ext _ _ _ => 0
  | .vg _ _ _ _ => 0b110000
  | .vx .deq _ _ _ _ _ | .vx .pack _ _ _ _ _ | .vx .unpack _ _ _ _ _ => 0
  | .vx _ _ _ _ _ _ => 0b110000
  | .amo _ _ _ _ _ => 0b110000

/-- SCALE and CLAMP must be 0 (R144, R145, R150, R156, R158, R267). -/
def VBase.noScale : VBase → Bool
  | .cmp _ _ _ _ _ => true
  | .vf .fclass _ _ | .vf .fredsum _ _ | .vf .fscan _ _ => true
  | .vg .ext _ _ _ => true
  | .vx .quant _ _ _ _ _ | .vx .qsc _ _ _ _ _ | .vx .pack _ _ _ _ _ | .vx .unpack _ _ _ _ _ => true
  | .amo _ _ _ _ _ => true
  | _ => false

/-- META may be nonzero (R65). -/
def VBase.hasMeta : VBase → Bool
  | .vx .quant _ _ _ _ _ | .vx .qsc _ _ _ _ _ | .vx .deq _ _ _ _ _ => true
  | _ => false

/-- MASK must be 0 (R150, R158). -/
def VBase.noMask : VBase → Bool
  | .vg .ext _ _ _ | .vx .pack _ _ _ _ _ | .vx .unpack _ _ _ _ _ => true
  | _ => false

/-- A prefixed form: the base word and the prefix fields its instruction allows (R65). -/
def Pfx.err (p : Pfx) (b : VBase) : Option DecodeErr :=
  (firstErr [(p.mods &&& ~~~ b.modsAllowed != 0, .mustBeZero),
    (b.noScale && (p.scale != 0 || p.clamp != 0), .mustBeZero),
    (!b.hasMeta && p.om != 0, .mustBeZero),
    (b.noMask && p.k != 0, .mustBeZero)]).or b.err

/-- Tile direction 0b11 is reserved (R64). -/
def dirErr (d : BitVec 2) : Option DecodeErr := firstErr [(d == 3, .badCode)]

/-- The first reason a term is not a well-formed instruction; none for a well-formed one. -/
def wfErr : Instr → Option DecodeErr
  | .csrr _ csr => csrWriteErr csr false
  | .csrw _ csr _ => csrWriteErr csr true
  | .csrs _ csr rs1 | .csrc _ csr rs1 => csrWriteErr csr (rs1 != 0)
  | .amoW _ _ _ op _ => firstErr [(12 ≤ op.toNat, .badCode)]
  | .amoD _ _ _ op _ => firstErr [(11 ≤ op.toNat, .badCode)]
  | .fence _ scope => firstErr [(6 ≤ scope.toNat, .badCode)]
  | .rngw _ _ w | .rngr _ _ w => firstErr [(3 ≤ w.toNat, .badCode)]
  | .rrtw _ _ w | .iltw _ _ w => firstErr [(2 ≤ w.toNat, .badCode)]
  | .vadd _ _ a b d | .vsub _ _ a b d | .vmul _ _ a b d | .vmulh _ _ a b d | .vmulhu _ _ a b d
  | .vmac _ _ a b d | .vmin _ _ a b d | .vmax _ _ a b d | .vminu _ _ a b d | .vmaxu _ _ a b d
  | .vand _ _ a b d | .vor _ _ a b d | .vxor _ _ a b d | .vsll _ _ a b d | .vsrl _ _ a b d
  | .vsra _ _ a b d | .vsadd _ _ a b d | .vsaddu _ _ a b d | .vssub _ _ a b d | .vssubu _ _ a b d
  | .vfadd _ _ a b d | .vfsub _ _ a b d | .vfmul _ _ a b d | .vfdiv _ _ a b d | .vfmin _ _ a b d
  | .vfmax _ _ a b d | .vfma _ _ a b d | .vfms _ _ a b d | .vfnma _ _ a b d
  | .vperm _ _ a b d | .vmerge _ _ a b d => specErr [a, b, d]
  | .vcmp _ _ a b cond kd => (VBase.cmp false a b cond kd).err
  | .vfcmp _ _ a b cond kd => (VBase.cmp true a b cond kd).err
  | .vfsqrt _ _ a d | .vfrcp _ _ a d | .vfrsq _ _ a d | .vfexp2 _ _ a d | .vfclass _ _ a d
  | .vmv _ _ a d | .vcompress _ _ a d | .vexpand _ _ a d | .vredsum _ _ a d | .vredmin _ _ a d
  | .vredmax _ _ a d | .vredminu _ _ a d | .vredmaxu _ _ a d | .vfredsum _ _ a d
  | .vfredmin _ _ a d | .vfredmax _ _ a d | .vscan _ _ a d | .vfscan _ _ a d => specErr [a, d]
  | .vid _ _ d => specErr [d]
  | .vbcast _ _ a d | .vins _ _ a d | .vslup _ _ a d | .vsldn _ _ a d => specErr [a, d]
  | .vext _ _ a _ => specErr [a]
  | .vcvt _ sat f2 f1 a d => (vxErr .cvt sat f2 f1).or (specErr [a, d])
  | .vquant _ f2 f1 a d => (vxErr .quant 0 f2 f1).or (specErr [a, d])
  | .vqsc _ f2 f1 a d => (vxErr .qsc 0 f2 f1).or (specErr [a, d])
  | .vdeq _ f2 f1 a d => (vxErr .deq 0 f2 f1).or (specErr [a, d])
  | .vhad _ j a d => (vxErr .had 0 0 j).or (specErr [a, d])
  | .vpack _ f a d => (vxErr .pack 0 f 0).or (specErr [a, d])
  | .vunpack _ f a d => (vxErr .unpack 0 f 1).or (specErr [a, d])
  | .vld _ _ _ _ _ _ p | .vlds _ _ _ _ _ _ p | .vldx _ _ _ _ _ _ p | .vst _ _ _ _ _ _ p
  | .vsts _ _ _ _ _ _ p | .vstx _ _ _ _ _ _ p | .vldf _ _ _ _ _ _ p => specErr [p]
  | .vldff _ _ _ _ _ p | .vste _ _ _ _ _ p => specErr [p]
  | .vbind _ _ _ p | .vunbind _ _ p => specErr [p]
  | .vamo _ op _ _ vd _ => firstErr [(12 ≤ op.toNat || vd == 31, .badCode)]
  | .vamoNb _ op _ _ _ => firstErr [(12 ≤ op.toNat || op == 9, .badCode)]
  | .prefixed64BitForm _ p b => p.err b
  | .tld _ _ d _ _ _ _ | .tst _ _ d _ _ _ _ => dirErr d
  | .trd _ _ d _ _ p | .twr _ _ d _ _ p => (dirErr d).or (specErr [p])
  | .tdrain _ _ _ _ d _ _ p f | .tdrainBp _ _ _ _ d _ _ p f =>
    (dirErr d).or ((firstErr [(!drainFmt f, .badFormat)]).or (specErr [p]))
  | .mopa _ _ _ _ p _ => specErr [p]
  | .mipa _ _ _ _ _ p _ | .mrwa _ _ _ _ _ p _ | .mrws _ _ _ _ _ p _ => specErr [p]
  | .cAddi rd _ | .cLi rd _ => firstErr [(rd == 0, .mustBeZero)]
  | .cMv rd _ | .cAdd rd _ => firstErr [(rd == 0, .mustBeZero)]
  | .cSlli rd _ => firstErr [(rd == 0, .mustBeZero)]
  | .cJr rs => firstErr [(rs == 0, .mustBeZero)]
  | _ => none

/-- A term that some parcel sequence holds, or a step of another agent. -/
def wellFormed (i : Instr) : Bool := (wfErr i).isNone

end Sys2Proof
end

