-- ==== Sys2Proof/Decode.lean ====
section
/-! DEFINITION. The decoder, total on any bytes and rejecting by name, and the encoder (R39 to R68). -/

namespace Sys2Proof

/-! Field places of the 32-bit formats (R42). -/

/-- rd, or rs1 of format B. -/
def fRd (w : BitVec 32) : BitVec 5 := w.extractLsb' 9 5
/-- rs1, the base of format M, or rs2 of format B. -/
def fRs1 (w : BitVec 32) : BitVec 5 := w.extractLsb' 14 5
/-- rs2 of format R. -/
def fRs2 (w : BitVec 32) : BitVec 5 := w.extractLsb' 19 5
/-- funct8 of format R. -/
def fF8 (w : BitVec 32) : BitVec 8 := w.extractLsb' 24 8
/-- imm13 of formats I and B. -/
def fImm13 (w : BitVec 32) : BitVec 13 := w.extractLsb' 19 13
/-- imm18 of format U/J. -/
def fImm18 (w : BitVec 32) : BitVec 18 := w.extractLsb' 14 18
/-- The class of format M, and the counter number of R55. -/
def fCls (w : BitVec 32) : BitVec 4 := w.extractLsb' 19 4
/-- The convoy-start bit. -/
def fC (w : BitVec 32) : Bool := w.getLsbD 1
/-- The mask of VV and VF. -/
def fK (w : BitVec 32) : BitVec 2 := w.extractLsb' 30 2
/-- vs2 of VV. -/
def fVs2 (w : BitVec 32) : BitVec 7 := w.extractLsb' 23 7
/-- vs1 of VV, vs of VF. -/
def fVs1 (w : BitVec 32) : BitVec 7 := w.extractLsb' 16 7
/-- vd, and spec of VM. -/
def fVd (w : BitVec 32) : BitVec 7 := w.extractLsb' 9 7
/-- aux of VF. -/
def fAux (w : BitVec 32) : BitVec 3 := w.extractLsb' 27 3
/-- funct4 of VF. -/
def fF4 (w : BitVec 32) : BitVec 4 := w.extractLsb' 23 4
/-- gs of the VF variants that have one (R59). -/
def fGs (w : BitVec 32) : BitVec 5 := w.extractLsb' 27 5
/-- The format code of VF-X (R60). -/
def fFm (w : BitVec 32) : BitVec 4 := w.extractLsb' 27 4
/-- The flag S of VF-X (R60). -/
def fS (w : BitVec 32) : BitVec 1 := w.extractLsb' 31 1
/-- The mask bit of VM. -/
def fM (w : BitVec 32) : BitVec 1 := w.extractLsb' 31 1
/-- The NB bit of VM. -/
def fNb (w : BitVec 32) : BitVec 1 := w.extractLsb' 30 1
/-- The class of VM. -/
def fVcls (w : BitVec 32) : BitVec 4 := w.extractLsb' 26 4
/-- aux of VM. -/
def fAux5 (w : BitVec 32) : BitVec 5 := w.extractLsb' 21 5
/-- base of VM. -/
def fBase (w : BitVec 32) : BitVec 5 := w.extractLsb' 16 5

/-- A field is zero. -/
def isZ {n : Nat} (x : BitVec n) : Bool := x == 0

/-! Encoders of the formats, from the same places. -/

/-- The convoy bit as a field. -/
def cbit (c : Bool) : BitVec 1 := BitVec.ofBool c
/-- Format R. -/
def encR (f8 : BitVec 8) (rs2 rs1 rd : BitVec 5) (maj : BitVec 7) : BitVec 32 := f8 ++ rs2 ++ rs1 ++ rd ++ maj ++ 0#2
/-- Format I, and format B with rs2 and rs1 in its two fields. -/
def encI (imm : BitVec 13) (rs1 rd : BitVec 5) (maj : BitVec 7) : BitVec 32 := imm ++ rs1 ++ rd ++ maj ++ 0#2
/-- Format U/J. -/
def encU (imm : BitVec 18) (rd : BitVec 5) (maj : BitVec 7) : BitVec 32 := imm ++ rd ++ maj ++ 0#2
/-- Format M. -/
def encM (imm : BitVec 9) (cls : BitVec 4) (base r : BitVec 5) (maj : BitVec 7) : BitVec 32 :=
  imm ++ cls ++ base ++ r ++ maj ++ 0#2
/-- Format VV. -/
def encVV (k : BitVec 2) (vs2 vs1 vd maj : BitVec 7) (c : Bool) : BitVec 32 := k ++ vs2 ++ vs1 ++ vd ++ maj ++ cbit c ++ 0#1
/-- Format VF with aux 0. -/
def encVF (k : BitVec 2) (f4 : BitVec 4) (vs vd maj : BitVec 7) (c : Bool) : BitVec 32 :=
  k ++ 0#3 ++ f4 ++ vs ++ vd ++ maj ++ cbit c ++ 0#1
/-- Format VF with gs. -/
def encVG (gs : BitVec 5) (f4 : BitVec 4) (vs vd maj : BitVec 7) (c : Bool) : BitVec 32 :=
  gs ++ f4 ++ vs ++ vd ++ maj ++ cbit c ++ 0#1
/-- Format VF-X. -/
def encVX (s : BitVec 1) (fm f4 : BitVec 4) (vs vd maj : BitVec 7) (c : Bool) : BitVec 32 :=
  s ++ fm ++ f4 ++ vs ++ vd ++ maj ++ cbit c ++ 0#1
/-- Format VM. -/
def encVM (m nb : BitVec 1) (cls : BitVec 4) (aux base : BitVec 5) (spec maj : BitVec 7) (c : Bool) : BitVec 32 :=
  m ++ nb ++ cls ++ aux ++ base ++ spec ++ maj ++ cbit c ++ 0#1

/-- The major of a VV operation (R48). -/
def VVOp.major : VVOp → BitVec 7
  | .add => 0x42 | .sub => 0x43 | .mul => 0x44 | .mulh => 0x45 | .mulhu => 0x46 | .mac => 0x47 | .min => 0x48
  | .max => 0x49 | .minu => 0x4A | .maxu => 0x4B | .and => 0x4C | .or => 0x4D | .xor => 0x4E | .sll => 0x4F
  | .srl => 0x50 | .sra => 0x51 | .sadd => 0x52 | .saddu => 0x53 | .ssub => 0x54 | .ssubu => 0x55
  | .fadd => 0x56 | .fsub => 0x57 | .fmul => 0x58 | .fdiv => 0x59 | .fmin => 0x5A | .fmax => 0x5B
  | .fma => 0x5C | .fms => 0x5D | .fnma => 0x5E | .perm => 0x67 | .merge => 0x69

/-- The VV operation of a major. -/
def VVOp.ofMajor (m : Nat) : Option VVOp :=
  match m with
  | 0x42 => some .add | 0x43 => some .sub | 0x44 => some .mul | 0x45 => some .mulh | 0x46 => some .mulhu
  | 0x47 => some .mac | 0x48 => some .min | 0x49 => some .max | 0x4A => some .minu | 0x4B => some .maxu
  | 0x4C => some .and | 0x4D => some .or | 0x4E => some .xor | 0x4F => some .sll | 0x50 => some .srl
  | 0x51 => some .sra | 0x52 => some .sadd | 0x53 => some .saddu | 0x54 => some .ssub | 0x55 => some .ssubu
  | 0x56 => some .fadd | 0x57 => some .fsub | 0x58 => some .fmul | 0x59 => some .fdiv | 0x5A => some .fmin
  | 0x5B => some .fmax | 0x5C => some .fma | 0x5D => some .fms | 0x5E => some .fnma
  | 0x67 => some .perm | 0x69 => some .merge | _ => none

/-- Major and funct4 of a VF operation (R59). -/
def VFOp.code : VFOp → BitVec 7 × BitVec 4
  | .fsqrt => (0x5F, 0) | .frcp => (0x5F, 1) | .frsq => (0x5F, 2) | .fexp2 => (0x5F, 3) | .fclass => (0x5F, 4)
  | .mv => (0x64, 0) | .id => (0x64, 1) | .compress => (0x68, 0) | .expand => (0x68, 1)
  | .redsum => (0x6A, 0) | .redmin => (0x6A, 1) | .redmax => (0x6A, 2) | .redminu => (0x6A, 3)
  | .redmaxu => (0x6A, 4) | .fredsum => (0x6A, 5) | .fredmin => (0x6A, 6) | .fredmax => (0x6A, 7)
  | .scan => (0x6A, 8) | .fscan => (0x6A, 9)

/-- The VF operation of a major and funct4. -/
def VFOp.ofCode (maj f4 : Nat) : Option VFOp :=
  match maj, f4 with
  | 0x5F, 0 => some .fsqrt | 0x5F, 1 => some .frcp | 0x5F, 2 => some .frsq | 0x5F, 3 => some .fexp2
  | 0x5F, 4 => some .fclass | 0x64, 0 => some .mv | 0x64, 1 => some .id | 0x68, 0 => some .compress
  | 0x68, 1 => some .expand | 0x6A, 0 => some .redsum | 0x6A, 1 => some .redmin | 0x6A, 2 => some .redmax
  | 0x6A, 3 => some .redminu | 0x6A, 4 => some .redmaxu | 0x6A, 5 => some .fredsum | 0x6A, 6 => some .fredmin
  | 0x6A, 7 => some .fredmax | 0x6A, 8 => some .scan | 0x6A, 9 => some .fscan | _, _ => none

/-- Major and funct4 of a VF operation with gs (R59). -/
def VGOp.code : VGOp → BitVec 7 × BitVec 4
  | .bcast => (0x64, 2) | .ext => (0x65, 0) | .ins => (0x65, 1) | .slup => (0x66, 0) | .sldn => (0x66, 1)

/-- The VF operation with gs of a major and funct4. -/
def VGOp.ofCode (maj f4 : Nat) : Option VGOp :=
  match maj, f4 with
  | 0x64, 2 => some .bcast | 0x65, 0 => some .ext | 0x65, 1 => some .ins | 0x66, 0 => some .slup
  | 0x66, 1 => some .sldn | _, _ => none

/-- The major of a VF-X operation (R48). -/
def VXOp.major : VXOp → BitVec 7
  | .cvt => 0x6B | .quant => 0x6C | .qsc => 0x6D | .deq => 0x6E | .had => 0x6F | .pack => 0x70 | .unpack => 0x70

/-- The VF-X operation of a major and funct4. -/
def VXOp.ofCode (maj f4 : Nat) : Option VXOp :=
  match maj with
  | 0x6B => some .cvt | 0x6C => some .quant | 0x6D => some .qsc | 0x6E => some .deq | 0x6F => some .had
  | 0x70 => if f4 = 0 then some .pack else if f4 = 1 then some .unpack else none
  | _ => none

/-- The base word under a prefix: bits [1:0] are 0 (R43). -/
def VBase.word : VBase → BitVec 32
  | .vv op vs2 vs1 vd => encVV 0 vs2 vs1 vd op.major false
  | .cmp fl vs2 vs1 cond kd => encVV 0 vs2 vs1 (cond ++ kd) (if fl then 0x61 else 0x60) false
  | .vf op vs vd => encVF 0 op.code.2 vs vd op.code.1 false
  | .vg op gs vs vd => encVG gs op.code.2 vs vd op.code.1 false
  | .vx op s f2 f1 vs vd => encVX s f2 f1 vs vd op.major false
  | .amo op cls va vd gv => cls ++ op ++ va ++ vd ++ gv ++ 0x7C#7 ++ 0#2

/-- A base word under a prefix with T = 0 (R65). -/
def VBase.parse (w : BitVec 32) : Except DecodeErr VBase :=
  let maj := (w.extractLsb' 2 7).toNat
  match VVOp.ofMajor maj with
  | some op => if fK w = 0 then .ok (.vv op (fVs2 w) (fVs1 w) (fVd w)) else .error .mustBeZero
  | none =>
  if maj = 0x60 ∨ maj = 0x61 then
    if fK w = 0 then .ok (.cmp (maj = 0x61) (fVs2 w) (fVs1 w) (w.extractLsb' 12 4) (w.extractLsb' 9 3))
    else .error .mustBeZero
  else
  match VFOp.ofCode maj (fF4 w).toNat with
  | some op => if fK w = 0 ∧ fAux w = 0 then .ok (.vf op (fVs1 w) (fVd w)) else .error .mustBeZero
  | none =>
  match VGOp.ofCode maj (fF4 w).toNat with
  | some op => .ok (.vg op (fGs w) (fVs1 w) (fVd w))
  | none =>
  match VXOp.ofCode maj (fF4 w).toNat with
  | some op => .ok (.vx op (fS w) (fFm w) (fF4 w) (fVs1 w) (fVd w))
  | none =>
  if maj = 0x7C then
    .ok (.amo (w.extractLsb' 24 4) (w.extractLsb' 28 4) (fRs2 w) (fRs1 w) (fRd w))
  else .error .badBase

/-- A 64-bit form with T = 0: base word above, prefix below (R64). -/
def encPfx0 (c : Bool) (p : Pfx) (b : BitVec 32) : BitVec 64 :=
  b ++ (0#6 ++ p.om ++ 0#2 ++ 0#2 ++ p.k ++ p.scale ++ p.clamp ++ p.mods ++ 0#1 ++ cbit c ++ 3#2 : BitVec 32)

/-- A tile instruction (R64, R66). -/
def encTile (c : Bool) (om : BitVec 3) (d dir : BitVec 2) (k : BitVec 3) (scale : BitVec 4) (clamp : BitVec 2)
    (sub : BitVec 3) (gb : BitVec 5) (spec : BitVec 7) (gi : BitVec 5) (t : BitVec 3) (maj : BitVec 7) : BitVec 64 :=
  (sub ++ gb ++ spec ++ gi ++ t ++ maj ++ 0#2 : BitVec 32) ++
  (0#6 ++ om ++ d ++ dir ++ k ++ scale ++ clamp ++ 0#6 ++ 1#1 ++ cbit c ++ 3#2 : BitVec 32)

/-- Length in bytes and parcels, read as one little-endian number (R69), of a well-formed instruction; none for a step
of another agent. -/
def encode : Instr → Option (Nat × BitVec 64)
  | .add rd rs1 rs2 => some (4, (encR 0x00 rs2 rs1 rd 0x01).setWidth 64)
  | .sub rd rs1 rs2 => some (4, (encR 0x01 rs2 rs1 rd 0x01).setWidth 64)
  | .and rd rs1 rs2 => some (4, (encR 0x02 rs2 rs1 rd 0x01).setWidth 64)
  | .or rd rs1 rs2 => some (4, (encR 0x03 rs2 rs1 rd 0x01).setWidth 64)
  | .xor rd rs1 rs2 => some (4, (encR 0x04 rs2 rs1 rd 0x01).setWidth 64)
  | .sll rd rs1 rs2 => some (4, (encR 0x05 rs2 rs1 rd 0x01).setWidth 64)
  | .srl rd rs1 rs2 => some (4, (encR 0x06 rs2 rs1 rd 0x01).setWidth 64)
  | .sra rd rs1 rs2 => some (4, (encR 0x07 rs2 rs1 rd 0x01).setWidth 64)
  | .slt rd rs1 rs2 => some (4, (encR 0x08 rs2 rs1 rd 0x01).setWidth 64)
  | .sltu rd rs1 rs2 => some (4, (encR 0x09 rs2 rs1 rd 0x01).setWidth 64)
  | .mul rd rs1 rs2 => some (4, (encR 0x10 rs2 rs1 rd 0x01).setWidth 64)
  | .mulh rd rs1 rs2 => some (4, (encR 0x11 rs2 rs1 rd 0x01).setWidth 64)
  | .mulhu rd rs1 rs2 => some (4, (encR 0x12 rs2 rs1 rd 0x01).setWidth 64)
  | .div rd rs1 rs2 => some (4, (encR 0x13 rs2 rs1 rd 0x01).setWidth 64)
  | .divu rd rs1 rs2 => some (4, (encR 0x14 rs2 rs1 rd 0x01).setWidth 64)
  | .rem rd rs1 rs2 => some (4, (encR 0x15 rs2 rs1 rd 0x01).setWidth 64)
  | .remu rd rs1 rs2 => some (4, (encR 0x16 rs2 rs1 rd 0x01).setWidth 64)
  | .min rd rs1 rs2 => some (4, (encR 0x18 rs2 rs1 rd 0x01).setWidth 64)
  | .max rd rs1 rs2 => some (4, (encR 0x19 rs2 rs1 rd 0x01).setWidth 64)
  | .minu rd rs1 rs2 => some (4, (encR 0x1A rs2 rs1 rd 0x01).setWidth 64)
  | .maxu rd rs1 rs2 => some (4, (encR 0x1B rs2 rs1 rd 0x01).setWidth 64)
  | .clz rd rs1 => some (4, (encR 0x20 0 rs1 rd 0x01).setWidth 64)
  | .ctz rd rs1 => some (4, (encR 0x21 0 rs1 rd 0x01).setWidth 64)
  | .popc rd rs1 => some (4, (encR 0x22 0 rs1 rd 0x01).setWidth 64)
  | .addi rd rs1 imm => some (4, (encI imm rs1 rd 0x02).setWidth 64)
  | .andi rd rs1 imm => some (4, (encI imm rs1 rd 0x03).setWidth 64)
  | .ori rd rs1 imm => some (4, (encI imm rs1 rd 0x04).setWidth 64)
  | .xori rd rs1 imm => some (4, (encI imm rs1 rd 0x05).setWidth 64)
  | .slti rd rs1 imm => some (4, (encI imm rs1 rd 0x06).setWidth 64)
  | .sltiu rd rs1 imm => some (4, (encI imm rs1 rd 0x07).setWidth 64)
  | .slli rd rs1 sh => some (4, (encI (0#5 ++ 0#2 ++ sh) rs1 rd 0x08).setWidth 64)
  | .srli rd rs1 sh => some (4, (encI (0#5 ++ 1#2 ++ sh) rs1 rd 0x08).setWidth 64)
  | .srai rd rs1 sh => some (4, (encI (0#5 ++ 2#2 ++ sh) rs1 rd 0x08).setWidth 64)
  | .lui rd imm => some (4, (encU imm rd 0x09).setWidth 64)
  | .auipc rd imm => some (4, (encU imm rd 0x0A).setWidth 64)
  | .jal rd imm => some (4, (encU imm rd 0x0B).setWidth 64)
  | .jalr rd rs1 imm => some (4, (encI imm rs1 rd 0x0C).setWidth 64)
  | .beq rs1 rs2 imm => some (4, (encI imm rs2 rs1 0x0D).setWidth 64)
  | .bne rs1 rs2 imm => some (4, (encI imm rs2 rs1 0x0E).setWidth 64)
  | .blt rs1 rs2 imm => some (4, (encI imm rs2 rs1 0x0F).setWidth 64)
  | .bge rs1 rs2 imm => some (4, (encI imm rs2 rs1 0x10).setWidth 64)
  | .bltu rs1 rs2 imm => some (4, (encI imm rs2 rs1 0x11).setWidth 64)
  | .bgeu rs1 rs2 imm => some (4, (encI imm rs2 rs1 0x12).setWidth 64)
  | .trap code => some (4, (0x00#8 ++ code ++ 0x13#7 ++ 0#2).setWidth 64)
  | .sret => some (4, (encR 0x01 0 0 0 0x13).setWidth 64)
  | .mret => some (4, (encR 0x02 0 0 0 0x13).setWidth 64)
  | .halt => some (4, (encR 0x03 0 0 0 0x13).setWidth 64)
  | .safe idx => some (4, (idx ++ 0x14#7 ++ 0#2).setWidth 64)
  | .csrr rd csr => some (4, (csr ++ 0#2 ++ 0#5 ++ rd ++ 0x15#7 ++ 0#2).setWidth 64)
  | .csrw rd csr rs1 => some (4, (csr ++ 1#2 ++ rs1 ++ rd ++ 0x15#7 ++ 0#2).setWidth 64)
  | .csrs rd csr rs1 => some (4, (csr ++ 2#2 ++ rs1 ++ rd ++ 0x15#7 ++ 0#2).setWidth 64)
  | .csrc rd csr rs1 => some (4, (csr ++ 3#2 ++ rs1 ++ rd ++ 0x15#7 ++ 0#2).setWidth 64)
  | .lb r base cls imm => some (4, (encM imm cls base r 0x16).setWidth 64)
  | .lh r base cls imm => some (4, (encM imm cls base r 0x17).setWidth 64)
  | .lw r base cls imm => some (4, (encM imm cls base r 0x18).setWidth 64)
  | .ld r base cls imm => some (4, (encM imm cls base r 0x19).setWidth 64)
  | .lbu r base cls imm => some (4, (encM imm cls base r 0x1A).setWidth 64)
  | .lhu r base cls imm => some (4, (encM imm cls base r 0x1B).setWidth 64)
  | .lwu r base cls imm => some (4, (encM imm cls base r 0x1C).setWidth 64)
  | .sb r base cls imm => some (4, (encM imm cls base r 0x1D).setWidth 64)
  | .sh r base cls imm => some (4, (encM imm cls base r 0x1E).setWidth 64)
  | .sw r base cls imm => some (4, (encM imm cls base r 0x1F).setWidth 64)
  | .sd r base cls imm => some (4, (encM imm cls base r 0x20).setWidth 64)
  | .ldf r base cls imm => some (4, (encM imm cls base r 0x21).setWidth 64)
  | .ldfk r base cls imm => some (4, (encM imm cls base r 0x22).setWidth 64)
  | .ste r base cls imm => some (4, (encM imm cls base r 0x23).setWidth 64)
  | .stf r base cls imm => some (4, (encM imm cls base r 0x24).setWidth 64)
  | .amoW rd rs1 rs2 op cls => some (4, ((cls ++ op) ++ rs2 ++ rs1 ++ rd ++ 0x25#7 ++ 0#2).setWidth 64)
  | .amoD rd rs1 rs2 op cls => some (4, ((cls ++ op) ++ rs2 ++ rs1 ++ rd ++ 0x26#7 ++ 0#2).setWidth 64)
  | .fence msk scope => some (4, (0#4 ++ scope ++ msk ++ 0x27#7 ++ 0#2).setWidth 64)
  | .feni rd msk => some (4, (0#2 ++ msk ++ rd ++ 0x28#7 ++ 0#2).setWidth 64)
  | .fenw rs1 => some (4, (encR 0 0 rs1 0 0x29).setWidth 64)
  | .ccrd rd n => some (4, (0#9 ++ n ++ 0#5 ++ rd ++ 0x2A#7 ++ 0#2).setWidth 64)
  | .ccwaitAll n => some (4, (0#7 ++ 0#2 ++ n ++ 0#5 ++ 0#5 ++ 0x2B#7 ++ 0#2).setWidth 64)
  | .ccwaitGe n rs1 => some (4, (0#7 ++ 1#2 ++ n ++ rs1 ++ 0#5 ++ 0x2B#7 ++ 0#2).setWidth 64)
  | .ccset n rs1 => some (4, (0#9 ++ n ++ rs1 ++ 0#5 ++ 0x2C#7 ++ 0#2).setWidth 64)
  | .nspawn rd rs1 => some (4, (encR 0 0 rs1 rd 0x2D).setWidth 64)
  | .nend => some (4, (encR 0 0 0 0 0x2E).setWidth 64)
  | .nyield => some (4, (encR 0 0 0 0 0x2F).setWidth 64)
  | .chinit rs1 rs2 cls => some (4, (encR (0#4 ++ cls) rs2 rs1 0 0x30).setWidth 64)
  | .charr rd rs1 rs2 cls => some (4, (encR (0#4 ++ cls) rs2 rs1 rd 0x31).setWidth 64)
  | .chwait rs1 rs2 cls => some (4, (encR (0#4 ++ cls) rs2 rs1 0 0x32).setWidth 64)
  | .charm rs1 rs2 cls => some (4, (encR (0#4 ++ cls) rs2 rs1 0 0x33).setWidth 64)
  | .vacq c k cls va kd => some (8, encPfx0 c ⟨0, k, 0, 0, 0⟩ (0#9 ++ cls ++ va ++ 0#2 ++ kd ++ 0x34#7 ++ 0#2))
  | .vrel c k cls va => some (8, encPfx0 c ⟨0, k, 0, 0, 0⟩ (0#9 ++ cls ++ va ++ 0#2 ++ 0#3 ++ 0x35#7 ++ 0#2))
  | .coll rd rs1 rs2 => some (4, (encR 0 rs2 rs1 rd 0x36).setWidth 64)
  | .collw rd rs1 => some (4, (encR 0 0 rs1 rd 0x37).setWidth 64)
  | .rngw rs1 rs2 w => some (4, (encR w rs2 rs1 0 0x38).setWidth 64)
  | .rngr rd rs1 w => some (4, (encR w 0 rs1 rd 0x39).setWidth 64)
  | .ptinv rs1 rs2 => some (4, (encR 0 rs2 rs1 0 0x3A).setWidth 64)
  | .rrtw rs1 rs2 w => some (4, (encR w rs2 rs1 0 0x3B).setWidth 64)
  | .iltw rs1 rs2 w => some (4, (encR w rs2 rs1 0 0x3C).setWidth 64)
  | .winOpen rd rs1 rs2 => some (4, (encR 0 rs2 rs1 rd 0x3D).setWidth 64)
  | .winRev rs1 => some (4, (encR 1 0 rs1 0 0x3D).setWidth 64)
  | .winSync rs1 => some (4, (encR 2 0 rs1 0 0x3D).setWidth 64)
  | .mtrrd rd meter => some (4, (encI (0#10 ++ meter) 0 rd 0x3E).setWidth 64)
  | .vsetvl rd rs1 rs2 => some (4, (encR 0 rs2 rs1 rd 0x40).setWidth 64)
  | .vsetvli rd rs1 imm => some (4, (encI imm rs1 rd 0x41).setWidth 64)
  | .vadd c k vs2 vs1 vd => some (4, (encVV k vs2 vs1 vd 0x42 c).setWidth 64)
  | .vsub c k vs2 vs1 vd => some (4, (encVV k vs2 vs1 vd 0x43 c).setWidth 64)
  | .vmul c k vs2 vs1 vd => some (4, (encVV k vs2 vs1 vd 0x44 c).setWidth 64)
  | .vmulh c k vs2 vs1 vd => some (4, (encVV k vs2 vs1 vd 0x45 c).setWidth 64)
  | .vmulhu c k vs2 vs1 vd => some (4, (encVV k vs2 vs1 vd 0x46 c).setWidth 64)
  | .vmac c k vs2 vs1 vd => some (4, (encVV k vs2 vs1 vd 0x47 c).setWidth 64)
  | .vmin c k vs2 vs1 vd => some (4, (encVV k vs2 vs1 vd 0x48 c).setWidth 64)
  | .vmax c k vs2 vs1 vd => some (4, (encVV k vs2 vs1 vd 0x49 c).setWidth 64)
  | .vminu c k vs2 vs1 vd => some (4, (encVV k vs2 vs1 vd 0x4A c).setWidth 64)
  | .vmaxu c k vs2 vs1 vd => some (4, (encVV k vs2 vs1 vd 0x4B c).setWidth 64)
  | .vand c k vs2 vs1 vd => some (4, (encVV k vs2 vs1 vd 0x4C c).setWidth 64)
  | .vor c k vs2 vs1 vd => some (4, (encVV k vs2 vs1 vd 0x4D c).setWidth 64)
  | .vxor c k vs2 vs1 vd => some (4, (encVV k vs2 vs1 vd 0x4E c).setWidth 64)
  | .vsll c k vs2 vs1 vd => some (4, (encVV k vs2 vs1 vd 0x4F c).setWidth 64)
  | .vsrl c k vs2 vs1 vd => some (4, (encVV k vs2 vs1 vd 0x50 c).setWidth 64)
  | .vsra c k vs2 vs1 vd => some (4, (encVV k vs2 vs1 vd 0x51 c).setWidth 64)
  | .vsadd c k vs2 vs1 vd => some (4, (encVV k vs2 vs1 vd 0x52 c).setWidth 64)
  | .vsaddu c k vs2 vs1 vd => some (4, (encVV k vs2 vs1 vd 0x53 c).setWidth 64)
  | .vssub c k vs2 vs1 vd => some (4, (encVV k vs2 vs1 vd 0x54 c).setWidth 64)
  | .vssubu c k vs2 vs1 vd => some (4, (encVV k vs2 vs1 vd 0x55 c).setWidth 64)
  | .vfadd c k vs2 vs1 vd => some (4, (encVV k vs2 vs1 vd 0x56 c).setWidth 64)
  | .vfsub c k vs2 vs1 vd => some (4, (encVV k vs2 vs1 vd 0x57 c).setWidth 64)
  | .vfmul c k vs2 vs1 vd => some (4, (encVV k vs2 vs1 vd 0x58 c).setWidth 64)
  | .vfdiv c k vs2 vs1 vd => some (4, (encVV k vs2 vs1 vd 0x59 c).setWidth 64)
  | .vfmin c k vs2 vs1 vd => some (4, (encVV k vs2 vs1 vd 0x5A c).setWidth 64)
  | .vfmax c k vs2 vs1 vd => some (4, (encVV k vs2 vs1 vd 0x5B c).setWidth 64)
  | .vfma c k vs2 vs1 vd => some (4, (encVV k vs2 vs1 vd 0x5C c).setWidth 64)
  | .vfms c k vs2 vs1 vd => some (4, (encVV k vs2 vs1 vd 0x5D c).setWidth 64)
  | .vfnma c k vs2 vs1 vd => some (4, (encVV k vs2 vs1 vd 0x5E c).setWidth 64)
  | .vfsqrt c k vs vd => some (4, (encVF k 0 vs vd 0x5F c).setWidth 64)
  | .vfrcp c k vs vd => some (4, (encVF k 1 vs vd 0x5F c).setWidth 64)
  | .vfrsq c k vs vd => some (4, (encVF k 2 vs vd 0x5F c).setWidth 64)
  | .vfexp2 c k vs vd => some (4, (encVF k 3 vs vd 0x5F c).setWidth 64)
  | .vfclass c k vs vd => some (4, (encVF k 4 vs vd 0x5F c).setWidth 64)
  | .vcmp c k vs2 vs1 cond kd => some (4, (encVV k vs2 vs1 (cond ++ kd) 0x60 c).setWidth 64)
  | .vfcmp c k vs2 vs1 cond kd => some (4, (encVV k vs2 vs1 (cond ++ kd) 0x61 c).setWidth 64)
  | .kand c kd ks1 ks2 => some (4, (0x00#8 ++ (0#2 ++ ks2) ++ (0#2 ++ ks1) ++ (0#2 ++ kd) ++ 0x62#7 ++ cbit c ++ 0#1).setWidth 64)
  | .kor c kd ks1 ks2 => some (4, (0x01#8 ++ (0#2 ++ ks2) ++ (0#2 ++ ks1) ++ (0#2 ++ kd) ++ 0x62#7 ++ cbit c ++ 0#1).setWidth 64)
  | .kxor c kd ks1 ks2 => some (4, (0x02#8 ++ (0#2 ++ ks2) ++ (0#2 ++ ks1) ++ (0#2 ++ kd) ++ 0x62#7 ++ cbit c ++ 0#1).setWidth 64)
  | .kandn c kd ks1 ks2 => some (4, (0x03#8 ++ (0#2 ++ ks2) ++ (0#2 ++ ks1) ++ (0#2 ++ kd) ++ 0x62#7 ++ cbit c ++ 0#1).setWidth 64)
  | .knot c kd ks1 => some (4, (0x04#8 ++ 0#5 ++ (0#2 ++ ks1) ++ (0#2 ++ kd) ++ 0x62#7 ++ cbit c ++ 0#1).setWidth 64)
  | .kmov c kd ks1 => some (4, (0x05#8 ++ 0#5 ++ (0#2 ++ ks1) ++ (0#2 ++ kd) ++ 0x62#7 ++ cbit c ++ 0#1).setWidth 64)
  | .kpop c rd ks => some (4, (0x00#8 ++ 0#5 ++ (0#2 ++ ks) ++ rd ++ 0x63#7 ++ cbit c ++ 0#1).setWidth 64)
  | .kfirst c rd ks => some (4, (0x01#8 ++ 0#5 ++ (0#2 ++ ks) ++ rd ++ 0x63#7 ++ cbit c ++ 0#1).setWidth 64)
  | .vmv c k vs vd => some (4, (encVF k 0 vs vd 0x64 c).setWidth 64)
  | .vid c k vd => some (4, (encVF k 1 0 vd 0x64 c).setWidth 64)
  | .vbcast c gs vs vd => some (4, (encVG gs 2 vs vd 0x64 c).setWidth 64)
  | .vext c gs vs rd => some (4, (encVG gs 0 vs (0#2 ++ rd) 0x65 c).setWidth 64)
  | .vins c gs vs vd => some (4, (encVG gs 1 vs vd 0x65 c).setWidth 64)
  | .vslup c gs vs vd => some (4, (encVG gs 0 vs vd 0x66 c).setWidth 64)
  | .vsldn c gs vs vd => some (4, (encVG gs 1 vs vd 0x66 c).setWidth 64)
  | .vperm c k vs2 vs1 vd => some (4, (encVV k vs2 vs1 vd 0x67 c).setWidth 64)
  | .vcompress c k vs vd => some (4, (encVF k 0 vs vd 0x68 c).setWidth 64)
  | .vexpand c k vs vd => some (4, (encVF k 1 vs vd 0x68 c).setWidth 64)
  | .vmerge c k vs2 vs1 vd => some (4, (encVV k vs2 vs1 vd 0x69 c).setWidth 64)
  | .vredsum c k vs vd => some (4, (encVF k 0 vs vd 0x6A c).setWidth 64)
  | .vredmin c k vs vd => some (4, (encVF k 1 vs vd 0x6A c).setWidth 64)
  | .vredmax c k vs vd => some (4, (encVF k 2 vs vd 0x6A c).setWidth 64)
  | .vredminu c k vs vd => some (4, (encVF k 3 vs vd 0x6A c).setWidth 64)
  | .vredmaxu c k vs vd => some (4, (encVF k 4 vs vd 0x6A c).setWidth 64)
  | .vfredsum c k vs vd => some (4, (encVF k 5 vs vd 0x6A c).setWidth 64)
  | .vfredmin c k vs vd => some (4, (encVF k 6 vs vd 0x6A c).setWidth 64)
  | .vfredmax c k vs vd => some (4, (encVF k 7 vs vd 0x6A c).setWidth 64)
  | .vscan c k vs vd => some (4, (encVF k 8 vs vd 0x6A c).setWidth 64)
  | .vfscan c k vs vd => some (4, (encVF k 9 vs vd 0x6A c).setWidth 64)
  | .vcvt c sat sfmt dfmt vs vd => some (4, (encVX sat sfmt dfmt vs vd 0x6B c).setWidth 64)
  | .vquant c sfmt qfmt vs vd => some (4, (encVX 0 sfmt qfmt vs vd 0x6C c).setWidth 64)
  | .vqsc c sfmt qfmt vs vd => some (4, (encVX 0 sfmt qfmt vs vd 0x6D c).setWidth 64)
  | .vdeq c qfmt dfmt vs vd => some (4, (encVX 0 qfmt dfmt vs vd 0x6E c).setWidth 64)
  | .vhad c j vs vd => some (4, (encVX 0 0 j vs vd 0x6F c).setWidth 64)
  | .vpack c pfmt vs vd => some (4, (encVX 0 pfmt 0 vs vd 0x70 c).setWidth 64)
  | .vunpack c pfmt vs vd => some (4, (encVX 0 pfmt 1 vs vd 0x70 c).setWidth 64)
  | .vld c m nb cls aux base spec => some (4, (encVM m nb cls aux base spec 0x71 c).setWidth 64)
  | .vlds c m nb cls aux base spec => some (4, (encVM m nb cls aux base spec 0x72 c).setWidth 64)
  | .vldx c m nb cls aux base spec => some (4, (encVM m nb cls aux base spec 0x73 c).setWidth 64)
  | .vldff c m cls aux base spec => some (4, (encVM m 0 cls aux base spec 0x74 c).setWidth 64)
  | .vst c m nb cls aux base spec => some (4, (encVM m nb cls aux base spec 0x75 c).setWidth 64)
  | .vsts c m nb cls aux base spec => some (4, (encVM m nb cls aux base spec 0x76 c).setWidth 64)
  | .vstx c m nb cls aux base spec => some (4, (encVM m nb cls aux base spec 0x77 c).setWidth 64)
  | .vbind c cls base spec => some (4, (encVM 0 0 cls 0 base spec 0x78 c).setWidth 64)
  | .vunbind c cls spec => some (4, (encVM 0 1 cls 0 0 spec 0x78 c).setWidth 64)
  | .xcopy c nb cls aux base gn => some (4, (encVM 0 nb cls aux base (0#2 ++ gn) 0x79 c).setWidth 64)
  | .vldf c m nb cls aux base spec => some (4, (encVM m nb cls aux base spec 0x7A c).setWidth 64)
  | .vste c m cls aux base spec => some (4, (encVM m 0 cls aux base spec 0x7B c).setWidth 64)
  | .vamo c op cls va vd vv => some (4, (cls ++ op ++ va ++ vd ++ vv ++ 0x7C#7 ++ cbit c ++ 0#1).setWidth 64)
  | .vamoNb c op cls va vv => some (4, (cls ++ op ++ va ++ 31#5 ++ vv ++ 0x7C#7 ++ cbit c ++ 0#1).setWidth 64)
  | .prefixed64BitForm c p b => some (8, encPfx0 c p b.word)
  | .tzero c t => some (8, encTile c 0 0 0 0 0 0 0 0 0 0 t 0x00)
  | .tld c k dir t gi gb cls => some (8, encTile c 0 0 dir k 0 0 0 gb (0#3 ++ cls) gi t 0x01)
  | .tst c k dir t gi gb cls => some (8, encTile c 0 0 dir k 0 0 0 gb (0#3 ++ cls) gi t 0x02)
  | .trd c k dir t gi spec => some (8, encTile c 0 0 dir k 0 0 0 0 spec gi t 0x03)
  | .twr c k dir t gi spec => some (8, encTile c 0 0 dir k 0 0 0 0 spec gi t 0x04)
  | .tdrain c k clamp scale dir t gi spec fmt => some (8, encTile c 0 0 dir k scale clamp 0 (0#1 ++ fmt) spec gi t 0x05)
  | .tdrainBp c k clamp scale dir t gi spec fmt => some (8, encTile c 0 0 dir k scale clamp 1 (0#1 ++ fmt) spec gi t 0x05)
  | .bld c gb gi cls => some (8, encTile c 0 0 0 0 0 0 0 gb (0#3 ++ cls) gi 0 0x06)
  | .bldW c gb gi cls => some (8, encTile c 0 0 0 0 0 0 1 gb (0#3 ++ cls) gi 0 0x06)
  | .binv c gb gi => some (8, encTile c 0 0 0 0 0 0 0 gb 0 gi 0 0x07)
  | .mcfg c gi => some (8, encTile c 0 0 0 0 0 0 0 0 0 gi 0 0x08)
  | .mopa c k om t spec gb => some (8, encTile c om 0 0 k 0 0 0 gb spec 0 t 0x09)
  | .mipa c k om t gi spec gb => some (8, encTile c om 1 0 k 0 0 0 gb spec gi t 0x09)
  | .mrwa c k om t gi spec gb => some (8, encTile c om 2 0 k 0 0 0 gb spec gi t 0x09)
  | .mrws c k om t gi spec gb => some (8, encTile c om 3 0 k 0 0 0 gb spec gi t 0x09)
  | .cAddi rd imm => some (2, ((imm ++ rd ++ 0#4 ++ 1#2 : BitVec 16)).setWidth 64)
  | .cLi rd imm => some (2, ((imm ++ rd ++ 1#4 ++ 1#2 : BitVec 16)).setWidth 64)
  | .cMv rd rs => some (2, ((rs ++ rd ++ 2#4 ++ 1#2 : BitVec 16)).setWidth 64)
  | .cAdd rd rs => some (2, ((rs ++ rd ++ 3#4 ++ 1#2 : BitVec 16)).setWidth 64)
  | .cSlli rd sh => some (2, ((sh ++ rd ++ 4#4 ++ 1#2 : BitVec 16)).setWidth 64)
  | .cLd rd off => some (2, ((off ++ rd ++ 5#4 ++ 1#2 : BitVec 16)).setWidth 64)
  | .cSd rs off => some (2, ((off ++ rs ++ 6#4 ++ 1#2 : BitVec 16)).setWidth 64)
  | .cJ imm => some (2, ((imm ++ 7#4 ++ 1#2 : BitVec 16)).setWidth 64)
  | .cJr rs => some (2, ((0#5 ++ rs ++ 8#4 ++ 1#2 : BitVec 16)).setWidth 64)
  | .cBeqz rs imm => some (2, ((imm ++ rs ++ 9#4 ++ 1#2 : BitVec 16)).setWidth 64)
  | .cBnez rs imm => some (2, ((imm ++ rs ++ 10#4 ++ 1#2 : BitVec 16)).setWidth 64)
  | .cNop => some (2, ((0#10 ++ 11#4 ++ 1#2 : BitVec 16)).setWidth 64)
  | .cSafe idx => some (2, ((idx ++ 12#4 ++ 1#2 : BitVec 16)).setWidth 64)
  | .cCcwait n => some (2, ((0#6 ++ n ++ 13#4 ++ 1#2 : BitVec 16)).setWidth 64)
  | .cVadd os2 os1 od => some (2, ((0#1 ++ os2 ++ os1 ++ od ++ 14#4 ++ 1#2 : BitVec 16)).setWidth 64)
  | .cVmv vs od => some (2, ((0#1 ++ vs ++ od ++ 15#4 ++ 1#2 : BitVec 16)).setWidth 64)
  | .commitUnit _ => none
  | .mpipeAccept _ => none
  | .maxvlChange _ => none
  | .laneStallEnd _ => none
  | .nbElementComplete _ _ _ => none
  | .loadDataReturn _ => none
  | .remoteRequestApply _ => none
  | .replicaInvalidate _ _ => none
  | .collapseAck _ _ => none
  | .generationBounce _ => none
  | .windowLineInvalidate _ _ => none
  | .combiningBufferSend _ _ => none
  | .fenceTokenComplete _ => none
  | .pageRequestRetry _ _ => none
  | .hostPageAnswer _ _ _ _ => none
  | .sideLogReplay _ => none
  | .replayQueueRead _ _ => none
  | .translationInvalidationMessage _ _ _ => none
  | .tlbInvalidate _ _ => none
  | .hostAccess _ _ _ _ _ _ => none
  | .hostAtomic _ _ _ _ _ _ _ => none
  | .tagRecordRetry _ => none
  | .tagWaitTimeout _ _ _ => none
  | .chamberWaitTimeout _ => none
  | .triggerCopySegment _ _ => none
  | .launchWindowWrite _ _ _ _ _ => none
  | .launchParse _ _ _ => none
  | .spillAdmission _ => none
  | .dispatchDecision _ => none
  | .nodePlacement _ => none
  | .safelimExpiry _ => none
  | .saveComplete _ _ => none
  | .partitionSuspend _ => none
  | .partitionResume _ => none
  | .partitionKill _ => none
  | .hostKill _ _ => none
  | .killTeardown _ _ => none
  | .contextOpen _ _ _ => none
  | .contextStart _ _ => none
  | .overflowSizeWrite _ _ => none
  | .controlHartRestart _ _ => none
  | .controlRegisterWrite _ _ _ _ => none
  | .peerTableWrite _ _ _ => none
  | .routeTableWrite _ _ _ => none
  | .keyStage _ _ _ _ => none
  | .channelClear _ _ _ => none
  | .packetTransmit _ _ _ => none
  | .packetAccept _ _ _ _ => none
  | .packetNak _ _ _ => none
  | .flowPlaneMove _ => none
  | .packetAgeTick _ => none
  | .unreachableDrop _ _ => none
  | .responseTimeout _ => none
  | .sequencerStep _ _ => none
  | .seqChunkArrival _ _ => none
  | .seqCredit _ _ => none
  | .seqDataStepComplete _ _ => none
  | .lossNotice _ _ _ => none
  | .gangPauseRequest _ _ => none
  | .gangPauseAnswer _ _ _ => none
  | .gangPauseTarget _ _ _ => none
  | .gangResume _ _ => none
  | .targetedSelfTest _ _ => none
  | .selfTestComplete _ _ _ => none
  | .sharedSramShrink _ => none
  | .meterFold _ _ => none
  | .snapshotRequest _ _ => none
  | .snapshotForm _ _ => none
  | .attestationRequest _ _ => none
  | .powerOn _ => none
  | .bringupStepDone _ _ _ _ => none
  | .bringupStepTimeout _ _ => none
  | .dieReset _ => none
  | .thermalEvent _ _ => none
  | .clockRaise _ => none
  | .fieldServiceCommand _ => none
  | .packetAcknowledgement _ _ _ => none

/-! The decoder. -/

/-- A field that must be zero (R68, check 2). -/
def mbz {n : Nat} (f : BitVec n) (i : Instr) : Except DecodeErr Instr :=
  if f = 0 then .ok i else .error .mustBeZero

/-- A scalar word has C = 0 (R43). -/
def scalar (w : BitVec 32) (r : Except DecodeErr Instr) : Except DecodeErr Instr :=
  if fC w then .error .scalarC else r

/-- OPR by funct8 (R49). -/
def decOpr (w : BitVec 32) : Except DecodeErr Instr :=
  match (fF8 w).toNat with
    | 0x00 => .ok (.add (fRd w) (fRs1 w) (fRs2 w))
    | 0x01 => .ok (.sub (fRd w) (fRs1 w) (fRs2 w))
    | 0x02 => .ok (.and (fRd w) (fRs1 w) (fRs2 w))
    | 0x03 => .ok (.or (fRd w) (fRs1 w) (fRs2 w))
    | 0x04 => .ok (.xor (fRd w) (fRs1 w) (fRs2 w))
    | 0x05 => .ok (.sll (fRd w) (fRs1 w) (fRs2 w))
    | 0x06 => .ok (.srl (fRd w) (fRs1 w) (fRs2 w))
    | 0x07 => .ok (.sra (fRd w) (fRs1 w) (fRs2 w))
    | 0x08 => .ok (.slt (fRd w) (fRs1 w) (fRs2 w))
    | 0x09 => .ok (.sltu (fRd w) (fRs1 w) (fRs2 w))
    | 0x10 => .ok (.mul (fRd w) (fRs1 w) (fRs2 w))
    | 0x11 => .ok (.mulh (fRd w) (fRs1 w) (fRs2 w))
    | 0x12 => .ok (.mulhu (fRd w) (fRs1 w) (fRs2 w))
    | 0x13 => .ok (.div (fRd w) (fRs1 w) (fRs2 w))
    | 0x14 => .ok (.divu (fRd w) (fRs1 w) (fRs2 w))
    | 0x15 => .ok (.rem (fRd w) (fRs1 w) (fRs2 w))
    | 0x16 => .ok (.remu (fRd w) (fRs1 w) (fRs2 w))
    | 0x18 => .ok (.min (fRd w) (fRs1 w) (fRs2 w))
    | 0x19 => .ok (.max (fRd w) (fRs1 w) (fRs2 w))
    | 0x1A => .ok (.minu (fRd w) (fRs1 w) (fRs2 w))
    | 0x1B => .ok (.maxu (fRd w) (fRs1 w) (fRs2 w))
    | 0x20 => if fRs2 w = 0 then .ok (.clz (fRd w) (fRs1 w)) else .error .mustBeZero
    | 0x21 => if fRs2 w = 0 then .ok (.ctz (fRd w) (fRs1 w)) else .error .mustBeZero
    | 0x22 => if fRs2 w = 0 then .ok (.popc (fRd w) (fRs1 w)) else .error .mustBeZero
    | _ => .error .reservedOpcode

/-- SHI (R50). -/
def decShi (w : BitVec 32) : Except DecodeErr Instr :=
  if w.extractLsb' 27 5 ≠ 0 then .error .mustBeZero else
  match (w.extractLsb' 25 2).toNat with
  | 0 => .ok (.slli (fRd w) (fRs1 w) (w.extractLsb' 19 6))
  | 1 => .ok (.srli (fRd w) (fRs1 w) (w.extractLsb' 19 6))
  | 2 => .ok (.srai (fRd w) (fRs1 w) (w.extractLsb' 19 6))
  | _ => .error .reservedOpcode

/-- SYS (R51). -/
def decSys (w : BitVec 32) : Except DecodeErr Instr :=
  match (fF8 w).toNat with
  | 0 => .ok (.trap (w.extractLsb' 9 15))
  | 1 => mbz (w.extractLsb' 9 15) .sret
  | 2 => mbz (w.extractLsb' 9 15) .mret
  | 3 => mbz (w.extractLsb' 9 15) .halt
  | _ => .error .reservedOpcode

/-- The CSR major (R52). -/
def decCsr (w : BitVec 32) : Except DecodeErr Instr :=
  let csr := w.extractLsb' 21 11
  match (w.extractLsb' 19 2).toNat with
  | 0 => mbz (fRs1 w) (.csrr (fRd w) csr)
  | 1 => .ok (.csrw (fRd w) csr (fRs1 w))
  | 2 => .ok (.csrs (fRd w) csr (fRs1 w))
  | _ => .ok (.csrc (fRd w) csr (fRs1 w))

/-- CCWAIT (R55). -/
def decCcwait (w : BitVec 32) : Except DecodeErr Instr :=
  if !isZ (w.extractLsb' 25 7 ++ fRd w) then .error .mustBeZero else
  match (w.extractLsb' 23 2).toNat with
  | 0 => mbz (fRs1 w) (.ccwaitAll (fCls w))
  | 1 => .ok (.ccwaitGe (fCls w) (fRs1 w))
  | _ => .error .badCode

/-- WIN (R55, R360). -/
def decWin (w : BitVec 32) : Except DecodeErr Instr :=
  match (fF8 w).toNat with
  | 0 => .ok (.winOpen (fRd w) (fRs1 w) (fRs2 w))
  | 1 => mbz (fRs2 w ++ fRd w) (.winRev (fRs1 w))
  | 2 => mbz (fRs2 w ++ fRd w) (.winSync (fRs1 w))
  | _ => .error .reservedOpcode

/-- The variants of VFUN by funct4; aux is 0 (R59). -/
def decVfun (w : BitVec 32) : Except DecodeErr Instr :=
  if fAux w ≠ 0 then .error .mustBeZero else
  match (fF4 w).toNat with
  | 0 => .ok (.vfsqrt (fC w) (fK w) (fVs1 w) (fVd w))
  | 1 => .ok (.vfrcp (fC w) (fK w) (fVs1 w) (fVd w))
  | 2 => .ok (.vfrsq (fC w) (fK w) (fVs1 w) (fVd w))
  | 3 => .ok (.vfexp2 (fC w) (fK w) (fVs1 w) (fVd w))
  | 4 => .ok (.vfclass (fC w) (fK w) (fVs1 w) (fVd w))
  | _ => .error .reservedOpcode

/-- The variants of VCMX by funct4; aux is 0 (R59). -/
def decVcmx (w : BitVec 32) : Except DecodeErr Instr :=
  if fAux w ≠ 0 then .error .mustBeZero else
  match (fF4 w).toNat with
  | 0 => .ok (.vcompress (fC w) (fK w) (fVs1 w) (fVd w))
  | 1 => .ok (.vexpand (fC w) (fK w) (fVs1 w) (fVd w))
  | _ => .error .reservedOpcode

/-- The variants of VRED by funct4; aux is 0 (R59). -/
def decVred (w : BitVec 32) : Except DecodeErr Instr :=
  if fAux w ≠ 0 then .error .mustBeZero else
  match (fF4 w).toNat with
  | 0 => .ok (.vredsum (fC w) (fK w) (fVs1 w) (fVd w))
  | 1 => .ok (.vredmin (fC w) (fK w) (fVs1 w) (fVd w))
  | 2 => .ok (.vredmax (fC w) (fK w) (fVs1 w) (fVd w))
  | 3 => .ok (.vredminu (fC w) (fK w) (fVs1 w) (fVd w))
  | 4 => .ok (.vredmaxu (fC w) (fK w) (fVs1 w) (fVd w))
  | 5 => .ok (.vfredsum (fC w) (fK w) (fVs1 w) (fVd w))
  | 6 => .ok (.vfredmin (fC w) (fK w) (fVs1 w) (fVd w))
  | 7 => .ok (.vfredmax (fC w) (fK w) (fVs1 w) (fVd w))
  | 8 => .ok (.vscan (fC w) (fK w) (fVs1 w) (fVd w))
  | 9 => .ok (.vfscan (fC w) (fK w) (fVs1 w) (fVd w))
  | _ => .error .reservedOpcode

/-- KOP (R58). -/
def decKop (w : BitVec 32) : Except DecodeErr Instr :=
  if !isZ (w.extractLsb' 12 2 ++ w.extractLsb' 17 2 ++ w.extractLsb' 22 2) then .error .mustBeZero else
  let kd := w.extractLsb' 9 3
  let a := w.extractLsb' 14 3
  let b := w.extractLsb' 19 3
  match (fF8 w).toNat with
  | 0 => .ok (.kand (fC w) kd a b)
  | 1 => .ok (.kor (fC w) kd a b)
  | 2 => .ok (.kxor (fC w) kd a b)
  | 3 => .ok (.kandn (fC w) kd a b)
  | 4 => mbz b (.knot (fC w) kd a)
  | 5 => mbz b (.kmov (fC w) kd a)
  | _ => .error .reservedOpcode

/-- KSC (R58). -/
def decKsc (w : BitVec 32) : Except DecodeErr Instr :=
  if !isZ (w.extractLsb' 17 2 ++ fRs2 w) then .error .mustBeZero else
  match (fF8 w).toNat with
  | 0 => .ok (.kpop (fC w) (fRd w) (w.extractLsb' 14 3))
  | 1 => .ok (.kfirst (fC w) (fRd w) (w.extractLsb' 14 3))
  | _ => .error .reservedOpcode

/-- VUN (R59). -/
def decVun (w : BitVec 32) : Except DecodeErr Instr :=
  match (fF4 w).toNat with
  | 0 => mbz (fAux w) (.vmv (fC w) (fK w) (fVs1 w) (fVd w))
  | 1 => mbz (fAux w ++ fVs1 w) (.vid (fC w) (fK w) (fVd w))
  | 2 => .ok (.vbcast (fC w) (fGs w) (fVs1 w) (fVd w))
  | _ => .error .reservedOpcode

/-- VXS (R59). -/
def decVxs (w : BitVec 32) : Except DecodeErr Instr :=
  match (fF4 w).toNat with
  | 0 => mbz (w.extractLsb' 14 2) (.vext (fC w) (fGs w) (fVs1 w) (fRd w))
  | 1 => .ok (.vins (fC w) (fGs w) (fVs1 w) (fVd w))
  | _ => .error .reservedOpcode

/-- VSLIDE (R59). -/
def decVslide (w : BitVec 32) : Except DecodeErr Instr :=
  match (fF4 w).toNat with
  | 0 => .ok (.vslup (fC w) (fGs w) (fVs1 w) (fVd w))
  | 1 => .ok (.vsldn (fC w) (fGs w) (fVs1 w) (fVd w))
  | _ => .error .reservedOpcode

/-- VPK (R60). -/
def decVpk (w : BitVec 32) : Except DecodeErr Instr :=
  match (fF4 w).toNat with
  | 0 => mbz (fS w) (.vpack (fC w) (fFm w) (fVs1 w) (fVd w))
  | 1 => mbz (fS w) (.vunpack (fC w) (fFm w) (fVs1 w) (fVd w))
  | _ => .error .reservedOpcode

/-- VBND (R61). -/
def decVbnd (w : BitVec 32) : Except DecodeErr Instr :=
  if !isZ (fM w ++ fAux5 w) then .error .mustBeZero else
  if fNb w = 0 then .ok (.vbind (fC w) (fVcls w) (fBase w) (fVd w))
  else mbz (fBase w) (.vunbind (fC w) (fVcls w) (fVd w))

/-- VAMO; vd = 31 is the non-blocking row (R63). -/
def decVamo (w : BitVec 32) : Except DecodeErr Instr :=
  if fRs1 w = 31 then .ok (.vamoNb (fC w) (w.extractLsb' 24 4) (w.extractLsb' 28 4) (fRs2 w) (fRd w))
  else .ok (.vamo (fC w) (w.extractLsb' 24 4) (w.extractLsb' 28 4) (fRs2 w) (fRs1 w) (fRd w))

/-- A 32-bit word by its major (R48). -/
def parse32 (w : BitVec 32) : Except DecodeErr Instr :=
  match (w.extractLsb' 2 7).toNat with
  | 0x01 => scalar w (decOpr w)
  | 0x02 => scalar w (.ok (.addi (fRd w) (fRs1 w) (fImm13 w)))
  | 0x03 => scalar w (.ok (.andi (fRd w) (fRs1 w) (fImm13 w)))
  | 0x04 => scalar w (.ok (.ori (fRd w) (fRs1 w) (fImm13 w)))
  | 0x05 => scalar w (.ok (.xori (fRd w) (fRs1 w) (fImm13 w)))
  | 0x06 => scalar w (.ok (.slti (fRd w) (fRs1 w) (fImm13 w)))
  | 0x07 => scalar w (.ok (.sltiu (fRd w) (fRs1 w) (fImm13 w)))
  | 0x08 => scalar w (decShi w)
  | 0x09 => scalar w (.ok (.lui (fRd w) (fImm18 w)))
  | 0x0A => scalar w (.ok (.auipc (fRd w) (fImm18 w)))
  | 0x0B => scalar w (.ok (.jal (fRd w) (fImm18 w)))
  | 0x0C => scalar w (.ok (.jalr (fRd w) (fRs1 w) (fImm13 w)))
  | 0x0D => scalar w (.ok (.beq (fRd w) (fRs1 w) (fImm13 w)))
  | 0x0E => scalar w (.ok (.bne (fRd w) (fRs1 w) (fImm13 w)))
  | 0x0F => scalar w (.ok (.blt (fRd w) (fRs1 w) (fImm13 w)))
  | 0x10 => scalar w (.ok (.bge (fRd w) (fRs1 w) (fImm13 w)))
  | 0x11 => scalar w (.ok (.bltu (fRd w) (fRs1 w) (fImm13 w)))
  | 0x12 => scalar w (.ok (.bgeu (fRd w) (fRs1 w) (fImm13 w)))
  | 0x13 => scalar w (decSys w)
  | 0x14 => scalar w (.ok (.safe (w.extractLsb' 9 23)))
  | 0x15 => scalar w (decCsr w)
  | 0x16 => scalar w (.ok (.lb (fRd w) (fRs1 w) (fCls w) (w.extractLsb' 23 9)))
  | 0x17 => scalar w (.ok (.lh (fRd w) (fRs1 w) (fCls w) (w.extractLsb' 23 9)))
  | 0x18 => scalar w (.ok (.lw (fRd w) (fRs1 w) (fCls w) (w.extractLsb' 23 9)))
  | 0x19 => scalar w (.ok (.ld (fRd w) (fRs1 w) (fCls w) (w.extractLsb' 23 9)))
  | 0x1A => scalar w (.ok (.lbu (fRd w) (fRs1 w) (fCls w) (w.extractLsb' 23 9)))
  | 0x1B => scalar w (.ok (.lhu (fRd w) (fRs1 w) (fCls w) (w.extractLsb' 23 9)))
  | 0x1C => scalar w (.ok (.lwu (fRd w) (fRs1 w) (fCls w) (w.extractLsb' 23 9)))
  | 0x1D => scalar w (.ok (.sb (fRd w) (fRs1 w) (fCls w) (w.extractLsb' 23 9)))
  | 0x1E => scalar w (.ok (.sh (fRd w) (fRs1 w) (fCls w) (w.extractLsb' 23 9)))
  | 0x1F => scalar w (.ok (.sw (fRd w) (fRs1 w) (fCls w) (w.extractLsb' 23 9)))
  | 0x20 => scalar w (.ok (.sd (fRd w) (fRs1 w) (fCls w) (w.extractLsb' 23 9)))
  | 0x21 => scalar w (.ok (.ldf (fRd w) (fRs1 w) (fCls w) (w.extractLsb' 23 9)))
  | 0x22 => scalar w (.ok (.ldfk (fRd w) (fRs1 w) (fCls w) (w.extractLsb' 23 9)))
  | 0x23 => scalar w (.ok (.ste (fRd w) (fRs1 w) (fCls w) (w.extractLsb' 23 9)))
  | 0x24 => scalar w (.ok (.stf (fRd w) (fRs1 w) (fCls w) (w.extractLsb' 23 9)))
  | 0x25 => scalar w (.ok (.amoW (fRd w) (fRs1 w) (fRs2 w) (w.extractLsb' 24 4) (w.extractLsb' 28 4)))
  | 0x26 => scalar w (.ok (.amoD (fRd w) (fRs1 w) (fRs2 w) (w.extractLsb' 24 4) (w.extractLsb' 28 4)))
  | 0x27 => scalar w (mbz (w.extractLsb' 28 4) (.fence (w.extractLsb' 9 16) (w.extractLsb' 25 3)))
  | 0x28 => scalar w (mbz (w.extractLsb' 30 2) (.feni (fRd w) (w.extractLsb' 14 16)))
  | 0x29 => scalar w (mbz (w.extractLsb' 19 13 ++ fRd w) (.fenw (fRs1 w)))
  | 0x2A => scalar w (mbz (w.extractLsb' 23 9 ++ fRs1 w) (.ccrd (fRd w) (fCls w)))
  | 0x2B => scalar w (decCcwait w)
  | 0x2C => scalar w (mbz (w.extractLsb' 23 9 ++ fRd w) (.ccset (fCls w) (fRs1 w)))
  | 0x2D => scalar w (mbz (w.extractLsb' 19 13) (.nspawn (fRd w) (fRs1 w)))
  | 0x2E => scalar w (mbz (w.extractLsb' 9 23) .nend)
  | 0x2F => scalar w (mbz (w.extractLsb' 9 23) .nyield)
  | 0x30 => scalar w (mbz (w.extractLsb' 28 4 ++ fRd w) (.chinit (fRs1 w) (fRs2 w) (w.extractLsb' 24 4)))
  | 0x31 => scalar w (mbz (w.extractLsb' 28 4) (.charr (fRd w) (fRs1 w) (fRs2 w) (w.extractLsb' 24 4)))
  | 0x32 => scalar w (mbz (w.extractLsb' 28 4 ++ fRd w) (.chwait (fRs1 w) (fRs2 w) (w.extractLsb' 24 4)))
  | 0x33 => scalar w (mbz (w.extractLsb' 28 4 ++ fRd w) (.charm (fRs1 w) (fRs2 w) (w.extractLsb' 24 4)))
  | 0x36 => scalar w (mbz (fF8 w) (.coll (fRd w) (fRs1 w) (fRs2 w)))
  | 0x37 => scalar w (mbz (w.extractLsb' 19 13) (.collw (fRd w) (fRs1 w)))
  | 0x38 => scalar w (mbz (fRd w) (.rngw (fRs1 w) (fRs2 w) (fF8 w)))
  | 0x39 => scalar w (mbz (fRs2 w) (.rngr (fRd w) (fRs1 w) (fF8 w)))
  | 0x3A => scalar w (mbz (fF8 w ++ fRd w) (.ptinv (fRs1 w) (fRs2 w)))
  | 0x3B => scalar w (mbz (fRd w) (.rrtw (fRs1 w) (fRs2 w) (fF8 w)))
  | 0x3C => scalar w (mbz (fRd w) (.iltw (fRs1 w) (fRs2 w) (fF8 w)))
  | 0x3D => scalar w (decWin w)
  | 0x3E => scalar w (mbz (w.extractLsb' 22 10 ++ fRs1 w) (.mtrrd (fRd w) (w.extractLsb' 19 3)))
  | 0x40 => scalar w (mbz (fF8 w) (.vsetvl (fRd w) (fRs1 w) (fRs2 w)))
  | 0x41 => scalar w (.ok (.vsetvli (fRd w) (fRs1 w) (fImm13 w)))
  | 0x42 => .ok (.vadd (fC w) (fK w) (fVs2 w) (fVs1 w) (fVd w))
  | 0x43 => .ok (.vsub (fC w) (fK w) (fVs2 w) (fVs1 w) (fVd w))
  | 0x44 => .ok (.vmul (fC w) (fK w) (fVs2 w) (fVs1 w) (fVd w))
  | 0x45 => .ok (.vmulh (fC w) (fK w) (fVs2 w) (fVs1 w) (fVd w))
  | 0x46 => .ok (.vmulhu (fC w) (fK w) (fVs2 w) (fVs1 w) (fVd w))
  | 0x47 => .ok (.vmac (fC w) (fK w) (fVs2 w) (fVs1 w) (fVd w))
  | 0x48 => .ok (.vmin (fC w) (fK w) (fVs2 w) (fVs1 w) (fVd w))
  | 0x49 => .ok (.vmax (fC w) (fK w) (fVs2 w) (fVs1 w) (fVd w))
  | 0x4A => .ok (.vminu (fC w) (fK w) (fVs2 w) (fVs1 w) (fVd w))
  | 0x4B => .ok (.vmaxu (fC w) (fK w) (fVs2 w) (fVs1 w) (fVd w))
  | 0x4C => .ok (.vand (fC w) (fK w) (fVs2 w) (fVs1 w) (fVd w))
  | 0x4D => .ok (.vor (fC w) (fK w) (fVs2 w) (fVs1 w) (fVd w))
  | 0x4E => .ok (.vxor (fC w) (fK w) (fVs2 w) (fVs1 w) (fVd w))
  | 0x4F => .ok (.vsll (fC w) (fK w) (fVs2 w) (fVs1 w) (fVd w))
  | 0x50 => .ok (.vsrl (fC w) (fK w) (fVs2 w) (fVs1 w) (fVd w))
  | 0x51 => .ok (.vsra (fC w) (fK w) (fVs2 w) (fVs1 w) (fVd w))
  | 0x52 => .ok (.vsadd (fC w) (fK w) (fVs2 w) (fVs1 w) (fVd w))
  | 0x53 => .ok (.vsaddu (fC w) (fK w) (fVs2 w) (fVs1 w) (fVd w))
  | 0x54 => .ok (.vssub (fC w) (fK w) (fVs2 w) (fVs1 w) (fVd w))
  | 0x55 => .ok (.vssubu (fC w) (fK w) (fVs2 w) (fVs1 w) (fVd w))
  | 0x56 => .ok (.vfadd (fC w) (fK w) (fVs2 w) (fVs1 w) (fVd w))
  | 0x57 => .ok (.vfsub (fC w) (fK w) (fVs2 w) (fVs1 w) (fVd w))
  | 0x58 => .ok (.vfmul (fC w) (fK w) (fVs2 w) (fVs1 w) (fVd w))
  | 0x59 => .ok (.vfdiv (fC w) (fK w) (fVs2 w) (fVs1 w) (fVd w))
  | 0x5A => .ok (.vfmin (fC w) (fK w) (fVs2 w) (fVs1 w) (fVd w))
  | 0x5B => .ok (.vfmax (fC w) (fK w) (fVs2 w) (fVs1 w) (fVd w))
  | 0x5C => .ok (.vfma (fC w) (fK w) (fVs2 w) (fVs1 w) (fVd w))
  | 0x5D => .ok (.vfms (fC w) (fK w) (fVs2 w) (fVs1 w) (fVd w))
  | 0x5E => .ok (.vfnma (fC w) (fK w) (fVs2 w) (fVs1 w) (fVd w))
  | 0x5F => decVfun w
  | 0x60 => .ok (.vcmp (fC w) (fK w) (fVs2 w) (fVs1 w) (w.extractLsb' 12 4) (w.extractLsb' 9 3))
  | 0x61 => .ok (.vfcmp (fC w) (fK w) (fVs2 w) (fVs1 w) (w.extractLsb' 12 4) (w.extractLsb' 9 3))
  | 0x62 => decKop w
  | 0x63 => decKsc w
  | 0x64 => decVun w
  | 0x65 => decVxs w
  | 0x66 => decVslide w
  | 0x67 => .ok (.vperm (fC w) (fK w) (fVs2 w) (fVs1 w) (fVd w))
  | 0x68 => decVcmx w
  | 0x69 => .ok (.vmerge (fC w) (fK w) (fVs2 w) (fVs1 w) (fVd w))
  | 0x6A => decVred w
  | 0x6B => .ok (.vcvt (fC w) (fS w) (fFm w) (fF4 w) (fVs1 w) (fVd w))
  | 0x6C => mbz (fS w) (.vquant (fC w) (fFm w) (fF4 w) (fVs1 w) (fVd w))
  | 0x6D => mbz (fS w) (.vqsc (fC w) (fFm w) (fF4 w) (fVs1 w) (fVd w))
  | 0x6E => mbz (fS w) (.vdeq (fC w) (fFm w) (fF4 w) (fVs1 w) (fVd w))
  | 0x6F => mbz (fS w ++ fFm w) (.vhad (fC w) (fF4 w) (fVs1 w) (fVd w))
  | 0x70 => decVpk w
  | 0x71 => .ok (.vld (fC w) (fM w) (fNb w) (fVcls w) (fAux5 w) (fBase w) (fVd w))
  | 0x72 => .ok (.vlds (fC w) (fM w) (fNb w) (fVcls w) (fAux5 w) (fBase w) (fVd w))
  | 0x73 => .ok (.vldx (fC w) (fM w) (fNb w) (fVcls w) (fAux5 w) (fBase w) (fVd w))
  | 0x74 => mbz (fNb w) (.vldff (fC w) (fM w) (fVcls w) (fAux5 w) (fBase w) (fVd w))
  | 0x75 => .ok (.vst (fC w) (fM w) (fNb w) (fVcls w) (fAux5 w) (fBase w) (fVd w))
  | 0x76 => .ok (.vsts (fC w) (fM w) (fNb w) (fVcls w) (fAux5 w) (fBase w) (fVd w))
  | 0x77 => .ok (.vstx (fC w) (fM w) (fNb w) (fVcls w) (fAux5 w) (fBase w) (fVd w))
  | 0x78 => decVbnd w
  | 0x79 => mbz (fM w ++ w.extractLsb' 14 2) (.xcopy (fC w) (fNb w) (fVcls w) (fAux5 w) (fBase w) (w.extractLsb' 9 5))
  | 0x7A => .ok (.vldf (fC w) (fM w) (fNb w) (fVcls w) (fAux5 w) (fBase w) (fVd w))
  | 0x7B => mbz (fNb w) (.vste (fC w) (fM w) (fVcls w) (fAux5 w) (fBase w) (fVd w))
  | 0x7C => decVamo w
  | 0x34 => .error .badBase
  | 0x35 => .error .badBase
  | _ => .error .reservedOpcode

/-- VACQ and VREL, whose base words stand only under a prefix (R62). -/
def parseMutex (c : Bool) (p : Pfx) (b : BitVec 32) : Except DecodeErr Instr :=
  if !isZ (b.extractLsb' 23 9 ++ b.extractLsb' 12 2) then .error .mustBeZero
  else if !isZ (p.om ++ p.scale ++ p.clamp ++ p.mods) then .error .mustBeZero
  else if b.extractLsb' 2 7 = 0x34 then .ok (.vacq c p.k (fCls b) (fRs1 b) (b.extractLsb' 9 3))
  else mbz (b.extractLsb' 9 3) (.vrel c p.k (fCls b) (fRs1 b))

/-- A tile word by its tile major (R65, R66). -/
def parseTile (c : Bool) (d dir : BitVec 2) (p : Pfx) (b : BitVec 32) : Except DecodeErr Instr :=
  let sub := b.extractLsb' 29 3
  let gb := b.extractLsb' 24 5
  let spec := b.extractLsb' 17 7
  let gi := b.extractLsb' 12 5
  let t := b.extractLsb' 9 3
  let cls := b.extractLsb' 17 4
  let noMods := p.mods = 0
  let noScale := isZ (p.scale ++ p.clamp)
  let plain := noMods ∧ noScale ∧ p.om = 0 ∧ d = 0
  match (b.extractLsb' 2 7).toNat with
  | 0x00 =>
    if plain ∧ dir = 0 ∧ p.k = 0 ∧ isZ (sub ++ gb ++ spec ++ gi) then .ok (.tzero c t) else .error .mustBeZero
  | 0x01 => if plain ∧ isZ (sub ++ b.extractLsb' 21 3) then .ok (.tld c p.k dir t gi gb cls) else .error .mustBeZero
  | 0x02 => if plain ∧ isZ (sub ++ b.extractLsb' 21 3) then .ok (.tst c p.k dir t gi gb cls) else .error .mustBeZero
  | 0x03 => if plain ∧ isZ (sub ++ gb) then .ok (.trd c p.k dir t gi spec) else .error .mustBeZero
  | 0x04 => if plain ∧ isZ (sub ++ gb) then .ok (.twr c p.k dir t gi spec) else .error .mustBeZero
  | 0x05 =>
    if noMods ∧ p.om = 0 ∧ d = 0 ∧ isZ (sub.extractLsb' 1 2 ++ gb.extractLsb' 4 1) then
      if sub = 0 then .ok (.tdrain c p.k p.clamp p.scale dir t gi spec (b.extractLsb' 24 4))
      else .ok (.tdrainBp c p.k p.clamp p.scale dir t gi spec (b.extractLsb' 24 4))
    else .error .mustBeZero
  | 0x06 =>
    if plain ∧ dir = 0 ∧ p.k = 0 ∧ isZ (b.extractLsb' 21 3 ++ t) then
      if sub = 0 then .ok (.bld c gb gi cls) else if sub = 1 then .ok (.bldW c gb gi cls) else .error .reservedOpcode
    else .error .mustBeZero
  | 0x07 =>
    if plain ∧ dir = 0 ∧ p.k = 0 ∧ isZ (sub ++ spec ++ t) then .ok (.binv c gb gi) else .error .mustBeZero
  | 0x08 =>
    if plain ∧ dir = 0 ∧ p.k = 0 ∧ isZ (sub ++ gb ++ spec ++ t) then .ok (.mcfg c gi) else .error .mustBeZero
  | 0x09 =>
    if noMods ∧ noScale ∧ dir = 0 ∧ sub = 0 then
      match d.toNat with
      | 0 => mbz gi (.mopa c p.k p.om t spec gb)
      | 1 => .ok (.mipa c p.k p.om t gi spec gb)
      | 2 => .ok (.mrwa c p.k p.om t gi spec gb)
      | _ => .ok (.mrws c p.k p.om t gi spec gb)
    else .error .mustBeZero
  | _ => .error .reservedOpcode

/-- A prefix word and its base word (R64, R65). -/
def parse64 (pw b : BitVec 32) : Except DecodeErr Instr :=
  let p : Pfx := ⟨pw.extractLsb' 23 3, pw.extractLsb' 16 3, pw.extractLsb' 12 4, pw.extractLsb' 10 2, pw.extractLsb' 4 6⟩
  let c := pw.getLsbD 2
  let d := pw.extractLsb' 21 2
  let dir := pw.extractLsb' 19 2
  if pw.extractLsb' 26 6 ≠ 0 then .error .mustBeZero
  else if b.extractLsb' 0 2 ≠ 0 then .error .badBase
  else if pw.getLsbD 3 then parseTile c d dir p b
  else if !isZ (d ++ dir) then .error .mustBeZero
  else if b.extractLsb' 2 7 = 0x34 ∨ b.extractLsb' 2 7 = 0x35 then parseMutex c p b
  else (VBase.parse b).map (.prefixed64BitForm c p)

/-- A compressed parcel (R67). -/
def parse16 (w : BitVec 16) : Except DecodeErr Instr :=
  let hi := w.extractLsb' 11 5
  let lo := w.extractLsb' 6 5
  match (w.extractLsb' 2 4).toNat with
  | 0x0 => .ok (.cAddi lo hi)
  | 0x1 => .ok (.cLi lo hi)
  | 0x2 => .ok (.cMv lo hi)
  | 0x3 => .ok (.cAdd lo hi)
  | 0x4 => .ok (.cSlli lo hi)
  | 0x5 => .ok (.cLd lo hi)
  | 0x6 => .ok (.cSd lo hi)
  | 0x7 => .ok (.cJ (w.extractLsb' 6 10))
  | 0x8 => mbz hi (.cJr lo)
  | 0x9 => .ok (.cBeqz (w.extractLsb' 6 3) (w.extractLsb' 9 7))
  | 0xA => .ok (.cBnez (w.extractLsb' 6 3) (w.extractLsb' 9 7))
  | 0xB => mbz (w.extractLsb' 6 10) .cNop
  | 0xC => .ok (.cSafe (w.extractLsb' 6 10))
  | 0xD => mbz (w.extractLsb' 10 6) (.cCcwait (w.extractLsb' 6 4))
  | 0xE => mbz (w.extractLsb' 15 1) (.cVadd (w.extractLsb' 12 3) (w.extractLsb' 9 3) (w.extractLsb' 6 3))
  | _ => mbz (w.extractLsb' 15 1) (.cVmv (w.extractLsb' 9 6) (w.extractLsb' 6 3))

/-- The static checks on top of the field split. -/
def checked (r : Except DecodeErr Instr) : Except DecodeErr Instr :=
  match r with
  | .error e => .error e
  | .ok i => match wfErr i with
    | none => .ok i
    | some e => .error e

/-- Length in bytes from bits [1:0] of the first parcel (R39). -/
def parcelLen (p0 : BitVec 16) : Nat :=
  if p0.getLsbD 0 = false then 4 else if p0.getLsbD 1 = false then 2 else 8

/-- The instruction whose parcels, from the low end, are the low bits of w. -/
def decodeWord (w : BitVec 64) : Except DecodeErr Instr :=
  match parcelLen (w.extractLsb' 0 16) with
  | 2 => checked (parse16 (w.extractLsb' 0 16))
  | 4 => checked (parse32 (w.extractLsb' 0 32))
  | _ => checked (parse64 (w.extractLsb' 0 32) (w.extractLsb' 32 32))

/-- Bytes as one little-endian number (R4). -/
def leBytes : List Byte → Nat
  | [] => 0
  | b :: r => b.toNat + 256 * leBytes r

/-- Decoding of a list of bytes: the instruction and the rest of the list (R39, R68). -/
def decode (bs : List Byte) : Except DecodeErr (Instr × List Byte) :=
  match bs with
  | b0 :: b1 :: _ =>
    let n := parcelLen (b1 ++ b0)
    if bs.length < n then .error .short
    else (decodeWord (BitVec.ofNat 64 (leBytes (bs.take n)))).map fun i => (i, bs.drop n)
  | _ => .error .short

/-- n bytes of a number, low byte first (R4). -/
def toBytes : Nat → Nat → List Byte
  | 0, _ => []
  | n + 1, w => BitVec.ofNat 8 w :: toBytes n (w / 256)

/-- The instruction the decoder reads from parcels whose low nbits bits are w and whose other bits are 0. -/
def decodeTableWord (nbits w : Nat) : Option Instr :=
  match decode (toBytes 8 (w % 2 ^ nbits)) with
  | .ok (i, _) => some i
  | .error _ => none

end Sys2Proof
end

