-- ==== Sys2Proof/Machine/State.lean ====
section
/-! DEFINITION. The state of a pod of LGS-9120 modules: everything the spec gives the machine, as plain data.

Numbering. A V-die of the pod is die = module * 4 + die in module (R361). A core is die * 64 + core in die, core 48 being
the control core (R10, R198). A hart is core * 2 + hart in core. Maps are sorted lists of key and value pairs that list no
default value (Machine/Maps.lean). -/

namespace Sys2Proof.Machine

open Sys2Proof

/-- A sparse map: keys rising, no entry equal to the map's default. -/
abbrev Map (β : Type) := List (Nat × β)

/-- Memory bytes by storage address (Machine/Maps.lean, Machine/Places.lean). -/
abbrev Memory := List Host.Cell

/-- Why a step stops with a fault. -/
inductive Fault
  /-- Raised by a step of another agent that names a die, module, hart, core or owner outside R1, R9, R10 and R292.
  Safe: no machine has such an agent, so no such step happens. -/
  | noSuchAgent
  deriving DecidableEq, Repr

/-- Why a step has no meaning. -/
inductive Refusal
  /-- Raised by an arm of exec that has no meaning yet. Safe: the model stops where the hardware goes on. -/
  | notModelled (mnemonic : String)
  deriving DecidableEq, Repr

/-- The causes of R324. -/
inductive Cause
  | illegalInstruction | illegalConvoy | illegalOperand | misaligned | rangeFault | protectionFault
  | pageFaultFatal | dataError | tagWaitTimeout | noArray | bindFault | collectiveAbort | fenceToken
  | privilege | trapInstruction
  deriving DecidableEq, Repr

/-- The state of a physical hart (R16); SAVED is a frame, not a hart. halted is a control hart stopped by HALT or by a
double fault (R127, R328). -/
inductive RunState
  | idle | run | park | halted
  deriving DecidableEq, Repr

/-- What an outstanding element does (R235, R244, R245, R251, R270, R279). -/
inductive EltKind
  /-- A store element or the write half of a copy segment; data holds its bytes. -/
  | write
  /-- A load element; dst and ew name its destination. -/
  | read
  /-- A reduction of VAMO.NB, operation of R264; data holds the operand. -/
  | amo (op : BitVec 4)
  /-- An XCOPY segment whose read, of size bytes at src, has not bound. -/
  | copy
  /-- A VLDF.NB element. -/
  | tagRead
  deriving DecidableEq, Repr

/-- Where an outstanding element waits. -/
inductive EltPlace
  /-- Issued, in program order, not yet performed; a store of this kind is in the combining buffer or on its way to L1. -/
  | issued
  /-- In a request on its way to a home on another die. -/
  | sent
  /-- In the side log of the hart's core (R244). -/
  | sideLog
  /-- In the replay queue of the hart's core (R245). -/
  | replay
  /-- Holding a tag wait record, or retrying for one (R276, R277). -/
  | tagWait
  /-- Missed its page and found the side log or replay queue full; its hart holds (R244, R245). -/
  | full
  deriving DecidableEq, Repr

/-- One element of a hart that is outstanding: a posted store, or an element of a non-blocking instruction. -/
structure Elt where
  id    : Nat
  /-- Number of the non-blocking instruction it belongs to (NbOp.id); 0 for a blocking store. -/
  op    : Nat
  e     : Nat
  cls   : Nat
  kind  : EltKind
  place : EltPlace
  va    : Nat
  ipa   : Nat
  size  : Nat
  /-- Storage address, once translated. -/
  key   : Option Nat
  /-- DPA of a translated element in HBM, and GEN of the interleave entry that placed it (R354, R358). -/
  dpa   : Option (Nat × BitVec 4)
  data  : List Byte
  /-- Source of a copy segment: VA, then IPA and size of each part. For a VLDF.NB element that waits, srcVa is the cycle of
  its die at which the wait ends, 0 for none (R278, R279). -/
  srcVa : Nat
  src   : List (Nat × Nat)
  dst   : Nat
  ew    : Nat
  owner : Nat
  gen   : Nat
  /-- Bytes of a store that loads have returned from the buffer, those of another class and those of other modules' lines: class and
  offset (R225, R228, R237). -/
  seenBy : List (Nat × Nat)
  /-- It has entered the side log or the replay queue (R244, R245). -/
  logged : Bool
  deriving DecidableEq, Repr

/-- A non-blocking instruction that has not yet added 1 to its counter (R235, R251, R365). -/
structure NbOp where
  id     : Nat
  cls    : Nat
  /-- Elements issued and not yet completed. -/
  open_  : Nat
  /-- Every active element has been issued. -/
  issued : Bool
  /-- Destination register of a load. -/
  vd     : Option Nat
  /-- VA of the instruction, by which a resumed convoy finds it again. -/
  pc     : Word
  /-- Collapses of its writes homed on other dies that are being collected: its home scope is module or pod (R235). -/
  colls  : List Nat
  deriving DecidableEq, Repr

/-- Why a hart does not issue (R16, R243, R277, R281, R286, R311). -/
inductive Why
  /-- A page miss of a blocking access on the page of md's page-request queue. -/
  | page (md owner page : Nat)
  /-- An access or barrier that must wait for earlier accesses, a full log, a drain or an acknowledgement. -/
  | order
  /-- A read waits at its home for the end of a collapse of its line (R207): the IPA, and GEN of the region that steered it
  (R358). -/
  | home (ipa : Nat) (gen : BitVec 4)
  /-- An access to another die whose request or response is on its way, since that cycle of its own die (R306, R311). -/
  | remote (die since : Nat)
  /-- The host answered with failure on the page, a 4 KiB-aligned IPA, of the blocking access (R246). -/
  | pageFailed (page : Nat)
  /-- The access to the die was dropped, or its response is lost (R311). -/
  | remoteFailed (die : Nat)
  /-- Retrying for a wait record (R277); deadline is the cycle of its die at which the wait ends, 0 for none (R278). -/
  | tagRetry (va deadline : Nat)
  | chRetry (va deadline : Nat)
  /-- Parked with a wait record (R276). -/
  | tag (va deadline : Nat)
  /-- Parked in a chamber wait list (R283). -/
  | chamber (va deadline : Nat)
  /-- Parked at CCWAIT, FENW or COLLW. -/
  | counter (n : Nat)
  | token
  | coll
  deriving DecidableEq, Repr

/-- A hart that waits: the reason, and the scalar instruction to execute again; none when the convoy in progress waits. -/
structure Hold where
  why : Why
  i   : Option Instr
  deriving DecidableEq, Repr

/-- The registers of a hart other than its register files (R80 to R85, R90). -/
structure Csrs where
  epos     : BitVec 9
  fflags   : BitVec 5
  mflags   : BitVec 4
  vl       : Nat
  vtype    : BitVec 6
  mtype    : BitVec 22
  cycle    : Word
  instret  : Word
  ctxid    : BitVec 26
  prv      : BitVec 2
  preq     : Bool
  pp       : BitVec 2
  cause    : BitVec 8
  epc      : Word
  tval     : Word
  tvec     : Word
  scratch  : Word
  bindbase : Word
  lmbase   : Word
  waitlim  : BitVec 32
  safelim  : BitVec 32
  deriving DecidableEq, Repr

/-- Every CSR zero, at level U (R80, R300). -/
def Csrs.zero : Csrs :=
  { epos := 0, fflags := 0, mflags := 0, vl := 0, vtype := 0, mtype := 0, cycle := 0, instret := 0, ctxid := 0, prv := 0,
    preq := false, pp := 0, cause := 0, epc := 0, tval := 0, tvec := 0, scratch := 0, bindbase := 0, lmbase := 0,
    waitlim := 0, safelim := 0 }

/-- The register files of a hart (R73). v holds v0 to v63 at 0 to 63 and o0 to o7 at 64 to 71, and, while a commit unit runs, the
latches la, ll, lx and lm at 72 to 75 (R29, R77; log 17) and what a pipe-Y instruction has bound at 76 (log 9); t holds row i of tile n at 128 n + i; plane holds the data of plane row p
(R171). -/
structure Files where
  g     : Map Word
  v     : Map VReg
  k     : Map KReg
  t     : Map VReg
  plane : Map VReg
  /-- Plane row descriptors (R172). -/
  pdesc : Map (BitVec 128)
  deriving DecidableEq, Repr

/-- Every zero flag set (R89), every plane row invalid (R171). -/
def Files.zero : Files := { g := [], v := [], k := [], t := [], plane := [], pdesc := [] }

/-- A convoy in progress (R24 to R35). -/
structure Conv where
  start : Word
  /-- The instructions in program order, each with its VA. -/
  insns : List (Word × Instr)
  /-- The g registers as they stood when the convoy started (R28). -/
  gs    : Map Word
  /-- The next element to commit. -/
  lo    : Nat
  /-- The source element of the convoy's VBCAST as it stood when the convoy started (R149). -/
  bval  : Nat
  /-- Values of the elements below lo that a widened convoy's VLDF or VSTE has already been served (R279, log 9). -/
  vals  : List Nat
  /-- Once a unit has committed, for a convoy whose later elements an earlier unit reads (log 9): the register files before the
  first unit, and the elements that its pipe-L and its pipe-Y instruction have bound (R28). -/
  ahead : Option (Files × VReg × VReg)
  /-- fflags before the first unit. -/
  flags : BitVec 5
  /-- Stores of the unit in progress that have been accepted into the side log while the unit waits: element number and entry
  (R243, R244). -/
  kept  : List (Nat × Nat)
  /-- What a latch holds below the element at which the convoy has resumed: a free value (R77; log 61). -/
  latch : VReg
  /-- It holds its pipes; a hart that parks gives them up (R17, R18). -/
  on    : Bool
  deriving DecidableEq, Repr

/-- A write that one hart made, or observed by a read, whose collapse is still being collected (R207, R223, R228). -/
structure Seen where
  collapse : Nat
  cls      : Nat
  /-- The hart wrote it itself. -/
  own      : Bool
  /-- A load of the class has returned it from the hart's own buffer: its later reads of the line wait (R225). -/
  fwd      : Bool
  /-- A blocking store of the side log wrote it, to another die: it stays outstanding (R235, R365). -/
  logged   : Bool
  deriving DecidableEq, Repr

/-- Stores sent together that their home on another die has applied, and whose response has not come (R306, R311): the number of
the request, the class, the classes in which loads have returned them, how many they are, and, once the response is lost, that it
is. since is a cycle of the hart's die. -/
structure Unacked where
  id     : Nat
  cls    : Nat
  others : List Nat
  n      : Nat
  since  : Nat
  lost   : Bool
  deriving DecidableEq, Repr

/-- A read of a hart that has bound before accesses of other classes that precede it in program order (R224, log 6). -/
structure Early where
  cls   : Nat
  ipa   : Nat
  key   : Nat
  bytes : List Byte
  deriving DecidableEq, Repr

/-- One hart: registers, its accesses in flight, and what it waits for. -/
structure Hart where
  st       : RunState
  pc       : Word
  f        : Files
  c        : Csrs
  /-- Completion counters (R365). -/
  cc       : Map (BitVec 32)
  /-- FENI sequence number and the incomplete tokens: number, and the elements it waits for (R287). -/
  feni     : Nat
  tokens   : List (Nat × List Nat)
  /-- VA of the first failed access of a class (R246), and of the first timed-out VLDF.NB element (R279). -/
  failed   : Map (Option Nat)
  timedOut : Map (Option Nat)
  /-- A restore has still to read the binding slots back (R258, R337). -/
  rebind   : Bool
  /-- Binding slots of v0 to v63: class of the VBIND, and the record of R253 with its current POS. -/
  bind     : Map (Option (Nat × BitVec 256))
  /-- Outstanding elements in program order (R221, R235, R237). -/
  pend     : List Elt
  nb       : List NbOp
  /-- Number of the next element or non-blocking instruction. -/
  next     : Nat
  seen     : List Seen
  unacked  : List Unacked
  hold     : Option Hold
  /-- A wait that its server has ended (R276, R283): the value read, 0 for a write. -/
  served   : Option Word
  convoy   : Option Conv
  /-- A trap has just been taken and the first handler instruction has not been fetched (R328). -/
  entering : Bool
  /-- Node and gang rank; none on a control hart and on an IDLE hart. -/
  node     : Option Nat
  rank     : Nat
  /-- Hart slot (R414). -/
  slot     : Nat
  /-- Cycle of its die at which PREQ was set (R330). -/
  preqAt   : Nat
  /-- A save of the hart has been decided and not yet written: 1 mapped or 2 forced, the live-map index, and the live map
  (R330, R332). -/
  saving   : Option (Nat × Nat × BitVec 256)
  /-- A forced save waits for the instruction that the hart waits at: CCWAIT, or a tagged element of a widened convoy (R330,
  R333). -/
  saveDue  : Bool
  /-- The operand queue of pipe M, 8 entries of 512 bytes: sources on the V-die of the M instructions of the convoy in progress
  (R171, R194). -/
  opq      : List VReg
  /-- Its next convoy is ready and waits for a pipe: since that cycle of its die, and the pipes it needs (R18). -/
  ready    : Option (Nat × List Nat)
  /-- Collectives it started and has not collected: handle (R320). -/
  colls    : List Word
  /-- Parcels that the hart has fetched, by storage address; a fetch may return them until a FENCE whose mask has class 15 (R227, R228,
  log 8). -/
  ic       : Map (Option (BitVec 16))
  /-- Reads that have bound early (R224, log 6). -/
  early    : List Early
  /-- The range registers as they stood when the access that holds the hart issued, if RNGW has changed them since (R347). -/
  rng      : Option (Map Word)
  deriving DecidableEq, Repr

/-- A hart without a node. -/
def Hart.idle : Hart :=
  { st := .idle, pc := 0, f := .zero, c := .zero, cc := [], feni := 0, tokens := [], failed := [], timedOut := [],
    rebind := false, bind := [], pend := [], nb := [], next := 1, seen := [], unacked := [], hold := none, served := none, convoy := none,
    entering := false, node := none, rank := 0, slot := 0, preqAt := 0, saving := none, saveDue := false, opq := [],
    ready := none, colls := [], ic := [], early := [], rng := none }

/-- The hart IDLE: it has no work and keeps its registers, which the next dispatch or restore clears (R16, R73, R80, R89). -/
def Hart.atRest (x : Hart) : Hart :=
  { Hart.idle with
    pc := x.pc, f := x.f, c := x.c, cc := x.cc, feni := x.feni, failed := x.failed, timedOut := x.timedOut, bind := x.bind,
    next := x.next }

/-- What goes with a save frame, whose bytes stand in the shadow region of HBM, and has no place in the layout of R335 (log 27): the
collectives that the hart started (R320), the classes of its bindings (R258), the collapses that its writes and reads wait for (R223),
the number of its next element, and whether the first instruction of a handler is still to be fetched (R328). -/
structure Frame where
  colls    : List Word
  bind     : Map (Option (Nat × BitVec 256))
  seen     : List Seen
  next     : Nat
  entering : Bool
  deriving DecidableEq, Repr

/-- One core. -/
structure CoreSt where
  /-- maxvl.Q (R86). -/
  q       : BitVec 2
  /-- Cycles of lane stall left after a write to maxvl (R86). -/
  stall   : Nat
  /-- Side log and replay queue: hart and element number, oldest first (R244, R245). -/
  log     : List (Nat × Nat)
  replay  : List (Nat × Nat)
  /-- Offline for dispatch (R216). -/
  offline : Bool
  /-- The hart that received the last exact tie for a pipe: 0 or 1 of the core (R18). -/
  tie     : Nat
  /-- Lines of memory that the L1 data cache holds, oldest first, and lines that disabled ways have taken from it (R196). -/
  l1      : List Nat
  l1Off   : Nat
  deriving DecidableEq, Repr

/-- A core at core reset (R80: maxvl 0b11). No tie has been won yet: tie is 1, so that hart 0 receives the first exact one (R18;
DESIGN CHOICE, log 58). -/
def CoreSt.reset : CoreSt := { q := 3, stall := 0, log := [], replay := [], offline := false, tie := 1, l1 := [], l1Off := 0 }

/-- A wait record of a bank, or an access retrying for one (R276, R277). -/
structure TagRec where
  bank  : Nat
  /-- Storage address of the word. -/
  key   : Nat
  hart  : Nat
  /-- Element number of a VLDF.NB element; 0 for a hart that waits itself. -/
  elt   : Nat
  /-- 0 LDF, 1 LDFK, 2 STE. -/
  kind  : Nat
  data  : BitVec 32
  owner : Nat
  deriving DecidableEq, Repr

/-- A wait of CHWAIT (R283): the chamber's storage address, and the phase that the hart waits to leave. -/
structure ChRec where
  key   : Nat
  hart  : Nat
  phase : Bool
  owner : Nat
  deriving DecidableEq, Repr

/-- One leaf held by a translation cache (R351). core is the core number in its die, or 63 for the die's second level. -/
structure TlbEnt where
  die   : Nat
  core  : Nat
  owner : Nat
  gen   : Nat
  /-- Home die, space, and IPA offset of the page, with its size in bytes. -/
  base  : Nat
  size  : Nat
  leaf  : Word
  deriving DecidableEq, Repr

/-- A line's invalidations being collected (R207): the line, the dies still to acknowledge, and for each whether its copies
are already gone. -/
structure Collapse where
  id   : Nat
  line : Nat
  dies : List (Nat × Bool)
  deriving DecidableEq, Repr

/-- A copy of a line on a die that is not its home (R206, R209), with the owner whose key decrypted it (R213) and the tweak
(R214), and the IPA of the read that filled it. -/
structure LineCopy where
  owner : Nat
  tweak : Nat
  ipa   : Nat
  bytes : List Byte
  /-- Of a window line: bytes that a hart's loads of a class have returned newer from elsewhere: hart, class, offset (R225,
  R238). -/
  stale : List (Nat × Nat × Nat)
  deriving DecidableEq, Repr

/-- A fired trigger in progress (R285). chamber is the IPA of its chamber. -/
structure CopyJob where
  id      : Nat
  owner   : Nat
  chamber : Nat
  dst     : Nat
  src     : Nat
  count   : Nat
  cls     : Nat
  notify  : Nat
  /-- Next segment. -/
  e       : Nat
  /-- TKIND: 1 a collective program at src, 2 a copy; and whether the copy's descriptor at src has been read. -/
  kind    : Nat
  loaded  : Bool
  /-- What an access of it waits for, or what its wait came to. -/
  told    : Option Why
  deriving DecidableEq, Repr

/-- A window entry of a die (R359). closing counts cycles since WIN.REV; none when open or fully closed. -/
structure Window where
  isOpen  : Bool
  seq     : BitVec 16
  owner   : Nat
  base    : Nat
  len     : Nat
  closing : Option Nat
  deriving DecidableEq, Repr

/-- A closed window entry. -/
def Window.closed : Window := { isOpen := false, seq := 0, owner := 0, base := 0, len := 0, closing := none }

/-- State of a collective sequencer (R315). -/
inductive SeqState
  | free | run | paused | done
  deriving DecidableEq, Repr

/-- A collective sequencer (R315). ranges holds the words of the starting hart's range registers as they stood. -/
structure Sequencer where
  st       : SeqState
  seq      : Nat
  va       : Nat
  step     : Nat
  l0       : Nat
  l1       : Nat
  chunks   : Nat
  /-- Outstanding sends: peer rank, matching number, first VA and the data still to go, empty before it has been read. -/
  sends    : List (Nat × Nat × Nat × List Byte)
  header   : List Word
  rank     : Nat
  /-- Rank map: die of each rank. -/
  map      : List Nat
  b3       : Word
  ranges   : Map Word
  owner    : Nat
  gen      : Nat
  hart     : Option Nat
  status   : Word
  collected : Bool
  /-- Chunks sent to, and received from, each peer (R317). -/
  sent     : Map Nat
  recvd    : Map Nat
  /-- Credits returned by, and given to, each peer. -/
  credit   : Map Nat
  given    : Map Nat
  /-- Chunks that have arrived, whole or in part: peer rank, number, bytes. -/
  inbox    : List (Nat × Nat × List Byte)
  /-- A gang pause in progress: answers by rank, and the chunk number P once known (R322). -/
  pausing  : Bool
  answers  : Map (Option Nat)
  target   : Option Nat
  /-- Ranks whose pause it has joined and whose resume notice has not come (R322). -/
  pausers  : List Nat
  /-- A data step whose writes have been applied, with the collapses they wait for (R317). -/
  written  : Option (List Nat)
  /-- The status word that it has still to write (R319), and whether its write has been applied and is being performed. -/
  ending   : Option Word
  stored   : Bool
  /-- va is the program's IPA (R285). -/
  byIpa    : Bool
  /-- What an access of the current step waits for, or what its wait came to. -/
  told     : Option Why
  deriving DecidableEq, Repr

/-- A sequencer that is FREE. -/
def Sequencer.reset : Sequencer :=
  { st := .free, seq := 0, va := 0, step := 0, l0 := 0, l1 := 0, chunks := 0, sends := [], header := [], rank := 0,
    map := [], b3 := 0, ranges := [], owner := 0, gen := 0, hart := none, status := 0, collected := true, sent := [],
    recvd := [], credit := [], given := [], inbox := [], pausing := false, answers := [], target := none, pausers := [],
    written := none, ending := none, stored := false, byIpa := false, told := none }

/-- What a packet carries (R306). -/
inductive Body
  /-- Writes of one hart sent together by its combining buffer (R237): the hart and the element numbers. -/
  | stores (hart : Nat) (elts : List Nat)
  /-- The response to them: number of the request. -/
  | ack (hart req : Nat)
  /-- An access of a source to its home on another die, and the response to it: source, element (0 for one that the source itself
  waits for), IPA, and bytes of the payload, of a request those of its response too. -/
  | request (source elt ipa out back : Nat)
  | response (source elt ipa n : Nat)
  /-- A Lockkeeper or bank ends the wait of a hart of another die, or of its element, with a value (R276, R283). -/
  | notice (hart elt : Nat) (v : Word)
  /-- A page request on its way to V-die 0, from a core (R11, R291). -/
  | pageAsk (core owner : Nat) (gen : BitVec 4) (page kind : Nat)
  /-- Collective messages between ranks of one tag: up to 128 bytes of a chunk with its number (R323), a credit, a loss notice, and
  the pause messages of R322. The first two fields are the tag and the sending rank. -/
  | chunk (tag rank n : Nat) (bytes : List Byte)
  | credit (tag rank n : Nat)
  | loss (tag rank lost : Nat)
  | pauseReq (tag rank : Nat)
  | pauseAns (tag rank chunk : Nat)
  | pauseAt (tag rank chunk : Nat)
  | resume (tag rank : Nat)
  deriving DecidableEq, Repr

/-- A packet in a channel queue or a retry buffer (R307). flow names the source and class of R308. -/
structure Packet where
  body  : Body
  owner : Nat
  flow  : Nat
  age   : Nat
  /-- Cycles waited since the last tick of the age. -/
  wait  : Nat
  k     : Bool
  ctr   : Nat
  sealed : Bool
  deriving DecidableEq, Repr

/-- Channel status (R305). -/
inductive ChanState
  | up | down | halt
  deriving DecidableEq, Repr

/-- One direction of a channel on one plane, at its sender and its receiver (R305, R307, R310, R313). -/
structure Channel where
  st      : ChanState
  queue   : List Packet
  /-- Sent and not acknowledged. -/
  retry   : List Packet
  /-- Packets of the retry buffer not yet resent after a negative acknowledgement. -/
  resend  : Nat
  /-- Packets in flight: position in the retry buffer of the next to arrive. -/
  arrived : Nat
  fails   : Nat
  /-- The receiver discards until the failed packet arrives again. -/
  discard : Bool
  /-- Highest counter accepted under each key slot. -/
  lastA   : Option Nat
  lastB   : Option Nat
  deriving DecidableEq, Repr

/-- A channel after calibration: UP and empty (R305). -/
def Channel.reset : Channel :=
  { st := .up, queue := [], retry := [], resend := 0, arrived := 0, fails := 0, discard := false, lastA := none,
    lastB := none }

/-- A key slot: key, salt and invocation counter (R312); none is an empty slot. -/
structure KeySlot where
  key  : BitVec 256
  salt : BitVec 32
  ctr  : Nat
  deriving DecidableEq, Repr

/-- The two key slots of one direction of a die pair (R312, R313). k is the K bit of the current slot. -/
structure KeyPair where
  k     : Bool
  cur   : Option KeySlot
  next  : Option KeySlot
  /-- Management event raised: the next slot was empty at the threshold. -/
  event : Bool
  deriving DecidableEq, Repr

/-- The plane and last-send cycle of a flow (R308). -/
structure Flow where
  plane : Bool
  last  : Nat
  deriving DecidableEq, Repr

/-- The tables and units of one V-die and its stack. -/
structure Die where
  /-- Cycles of its core clock (R38). -/
  clk      : Nat
  /-- Clock in 100 MHz steps, and the junction temperature last reported, in degrees (R384). -/
  freq     : Nat
  temp     : Nat
  osize    : BitVec 5
  /-- Current size of shared SRAM in MiB, its banks whose place the top bank is to take, and the places of the words of their
  failed rows, whose reads meet an error until then (R217). -/
  sram     : Nat
  shrink   : List Nat
  badWords : List Nat
  /-- Spare rows used by (bank) key, spare banks used by cluster, clusters offline (R215, R216). -/
  spares   : Map Nat
  subs     : Map Nat
  clOff    : List Nat
  /-- Self-tests running: row, and rows classed transient with the cycle (R382). -/
  tests    : List Nat
  /-- Granules with a counted error whose test has not begun (R382). -/
  faulty   : List Nat
  transient : Map Nat
  retired  : List Nat
  /-- Die error block: DROP, CORR, TRANS, LASTING, UNCORR, RETRY, LINKST, RETIRE, PTE, DOUBLE (R369). -/
  errs     : Map Nat
  /-- Partition control register (R329). -/
  pOwner   : Nat
  pState   : BitVec 2
  lastSave : Nat
  /-- Cycle of its clock at which the last hart of the stack reached its save point, or the last member reported PAUSED (R336). -/
  saveFrom : Nat
  /-- Interleave entries: MASK, and BASE and GEN (R354); absent entries are at their bring-up value. -/
  imask    : Map (BitVec 64)
  ibase    : Map (Option (BitVec 4))
  igen     : Map (BitVec 4)
  windows  : Map Window
  routes   : Map (BitVec 32)
  keys     : Map KeyPair
  flows    : Map (Option Flow)
  /-- Since when each destination has been unreachable (R311). -/
  unreach  : Map (Option Nat)
  seqs     : Map Sequencer
  /-- Collective messages that have arrived, with their owner, oldest first (R317, R321, R322). -/
  mail     : List (Nat × Body)
  recs     : List TagRec
  retries  : List TagRec
  chRecs   : List ChRec
  chRetry  : List ChRec
  copies   : List CopyJob
  /-- Dispatch queue and cluster reservations: cluster, entry number (R290, R299). -/
  queue    : List Nat
  reserved : Map (Option Nat)
  /-- The placement claimed and not yet made: entry and cluster. -/
  claims   : List (Nat × Nat)
  /-- The die has made its placement decision of the present cycle (R299). -/
  decided  : Bool
  /-- Pending accumulators, owner * 8 + meter (R371). -/
  pendM    : Map Nat
  /-- Owner-0 core-cycles with no owner resident since the last fold (R373). -/
  idleC    : Nat
  /-- Key generation of each owner in this die's memory controller (R214). -/
  keyGen   : Map Nat
  /-- Lines of its own memory that the L2 slice holds, oldest first, and lines that retired ways have taken from it (R196, R217).
  Its replicas and window lines stand in State.replicas and State.winLines and count against the same capacity (R205). -/
  l2       : List Nat
  l2Off    : Nat
  /-- The end of a period has come and its fold has not been made (R372). -/
  foldDue  : Bool
  /-- Cycle at which the die was last above a limit of R383 (R384). -/
  hotAt    : Nat
  /-- A die reset under way: the step of R380 that runs, since which cycle; and one that waits for READY (R381). -/
  resetting : Option Nat
  stepAt   : Nat
  resetDue : Bool
  deriving DecidableEq, Repr

/-- A die at power-on. -/
def Die.reset : Die :=
  { clk := 0, freq := 20, temp := 0, osize := 0, sram := 64, shrink := [], badWords := [], spares := [], subs := [], clOff := [], tests := [], faulty := [],
    transient := [], retired := [], errs := [], pOwner := 0, pState := 0, lastSave := 0, saveFrom := 0, imask := [],
    ibase := [], igen := [], windows := [], routes := [], keys := [], flows := [], unreach := [], seqs := [],
    mail := [], recs := [],
    retries := [], chRecs := [], chRetry := [], copies := [], queue := [], reserved := [], claims := [], decided := false, pendM := [],
    idleC := 0, keyGen := [], l2 := [], l2Off := 0, foldDue := false, hotAt := 0, resetting := none, stepAt := 0,
    resetDue := false }

/-- STATE of a context record (R292). -/
inductive CtxState
  | free | opened | run | dying
  deriving DecidableEq, Repr

/-- A context record (R292), its range registers (R343), error block (R368), meters (R371) and snapshots (R375). -/
structure Ctx where
  st      : CtxState
  facc    : BitVec 128
  safelim : BitVec 32
  serr    : Bool
  ctx     : BitVec 16
  gen     : BitVec 4
  parts   : BitVec 4
  weight  : BitVec 8
  bbase   : Word
  tvec    : Word
  lmbase  : Word
  waitlim : BitVec 32
  ssize   : BitVec 32
  sbase   : Word
  /-- Range word w of range i at 3 i + w. -/
  ranges  : Map Word
  /-- DISC, TMO, TRIG, SCHED. -/
  errs    : Map Nat
  meters  : Map Nat
  residue : Nat
  snapSeq : Nat
  /-- Stacks still to fold for a snapshot that is forming. -/
  forming : Option (List Nat)
  snap    : List Word
  /-- Last SEQ seen of each slot (R295). -/
  lastSeq : Map (BitVec 8)
  /-- Ready nodes and resumption entries spilled, oldest first, and the deficit (R297, R298). -/
  spill   : List Nat
  deficit : Nat
  /-- Hart slots taken (R414). -/
  slots   : List Nat
  /-- The owner's key has been destroyed and no new tenant has it on these modules (R211). -/
  needClear : Bool
  deriving DecidableEq, Repr

/-- The 128 bytes of a snapshot record before any snapshot (R364). -/
def noSnap : List Word := List.replicate 16 0

/-- A record that has never been opened. -/
def Ctx.reset : Ctx :=
  { st := .free, facc := 0, safelim := 0, serr := false, ctx := 0, gen := 0, parts := 0, weight := 1, bbase := 0,
    tvec := 0, lmbase := 0, waitlim := 0, ssize := 0, sbase := 0, ranges := [], errs := [], meters := [], residue := 0,
    snapSeq := 0, forming := none, snap := noSnap, lastSeq := [], spill := [], deficit := 0, slots := [], needClear := false }

/-- A live launch (R295). -/
structure Launch where
  id     : Nat
  owner  : Nat
  slot   : Nat
  seq    : BitVec 8
  cap    : Nat
  nva    : Word
  nval   : Word
  live   : Nat
  status : Nat
  /-- Root list, number of roots, next root to read, and whether the parse is still in progress (R295). -/
  roots  : Word
  count  : Nat
  next   : Nat
  parsing : Bool
  /-- What the parse waits for, or what its wait came to (R344). -/
  told   : Option Why
  /-- The range registers with which the access that waits has issued, where they have changed since (R347). -/
  rng    : Option (Map Word)
  deriving DecidableEq, Repr

/-- The fields of a descriptor snapshot (R296, R297). -/
structure Desc where
  va     : Word
  entry  : Word
  strict : Bool
  preds  : Nat
  prio   : Nat
  width  : Nat
  cls    : Nat
  args   : List Word
  succ   : Word
  nsucc  : Nat
  opd0   : Word
  opd0M  : BitVec 2
  deriving DecidableEq, Repr

/-- A Basin or spill entry (R297, R337). node is the saved node of a resumption entry. -/
structure Entry where
  id     : Nat
  owner  : Nat
  launch : Nat
  d      : Desc
  aff    : Option Nat
  node   : Option Nat
  /-- Clock of each die of the module at the time of entry, and the order of entry. -/
  at_    : List Nat
  order  : Nat
  deriving DecidableEq, Repr

/-- Where a rank of a node is (R337). -/
inductive RankAt
  | hart (h : Nat) | saved | ended
  deriving DecidableEq, Repr

/-- A running or saved node (R300, R302, R337). -/
structure Node where
  id     : Nat
  owner  : Nat
  launch : Nat
  d      : Desc
  /-- Class of the cores it runs on: 0 M-class, 1 V-class. -/
  cls    : Nat
  aff    : Option Nat
  /-- Hart slot and place of each rank. -/
  ranks  : List (Nat × RankAt)
  /-- Progress of the last NEND (R302): the next successor to release; nsucc + 1 once the launch's count is lowered. -/
  rel    : Option Nat
  /-- VA of that successor's descriptor, once its count has come to 0 and it is still to be made ready. -/
  due    : Option Nat
  deriving DecidableEq, Repr

/-- A page request (R291, R353). -/
structure PageReq where
  num   : Nat
  owner : Nat
  gen   : BitVec 4
  /-- 4 KiB-aligned IPA. -/
  page  : Nat
  kind  : Nat
  cores : List Nat
  deriving DecidableEq, Repr

/-- Words and counts of a replication region (R356, R370). -/
structure Region where
  base    : Nat
  lsize   : BitVec 6
  en      : Bool
  thresh  : BitVec 16
  gen     : BitVec 4
  deg     : BitVec 2
  maxdeg  : BitVec 2
  mindeg  : BitVec 2
  pinned  : Bool
  rread   : Nat
  window  : Nat
  raises  : Nat
  drops   : Nat
  bounces : Nat
  deriving DecidableEq, Repr

/-- A region at bring-up (R356). -/
def Region.reset : Region :=
  { base := 0, lsize := 21, en := false, thresh := 64, gen := 0, deg := 0, maxdeg := 0, mindeg := 0, pinned := false,
    rread := 0, window := 0, raises := 0, drops := 0, bounces := 0 }

/-- One module: contexts, queues, tables and the Lantern. -/
structure Module where
  /-- Peer table row of each owner (R211). -/
  peers    : Map (BitVec 64)
  ctxs     : Map Ctx
  launches : List Launch
  basin    : List Entry
  /-- Entries that a spill holds. -/
  spilled  : List Entry
  nodes    : List Node
  preqs    : List PageReq
  regions  : Map Region
  /-- Lantern status register (R378). -/
  ready    : Bool
  fail     : Bool
  stage    : Nat
  fcode    : Nat
  doff     : BitVec 4
  chalt    : BitVec 8
  /-- Bring-up step running; none when none runs (R380). -/
  step     : Option Nat
  /-- Cycle of V-die 0 at which it began (R2, R380). -/
  stepAt   : Nat
  /-- Power has been applied. -/
  on       : Bool
  entryVa  : Word
  foff     : BitVec 128
  /-- The control-core image: its signature verifies under a fused key, its version, and the fused minimum (R385). -/
  imgOk    : Bool
  imgVer   : Nat
  minVer   : Nat
  /-- The operator's cap and the power drawn, in watts (R384). -/
  cap      : Nat
  power    : Nat
  /-- Meter weights w_0 to w_6 (R373). -/
  weights  : Map Nat
  /-- Snapshot records held for free owners (R375). -/
  finals   : Map (List Word)
  /-- Launch records snapped by a write of SEQ and not yet parsed: owner, slot, the 64 bytes (R295). -/
  parses   : List (Nat × Nat × List Byte)
  deriving DecidableEq, Repr

/-- A module in standby. -/
def Module.reset : Module :=
  { peers := [], ctxs := [], launches := [], basin := [], spilled := [], nodes := [], preqs := [], regions := [],
    ready := false, fail := false, stage := 0, fcode := 0, doff := 0, chalt := 0, step := none, stepAt := 0, on := false, entryVa := 0,
    foff := 0x7FF, imgOk := true, imgVer := 0, minVer := 0, cap := 3000, power := 0, weights := [], finals := [], parses := [] }

/-- A request that has been accepted and waits at the input arbiter of its home (R222, R309): the stores of a combining buffer, or
with far an access of a source: its element and IPA. -/
structure Req where
  id    : Nat
  src   : Nat
  dst   : Nat
  /-- The hart, or the source of an access. -/
  hart  : Nat
  elts  : List Nat
  /-- Number of stores that have been applied. -/
  done  : Nat
  /-- Element, IPA, and bytes of the response's payload. -/
  far   : Option (Nat × Nat × Nat)
  owner : Nat
  cls   : Nat
  plane : Bool
  age   : Nat
  wait  : Nat
  deriving DecidableEq, Repr

/-- How far an access to another die has come (R306, R311): on its way or waiting at its home, answered, its response lost, or its
request dropped. -/
inductive FarAt
  | sent | back | lost | dropped
  deriving DecidableEq, Repr

/-- A read and write at home that nothing falls between: an operation of R264 on w bits with its operands, and the decrement of a
node's count of predecessors (R302). -/
inductive AtomicOp
  | amo (op : BitVec 4) (w a cmp : Nat)
  | preds
  deriving DecidableEq, Repr

/-- What a Lockkeeper does with a chamber (R281, R282, R284): read it; CHINIT with EXPECTED; CHARR with a count; CHWAIT in a phase;
CHARM with a kind and the IPA of its trigger, kind 0 to disarm. -/
inductive ChAct
  | look
  | init (n : Nat)
  | arrive (n : Nat)
  | wait (phase : Bool)
  | arm (kind ipa : Nat)
  deriving DecidableEq, Repr

/-- What an access asks of its home (R306). -/
inductive FarOp
  /-- A read, with GEN of the region that steered it, of a read under R206 (R358). -/
  | read (gen : Option (BitVec 4))
  | write (prv : BitVec 2) (bytes : List Byte)
  | atomic (n : Nat) (o : AtomicOp)
  /-- A tagged access and a chamber instruction, with the VA that its hart reports (R276, R283). -/
  | tag (kind : Nat) (data : BitVec 32) (va : Nat)
  | chamber (act : ChAct) (va : Nat)
  deriving DecidableEq, Repr

/-- What an access has come to at its home: a value, and the collapse that its write began; or an error. -/
inductive FarVal
  | val (v : Nat) (c : Option Nat)
  | fault (c : Cause)
  deriving DecidableEq, Repr

/-- An access of a source to a home on another die. key is its storage address; out and back are the bytes of payload of the request
and of its response; since is a cycle of the source's die. val is what it has come to, once it has acted at its home. A read, and an
access that a unit of a convoy makes among others, has none: it acts in the step in which its source goes on (log 6). -/
structure Far where
  source : Nat
  elt    : Nat
  ipa    : Nat
  owner  : Nat
  cls    : Nat
  key    : Nat
  op     : FarOp
  out    : Nat
  back   : Nat
  since  : Nat
  state  : FarAt
  val    : Option FarVal
  deriving DecidableEq, Repr

/-- A translation invalidation message being collected (R352): what it covers, and the dies that have not acknowledged. -/
structure Inval where
  id    : Nat
  md    : Nat
  owner : Nat
  lo    : Nat
  size  : Nat
  dies  : List Nat
  deriving DecidableEq, Repr

/-- A message to the world outside the pod (R295, R313, R353, R375, R385). -/
inductive Msg
  | report (md owner slot : Nat) (seq : BitVec 8) (status : Nat)
  | pageRequest (md num owner : Nat) (gen : BitVec 4) (page kind : Nat)
  | invalDone (md : Nat) (ok : Bool)
  | hostDone (md : Nat) (data : Word) (ok : Bool)
  | snapshot (md owner : Nat) (words : List Word)
  | attestation (md : Nat) (nonce : BitVec 512) (ids images : List Word) (foff : BitVec 128) (signature : List Word)
  | keyEvent (src dst : Nat)
  | pausedTogether (die q : Nat)
  deriving DecidableEq, Repr

/-- Whose turn is next (log 1): a hart, a step of another agent, or a happening that no row of the opcode table names. -/
inductive Turn
  | hart (h : Nat)
  /-- A hart starts its convoy without committing a unit, so that COMMIT_UNIT steps can follow. -/
  | startConvoy (h : Nat)
  | event (i : Instr)
  /-- One cycle of a die's clock (R38). -/
  | tick (die : Nat)
  /-- A translation-cache entry, replica or window line is dropped; a dirty line is written back; a line leaves the caches of its
  home die. -/
  | evictTlb (n : Nat)
  | evictLine (n : Nat)
  | writeBack (line : Nat)
  | evictHome (line : Nat)
  /-- The hart's stores to its own die wait like posted ones, or no longer (log 7). -/
  | posting (h : Nat) (on : Bool)
  /-- The hart fetches the parcel at a VA ahead of its execution (R227, log 8). -/
  | prefetch (h : Nat) (va : Word)
  /-- A read of n bytes at a VA binds before earlier accesses of the hart in other classes (R224, log 6). -/
  | bindEarly (h cls va n : Nat)
  /-- An error in the ECC granule at a storage address (R215). -/
  | bitError (key : Nat) (uncorrectable : Bool)
  /-- The bank self-test of a bring-up or a die reset finds a failing row (R380, R381). -/
  | failingRow (die row : Nat)
  /-- The operator sets a meter weight of a module through the Lantern (R373). -/
  | setWeight (md m w : Nat)
  /-- The operator sets the power cap of a module, or its power is measured, in watts (R384). -/
  | setCap (md w : Nat)
  | power (md w : Nat)
  /-- Another control-core image is put in place: whether its signature verifies, and its version (R385). -/
  | image (md : Nat) (verifies : Bool) (version : Nat)
  deriving DecidableEq, Repr

/-- The state of the pod. -/
structure State where
  /-- The hart that acts (the model's own field, log 1). -/
  cur      : Nat
  /-- The turns to come (the model's own field, log 1). -/
  agenda   : List Turn
  /-- Free values drawn so far (the model's own field, log 5). -/
  fresh    : Nat
  harts    : Map Hart
  cores    : Map CoreSt
  dies     : Map Die
  modules  : Map Module
  mem      : Memory
  /-- Owner, key generation and tweak under which an HBM line was last written (R214); absent is owner 0. -/
  keyTag   : Map (Nat × Nat × Nat)
  /-- Owner tag of a word or of a shared SRAM line (R212). -/
  owners   : Map Nat
  /-- Words whose full/empty bit is full (R200, R202). -/
  full     : Map Bool
  /-- Poisoned granules (R215). -/
  poison   : Map Bool
  /-- Dirty HBM lines of their home die, with the key tag and the bytes last written back (R204, R219). -/
  dirty    : Map (Option ((Nat × Nat × Nat) × List Byte))
  /-- Replicas: line * 4 + die in module (R206). -/
  replicas : Map (Option LineCopy)
  collapses : List Collapse
  /-- Window lines: die * 2 ^ 57 + line IPA (R209). -/
  winLines : Map (Option LineCopy)
  tlb      : List TlbEnt
  chans    : Map Channel
  /-- Packets that found their channel queue full; their sources hold them (R309). -/
  outbox   : List Packet
  /-- Accesses to other dies under way (R306). -/
  far      : List Far
  arrived  : List Req
  /-- Frames that hold a saved hart, by (die * 64 + owner) * 96 + local slot (R334). -/
  frames   : Map (Option Frame)
  /-- Harts whose stores wait like posted ones (log 7). -/
  posting  : Map Bool
  out      : List Msg
  /-- Source of numbers for launches, nodes, entries and requests. -/
  serial   : Nat
  /-- Translation invalidation messages being collected (R352). -/
  invals   : List Inval
  /-- Words with wait records whose full/empty bit the owner rule has changed in this step; their banks serve them at its end
  (R276, log 9). -/
  stirred  : List Nat
  /-- A plain write of the host in the step just taken, on a page without SA: a number of its own, its storage address and the
  bytes before it. A device atomic in the next step may have read before it (R288, log 16). -/
  raced    : Option (Nat × Nat × List Byte)
  deriving DecidableEq, Repr

/-- The hart number of control hart 0 of V-die 0 of module 0 (R10). -/
def controlHart0 : Nat := 96

/-- The pod in standby, before power-on (R378, R380; log 2): every hart IDLE, memory with nothing listed. -/
def State.reset : State :=
  { cur := controlHart0, agenda := [], fresh := 0, harts := [], cores := [], dies := [], modules := [], mem := [],
    keyTag := [], owners := [], full := [], poison := [], dirty := [], replicas := [], collapses := [], winLines := [],
    tlb := [], chans := [], outbox := [], far := [], arrived := [], frames := [], posting := [], out := [], serial := 1, invals := [], stirred := []
    raced := none }

end Sys2Proof.Machine
end

