-- ==== Sys2Proof/Machine/Maps.lean ====
section
/-! DEFINITION. Sparse maps: sorted lists of key and value pairs that list no default value. -/

namespace Sys2Proof.Machine

open Sys2Proof

/-- The value at a key; d where none is listed. -/
def mget {β : Type} (d : β) : Map β → Nat → β
  | [], _ => d
  | (k', v) :: r, k => if k = k' then v else mget d r k

/-- Without the entries of a key. -/
def mdel {β : Type} : Map β → Nat → Map β
  | [], _ => []
  | (k', v) :: r, k => if k = k' then mdel r k else (k', v) :: mdel r k

/-- With a value put at its place in the order of keys. -/
def mput {β : Type} : Map β → Nat → β → Map β
  | [], k, v => [(k, v)]
  | (k', v') :: r, k, v =>
    if k < k' then (k, v) :: (k', v') :: r
    else if k = k' then (k, v) :: r
    else (k', v') :: mput r k v

/-- Write a value; writing the default removes the entry. -/
def mset {β : Type} [DecidableEq β] (d : β) (m : Map β) (k : Nat) (v : β) : Map β :=
  if v = d then mdel m k else mput m k v

/-- Keys strictly rise from lo on, and no entry equals d. -/
def mwf {β : Type} [DecidableEq β] (d : β) (lo : Nat) : Map β → Bool
  | [] => true
  | (k, v) :: r => lo ≤ k && v ≠ d && mwf d (k + 1) r

/-- The canonical form of memory: addresses strictly rising, and no entry equal to the 0 that an unlisted address reads as
(R196, R380; log 4). -/
def Memory.wf (m : Memory) : Bool := mwf (0 : Byte) 0 m

/-- One byte of memory (log 4). -/
def Memory.byte (m : Memory) (a : Nat) : Byte := mget 0 m a

/-- Write one byte. -/
def Memory.setByte (m : Memory) (a : Nat) (b : Byte) : Memory := mset 0 m a b

/-- n bytes from a on. -/
def Memory.bytes (m : Memory) (a : Nat) : Nat → List Byte
  | 0 => []
  | n + 1 => Memory.byte m a :: Memory.bytes m (a + 1) n

/-- Write bytes from a on. -/
def Memory.setBytes (m : Memory) (a : Nat) : List Byte → Memory
  | [] => m
  | b :: r => Memory.setBytes (Memory.setByte m a b) (a + 1) r

end Sys2Proof.Machine
end

