-- ==== Sys2Proof/Machine/Ops.lean ====
section
/-! DEFINITION. Named operations on harts and their registers, taking a trap (R325) and returning from one (R126). -/

namespace Sys2Proof.Machine

open Sys2Proof

/-- The outcomes of a step. -/
abbrev Out := Host.Outcome State Fault Refusal

/-! Numbering (R10, R14, R198, R361). -/

/-- The core of a hart. -/
def hartCore (h : Nat) : Nat := h / 2
/-- The die of a hart. -/
def hartDie (h : Nat) : Nat := h / 128
/-- The core's number in its die. -/
def coreInDie (h : Nat) : Nat := h / 2 % 64
/-- A control hart (R10). -/
def isControl (h : Nat) : Bool := coreInDie h == 48
/-- A hart of an M-class core (R14). -/
def isMClass (h : Nat) : Bool := coreInDie h < 32
/-- The module of a die. -/
def dieModule (d : Nat) : Nat := d / 4
/-- The hart exists: 64 modules of 4 V-dies with 48 cores and a control core of 2 harts (R8, R10, R12). -/
def hartExists (h : Nat) : Bool := h < 32768 && coreInDie h ≤ 48

/-! Homes of the records. -/

/-- A hart's record. -/
def State.hart (s : State) (h : Nat) : Hart := mget Hart.idle s.harts h
/-- Replace a hart's record. -/
def State.setHart (s : State) (h : Nat) (x : Hart) : State := { s with harts := mset Hart.idle s.harts h x }
/-- The hart that acts. -/
def State.me (s : State) : Hart := s.hart s.cur
/-- Replace the record of the hart that acts. -/
def State.setMe (s : State) (x : Hart) : State := s.setHart s.cur x
/-- A core's record. -/
def State.core (s : State) (c : Nat) : CoreSt := mget CoreSt.reset s.cores c
/-- Replace a core's record. -/
def State.setCore (s : State) (c : Nat) (x : CoreSt) : State := { s with cores := mset CoreSt.reset s.cores c x }
/-- A die's record. -/
def State.die (s : State) (d : Nat) : Die := mget Die.reset s.dies d
/-- Replace a die's record. -/
def State.setDie (s : State) (d : Nat) (x : Die) : State := { s with dies := mset Die.reset s.dies d x }
/-- A module's record. -/
def State.md (s : State) (m : Nat) : Module := mget Module.reset s.modules m
/-- Replace a module's record. -/
def State.setMd (s : State) (m : Nat) (x : Module) : State := { s with modules := mset Module.reset s.modules m x }
/-- Context record n of a module (R292). -/
def State.ctx (s : State) (m n : Nat) : Ctx := mget Ctx.reset (s.md m).ctxs n
/-- Replace a context record. -/
def State.setCtx (s : State) (m n : Nat) (x : Ctx) : State :=
  s.setMd m { s.md m with ctxs := mset Ctx.reset (s.md m).ctxs n x }
/-- Send a message to the world outside. -/
def State.say (s : State) (x : Msg) : State := { s with out := s.out ++ [x] }

/-- Owner number of a ctxid value (R85). -/
def ctxOwner (c : BitVec 26) : Nat := (c.extractLsb' 20 6).toNat
/-- Generation of a ctxid value (R85). -/
def ctxGen (c : BitVec 26) : Nat := (c.extractLsb' 16 4).toNat
/-- The owner that a hart's accesses carry: 0 on a control hart (R210). -/
def State.owner (s : State) (h : Nat) : Nat := if isControl h then 0 else ctxOwner (s.hart h).c.ctxid

/-! Register files. -/

/-- g[r]; g0 reads zero (R73). -/
def Hart.g (x : Hart) (r : BitVec 5) : Word := if r = 0 then 0 else mget 0 x.f.g r.toNat
/-- g[r] := w; a write to g0 is dropped (R73, R114). -/
def Hart.setG (x : Hart) (r : BitVec 5) (w : Word) : Hart :=
  if r = 0 then x else { x with f := { x.f with g := mset 0 x.f.g r.toNat w } }
/-- A main (0 to 63) or operand (64 to 71) register (R45). -/
def Hart.v (x : Hart) (n : Nat) : VReg := mget 0 x.f.v n
/-- Write a main or operand register. -/
def Hart.setV (x : Hart) (n : Nat) (w : VReg) : Hart := { x with f := { x.f with v := mset 0 x.f.v n w } }
/-- A mask register; k0 reads all ones (R73). -/
def Hart.k (x : Hart) (n : Nat) : KReg := if n = 0 then BitVec.allOnes 512 else mget 0 x.f.k n
/-- Write a mask register; a write to k0 is ignored (R73). -/
def Hart.setK (x : Hart) (n : Nat) (w : KReg) : Hart :=
  if n = 0 then x else { x with f := { x.f with k := mset 0 x.f.k n w } }
/-- Row i of tile t (R79). -/
def Hart.tile (x : Hart) (t i : Nat) : VReg := mget 0 x.f.t (t * 128 + i)
/-- Write row i of tile t. -/
def Hart.setTile (x : Hart) (t i : Nat) (w : VReg) : Hart := { x with f := { x.f with t := mset 0 x.f.t (t * 128 + i) w } }
/-- A completion counter (R365). -/
def Hart.ccv (x : Hart) (n : Nat) : BitVec 32 := mget 0 x.cc n
/-- Write a completion counter. -/
def Hart.setCc (x : Hart) (n : Nat) (w : BitVec 32) : Hart := { x with cc := mset 0 x.cc n w }

/-- g[r] of the hart that acts. -/
def State.g (s : State) (r : BitVec 5) : Word := s.me.g r

/-! Retirement (R90). -/

/-- Advance the pc past an instruction of n bytes and count it (R90). -/
def Hart.retire (x : Hart) (n : Word) : Hart :=
  { x with pc := x.pc + n, c := { x.c with instret := x.c.instret + 1 }, hold := none, served := none,
           st := .run }
/-- Go to a pc and count the instruction. -/
def Hart.jump (x : Hart) (pc : Word) : Hart := { x.retire 0 with pc := pc }
/-- Retire the hart's scalar instruction. -/
def State.retire (s : State) (n : Word) : State := s.setMe (s.me.retire n)
/-- Write g[rd] and retire. -/
def State.write (s : State) (rd : BitVec 5) (w : Word) (n : Word) : State := s.setMe ((s.me.setG rd w).retire n)

/-! Traps. -/

/-- Cause codes (R324). -/
def Cause.code : Cause → BitVec 8
  | .illegalInstruction => 1 | .illegalConvoy => 2 | .illegalOperand => 3 | .misaligned => 4 | .rangeFault => 5
  | .protectionFault => 6 | .pageFaultFatal => 7 | .dataError => 8 | .tagWaitTimeout => 9 | .noArray => 10
  | .bindFault => 11 | .collectiveAbort => 12 | .fenceToken => 13 | .privilege => 14 | .trapInstruction => 15

/-- A fault that an instruction raises: its cause and tval. -/
structure Trap where
  cause : Cause
  tval  : Word
  deriving DecidableEq, Repr

/-- The address that tvec names: BASE * 2 (R85, R325). -/
def tvecPc (t : Word) : Word := (t.extractLsb' 1 56).setWidth 64 <<< 1

/-- Taking a trap (R325): on a dispatched hart to S, on a control hart to M. A save that waited for the instruction waits no longer: the
hart is pre-empted in its handler (R341). -/
def Hart.trap (x : Hart) (control : Bool) (t : Trap) (epc : Word) (epos : BitVec 9) : Hart :=
  { x with
    st := .run
    pc := tvecPc x.c.tvec
    c := { x.c with
      epc := epc &&& ~~~ 1#64, epos := epos, cause := t.cause.code, tval := t.tval, pp := x.c.prv,
      prv := if control then 3 else 1 }
    hold := none, served := none, convoy := none, opq := [], ready := none, entering := true, saveDue := false }

/-- Hart h takes a trap. -/
def State.trapAt (s : State) (h : Nat) (t : Trap) (epc : Word) (epos : BitVec 9) : State :=
  s.setHart h ((s.hart h).trap (isControl h) t epc epos)

/-- The hart's scalar instruction traps: epc is its pc, epos 0 (R324). -/
def State.trap (s : State) (t : Trap) : State := s.trapAt s.cur t s.me.pc 0

/-- The parcels of an instruction as tval holds them (R69). -/
def parcels (i : Instr) : Word :=
  match encode i with
  | some (_, w) => w
  | none => 0

/-- Returning from a trap (R126): level PP, PP := 0, and the pc at epc. -/
def Hart.trapReturn (x : Hart) : Hart :=
  { x.jump x.c.epc with
    c := { (x.jump x.c.epc).c with prv := x.c.pp, pp := 0 } }

/-! Waiting. -/

/-- The hart does not issue, and tries its scalar instruction again later. -/
def State.wait (s : State) (why : Why) (i : Instr) : State := s.setMe { s.me with hold := some ⟨why, some i⟩ }
/-- The hart parks at its scalar instruction (R16). -/
def State.park (s : State) (why : Why) (i : Instr) : State :=
  s.setMe { s.me with hold := some ⟨why, some i⟩, st := .park }

/-- Draw a number for a free value (log 5). -/
def State.draw (s : State) : State := { s with fresh := s.fresh + 1 }

/-- Draw the next number of launches, nodes, entries and requests. -/
def State.number (s : State) : State := { s with serial := s.serial + 1 }

end Sys2Proof.Machine
end

