-- ==== Sys2Proof/Machine/Places.lean ====
section
/-! DEFINITION. Intermediate physical addresses (R197, R198), storage addresses, and the placing of HBM (R354).

A storage address is die * 2^40 + place. Places: HBM pseudo-channel * 2^31 + channel offset (R354), the overflow area of sync SRAM
among it (R200); shared SRAM from 2^37; sync SRAM from 2^38; scratchpads from 2^39; TCMs from 2^39 + 2^30; space 0xD from
2^39 + 2^31; and, as names of rows alone, L2 slice-banks from 2^39 + 2^32 and L1 data caches from 2^39 + 2^33. -/

namespace Sys2Proof.Machine

open Sys2Proof

/-- Home die of an IPA, module * 4 + die (R197). -/
def ipaHome (ipa : Nat) : Nat := ipa / 2 ^ 48 % 256
/-- SPACE of an IPA. -/
def ipaSpace (ipa : Nat) : Nat := ipa / 2 ^ 44 % 16
/-- OFFSET of an IPA. -/
def ipaOff (ipa : Nat) : Nat := ipa % 2 ^ 44
/-- The paged spaces (R198). -/
def pagedSpace (sp : Nat) : Bool := sp ≤ 8

/-- The kinds of storage. -/
inductive Spc
  | hbm | sram | sync | scratch | tcm | ctl
  deriving DecidableEq, Repr

/-- The storage kind of a storage address. -/
def keySpc (key : Nat) : Spc :=
  let p := key % 2 ^ 40
  if p < 2 ^ 37 then .hbm else if p < 2 ^ 38 then .sram else if p < 2 ^ 39 then .sync
  else if p < 2 ^ 39 + 2 ^ 30 then .scratch else if p < 2 ^ 39 + 2 ^ 31 then .tcm else .ctl

/-- The die of a storage address. -/
def keyDie (key : Nat) : Nat := key / 2 ^ 40
/-- The 128-byte line of a storage address (R203). -/
def keyLine (key : Nat) : Nat := key / 128

/-- Storage address of an offset of a fixed space, in sync SRAM one below the overflow area. -/
def fixedKey (die sp off : Nat) : Nat :=
  die * 2 ^ 40 +
  (if sp = 9 then 2 ^ 38 else if sp = 10 then 2 ^ 39 else if sp = 11 then 2 ^ 39 + 2 ^ 30 else 2 ^ 39 + 2 ^ 31) + off

/-- Storage address of an offset of space 0xD. -/
def ctlKey (die off : Nat) : Nat := fixedKey die 13 off

/-- MASK of a group's interleave entry (R354). -/
def Die.mask (d : Die) (c : Nat) : Nat := (mget (BitVec.allOnes 64) d.imask c).toNat
/-- BASE of a group's interleave entry; c at bring-up (R354). -/
def Die.base (d : Die) (c : Nat) : Nat :=
  match mget none d.ibase c with
  | some b => b.toNat
  | none => c

/-- Set bits among the low n. -/
def popNat : Nat → Nat → Nat
  | 0, _ => 0
  | n + 1, w => (if w.testBit n then 1 else 0) + popNat n w

/-- Position of the m-th set bit of a mask, looking from bit i on at n bits. -/
def nthSet : Nat → Nat → Nat → Nat → Nat
  | 0, i, _, _ => i
  | n + 1, i, w, m => if w.testBit i then (if m = 0 then i else nthSet n (i + 1) w (m - 1)) else nthSet n (i + 1) w m

/-- Storage address of a die physical address (R345, R350, R354). -/
def dpaKey (s : State) (die dpa : Nat) : Nat :=
  if dpa < 2 ^ 37 then
    let d := s.die die
    let c := dpa / 2 ^ 34
    let mask := d.mask c
    let n := popNat 64 mask
    let q := dpa / 256 % 2 ^ 26
    die * 2 ^ 40 + nthSet 64 0 mask (q % n) * 2 ^ 31 + (d.base c * 2 ^ 28 + q / n * 256 + dpa % 256) % 2 ^ 31
  else die * 2 ^ 40 + dpa

/-- Bytes of OSIZE (R201). -/
def Die.overflow (d : Die) : Nat := d.osize.toNat * 2 ^ 26

/-- The DPA of an offset of space 0x9 in the overflow area: it ends just below the table area of channel group 7 (R200). -/
def Die.overflowDpa (d : Die) (off : Nat) : Nat := 7 * 2 ^ 34 + (0x200000000 - d.overflow) + (off - 0x800000)

/-- Storage address of an offset of a fixed space (R198, R200). -/
def spaceKey (s : State) (die sp off : Nat) : Nat :=
  if sp = 9 && 0x800000 ≤ off then dpaKey s die ((s.die die).overflowDpa off) else fixedKey die sp off

/-- The offset in a channel group of a place in HBM; none where the group does not reach it (R354). -/
def Die.groupOff (d : Die) (c p : Nat) : Option Nat :=
  let mask := d.mask c
  let pc := p / 2 ^ 31
  let q := (p % 2 ^ 31 + 2 ^ 31 - d.base c * 2 ^ 28 % 2 ^ 31) % 2 ^ 31 / 256 * popNat 64 mask + popNat pc mask
  if mask.testBit pc && q < 2 ^ 26 then some (q * 256 + p % 256) else none

/-- The storage address lies in an overflow area of n bytes of its die. -/
def inOverflow (s : State) (n key : Nat) : Bool :=
  n != 0 && keySpc key == .hbm &&
    match (s.die (keyDie key)).groupOff 7 (key % 2 ^ 40) with
    | some o => 0x200000000 - n ≤ o && o < 0x200000000
    | none => false

/-- How storage at an address is held: the overflow area of HBM has the tags and bits of sync SRAM (R200). -/
def State.spc (s : State) (key : Nat) : Spc :=
  if inOverflow s (s.die (keyDie key)).overflow key then .sync else keySpc key

/-- A DPA in the shadow region or the overflow area, which no access reaches (R200, R334). -/
def dpaHidden (d : Die) (dpa : Nat) : Bool :=
  dpa / 2 ^ 34 == 7 &&
    (0x280000000 ≤ dpa % 2 ^ 34 || (0x200000000 - d.overflow ≤ dpa % 2 ^ 34 && dpa % 2 ^ 34 < 0x200000000))

/-- A DPA in the table area, which only owner 0 reaches (R348). -/
def dpaTable (dpa : Nat) : Bool := dpa / 2 ^ 34 == 7 && 0x200000000 ≤ dpa % 2 ^ 34

/-- The offset names a place that exists at the space's current size (R198, R217, R200). Space 0xD is checked by its map. -/
def spaceOk (s : State) (ipa : Nat) : Bool :=
  let off := ipaOff ipa
  let d := s.die (ipaHome ipa)
  match ipaSpace ipa with
  | 0 | 1 | 2 | 3 | 4 | 5 | 6 | 7 => off < 2 ^ 34
  | 8 => off < d.sram * 2 ^ 20
  | 9 => off < 0x800000 + d.overflow
  | 10 => off < 12 * 2 ^ 21
  | 11 => off < 48 * 2 ^ 18
  | 13 => off < 2 ^ 20
  | _ => false

/-- The bank of a tagged word: one number for each bank of each die (R200, R202, R262). Sync SRAM banks are 0 to 15, the
overflow bank, which lies in HBM, 16, scratchpad banks 32 + 256 cluster + bank. -/
def bankOf (key : Nat) : Nat :=
  let die := keyDie key
  let p := key % 2 ^ 40
  die * 4096 +
  (match keySpc key with
   | .sync => (p - 2 ^ 38) / 4 % 16
   | .hbm => 16
   | _ => let o := p - 2 ^ 39; 32 + 256 * (o / 2 ^ 21) + o / 4 % 256)

end Sys2Proof.Machine
end

