-- ==== Sys2Proof/Machine/Store.lean ====
section
/-! DEFINITION. Storage at its home: owner tags (R212), HBM keys (R214), poison (R215), dirty lines (R204, R219), replicas and
their collapse (R206 to R208). -/

namespace Sys2Proof.Machine

open Sys2Proof

/-- What an access, or a part of one, comes to: a value, a refusal or trap with its cause, or a wait. -/
inductive Res (α : Type)
  | ok (s : State) (a : α)
  | fault (s : State) (c : Cause)
  | stall (s : State) (w : Why)

/-- Go on with the value. -/
def Res.bind {α β : Type} (r : Res α) (f : State → α → Res β) : Res β :=
  match r with
  | .ok s a => f s a
  | .fault s c => .fault s c
  | .stall s w => .stall s w

/-- The state of a result. -/
def Res.st {α : Type} : Res α → State
  | .ok s _ => s
  | .fault s _ => s
  | .stall s _ => s

/-- The state reached when the value is of no interest. -/
def Res.orElse {α : Type} (r : Res α) (f : State → State) : State :=
  match r with
  | .ok s _ => s
  | .fault s _ => f s
  | .stall s _ => f s

/-- Advance a field of the context's error block: 0 DISC, 1 TMO, 2 TRIG, 3 SCHED; saturating (R368). -/
def State.countCtx (s : State) (m n field : Nat) : State :=
  if n = 0 then s else
  let c := s.ctx m n
  let k := mget 0 c.errs field
  s.setCtx m n { c with errs := mset 0 c.errs field (if k + 1 < 2 ^ 64 then k + 1 else k) }

/-- Advance a field of a die error block (R369): 0 DROP, 1 CORR, 2 TRANS, 3 LASTING, 4 UNCORR, 5 RETRY, 6 LINKST, 7 RETIRE,
8 PTE, 9 DOUBLE. -/
def State.countDie (s : State) (d field : Nat) : State :=
  let x := s.die d
  let k := mget 0 x.errs field
  s.setDie d { x with errs := mset 0 x.errs field (if k + 1 < 2 ^ 64 then k + 1 else k) }

/-- Add to a pending accumulator (R371). -/
def State.charge (s : State) (d owner m n : Nat) : State :=
  let x := s.die d
  s.setDie d { x with pendM := mset 0 x.pendM (owner * 8 + m) (mget 0 x.pendM (owner * 8 + m) + n) }

/-- Read n bytes of storage as they stand. -/
def State.rd (s : State) (key n : Nat) : List Byte := Memory.bytes s.mem key n
/-- Replace bytes of storage, whatever they stand for: the RES bits of a chamber are bytes like any others (R6, R280; DESIGN CHOICE,
log 51). -/
def State.wr (s : State) (key : Nat) (bs : List Byte) : State := { s with mem := Memory.setBytes s.mem key bs }
/-- Zero n bytes of storage. -/
def State.zero (s : State) (key n : Nat) : State := s.wr key (List.replicate n 0)
/-- n bytes as a little-endian number. -/
def State.rdNat (s : State) (key n : Nat) : Nat := leBytes (s.rd key n)

/-- Free bytes (log 5). -/
def freeBytes (seed : Nat) : Nat → List Byte
  | 0 => []
  | n + 1 => Config.freeByte (seed * 1024 + n) :: freeBytes seed n

/-- Multiples of u that start a unit with a byte in [key, key + n). -/
def unitsOf (u key n : Nat) : List Nat :=
  if n = 0 then [] else (List.range ((key + n - 1) / u - key / u + 1)).map fun i => (key / u + i) * u

/-- Bytes of the owner-tag unit at a storage address (R212). -/
def tagUnit (key : Nat) : Nat := if keySpc key = .sram then 128 else 4
/-- Bytes of the ECC granule (R215). -/
def eccUnit (key : Nat) : Nat := if keySpc key = .hbm then 128 else 4

/-- Owner tag of a unit. -/
def State.tagOf (s : State) (u : Nat) : Nat := mget 0 s.owners u
/-- Full/empty bit of a word (R200, R202). -/
def State.isFull (s : State) (w : Nat) : Bool := mget false s.full w
/-- Set a full/empty bit. -/
def State.setFull (s : State) (w : Nat) (b : Bool) : State := { s with full := mset false s.full w b }

/-- A granule in a range is poisoned, or lies in the failed row of a shared SRAM bank (R215, R217). -/
def State.poisoned (s : State) (key n : Nat) : Bool :=
  ((unitsOf (eccUnit key) key n).any fun u => mget false s.poison u) ||
    (s.die (keyDie key)).badWords.any fun w => key % 2 ^ 40 < w + 4 && w < key % 2 ^ 40 + n

/-! Rows and their tests (R382). -/

/-- The bank or pseudo-channel of a storage address, by a number of its own (R202, R215, R217). -/
def spareBank (key : Nat) : Nat :=
  let p := key % 2 ^ 40
  match keySpc key with
  | .hbm => 2 ^ 20 + p / 2 ^ 31
  | .sram => 2 ^ 21 + (p - 2 ^ 37) / 2 ^ 20
  | .tcm => 2 ^ 22 + (p - (2 ^ 39 + 2 ^ 30)) / 2 ^ 18
  | .ctl => 2 ^ 23 + (p - 2 ^ 39) / 2 ^ 16
  | _ => bankOf key % 4096

/-- Storage address of a row: below 2^37 the row is named by a die physical address, above by a place. -/
def rowKey (s : State) (die row : Nat) : Nat := if row < 2 ^ 37 then dpaKey s die row else die * 2 ^ 40 + row

/-- The words of a row of a die's SRAM: those that Config names in the row's bank (R215 to R217; log 15). -/
def rowPlaces (die row key : Nat) : List Nat :=
  ((Config.rowWords row).map fun w => die * 2 ^ 40 + w % 2 ^ 40 / 4 * 4).filter fun w => spareBank w == spareBank key

/-- The ECC granule that holds a storage address (R215). -/
def granule (key : Nat) : Nat := key / eccUnit key * eccUnit key

/-- A granule lies in a row of a die: the one that names the row, or one of its words. -/
def inRow (s : State) (die row u : Nat) : Bool :=
  u == granule (rowKey s die row) || (rowPlaces die row (rowKey s die row)).any fun w => granule w == u

/-- A granule in a range lies in a row under test: its accesses are held (R382). A table walk and a save read the row as it stands,
which is what the test restores. -/
def State.testing (s : State) (key n : Nat) : Bool :=
  (s.die (keyDie key)).tests.any fun row => (unitsOf (eccUnit key) key n).any fun u => inRow s (keyDie key) row u

/-- An access at its home, held while its row is under test (R382). -/
def heldByTest {α : Type} (s : State) (key n : Nat) (r : Res α) : Res α := if s.testing key n then .stall s .order else r

/-- What f makes of a state in which no row of die d is under test, for an access that cannot be held; the tests go on after it, and
an error in a row of theirs joins them. -/
def State.pastTests (s : State) (d : Nat) (f : State → State) : State :=
  let rows := (s.die d).tests
  let t := f (s.setDie d { s.die d with tests := [] })
  t.setDie d { t.die d with tests := rows, faulty := (t.die d).faulty.filter fun u => !rows.any fun row => inRow s d row u }

/-- An ECC error of a granule: it counts, and is to start a test of its row unless it joins one (R215, R369, R382). -/
def State.eccError (s : State) (key field : Nat) : State :=
  let s := s.countDie (keyDie key) field
  let x := s.die (keyDie key)
  let u := granule key
  if x.faulty.contains u || x.tests.any fun row => inRow s (keyDie key) row u then s
  else s.setDie (keyDie key) { x with faulty := x.faulty ++ [u] }

/-- The granule of the first byte of a range that is poisoned. -/
def State.badGranule (s : State) (key n : Nat) : Nat :=
  key + ((List.range n).find? fun i => s.poisoned (key + i) 1).getD 0

/-- An uncorrectable error of a read of n bytes (R215). -/
def eccFault {α : Type} (s : State) (key n : Nat) : Res α := .fault (s.eccError (s.badGranule key n) 4) .dataError

/-- Clear the marks of granules that a write replaces whole (R215). -/
def State.healed (s : State) (key n : Nat) : State :=
  let e := eccUnit key
  let marks := (unitsOf e key n).foldl
    (fun p u => if key ≤ u && u + e ≤ key + n then mset false p u false else p) s.poison
  { s with poison := marks }

/-- The tweak of an access: the line of its IPA. Owner 0 reaches HBM outside the overflow area by one IPA for each DPA, and its tweak
there is written 0. -/
def tweakOf (owner ipa : Nat) : Nat := if owner = 0 && ipaSpace ipa != 9 then 0 else ipa / 128 + 1

/-- The tag of an access at a die: owner, generation of its key, tweak (R214). -/
def State.keyOf (s : State) (die owner ipa : Nat) : Nat × Nat × Nat := (owner, mget 0 (s.die die).keyGen owner, tweakOf owner ipa)

/-- The IPA in space 0x9 of a place in the overflow area of its die (R200). -/
def overflowIpa (s : State) (key : Nat) : Nat :=
  let d := s.die (keyDie key)
  match d.groupOff 7 (key % 2 ^ 40) with
  | some o => keyDie key * 2 ^ 48 + 9 * 2 ^ 44 + 0x800000 + (o - (0x200000000 - d.overflow))
  | none => 0

/-- A write of the owner to a word of the overflow area: its line is encrypted under the owner's key (R200, R214). Other words stay
outside HBM. -/
def State.overKeyed (s : State) (key owner : Nat) : State :=
  if keySpc key = .hbm then
    { s with keyTag := mset (0, 0, 0) s.keyTag (keyLine key) (s.keyOf (keyDie key) owner (overflowIpa s key)) }
  else s

/-- A bank or Lockkeeper writes bytes of an owner's word or chamber at home (R200, R215, R275, R281). -/
def State.wrAs (s : State) (key owner : Nat) (bs : List Byte) : State :=
  ((s.wr key bs).healed key bs.length).overKeyed key owner

/-- Set a unit to zero, empty and tagged with the new owner (R212); the banks of its words serve their records (R276). -/
def State.clearUnit (s : State) (u size owner : Nat) : State :=
  let waited := (unitsOf 4 u size).filter fun w => (s.die (keyDie u)).recs.any fun r => r.key == w
  let s := s.wrAs u owner (List.replicate size 0)
  let tags := (unitsOf 4 u size).foldl (fun m w => mset false m w false) s.full
  { s with full := tags, owners := mset 0 s.owners u owner, stirred := s.stirred ++ waited }

/-- The owner rule of R212 on every unit of a range. The replicas of a shared SRAM line that a read clears stay with their dies,
under the tag of the owner that filled them, until a write collapses them (DESIGN CHOICE, log 50). -/
def State.claim (s : State) (key n owner : Nat) : State :=
  (unitsOf (tagUnit key) key n).foldl
    (fun s u => if s.tagOf u = owner then s else s.clearUnit u (tagUnit key) owner) s

/-! HBM keys (R214). -/

/-- An HBM line was last written under another key or at another IPA. -/
def State.foreign (s : State) (key owner ipa : Nat) : Bool :=
  mget (0, 0, 0) s.keyTag (keyLine key) != s.keyOf (keyDie key) owner ipa

/-- A dirty line is written back: what HBM holds is what memory reads, with fresh check bits (R204, R215); the write is metered
under the owner's key (R371). -/
def State.wroteBack (s : State) (line : Nat) : State :=
  match mget none s.dirty line with
  | none => s
  | some _ =>
    { s with dirty := mset none s.dirty line none, poison := mset false s.poison (line * 128) false }.charge
      (keyDie (line * 128)) (mget (0, 0, 0) s.keyTag line).1 3 1

/-! Capacity (R196, R205). -/

/-- The cores of a die drop a line from their L1 caches. -/
def State.dropL1 (s : State) (die line : Nat) : State :=
  { s with cores := s.cores.map fun p =>
      if p.1 / 64 = die && p.2.l1.contains line then (p.1, { p.2 with l1 := p.2.l1.filter (· ≠ line) }) else p }

/-- Drop one copy of a line held by a die of its home's module, from L2 and from every L1 (R204, R207). -/
def State.dropReplica (s : State) (line d : Nat) : State :=
  { s.dropL1 (keyDie (line * 128) / 4 * 4 + d % 4) line with replicas := mset none s.replicas (line * 4 + d % 4) none }

/-- Lines that the L2 slice of a die holds: of its own memory, replicas and window lines. -/
def l2Count (s : State) (die : Nat) : Nat :=
  (s.die die).l2.length + (s.winLines.filter fun p => p.1 / 2 ^ 57 == die).length +
    (s.replicas.filter fun p => keyDie (p.1 / 4 * 128) / 4 == die / 4 && p.1 % 4 == die % 4).length

/-- A line of a die's own memory leaves its L2 slice, written back, and its L1 caches (R204). -/
def State.l2Drop (s : State) (line : Nat) : State :=
  let die := keyDie (line * 128)
  let s := (s.wroteBack line).dropL1 die line
  s.setDie die { s.die die with l2 := (s.die die).l2.filter (· ≠ line) }

/-- A line leaves the L2 slice of a die: the oldest of its own, written back, else a replica, else a window line. Which line leaves
is open (log 8), and other choices are turns of their own. -/
def State.l2Evict (s : State) (die : Nat) : State :=
  match (s.die die).l2 with
  | l :: _ => s.l2Drop l
  | [] =>
    match s.replicas.find? fun p => keyDie (p.1 / 4 * 128) / 4 == die / 4 && p.1 % 4 == die % 4 with
    | some p => s.dropReplica (p.1 / 4) die
    | none => match s.winLines.find? fun p => p.1 / 2 ^ 57 == die with
      | some p => { s with winLines := mset none s.winLines p.1 none }
      | none => s

/-- Room for one more line in the L2 slice of a die: 96 MiB of 128-byte lines, less retired ways. -/
def State.l2Room (s : State) (die : Nat) : State := if l2Count s die + (s.die die).l2Off < 786432 then s else s.l2Evict die

/-- The L2 slice of a line's home die holds it. -/
def State.l2Fill (s : State) (line : Nat) : State :=
  let die := keyDie (line * 128)
  if (s.die die).l2.contains line then s
  else let s := s.l2Room die; s.setDie die { s.die die with l2 := (s.die die).l2 ++ [line] }

/-- The L1 of a core holds a line: 64 KiB of 128-byte lines, less disabled ways; the oldest makes room. Core 63 is an agent
without one. -/
def State.l1Fill (s : State) (die core line : Nat) : State :=
  let c := die * 64 + core
  let k := s.core c
  if 63 ≤ core || k.l1.contains line then s
  else
    let l := k.l1 ++ [line]
    s.setCore c { k with l1 := l.drop (l.length - (512 - k.l1Off)) }

/-- An access of paged memory brings its line into the home's L2 slice; TCM, scratchpad, sync SRAM and space 0xD are never held
in a cache (R203). -/
def State.filled (s : State) (key : Nat) : State :=
  if s.spc key = .hbm || s.spc key = .sram then s.l2Fill (keyLine key) else s

/-- The second state, with what an access of an owner at an IPA, from the first state, moved between HBM and its home's controller
metered for a context: 128 bytes read for a line that it brought into the L2 slice of its home, or that it refetched there under its
own key (R213); and for an access of the overflow area, which no cache holds, 128 bytes read, written, or both (R200, R371;
log 59). -/
def State.fillCharge (s t : State) (key owner ipa ctx : Nat) (reads writes : Bool) : State :=
  let d := keyDie key
  let l := keyLine key
  if keySpc key ≠ .hbm then t
  else if s.spc key ≠ .hbm then
    let t := if reads then t.charge d ctx 2 1 else t
    if writes then t.charge d ctx 3 1 else t
  else if (!(s.die d).l2.contains l || s.foreign key owner ipa) && (t.die d).l2.contains l then t.charge d ctx 2 1 else t

/-- Read n bytes of one line at home as an owner, at an IPA. A line under another key is written back first, and reads as free
bytes (R213, R214). Space 0xD is not read here. -/
def homeRead (s : State) (owner ipa key n : Nat) : Res (List Byte) :=
  if s.spc key = .hbm then
    if s.poisoned key n then eccFault s key n
    else if s.foreign key owner ipa then .ok ((s.wroteBack (keyLine key)).filled key).draw (freeBytes s.fresh n)
    else .ok (s.filled key) (s.rd key n)
  else
    let s := s.claim key n owner
    if s.poisoned key n then eccFault s key n else .ok (s.filled key) (s.rd key n)

/-- A collapse of the line is being collected (R207). -/
def State.collapsing (s : State) (line : Nat) : Bool := s.collapses.any fun c => c.line == line

/-- The dies of the module that hold a replica of a line. -/
def State.holders (s : State) (line : Nat) : List Nat :=
  [0, 1, 2, 3].filter fun d => (mget none s.replicas (line * 4 + d)).isSome

/-- Start collecting the invalidations of a line's replicas (R207); answers the collapse's number. -/
def State.collapse (s : State) (key : Nat) : State × Option Nat :=
  match s.holders (keyLine key) with
  | [] => (s, none)
  | ds => ({ s with
      collapses := s.collapses ++ [⟨s.serial, keyLine key, ds.map fun d => (keyDie key / 4 * 4 + d, false)⟩]
      serial := s.serial + 1 }, some s.serial)

/-- An HBM line becomes dirty on its home die, keeping what was last written back; a line under another key is written back
first (R204, R213, R219). -/
def State.dirtied (s : State) (key owner ipa : Nat) : State :=
  if s.spc key ≠ .hbm then s else
  let line := keyLine key
  let s := if s.foreign key owner ipa then s.wroteBack line else s
  match mget none s.dirty line with
  | none => { s with dirty := mset none s.dirty line (some (mget (0, 0, 0) s.keyTag line, s.rd (line * 128) 128)) }
  | some _ => s

/-- A dirty line is lost: HBM keeps what was last written back (R219, R340). -/
def State.lostLine (s : State) (line : Nat) : State :=
  match mget none s.dirty line with
  | none => s
  | some (tag, bs) =>
    { s.wr (line * 128) bs with keyTag := mset (0, 0, 0) s.keyTag line tag, dirty := mset none s.dirty line none }

/-! Replication regions (R205, R208, R356). -/

/-- The region is enabled and covers an IPA (R205, R356). -/
def Region.covers (r : Region) (ipa : Nat) : Bool :=
  r.en && r.base ≤ ipa && ipa < r.base + 2 ^ r.lsize.toNat && pagedSpace (ipaSpace ipa)

/-- The lowest-numbered enabled region that covers an IPA of a module. -/
def regionOf (s : State) (m ipa : Nat) : Option (Nat × Region) :=
  ((s.md m).regions.filter fun p => p.2.covers ipa).head?

/-- Replace a region. -/
def State.setRegion (s : State) (m i : Nat) (r : Region) : State :=
  s.setMd m { s.md m with regions := mset Region.reset (s.md m).regions i r }

/-- Die x may hold a replica of a line homed on die h of its module (R205). -/
def isHolder (s : State) (ipa x : Nat) : Bool :=
  match regionOf s (x / 4) ipa with
  | none => false
  | some (_, r) =>
    let deg := if r.pinned then r.maxdeg else r.deg
    let h := ipaHome ipa
    if deg = 0 then false else if deg = 1 then h % 4 ^^^ 1 == x % 4 else true

/-- Saturating increment of a 32-bit statistic. -/
def sat32 (n : Nat) : Nat := if n + 1 < 2 ^ 32 then n + 1 else n

/-- A replica may stand on its die: no region that covers its line denies it (R205). -/
def mayStand (s : State) (r : Region) (p : Nat × Option LineCopy) : Bool :=
  match p.2 with
  | some c => !r.covers c.ipa || isHolder s c.ipa (keyDie (p.1 / 4 * 128) / 4 * 4 + p.1 % 4)
  | none => true

/-- The replicas of a region that dies which are no longer holders still have go, before a rise of the degree could make them
holders again (R208). -/
def State.dropStale (s : State) (r : Region) : State :=
  (s.replicas.filter fun p => !mayStand s r p).foldl (fun s p => s.dropReplica (p.1 / 4) (p.1 % 4)) s

/-- A read served under step 2 or 3 of R206 counts, and may raise the degree (R208). -/
def State.noteRemote (s : State) (ipa : Nat) : State :=
  match regionOf s (ipaHome ipa / 4) ipa with
  | none => s
  | some (i, r) =>
    if r.pinned then s
    else if r.thresh.toNat ≤ r.rread + 1 then
      if r.deg.toNat < r.maxdeg.toNat then
        (s.dropStale r).setRegion (ipaHome ipa / 4) i { r with deg := r.deg + 1, rread := 0, window := 0, raises := sat32 r.raises }
      else s.setRegion (ipaHome ipa / 4) i { r with rread := 0, window := 0 }
    else s.setRegion (ipaHome ipa / 4) i { r with rread := r.rread + 1 }

/-- Another access served from the home counts in the window (R208). -/
def State.noteHome (s : State) (ipa : Nat) : State :=
  match regionOf s (ipaHome ipa / 4) ipa with
  | none => s
  | some (i, r) =>
    if r.pinned then s
    else if 4096 ≤ r.window + 1 then s.setRegion (ipaHome ipa / 4) i { r with rread := 0, window := 0 }
    else s.setRegion (ipaHome ipa / 4) i { r with window := r.window + 1 }

/-- A write to an AUTO region drops its degree to the minimum and clears the counts (R208). -/
def State.noteWrite (s : State) (ipa : Nat) : State :=
  match regionOf s (ipaHome ipa / 4) ipa with
  | none => s
  | some (i, r) =>
    if r.pinned then s
    else s.setRegion (ipaHome ipa / 4) i
      { r with deg := r.mindeg, rread := 0, window := 0, drops := if r.deg = r.mindeg then r.drops else sat32 r.drops }

/-! Writes at home. -/

/-- Before a write: an HBM line comes under the writer's key, and bytes of another key become free (R213, R214); words elsewhere
come under the owner rule (R212), those of the overflow area in a line that the writer's key encrypts (R200). -/
def State.rekeyed (s : State) (key owner ipa n : Nat) : State :=
  if s.spc key ≠ .hbm then
    (s.claim key n owner).overKeyed key owner
  else if s.foreign key owner ipa then
    { (if n = 128 then s else (s.wr (keyLine key * 128) (freeBytes s.fresh 128)).draw) with
      keyTag := mset (0, 0, 0) s.keyTag (keyLine key) (s.keyOf (keyDie key) owner ipa) }
  else s

/-- Put bytes of one line at home as an owner, at an IPA; the L1 copies of the home die go, by its directory (R204). -/
def State.put (s : State) (owner ipa key : Nat) (bs : List Byte) : State :=
  let s := (((s.dirtied key owner ipa).rekeyed key owner ipa bs.length).wr key bs).healed key bs.length
  (s.dropL1 (keyDie key) (keyLine key)).filled key

/-- Write bytes of one line at home as an owner, at an IPA. A second write to a line waits behind the first's collection (R207),
but one that is sent together with the write of that collapse joins it (R237). -/
def homeWrite (s : State) (owner ipa key : Nat) (bs : List Byte) (into : Option Nat) : Res (Option Nat) :=
  heldByTest s key bs.length <|
  match into with
  | some c =>
    if s.collapses.all fun x => x.line != keyLine key || x.id == c then .ok (s.put owner ipa key bs) into else .stall s .order
  | none =>
    if s.collapsing (keyLine key) then .stall s .order
    else let r := (s.put owner ipa key bs).collapse key; .ok r.1 r.2

/-- The bytes that a device atomic reads: a plain write of the host to a page without SA may have fallen between its read and its
write (R288). -/
def racedBytes (s : State) (key : Nat) (bs : List Byte) : List Byte :=
  match s.raced with
  | none => bs
  | some (n, k, old) =>
    if k < key + bs.length && key < k + old.length && Config.freeBool n then
      bs.zipIdx.map fun p => if k ≤ key + p.2 && key + p.2 < k + old.length then old.getD (key + p.2 - k) 0 else p.1
    else bs

/-- A device atomic has met the host's write; a later one comes wholly after it (R288). -/
def State.unraced (s : State) (key n : Nat) : State :=
  match s.raced with
  | none => s
  | some (_, k, old) => if k < key + n && key < k + old.length then { s with raced := none } else s

/-- A read and, when f answers bytes, a write, adjacent at home, once the L1 copies of the line have been recalled (R196, R230,
R263). One that writes nothing is a read only (R265), and counts in its region as an access served from the home (R208). -/
def homeAtomic (s : State) (owner ipa key n : Nat) (f : Nat → Option (List Byte)) : Res (Nat × Option Nat) :=
  heldByTest s key n <|
  if s.collapsing (keyLine key) then .stall s .order
  else (homeRead (s.dropL1 (keyDie key) (keyLine key)) owner ipa key n).bind fun s bs =>
    let bs := racedBytes s key bs
    let s := s.unraced key n
    match f (leBytes bs) with
    | none => .ok (s.noteHome ipa) (leBytes bs, none)
    | some w => (homeWrite (s.noteWrite ipa) owner ipa key w none).bind fun s c => .ok s (leBytes bs, c)

end Sys2Proof.Machine
end

