-- ==== Sys2Proof/Machine/Links.lean ====
section
/-! DEFINITION. Channels, flows and routes (R305, R306, R308 to R310, R361), the sealing of packets (R312, R313), and an access that
crosses to another die (R306, R311). -/

namespace Sys2Proof.Machine

open Sys2Proof

/-- Number of a channel: sending die, receiving die, plane (false A, true B). -/
def chanId (src dst : Nat) (plane : Bool) : Nat := (src * 256 + dst) * 2 + plane.toNat
/-- A channel. -/
def State.chan (s : State) (src dst : Nat) (plane : Bool) : Channel := mget Channel.reset s.chans (chanId src dst plane)
/-- Replace a channel. -/
def State.setChan (s : State) (src dst : Nat) (plane : Bool) (c : Channel) : State :=
  { s with chans := mset Channel.reset s.chans (chanId src dst plane) c }

/-! Flows (R308). -/

/-- Number of a flow: source, destination die, class. -/
def flowId (source dst cls : Nat) : Nat := (source * 256 + dst) * 16 + cls % 16
/-- The source number of a sequencer; harts are their own. -/
def seqSource (die q : Nat) : Nat := 65536 + die * 16 + q
/-- The source number of what answers at a die: its banks, directory and Lockkeeper (0), the triggers of the Lockkeeper (1), the
line monitor (2), and what asks for pages (3). -/
def unitSource (die kind : Nat) : Nat := 131072 + kind * 256 + die
/-- Die of a source. -/
def sourceDie (n : Nat) : Nat :=
  if n < 65536 then hartDie n else if n < 131072 then (n - 65536) / 16 else (n - 131072) % 256
/-- Destination die of a flow. -/
def flowDst (flow : Nat) : Nat := flow / 16 % 256
/-- Source die of a flow. -/
def flowSrc (flow : Nat) : Nat := sourceDie (flow / 4096)

/-- The route to a die is enabled (R361). -/
def routeEn (s : State) (src dst : Nat) : Bool := (mget 0 (s.die src).routes dst).getLsbD 0
/-- The preferred plane of a route. -/
def routePlane (s : State) (src dst : Nat) : Bool := (mget 0 (s.die src).routes dst).getLsbD 1

/-- The plane a flow sends on: the route's until it has sent, unless only the other plane is UP (R305, R308). -/
def flowPlane (s : State) (flow : Nat) : Bool :=
  let src := flowSrc flow
  let dst := flowDst flow
  match mget none (s.die src).flows flow with
  | some f => f.plane
  | none =>
    let p := routePlane s src dst
    if (s.chan src dst p).st != .up && (s.chan src dst !p).st == .up then !p else p

/-- A destination is unreachable: no route, or DOWN or HALT on both planes (R310, R361). -/
def unreachable (s : State) (src dst : Nat) : Bool :=
  src != dst && (!routeEn s src dst || ((s.chan src dst false).st != .up && (s.chan src dst true).st != .up))

/-- Room for a packet in the channel queue of a flow: 32 packets, and none of the flow still waits at its source (R305, R309). -/
def flowRoom (s : State) (flow : Nat) : Bool :=
  (s.chan (flowSrc flow) (flowDst flow) (flowPlane s flow)).queue.length < 32 && s.outbox.all fun p => p.flow != flow

/-- A flow has its plane, and the cycle of its last send (R308). -/
def State.setFlow (s : State) (flow : Nat) (f : Flow) : State :=
  let x := s.die (flowSrc flow)
  s.setDie (flowSrc flow) { x with flows := mset none x.flows flow (some f) }

/-- A new packet, of age 0 (R309). -/
def newPacket (flow owner : Nat) (body : Body) : Packet :=
  { body, owner, flow, age := 0, wait := 0, k := false, ctr := 0, sealed := false }

/-- A packet enters the channel queue of its flow; a flow that starts off its route's plane keeps to it (R308). -/
def State.queuePacket (s : State) (p : Packet) : State :=
  let src := flowSrc p.flow
  let dst := flowDst p.flow
  let pl := flowPlane s p.flow
  let s := if (mget none (s.die src).flows p.flow).isNone && pl != routePlane s src dst then s.setFlow p.flow ⟨pl, 0⟩ else s
  let c := s.chan src dst pl
  s.setChan src dst pl { c with queue := c.queue ++ [p] }

/-- A new packet enters the channel queue of its flow (R309). -/
def State.enqueue (s : State) (flow owner : Nat) (body : Body) : State := s.queuePacket (newPacket flow owner body)

/-- A packet enters its channel queue, or its source holds it while that is full (R309). -/
def State.offer (s : State) (p : Packet) : State :=
  if flowRoom s p.flow then s.queuePacket p else { s with outbox := s.outbox ++ [p] }

/-- A new message of a source that holds what the queue cannot take. One for the source's own die is there at once. -/
def State.post (s : State) (flow owner : Nat) (body : Body) : State :=
  let d := flowDst flow
  if flowSrc flow = d then s.setDie d { s.die d with mail := (s.die d).mail ++ [(owner, body)] }
  else s.offer (newPacket flow owner body)

/-- What sources hold enters the queues that have room, in order (R309). -/
def State.feed (s : State) : State :=
  if s.outbox = [] then s else s.outbox.foldl State.offer { s with outbox := [] }

/-- Every packet that has not been accepted. -/
def State.packets (s : State) : List Packet :=
  s.outbox ++ s.chans.flatMap fun c => c.2.queue ++ c.2.retry.drop c.2.arrived

/-- A source holds a packet that its channel queue could not take: it stalls (R309). -/
def State.stalled (s : State) (source : Nat) : Bool := s.outbox.any fun p => p.flow / 4096 == source

/-! Keys (R312, R313). -/

/-- No key: both slots empty, K = 0 (R312). -/
def noKeys : KeyPair := ⟨false, none, none, false⟩

/-- The key pair of a direction. -/
def State.keyPair (s : State) (src dst : Nat) : KeyPair := mget noKeys (s.die src).keys dst
/-- Replace a key pair. -/
def State.setKeys (s : State) (src dst : Nat) (k : KeyPair) : State :=
  s.setDie src { s.die src with keys := mset noKeys (s.die src).keys dst k }

/-- The key slot that seals the next packet (R313): none while no key is held or at the end of its counter. -/
def sealKey (s : State) (src dst : Nat) : State × Option KeySlot :=
  let p := s.keyPair src dst
  match p.cur with
  | none => (s, none)
  | some k =>
    if k.ctr < 2 ^ 40 - 2 ^ 20 then (s, some k)
    else match p.next with
      | some n => (s.setKeys src dst ⟨!p.k, some n, none, false⟩, some n)
      | none =>
        let s := if p.event then s else (s.setKeys src dst { p with event := true }).say (.keyEvent src dst)
        (s, if k.ctr < 2 ^ 40 then some k else none)

/-- Count the use of the current key. -/
def useKey (s : State) (src dst : Nat) : State :=
  let p := s.keyPair src dst
  s.setKeys src dst { p with cur := p.cur.map fun k => { k with ctr := k.ctr + 1 } }

/-- Highest counter accepted under a slot. -/
def Channel.last (c : Channel) (k : Bool) : Option Nat := if k then c.lastB else c.lastA
/-- Keep the highest counter of a slot. -/
def Channel.setLast (c : Channel) (k : Bool) (n : Option Nat) : Channel := if k then { c with lastB := n } else { c with lastA := n }

/-- The receiver keeps the highest counter of a slot, which both planes of the direction share (R312, R313). -/
def State.noteLast (s : State) (src dst : Nat) (k : Bool) (n : Option Nat) : State :=
  let on (s : State) (pl : Bool) : State := s.setChan src dst pl ((s.chan src dst pl).setLast k n)
  on (on s false) true

/-- A packet accepted under a slot: the other slot's key is discarded when this slot is the current one (R313). -/
def noteCounter (s : State) (src dst : Nat) (k : Bool) (ctr : Nat) : State :=
  let s := s.noteLast src dst k (some ctr)
  if k = (s.keyPair src dst).k then s.noteLast src dst (!k) none else s

/-! Sizes and meters (R307, R323, R371). -/

/-- Bytes of a packet with n bytes of payload: header, payload flits and trailer (R307, R323). -/
def flitBytes (n : Nat) : Nat := 64 + 32 * ((n + 31) / 32)

/-- What the sender of an answer charges it to: an answer to another module goes to owner 0 of the module that answers (R371). -/
def sendOwner (src dst owner : Nat) (answer : Bool) : Nat := if answer && src / 4 ≠ dst / 4 then 0 else owner
/-- What the receiver of a packet charges it to: a request from another module goes to owner 0 (R371). -/
def recvOwner (src dst owner : Nat) (answer : Bool) : Nat := if answer || src / 4 = dst / 4 then owner else 0

/-! Passing in one step (log 6). -/

/-- A packet of n bytes of payload passes a direction that holds no other packet: it is sealed, sent and accepted (R307, R312). -/
def passLink (s : State) (flow owner n : Nat) (answer : Bool) : Option State :=
  let src := flowSrc flow
  let dst := flowDst flow
  let pl := flowPlane s flow
  let c := s.chan src dst pl
  if c.st ≠ .up || unreachable s src dst || c.queue ≠ [] || c.retry ≠ [] || !flowRoom s flow then none
  else match sealKey s src dst with
    | (_, none) => none
    | (s, some k) =>
      let s := noteCounter (useKey s src dst) src dst (s.keyPair src dst).k k.ctr
      let s := s.setFlow flow ⟨pl, (s.die src).clk⟩
      some ((s.charge src (sendOwner src dst owner answer) 4 (flitBytes n)).charge dst (recvOwner src dst owner answer) 5 (flitBytes n))

end Sys2Proof.Machine
end

