-- ==== Sys2Proof/Machine/Xlate.lean ====
section
/-! DEFINITION. The checks at issue (R241), range registers (R343, R344), page tables (R348 to R351) and page requests (R291,
R353). -/

namespace Sys2Proof.Machine

open Sys2Proof

/-- Who makes an access: the issuing die, which LD and LM substitute (R344), the core in that die (63 for an agent without
one), owner and context generation, and what the access has been told if it has waited. -/
structure Agent where
  die   : Nat
  core  : Nat
  owner : Nat
  gen   : Nat
  told  : Option Why
  /-- The range registers as they stood when the access issued, if RNGW has changed them since (R347). -/
  rng   : Option (Map Word)
  /-- The hart and class of an access of a hart (R225). -/
  who   : Option (Nat × Nat)
  /-- Source and class of its packets (R308), and its element, 0 for an access that the source itself waits for. -/
  source : Nat
  cls   : Nat
  elt   : Nat
  /-- Its packets pass in the step of its access (log 6). -/
  fast  : Bool
  deriving DecidableEq, Repr

/-- An agent that is no hart. -/
def unitAgent (die owner gen source cls : Nat) (told : Option Why) : Agent :=
  { die, core := 63, owner, gen, told, rng := none, who := none, source, cls, elt := 0, fast := false }

/-- A hart as an agent. -/
def State.agent (s : State) (h : Nat) : Agent :=
  { die := hartDie h, core := coreInDie h, owner := s.owner h, gen := if isControl h then 0 else ctxGen (s.hart h).c.ctxid
    told := (s.hart h).hold.map (·.why), rng := (s.hart h).rng, who := none, source := h, cls := 15, elt := 0, fast := false }

/-- The agent for an access of a class. -/
def Agent.inClass (a : Agent) (cls : Nat) : Agent := { a with cls }

/-- The agent for an access that no page miss has held. -/
def Agent.untold (a : Agent) : Agent :=
  match a.told with
  | some (.pageFailed _) => { a with told := none }
  | _ => a

/-- A need of R, W or X, as a range register's bits [2:0] (R343). -/
abbrev Need := BitVec 3
/-- R. -/
def needR : Need := 1
/-- W. -/
def needW : Need := 2
/-- R and W. -/
def needRW : Need := 3
/-- X. -/
def needX : Need := 4

/-- Word w of range i. -/
def rangeWord (r : Map Word) (i w : Nat) : Word := mget 0 r (3 * i + w)
/-- VBASE or VLIMIT of a word, as an address. -/
def granuleVa (w : Word) : Nat := w.toNat / 2 ^ 21 % 2 ^ 36 * 2 ^ 21
/-- Range i is in use and covers a VA (R344). -/
def rangeCovers (r : Map Word) (i va : Nat) : Bool :=
  (rangeWord r i 0).getLsbD 7 && granuleVa (rangeWord r i 0) ≤ va && va < granuleVa (rangeWord r i 1) + 2 ^ 21

/-- The lowest-numbered range that covers a VA. -/
def rangeFind (r : Map Word) (va : Nat) : Option Nat := (List.range 16).find? fun i => rangeCovers r i va

/-- Replace a field of an IPA: w bits at bit b. -/
def putField (x b w v : Nat) : Nat := x - x / 2 ^ b % 2 ^ w * 2 ^ b + v % 2 ^ w * 2 ^ b

/-- xlate through range registers, with the permissions found (R344). die is what LD and LM substitute. -/
def rangeXlate (r : Map Word) (die va : Nat) : Option (Nat × Need) :=
  if 2 ^ 57 ≤ va then none else
  match rangeFind r va with
  | none => none
  | some i =>
    let w0 := rangeWord r i 0
    let ipa := ((rangeWord r i 2).toNat / 2 ^ 21 % 2 ^ 35 * 2 ^ 21 + (va - granuleVa w0)) % 2 ^ 56
    let ipa := if w0.getLsbD 5 then putField ipa 48 2 (die % 4) else ipa
    let ipa := if w0.getLsbD 6 then putField ipa 50 6 (die / 4) else ipa
    some (ipa, w0.extractLsb' 0 3)

/-- Checks 2 and 3 of R241 through given range registers; owner 0 has none (R345). -/
def xlateBy (r : Map Word) (owner die va : Nat) (need : Need) : Except Cause Nat :=
  if owner = 0 then (if va < 2 ^ 56 then .ok va else .error .rangeFault)
  else match rangeXlate r die va with
    | none => .error .rangeFault
    | some (ipa, perm) => if perm &&& need = need then .ok ipa else .error .protectionFault

/-- Checks 2 and 3 of R241 for an agent: the IPA, or the cause. -/
def xlateVa (s : State) (a : Agent) (va : Nat) (need : Need) : Except Cause Nat :=
  xlateBy (a.rng.getD (s.ctx (a.die / 4) a.owner).ranges) a.owner a.die va need

/-! The map of space 0xD (R377). -/

/-- The items of the map of R377. -/
inductive CtlItem
  | lantern | identity | osize | restart | partition | roots | dieErrs | retired
  | record (n : Nat) | ctxErrs (n : Nat) | stats | window (n : Nat)
  deriving DecidableEq, Repr

/-- The item at an offset, its first offset and its size; v0 says that the die is V-die 0 of its module. -/
def ctlItem (v0 : Bool) (off : Nat) : Option (CtlItem × Nat × Nat) :=
  if off < 8 then (if v0 then some (.lantern, 0, 8) else none)
  else if off < 0x10 then some (.identity, 8, 8)
  else if off < 0x18 then some (.osize, 0x10, 8)
  else if off < 0x20 then some (.restart, 0x18, 8)
  else if 0x100 ≤ off && off < 0x108 then some (.partition, 0x100, 8)
  else if 0x200 ≤ off && off < 0x400 then some (.roots, 0x200, 0x200)
  else if 0x400 ≤ off && off < 0x450 then some (.dieErrs, 0x400, 0x50)
  else if 0x1000 ≤ off && off < 0x3000 then some (.retired, 0x1000, 0x2000)
  else if !v0 then none
  else if 0x4000 ≤ off && off < 0x6000 then some (.record ((off - 0x4000) / 128), off / 128 * 128, 128)
  else if 0x6000 ≤ off && off < 0x6800 then some (.ctxErrs ((off - 0x6000) / 32), off / 32 * 32, 32)
  else if 0x8000 ≤ off && off < 0xA000 then some (.stats, 0x8000, 0x2000)
  else if 0x40000 ≤ off && off < 0x80000 then some (.window ((off - 0x40000) / 4096), off / 4096 * 4096, 4096)
  else none

/-- The item that holds every byte of an access; none where the access leaves it (R377). -/
def ctlAccess (die off n : Nat) : Option (CtlItem × Nat) :=
  match ctlItem (die % 4 == 0) off with
  | none => none
  | some (it, lo, size) => if off + n ≤ lo + size then some (it, off - lo) else none

/-! The checks of R241. -/

/-- The bytes that a hart at level S may read of space 0xD: its own error block (R198, R368). -/
def ownErrBlock (a : Agent) (ipa size : Nat) : Bool :=
  ipaHome ipa == a.die / 4 * 4 && 0x6000 + 32 * a.owner ≤ ipaOff ipa && ipaOff ipa + size ≤ 0x6000 + 32 * a.owner + 32

/-- Check 4 of R241, in space 0xD with its map (R377). atom says that the access is an atomic or a tagged access (R262, R275). -/
def check4 (s : State) (a : Agent) (prv : BitVec 2) (ipa size : Nat) (need : Need) (atom : Bool) : Bool :=
  spaceOk s ipa &&
    (ipaSpace ipa != 13 || (!atom && (ctlAccess (ipaHome ipa) (ipaOff ipa) size).isSome &&
      (a.owner == 0 || ((need == needR || need == needX) && prv == 1 && ownErrBlock a ipa size))))

/-- The checks of R241 in their order: the IPA, or the cause. -/
def issueCheck (s : State) (a : Agent) (prv : BitVec 2) (va size align : Nat) (need : Need) (atom : Bool) :
    Except Cause Nat :=
  if va % align ≠ 0 then .error .misaligned else
  match xlateVa s a va need with
  | .error c => .error c
  | .ok ipa => if check4 s a prv ipa size need atom then .ok ipa else .error .protectionFault

/-! Page walks. -/

/-- What a walk comes to. -/
inductive Walk
  | leaf (base size : Nat) (e : Word)
  | miss
  | malformed
  /-- A table entry cannot be read: an uncorrectable error or a retired granule (R215, R218), or a DPA that no owner-0 access
  reaches (R345). -/
  | error (c : Cause)
  deriving DecidableEq, Repr

/-- SPAN of an entry. -/
def pteSpan (e : Word) : Nat := (e.extractLsb' 56 2).toNat
/-- DPA of an entry (R349). -/
def pteDpa (e : Word) : Nat := e.toNat / 2 ^ 12 % 2 ^ 26 * 2 ^ 12
/-- Size of the page of a leaf at a level (R350). -/
def pageSize (lvl span : Nat) : Nat := 2 ^ (12 + 9 * (3 - lvl) + 2 * span)

/-- A valid entry that breaks R349. -/
def pteBad (lvl : Nat) (e : Word) : Bool :=
  let leaf := e.getLsbD 8
  let span := pteSpan e
  e.extractLsb' 58 6 != 0 || e.extractLsb' 38 18 != 0 || e.extractLsb' 9 3 != 0 || e.extractLsb' 1 2 != 0 ||
  span == 3 ||
  (if leaf then lvl == 0 || (lvl == 1 && span == 1) || pteDpa e % pageSize lvl span != 0
   else lvl == 3 || span != 0 || e.extractLsb' 3 5 != 0)

/-- A DPA in HBM lies in a retired granule (R218). -/
def dpaRetired (s : State) (die dpa : Nat) : Bool := dpa < 2 ^ 37 && (s.die die).retired.contains (dpa / 2 ^ 21)

/-- A DPA names no storage of a die that an owner-0 access reaches: it lies past HBM and shared SRAM at its current size, in the
shadow region or in the overflow area (R198, R200, R345). -/
def dpaRefused (d : Die) (dpa : Nat) : Bool := 2 ^ 37 + d.sram * 2 ^ 20 ≤ dpa || dpaHidden d dpa

/-- Read entry idx of the table at a DPA of a die as owner 0 (R348), or the cause of its error. -/
def pteRead (s : State) (die dpa idx : Nat) : State × Except Cause Word :=
  let a := dpa + 8 * idx
  if dpaRefused (s.die die) a then (s, .error .protectionFault)
  else if dpaRetired s die a then (s, .error .dataError)
  else match homeRead s 0 0 (dpaKey s die a) 8 with
    | .ok s bs => (s, .ok (BitVec.ofNat 64 (leBytes bs)))
    | .fault s c => (s, .error c)
    | .stall s _ => (s, .error .dataError)

/-- What an entry holds, 0 where it cannot be read. -/
def pte (s : State) (die dpa idx : Nat) : Word :=
  match (pteRead s die dpa idx).2 with
  | .ok e => e
  | .error _ => 0

/-- The entry that answers for a page of 4 or 16 entries: any one of them (R350). -/
def spanEntry (s : State) (die dpa idx lvl : Nat) (e : Word) : Word :=
  let n := 4 ^ pteSpan e
  if n = 1 then e else
  let e' := pte s die dpa (idx / n * n + Config.freeCount s.fresh % n)
  if e'.getLsbD 0 && e'.getLsbD 8 && !pteBad lvl e' && pteSpan e' == pteSpan e then e' else e

/-- The walk of R348 from a level on. -/
def walkFrom (die ipa : Nat) : Nat → Nat → State → State × Walk
  | 0, _, s => (s, .miss)
  | n + 1, dpa, s =>
    let lvl := 3 - n
    let idx := ipa / 2 ^ (39 - 9 * lvl) % 512
    match pteRead s die dpa idx with
    | (s, .error c) => (s, .error c)
    | (s, .ok e) =>
      if !e.getLsbD 0 then (s, .miss)
      else if pteBad lvl e then (s.countDie die 8, .malformed)
      else if e.getLsbD 8 then
        let e' := spanEntry s die dpa idx lvl e
        let size := pageSize lvl (pteSpan e')
        (if pteSpan e = 0 then s else s.draw, .leaf (ipa / size * size) size e')
      else walkFrom die ipa n (pteDpa e) s

/-- The walk of an owner's page tables at the home of an IPA (R348); a malformed entry is counted (R349, R369). -/
def walk (s : State) (owner ipa : Nat) : State × Walk :=
  let die := ipaHome ipa
  let root := BitVec.ofNat 64 (s.rdNat (ctlKey die (0x200 + 8 * owner)) 8)
  if root.getLsbD 0 then walkFrom die ipa 4 (root.toNat / 2 ^ 12 % 2 ^ 26 * 2 ^ 12) s else (s, .miss)

/-- An entry enters a translation cache of n entries; the oldest makes room (R351). -/
def tlbAdd (n : Nat) (l : List TlbEnt) (t : TlbEnt) : List TlbEnt :=
  let mine (u : TlbEnt) : Bool := u.die == t.die && u.core == t.core
  (if n ≤ (l.filter mine).length then l.eraseIdx ((l.findIdx? mine).getD l.length) else l) ++ [t]

/-- A cached leaf of an agent's core or die for an IPA (R351). -/
def tlbHit (s : State) (a : Agent) (ipa : Nat) : Option TlbEnt :=
  s.tlb.find? fun t => t.die == a.die && (t.core == a.core || t.core == 63) && t.owner == a.owner && t.gen == a.gen &&
    t.base ≤ ipa && ipa < t.base + t.size

/-- Outcomes of a translation (R242). -/
inductive Xl
  | ok (key : Nat) (leaf : Word)
  | refuse (c : Cause)
  | miss
  deriving DecidableEq, Repr

/-- What a leaf makes of an access (R242, R350). -/
def leafOutcome (s : State) (ipa base : Nat) (e : Word) (need : Need) : Xl :=
  let die := ipaHome ipa
  let d := s.die die
  let dpa := pteDpa e + (ipa - base)
  if (need.getLsbD 0 || need.getLsbD 2) && !e.getLsbD 3 then .refuse .protectionFault
  else if need.getLsbD 1 && !e.getLsbD 4 then .refuse .protectionFault
  else if 9 * 2 ^ 34 ≤ dpa || (2 ^ 37 ≤ dpa && 2 ^ 37 + d.sram * 2 ^ 20 ≤ dpa) then .refuse .protectionFault
  else if dpaHidden d dpa || dpaTable dpa then .refuse .protectionFault
  else if dpaRetired s die dpa then .refuse .dataError
  else .ok (dpaKey s die dpa) e

/-- Bit m of row n of the home module's peer table, for a request from module m (R211). -/
def peerOk (s : State) (a : Agent) (ipa : Nat) : Bool :=
  let home := ipaHome ipa / 4
  home == a.die / 4 || (a.owner != 0 && (mget 0 (s.md home).peers a.owner).getLsbD (a.die / 4))

/-- A die reset is under way at a die (R219, R381). -/
def inReset (s : State) (die : Nat) : Bool := (s.die die).resetting.isSome

/-- Translation at the home of an IPA that passed R241 (R199, R242, R345). A walk's leaf enters the caches of the agent's core
and die. A read or atomic that meets a reset of the home has DATA_ERROR (R219). -/
def translate (s : State) (a : Agent) (ipa : Nat) (need : Need) : State × Xl :=
  let die := ipaHome ipa
  if !peerOk s a ipa then (s, .refuse .protectionFault)
  else if inReset s die && need != needW then (s, .refuse .dataError)
  else if !pagedSpace (ipaSpace ipa) then
    if ipaSpace ipa = 9 && 0x800000 ≤ ipaOff ipa && dpaRetired s die ((s.die die).overflowDpa (ipaOff ipa)) then
      (s, .refuse .dataError)
    else (s, .ok (spaceKey s die (ipaSpace ipa) (ipaOff ipa)) 0)
  else if a.owner = 0 then
    let dpa := if ipaSpace ipa = 8 then 2 ^ 37 + ipaOff ipa else ipaSpace ipa * 2 ^ 34 + ipaOff ipa
    if dpaHidden (s.die die) dpa then (s, .refuse .protectionFault)
    else if dpaRetired s die dpa then (s, .refuse .dataError)
    else (s, .ok (dpaKey s die dpa) 0)
  else if a.told = some (.pageFailed (ipa / 4096 * 4096)) then (s, .refuse .pageFaultFatal)
  else match tlbHit s a ipa with
  | some t => (s, leafOutcome s ipa t.base t.leaf need)
  | none =>
    match walk s a.owner ipa with
    | (s, .miss) => (s, .miss)
    | (s, .malformed) => (s, .refuse .protectionFault)
    | (s, .error c) => (s, .refuse c)
    | (s, .leaf base size e) =>
      let ent (c : Nat) : TlbEnt := ⟨a.die, c, a.owner, a.gen, base, size, e⟩
      let l := if a.core = 63 then s.tlb else tlbAdd 512 s.tlb (ent a.core)
      let s := { s with tlb := tlbAdd 131072 l (ent 63) }
      (s, leafOutcome s ipa base e need)

/-- DPA in HBM of an access that has been translated, and GEN of the interleave entry that places it (R345, R354, R358). -/
def placedDpa (s : State) (a : Agent) (ipa : Nat) : Option (Nat × BitVec 4) :=
  let d := s.die (ipaHome ipa)
  let gen (p : Nat) : Option (Nat × BitVec 4) := if p < 2 ^ 37 then some (p, mget 0 d.igen (p / 2 ^ 34)) else none
  if !pagedSpace (ipaSpace ipa) then
    (if ipaSpace ipa = 9 && 0x800000 ≤ ipaOff ipa then gen (d.overflowDpa (ipaOff ipa)) else none)
  else if a.owner = 0 then (if ipaSpace ipa = 8 then none else gen (ipaSpace ipa * 2 ^ 34 + ipaOff ipa))
  else match tlbHit s a ipa with
    | some t => gen (pteDpa t.leaf + (ipa - t.base))
    | none => none

/-- Number of the access kind in a page request: 0 read, 1 write, 2 atomic (R353). -/
def needKind (need : Need) : Nat := if need = needRW then 2 else if need = needW then 1 else 0

/-- A packet that asks for the page of an access is still to arrive (R11, R306). -/
def askFlies (s : State) (m owner gen page : Nat) : Bool :=
  let mine (p : Packet) : Bool := match p.body with
    | .pageAsk c o g q _ => c / 256 == m && o == owner && g.toNat == gen && q == page
    | _ => false
  s.packets.any mine

/-- A page request of a core enters the queue of V-die 0 of a module, or joins one that waits (R291). Answers whether the queue has
it. -/
def pageEnters (s : State) (core owner : Nat) (gen : BitVec 4) (page kind : Nat) : State × Bool :=
  let m := core / 256
  let md := s.md m
  let mine (q : PageReq) : Bool := q.owner == owner && q.page == page && q.gen == gen
  let join (q : PageReq) : PageReq := if mine q && !q.cores.contains core then { q with cores := q.cores ++ [core] } else q
  if md.preqs.any mine then (s.setMd m { md with preqs := md.preqs.map join }, true)
  else if 256 ≤ md.preqs.length then (s, false)
  else
    let q : PageReq := ⟨s.serial, owner, gen, page, kind, [core]⟩
    (((s.number).setMd m { md with preqs := md.preqs ++ [q] }).say (.pageRequest m q.num owner gen (page * 4096) kind), true)

/-- A request of a core for a page stands in the queue or is on its way there; each core's own joins the entry (R291). -/
def coreAsked (s : State) (core owner gen page : Nat) : Bool :=
  let mine (p : Packet) : Bool := match p.body with
    | .pageAsk c o g q _ => c == core && o == owner && g.toNat == gen && q == page
    | _ => false
  ((s.md (core / 256)).preqs.any fun q => q.owner == owner && q.page == page && q.gen.toNat == gen && q.cores.contains core) ||
    s.packets.any mine

/-- A page miss: a request, which from another die than V-die 0 goes there as a packet (R11, R291, R306). Answers whether the
request has been made. -/
def pageRequest (s : State) (a : Agent) (ipa : Nat) (need : Need) : State × Bool :=
  let core := a.die * 64 + a.core
  let page := ipa / 4096
  let gen := BitVec.ofNat 4 a.gen
  if a.die % 4 = 0 then pageEnters s core a.owner gen page (needKind need)
  else if coreAsked s core a.owner a.gen page then (s, true)
  else
    let f := flowId (unitSource a.die 3) (a.die / 4 * 4) 15
    if flowRoom s f then (s.enqueue f a.owner (.pageAsk core a.owner gen page (needKind need)), true) else (s, false)

/-- A request for a page waits for the host's answer, which alone lets its accesses go on, or is on its way (R353). -/
def pageAsked (s : State) (m owner gen page : Nat) : Bool :=
  ((s.md m).preqs.any fun q => q.owner == owner && q.page == page && q.gen.toNat == gen) || askFlies s m owner gen page

/-- The page of an agent's access has been asked for. -/
def asked (s : State) (a : Agent) (ipa : Nat) : Bool := pageAsked s (a.die / 4) a.owner a.gen (ipa / 4096)

/-- An agent without a hart waits for the host's answer about a page (R344, R353). -/
def toldPage (s : State) (told : Option Why) (owner : Nat) : Bool :=
  match told with
  | some (.page m _ p) => (List.range 16).any fun gen => pageAsked s m owner gen p
  | _ => false

/-- The wait of a blocking access whose page is missing. One whose request was dropped on its way meets DATA_ERROR (R311). -/
def missStall {α : Type} (s : State) (a : Agent) (ipa : Nat) (need : Need) : Res α :=
  if a.told = some (.remoteFailed (a.die / 4 * 4)) then .fault s .dataError
  else
    let r := pageRequest s a ipa need
    if r.2 then .stall r.1 (.page (a.die / 4) a.owner (ipa / 4096)) else .stall r.1 .order

end Sys2Proof.Machine
end

