-- ==== Sys2Proof/Machine/Fabric.lean ====
section
/-! DEFINITION. Sequencers as the holders of their translations and the senders of messages (R315, R319, R321). -/

namespace Sys2Proof.Machine

open Sys2Proof

/-- Put a sequencer's state back. -/
def State.setSeq (s : State) (die q : Nat) (x : Sequencer) : State :=
  s.setDie die { s.die die with seqs := mset Sequencer.reset (s.die die).seqs q x }
/-- A sequencer's state. -/
def State.seq (s : State) (die q : Nat) : Sequencer := mget Sequencer.reset (s.die die).seqs q

/-- Change a sequencer's state. -/
def State.setSeqWith (s : State) (die q : Nat) (f : Sequencer → Sequencer) : State := s.setSeq die q (f (s.seq die q))

/-- TAG of a sequencer's program. -/
def Sequencer.tag (x : Sequencer) : Nat := (x.header.headD 0).toNat % 2 ^ 16
/-- Class of a sequencer's accesses. -/
def Sequencer.cls (x : Sequencer) : Nat := (x.header.getD 3 0).toNat / 2 ^ 40 % 16

/-- Send a message to every other rank of a sequencer's map. -/
def State.tellRanks (s : State) (die q : Nat) (body : Body) : State :=
  let x := s.seq die q
  (x.map.zipIdx).foldl
    (fun s p => if p.2 = x.rank then s else s.post (flowId (seqSource die q) p.1 x.cls) x.owner body) s

/-- A translation through the range registers that a sequencer holds (R315). -/
def Sequencer.xlate (x : Sequencer) (die va : Nat) (need : Need) : Except Cause Nat :=
  xlateBy x.ranges x.owner die va need

/-- The status word of R319. -/
def statusWord (st lost ecode step chunks : Nat) : Word :=
  BitVec.ofNat 64 (st % 4 * 2 ^ 62 + lost % 256 * 2 ^ 48 + ecode % 16 * 2 ^ 44 + step % 4096 * 2 ^ 32 + chunks % 2 ^ 32)

end Sys2Proof.Machine
end

