-- ==== Sys2Proof/Machine/Frames.lean ====
section
/-! DEFINITION. The shadow region of a die (R334), the save frame (R335) and the saved state of sequencers (R322, R334). -/

namespace Sys2Proof.Machine

open Sys2Proof

/-- Pieces of n bytes from a VA on, each within one line: VA and size. fuel bounds their number. -/
def linePieces : Nat → Nat → Nat → List (Nat × Nat)
  | 0, _, _ => []
  | f + 1, va, n =>
    if n = 0 then [] else
    let k := min n (128 - va % 128)
    (va % 2 ^ 64, k) :: linePieces f (va + k) (n - k)

/-! The shadow region (R334). -/

/-- Offset in its die's shadow region of the frame of hart slot X of an owner. -/
def frameBase (owner slot : Nat) : Nat := (owner - 1) * 0x6000000 + slot % 96 * 0x100000
/-- The die that holds the frame of a hart slot (R414). -/
def frameDie (m slot : Nat) : Nat := m * 4 + slot / 96
/-- Storage address of an offset in the shadow region. -/
def shadowKey (s : State) (die off : Nat) : Nat := dpaKey s die (7 * 2 ^ 34 + 0x280000000 + off)
/-- The tweak of the region's lines: no IPA of a hart names them, and they take that of their place in channel group 7 (log 27). -/
def shadowIpa (die off : Nat) : Nat := die * 2 ^ 48 + 7 * 2 ^ 44 + 0x280000000 + off

/-- Write pieces of the shadow region under an owner's key. -/
def shadowPut (die owner : Nat) : List (Nat × Nat) → List Byte → State → State
  | [], _, s => s
  | (o, n) :: r, bs, s => shadowPut die owner r (bs.drop n) (s.put owner (shadowIpa die o) (shadowKey s die o) (bs.take n))

/-- Write bytes of the shadow region under an owner's key. -/
def State.shadowWrite (s : State) (die owner off : Nat) (bs : List Byte) : State :=
  shadowPut die owner (linePieces (bs.length + 1) off bs.length) bs s

/-- Read pieces of the shadow region under an owner's key. What a line with an uncorrectable error gives is open: its stored bytes
(DESIGN CHOICE, log 27). -/
def shadowGet (die owner : Nat) : List (Nat × Nat) → List Byte → State → State × List Byte
  | [], got, s => (s, got)
  | (o, n) :: r, got, s =>
    let key := shadowKey s die o
    match homeRead s owner (shadowIpa die o) key n with
    | .ok t bs => shadowGet die owner r (got ++ bs) (s.fillCharge t key owner (shadowIpa die o) owner true false)
    | t => shadowGet die owner r (got ++ s.rd key n) t.st

/-- Read n bytes of the shadow region under an owner's key. -/
def State.shadowRead (s : State) (die owner off n : Nat) : State × List Byte :=
  shadowGet die owner (linePieces (n + 1) off n) [] s

/-! The save frame (R335). -/

/-- status (R85). -/
def statusWordOf (c : Csrs) : Word := c.prv.setWidth 64 <<< 3 ||| (BitVec.ofBool c.preq).setWidth 64 <<< 2 ||| c.pp.setWidth 64

/-- The CSRs that a frame holds, in order of their numbers (R335). -/
def savedCsrs (c : Csrs) : List Word :=
  [c.epos.setWidth 64, c.fflags.setWidth 64, c.mflags.setWidth 64, BitVec.ofNat 64 c.vl, c.vtype.setWidth 64,
   c.mtype.setWidth 64, c.cycle, c.instret, c.ctxid.setWidth 64, statusWordOf c, c.cause.setWidth 64, c.epc, c.tval, c.tvec,
   c.scratch, c.bindbase, c.lmbase, c.waitlim.setWidth 64, c.safelim.setWidth 64]

/-- The CSRs back from a frame, word i by its place; PREQ is 0 (R337, step 5). -/
def csrsBack (w : Nat → Word) : Csrs :=
  { epos := (w 0).setWidth 9, fflags := (w 1).setWidth 5, mflags := (w 2).setWidth 4, vl := (w 3).toNat
    vtype := (w 4).setWidth 6, mtype := (w 5).setWidth 22, cycle := w 6, instret := w 7, ctxid := (w 8).setWidth 26
    prv := (w 9).extractLsb' 3 2, preq := false, pp := (w 9).setWidth 2, cause := (w 10).setWidth 8, epc := w 11, tval := w 12
    tvec := w 13, scratch := w 14, bindbase := w 15, lmbase := w 16, waitlim := (w 17).setWidth 32, safelim := (w 18).setWidth 32 }

/-- Marks by class as bits. -/
def markBits (m : Map (Option Nat)) : Nat := ((List.range 16).map fun c => if (mget none m c).isSome then 2 ^ c else 0).sum

/-- The first three items of a frame: pc, kinds, live map. Class 0 is M and 1 is V, as in a descriptor (DEDUCED, log 27). -/
def frameHead (pc : Word) (kind idx rank : Nat) (lm : BitVec 256) (q : BitVec 2) (mclass : Bool) : List (Nat × Nat × Nat) :=
  [(0, 8, pc.toNat), (8, 8, kind + q.toNat * 2 ^ 8 + (!mclass).toNat * 2 ^ 16 + rank % 256 * 2 ^ 24 + idx % 2 ^ 32 * 2 ^ 32),
   (0x10, 32, lm.toNat)]

/-- Rows of a live map from a bit on, but those to be passed over. -/
def mapRows (lm : BitVec 256) (bit n : Nat) (skip : Nat → Bool) : List Nat :=
  (List.range n).filter fun i => lm.getLsbD (bit + i) && !skip i

/-- The items of a frame after its head: offset, size, value (R331, R335). -/
def frameItems (lm : BitVec 256) (mclass : Bool) (x : Hart) : List (Nat × Nat × Nat) :=
  (savedCsrs x.c).zipIdx.map (fun p => (0x30 + 8 * p.2, 8, p.1.toNat)) ++
  [(0xC8, 8, 0), (0xD0, 8, x.feni), (0xD8, 8, markBits x.failed + markBits x.timedOut * 2 ^ 16), (0x140, 8, 0)] ++
  (mapRows lm 120 16 fun _ => false).map (fun i => (0x100 + 4 * i, 4, (x.ccv i).toNat)) ++
  (mapRows lm 64 32 (· == 0)).map (fun i => (0x140 + 8 * i, 8, (x.g (BitVec.ofNat 5 i)).toNat)) ++
  (mapRows lm 104 8 (· == 0)).map (fun i => (0x240 + 64 * i, 64, (x.k i).toNat)) ++
  (List.range 16).map (fun c => (0x800 + 8 * c, 8, (mget none x.failed c).getD 0)) ++
  (List.range 16).map (fun c => (0x880 + 8 * c, 8, (mget none x.timedOut c).getD 0)) ++
  (mapRows lm 96 8 fun _ => false).map (fun i => (0x1000 + 512 * i, 512, (x.v (64 + i)).toNat)) ++
  (mapRows lm 0 64 fun _ => false).map (fun i => (0x2000 + 512 * i, 512, (x.v i).toNat)) ++
  (if mclass then
    (List.range 8192).map (fun p => (0xA000 + 16 * p, 16, (mget 0 x.f.pdesc p).toNat)) ++
    (mapRows lm 112 8 fun _ => false).flatMap fun t =>
      (List.range 128).map fun i => (0x40000 + 65536 * t + 512 * i, 512, (x.tile t i).toNat)
  else [])

/-- Write items of a frame. -/
def State.writeItems (s : State) (die owner base : Nat) (l : List (Nat × Nat × Nat)) : State :=
  l.foldl (fun s p => s.shadowWrite die owner (base + p.1) (toBytes p.2.1 p.2.2)) s

/-- Read the items of a frame that stand in a list: each with the value that the frame holds. -/
def readItems (die owner base : Nat) : List (Nat × Nat × Nat) → State → State × List (Nat × Nat)
  | [], s => (s, [])
  | (o, n, _) :: r, s =>
    let p := s.shadowRead die owner (base + o) n
    let q := readItems die owner base r p.1
    (q.1, (o, leBytes p.2) :: q.2)

/-- The value of an item that has been read. -/
def itemAt (l : List (Nat × Nat)) (o : Nat) : Nat :=
  match l.find? fun p => p.1 == o with
  | some p => p.2
  | none => 0

/-- A map of registers from items. -/
def rowsBack {n : Nat} (l : List (Nat × Nat)) (rows : List Nat) (off : Nat → Nat) : Map (BitVec n) :=
  rows.foldl (fun m i => mset 0 m i (BitVec.ofNat n (itemAt l (off i)))) []

/-- Marks by class from a word of bits and the VAs at an offset. -/
def marksBack (l : List (Nat × Nat)) (bits off : Nat) : Map (Option Nat) :=
  ((List.range 16).filter bits.testBit).foldl (fun m c => mset none m c (some (itemAt l (off + 8 * c)))) []

/-- Every row that was VALID is LAZY (R181). -/
def lazyRow (d : BitVec 128) : BitVec 128 := if d.getLsbD 4 then d ||| 1#128 <<< 5 else d

/-- The register files of a frame; a row that its map does not name is zero (R337). -/
def filesBack (l : List (Nat × Nat)) (lm : BitVec 256) (mclass : Bool) : Files :=
  let all (_ : Nat) : Bool := false
  { g := rowsBack l (mapRows lm 64 32 (· == 0)) fun i => 0x140 + 8 * i
    v := rowsBack l (mapRows lm 0 64 all ++ (mapRows lm 96 8 all).map (64 + ·)) fun i =>
      if i < 64 then 0x2000 + 512 * i else 0x1000 + 512 * (i - 64)
    k := rowsBack l (mapRows lm 104 8 (· == 0)) fun i => 0x240 + 64 * i
    t := if mclass then rowsBack l ((mapRows lm 112 8 all).flatMap fun t => (List.range 128).map (128 * t + ·)) fun i =>
      0x40000 + 512 * i else []
    plane := []
    pdesc := if mclass then (List.range 8192).foldl
      (fun m p => mset 0 m p (lazyRow (BitVec.ofNat 128 (itemAt l (0xA000 + 16 * p))))) [] else [] }

/-- A hart as a frame holds it, with what the layout has no place for (R337; log 27). -/
def hartBack (f : Frame) (pc : Word) (lm : BitVec 256) (mclass : Bool) (l : List (Nat × Nat)) : Hart :=
  let marks := itemAt l 0xD8
  { Hart.idle with
    st := .run, pc, f := filesBack l lm mclass, c := csrsBack fun i => BitVec.ofNat 64 (itemAt l (0x30 + 8 * i))
    cc := rowsBack l (mapRows lm 120 16 fun _ => false) fun i => 0x100 + 4 * i
    feni := itemAt l 0xD0, failed := marksBack l marks 0x800, timedOut := marksBack l (marks / 2 ^ 16) 0x880
    bind := f.bind, next := f.next, seen := f.seen, colls := f.colls, entering := f.entering }

/-- Save a hart in the frame of its slot. -/
def State.writeFrame (s : State) (m owner : Nat) (x : Hart) (kind idx : Nat) (lm : BitVec 256) (q : BitVec 2) (mclass : Bool) :
    State :=
  s.writeItems (frameDie m x.slot) owner (frameBase owner x.slot)
    (frameHead x.pc kind idx x.rank lm q mclass ++ frameItems lm mclass x)

/-- Read a hart back from the frame of a slot. -/
def State.readFrame (s : State) (m owner slot : Nat) (f : Frame) : State × Hart :=
  let die := frameDie m slot
  let base := frameBase owner slot
  let (s, hd) := readItems die owner base (frameHead 0 0 0 0 0 0 false) s
  let lm := BitVec.ofNat 256 (itemAt hd 0x10)
  let mclass := !(itemAt hd 8).testBit 16
  let (s, l) := readItems die owner base (frameItems lm mclass Hart.idle) s
  (s, hartBack f (BitVec.ofNat 64 (itemAt hd 0)) lm mclass l)

/-- The Q in the frame of a slot. -/
def frameQ (s : State) (m owner slot : Nat) : BitVec 2 :=
  BitVec.ofNat 2 (s.rdNat (shadowKey s (frameDie m slot) (frameBase owner slot + 9)) 1)

/-! Sequencers (R322, R334). -/

/-- Number of a sequencer's state. -/
def SeqState.code : SeqState → Nat
  | .free => 0 | .run => 1 | .paused => 2 | .done => 3

/-- The state of R315 in 256 bytes; the order of its fields is open (DESIGN CHOICE, log 27). A saved sequencer has no outstanding
send, and its range registers and rank map stay in the unit, which no other context takes while this one holds the stack. -/
def seqRecord (x : Sequencer) : List Byte :=
  toBytes 8 x.st.code ++ toBytes 8 x.seq ++ toBytes 8 x.va ++ toBytes 2 x.step ++ toBytes 2 x.l0 ++ toBytes 4 x.l1 ++
    toBytes 32 x.chunks ++ (List.range 8).flatMap (fun i => toBytes 8 (x.header.getD i 0).toNat) ++ List.replicate 128 0

/-- The sequencers of a die are saved in the frame of slot 0 of its owner. -/
def State.writeSeqs (s : State) (die : Nat) : State :=
  let o := (s.die die).pOwner
  if o = 0 then s
  else (List.range 16).foldl (fun s q =>
    s.shadowWrite die o (frameBase o 0 + 0xC0000 + 256 * q) (seqRecord (mget Sequencer.reset (s.die die).seqs q))) s

end Sys2Proof.Machine
end

