-- ==== Sys2Proof/Machine/Contexts.lean ====
section
/-! DEFINITION. Contexts and partitions: opening and starting a record (R292, R293), pre-emption requests (R329, R330), meter
folds (R371 to R373), the first steps of a kill (R304, R340). -/

namespace Sys2Proof.Machine

open Sys2Proof

/-- Stacks of a PARTS value on module m, as dies. -/
def partsDies (m : Nat) (parts : BitVec 4) : List Nat :=
  ([0, 1, 2, 3].filter fun d => parts.getLsbD d).map fun d => m * 4 + d

/-- Dies of a module. -/
def moduleDies (m : Nat) : List Nat := [m * 4, m * 4 + 1, m * 4 + 2, m * 4 + 3]

/-- Report a launch status to the host (R295). -/
def State.report (s : State) (m owner slot : Nat) (seq : BitVec 8) (status : Nat) : State :=
  s.say (.report m owner slot seq status)

/-- Offset of a launch window slot in space 0xD (R377). -/
def windowOff (owner slot : Nat) : Nat := 0x40000 + 4096 * owner + 64 * slot

/-- Some module still lets module m's owner n in (R211). -/
def peerHeld (s : State) (m n : Nat) : Bool := s.modules.any fun p => (mget 0 p.2.peers n).getLsbD m

/-- A write of PARTS while STATE is FREE opens the record (R292, R211, R380). Its meters start at zero: what packets that came after
the teardown were charged is no count of the new tenant (R364, R372). -/
def State.openCtx (s : State) (m n : Nat) (parts : BitVec 4) : State :=
  let c := s.ctx m n
  if !(s.md m).ready || (c.needClear && peerHeld s m n) then s else
  let md := s.md m
  let s := s.setMd m { md with finals := mset noSnap md.finals n noSnap, parses := md.parses.filter fun p => p.1 != n }
  let s := s.zero (ctlKey (m * 4) (windowOff n 0)) 4096
  let s := (moduleDies m).foldl (fun s d => s.setDie d { s.die d with pendM := (s.die d).pendM.filter fun p => p.1 / 8 != n }) s
  s.setCtx m n { Ctx.reset with st := .opened, gen := c.gen + 1, parts := parts }

/-- The conditions of a start (R293). -/
def startOk (s : State) (m n : Nat) : Bool :=
  let c := s.ctx m n
  c.facc &&& ~~~ (s.md m).foff == 0 && c.ssize != 0 && c.ssize.toNat % 16 == 0 && c.bbase.toNat % 2048 == 0 &&
    c.parts != 0 && (partsDies m c.parts).all fun d => (s.die d).pOwner == 0

/-- A write of START (R293, R329). -/
def State.startCtx (s : State) (m n : Nat) : State :=
  let c := s.ctx m n
  if c.st ≠ .opened then s
  else if startOk s m n then
    (partsDies m c.parts).foldl (fun s d => s.setDie d { s.die d with pOwner := n, pState := 1 })
      (s.setCtx m n { c with st := .run, serr := false })
  else s.setCtx m n { c with serr := true }

/-- A pre-emption request to one hart (R330); none on an IDLE hart (R341). -/
def State.requestPreempt (s : State) (h : Nat) : State :=
  let x := s.hart h
  if x.st = .idle || isControl h || x.c.preq then s
  else s.setHart h { x with c := { x.c with preq := true }, preqAt := (s.die (hartDie h)).clk }

/-- Harts that hold a node, on a die. -/
def busyHarts (s : State) (d : Nat) : List Nat :=
  (s.harts.filter fun p => hartDie p.1 == d && !isControl p.1 && p.2.st != .idle).map (·.1)

/-! Meters. -/

/-- Weight of a meter: the operator's, 1 for meter 6 and 0 for others until set (R373; log 14). -/
def weight (md : Module) (m : Nat) : Nat := mget (if m = 6 then 1 else 0) md.weights m

/-- Activity of an owner in the accumulators being folded (R373). -/
def activity (md : Module) (x : Die) (o : Nat) : Nat :=
  ([0, 1, 2, 3, 4, 5, 6].map fun m => weight md m * mget 0 x.pendM (o * 8 + m)).sum +
    if o = 0 then weight md 6 * x.idleC else 0

/-- One owner's share of a fold (R372, R373). -/
def foldOwner (s : State) (d e total : Nat) (o : Nat) : State :=
  let m := d / 4
  let x := s.die d
  let c := s.ctx m o
  let ao := activity (s.md m) x o
  let t := c.residue + if total = 0 then 0 else e * ao / total
  let meters := [0, 1, 2, 3, 4, 5, 6].foldl
    (fun ms k => mset 0 ms k ((mget 0 ms k + mget 0 x.pendM (o * 8 + k)) % 2 ^ 64)) c.meters
  let c := if ao = 0 then { c with meters := meters }
    else { c with meters := mset 0 meters 7 ((mget 0 meters 7 + t / 1000) % 2 ^ 64), residue := t % 1000 }
  s.setCtx m o { c with forming := c.forming.map fun l => l.filter (· ≠ d) }

/-- The Lantern folds a die, its rails having delivered e nanojoules (R372, R373). -/
def State.fold (s : State) (d e : Nat) : State :=
  let m := d / 4
  let total := ((List.range 64).map (activity (s.md m) (s.die d))).sum
  let s := ((List.range 63).map (· + 1)).foldl (fun s o => foldOwner s d e total o) s
  s.setDie d { s.die d with pendM := [], idleC := 0 }

/-- A hart of a stack that is being saved reaches its save point, or a member of its gang reports PAUSED: the save is timed from the
last of these (R336). -/
def State.savePoint (s : State) (d : Nat) : State :=
  let x := s.die d
  if x.pState = 2 then s.setDie d { x with saveFrom := x.clk } else s

/-- A suspension is complete when no hart of the stack holds a node and no sequencer runs; the sequencers are saved, and the stack
folds (R322, R329, R334, R336, R372). -/
def State.suspendDone (s : State) (d : Nat) : State :=
  let x := s.die d
  if x.pState = 2 && busyHarts s d == [] && x.seqs.all (fun p => p.2.st != .run) then
    let s := ((s.writeSeqs d).fold d (Config.freeCount s.fresh)).draw
    s.setDie d { s.die d with pState := 3, lastSave := min (x.clk - x.saveFrom) (2 ^ 24 - 1) }
  else s

/-- SUSPEND (R329, R330). -/
def State.suspend (s : State) (d : Nat) : State :=
  let x := s.die d
  if x.pState ≠ 1 then s else
  let s := s.setDie d { x with pState := 2, saveFrom := x.clk }
  ((busyHarts s d).foldl State.requestPreempt s).suspendDone d

/-- RESUME (R329). -/
def State.resume (s : State) (d : Nat) : State :=
  let x := s.die d
  if x.pState = 3 then s.setDie d { x with pState := 1 } else s

/-! Kill. -/

/-- A sequencer's member is lost: notices go out and it stops (R321). lost is the rank lost; status is written by
seqStop in the sequencer's own step. -/
def State.seqDrop (s : State) (d q : Nat) : State :=
  let x := s.seq d q
  let s := if x.st = .run || x.st = .paused then s.tellRanks d q (.loss x.tag x.rank x.rank) else s
  s.setSeq d q { Sequencer.reset with seq := x.seq }

/-- Withdraw the wait records of a hart, on every die (R278). -/
def State.withdraw (s : State) (h : Nat) : State :=
  { s with dies := s.dies.map fun p => (p.1, { p.2 with
      recs := p.2.recs.filter (fun r => r.hart ≠ h), retries := p.2.retries.filter (fun r => r.hart ≠ h),
      chRecs := p.2.chRecs.filter (fun r => r.hart ≠ h), chRetry := p.2.chRetry.filter (fun r => r.hart ≠ h) }) }

/-- Withdraw the wait records of a hart itself; those of its VLDF.NB elements stay (R278, R332). -/
def State.withdrawOwn (s : State) (h : Nat) : State :=
  { s with dies := s.dies.map fun p => (p.1, { p.2 with
      recs := p.2.recs.filter (fun r => r.hart ≠ h || r.elt ≠ 0), retries := p.2.retries.filter (fun r => r.hart ≠ h || r.elt ≠ 0),
      chRecs := p.2.chRecs.filter (fun r => r.hart ≠ h), chRetry := p.2.chRetry.filter (fun r => r.hart ≠ h) }) }

/-- Stores that a killed hart's combining buffer may still send, or that are on their way (R340, step 5). -/
def inFlight (x : Hart) : List Elt := x.pend.filter fun e => e.kind == .write && (e.place == .sent || e.place == .issued)

/-- The accesses of a source to other dies are abandoned (R340). -/
def State.dropFar (s : State) (source : Nat) : State := { s with far := s.far.filter fun f => f.source != source }

/-- A hart of a killed context goes IDLE (R340, steps 2 and 3). -/
def State.killHart (s : State) (m n h : Nat) : State :=
  let x := s.hart h
  let lost := (x.pend.filter fun e => e.place == .sideLog || e.place == .replay).length
  let s := (List.range lost).foldl (fun s _ => s.countCtx m n 0) s
  let k := s.core (hartCore h)
  let s := s.setCore (hartCore h)
    { k with log := k.log.filter (fun p => p.1 ≠ h), replay := k.replay.filter (fun p => p.1 ≠ h) }
  ((s.withdraw h).dropFar h).setHart h { x.atRest with f := { Files.zero with plane := x.f.plane, pdesc := x.f.pdesc }, pend := inFlight x }

/-- Harts of a context: owner n of module m. -/
def ctxHarts (s : State) (m n : Nat) : List Nat :=
  (s.harts.filter fun p => hartDie p.1 / 4 == m && !isControl p.1 && p.2.st != .idle && ctxOwner p.2.c.ctxid == n).map (·.1)

/-- Steps 1 to 4 of a kill; each live launch reports status 4 (R304, R340). -/
def State.kill (s : State) (m n : Nat) : State :=
  let c := s.ctx m n
  if c.st = .free || c.st = .dying then s else
  let s := (ctxHarts s m n).foldl (fun s h => s.killHart m n h) s
  let s := (moduleDies m).foldl
    (fun s d => ((s.die d).seqs.filter fun p => p.2.owner == n && p.2.st != .free).foldl (fun s p => s.seqDrop d p.1) s) s
  let s : State := { s with far := s.far.filter fun f => !(f.owner == n && sourceDie f.source / 4 == m) }
  let s := ((s.md m).launches.filter fun l => l.owner == n).foldl (fun s l => s.report m n l.slot l.seq 4) s
  let gone := ((s.md m).basin.filter fun e => e.owner == n).map (·.id)
  let s := (moduleDies m).foldl
    (fun s d => s.setDie d { s.die d with
      queue := (s.die d).queue.filter (fun i => !gone.contains i)
      claims := (s.die d).claims.filter (fun p => !gone.contains p.1)
      copies := (s.die d).copies.filter (fun j => j.owner ≠ n) }) s
  let md := s.md m
  let s := s.setMd m { md with
    peers := mset 0 md.peers n 0
    launches := md.launches.filter (fun l => l.owner ≠ n)
    basin := md.basin.filter (fun e => e.owner ≠ n)
    spilled := md.spilled.filter (fun e => e.owner ≠ n)
    nodes := md.nodes.filter (fun e => e.owner ≠ n)
    preqs := md.preqs.filter (fun e => e.owner ≠ n)
    parses := md.parses.filter (fun p => p.1 ≠ n) }
  s.setCtx m n { s.ctx m n with st := .dying, spill := [], deficit := 0, slots := [], ranges := [] }

/-- A double fault (R328): the context is killed, or the control hart stops. -/
def State.doubleFault (s : State) (h : Nat) : State :=
  let d := hartDie h
  let s := s.countDie d 9
  if isControl h then
    let s := s.setHart h { s.hart h with st := .halted, entering := false, hold := none }
    let m := d / 4
    s.setMd m { s.md m with chalt := (s.md m).chalt ||| (1#8 <<< (2 * (d % 4) + h % 2)) }
  else s.kill (d / 4) (s.owner h)

/-- Restart of a halted control hart at epc, level M (R127, R379). -/
def State.restart (s : State) (d i : Nat) : State :=
  let h := d * 128 + 96 + i
  let x := s.hart h
  if x.st = .halted then
    let s := s.setHart h { x with st := .run, pc := x.c.epc, c := { x.c with prv := 3 }, hold := none }
    let m := d / 4
    s.setMd m { s.md m with chalt := (s.md m).chalt &&& ~~~ (1#8 <<< (2 * (d % 4) + i)) }
  else s

end Sys2Proof.Machine
end

