-- ==== Sys2Proof/Machine/Control.lean ====
section
/-! DEFINITION. Space 0xD: the control-space map and its registers (R201, R292, R295, R329, R348, R362, R368 to R370, R377 to
R379). -/

namespace Sys2Proof.Machine

open Sys2Proof

/-- STATE of a record as two bits (R292). -/
def CtxState.code : CtxState → Nat
  | .free => 0 | .opened => 1 | .run => 2 | .dying => 3

/-- A context record as one number of 1024 bits (R292). -/
def ctxWord (md : Module) (c : Ctx) (n : Nat) : Nat :=
  c.sbase.toNat + c.ssize.toNat * 2 ^ 64 + c.waitlim.toNat * 2 ^ 96 + c.lmbase.toNat * 2 ^ 128 + c.tvec.toNat * 2 ^ 192 +
  c.bbase.toNat * 2 ^ 256 + c.weight.toNat * 2 ^ 320 + c.parts.toNat * 2 ^ 328 + n % 64 * 2 ^ 332 + c.gen.toNat * 2 ^ 338 +
  c.st.code * 2 ^ 342 + c.ctx.toNat * 2 ^ 344 + c.serr.toNat * 2 ^ 362 + c.safelim.toNat * 2 ^ 363 +
  md.foff.toNat * 2 ^ 512 + c.facc.toNat * 2 ^ 640

/-- The Lantern status register (R378). -/
def lanternWord (md : Module) : Nat :=
  md.ready.toNat + md.fail.toNat * 2 + md.stage % 8 * 16 + md.fcode % 256 * 2 ^ 16 + md.doff.toNat * 2 ^ 28 +
  md.chalt.toNat * 2 ^ 32

/-- The partition control register (R329). -/
def partitionWord (x : Die) : Nat := x.lastSave % 2 ^ 24 * 2 ^ 8 + x.pState.toNat * 2 ^ 32 + x.pOwner % 64 * 2 ^ 34

/-- The statistics record of a region (R370). -/
def Region.stats (r : Region) : List Nat :=
  [r.rread % 2 ^ 16 + r.window % 2 ^ 12 * 2 ^ 16, r.drops % 2 ^ 32 + r.raises % 2 ^ 32 * 2 ^ 32, r.bounces % 2 ^ 64, 0]

/-- n bytes from byte i of 8-byte words. -/
def wordBytes (f : Nat → Nat) (i : Nat) : Nat → List Byte
  | 0 => []
  | n + 1 => BitVec.ofNat 8 (f (i / 8) / 2 ^ (i % 8 * 8)) :: wordBytes f (i + 1) n

/-- Read n bytes from byte i of an item of a die's space 0xD. -/
def ctlBytes (s : State) (die : Nat) (it : CtlItem) (i n : Nat) : List Byte :=
  let m := die / 4
  let md := s.md m
  let x := s.die die
  match it with
  | .lantern => wordBytes (fun _ => lanternWord md) i n
  | .identity => wordBytes (fun _ => m % 64 + die % 4 * 2 ^ 6 + (Config.serial die).toNat * 2 ^ 8) i n
  | .osize => wordBytes (fun _ => x.osize.toNat) i n
  | .restart => wordBytes (fun _ => 0) i n
  | .partition => wordBytes (fun _ => partitionWord x) i n
  | .roots => s.rd (ctlKey die (0x200 + i)) n
  | .dieErrs => wordBytes (fun w => mget 0 x.errs w) i n
  | .retired => wordBytes (fun w => match x.retired[w]? with | some g => g * 2 ^ 21 + 1 | none => 0) i n
  | .record k => if k = 0 then List.replicate n 0
      else wordBytes (fun w => ctxWord md (s.ctx m k) k / 2 ^ (64 * w) % 2 ^ 64) i n
  | .ctxErrs k => wordBytes (fun w => mget 0 (s.ctx m k).errs w) i n
  | .stats => wordBytes (fun w => ((mget Region.reset md.regions (w / 4)).stats.getD (w % 4) 0)) i n
  | .window k => s.rd (ctlKey die (windowOff k 0 + i)) n

/-- Read of space 0xD (R377). -/
def ctlRead (s : State) (die off n : Nat) : Res (List Byte) :=
  match ctlAccess die off n with
  | none => .fault s .protectionFault
  | some (it, i) => .ok s (ctlBytes s die it i n)

/-- A number with n bytes from byte i on replaced. -/
def mergeBytes (old i : Nat) (bs : List Byte) : Nat :=
  old - old / 2 ^ (8 * i) % 2 ^ (8 * bs.length) * 2 ^ (8 * i) + leBytes bs * 2 ^ (8 * i)

/-- The field of w bits at bit b of a number. -/
def field (x b w : Nat) : Nat := x / 2 ^ b % 2 ^ w

/-- The bytes i to i + n - 1 hold some bit of the field of w bits at bit b. -/
def touches (i n b w : Nat) : Bool := 8 * i < b + w && b < 8 * (i + n)

/-- A write of a context record (R292, R293). prv is the level of the writing control hart; 0 for the host. -/
def recordWrite (s : State) (m k : Nat) (prv : BitVec 2) (i : Nat) (bs : List Byte) : State :=
  if k = 0 || 64 ≤ k then s else
  let c := s.ctx m k
  let w := mergeBytes (ctxWord (s.md m) c k) i bs
  if c.st = .free && prv = 3 && touches i bs.length 328 4 then s.openCtx m k (BitVec.ofNat 4 (field w 328 4))
  else
    let opened := c.st = .opened
    let c := if c.st = .free || c.st = .opened then
        { c with
          sbase := BitVec.ofNat 64 (field w 0 64), ssize := BitVec.ofNat 32 (field w 64 32)
          waitlim := BitVec.ofNat 32 (field w 96 32), lmbase := BitVec.ofNat 64 (field w 128 64)
          tvec := BitVec.ofNat 64 (field w 192 64), bbase := BitVec.ofNat 64 (field w 256 64)
          weight := BitVec.ofNat 8 (field w 320 8)
          parts := if prv = 3 && opened then BitVec.ofNat 4 (field w 328 4) else c.parts
          safelim := if prv = 3 then BitVec.ofNat 32 (field w 363 32) else c.safelim
          ctx := if opened then BitVec.ofNat 16 (field w 344 16) else c.ctx
          facc := if opened then BitVec.ofNat 128 (field w 640 128) else c.facc }
      else c
    let s := s.setCtx m k c
    if touches i bs.length 361 1 && field w 361 1 = 1 then s.startCtx m k else s

/-- Every byte of the storage that p names, with tags, reads as zero, empty and owner 0, its lines under the owner-0 key. -/
def State.scrub (s : State) (p : Nat → Bool) : State :=
  { s with
    mem := s.mem.filter (fun c => !p c.1)
    full := s.full.filter (fun c => !p c.1)
    owners := s.owners.filter (fun c => !p c.1)
    poison := s.poison.filter (fun c => !p c.1)
    keyTag := s.keyTag.filter (fun c => !p (c.1 * 128))
    dirty := s.dirty.filter (fun c => !p (c.1 * 128)) }

/-- A write of the overflow size register (R201): the new area is zero-filled; what leaves it is HBM without tags again. -/
def osizeWrite (s : State) (die v : Nat) : State :=
  let x := s.die die
  let n := BitVec.ofNat 5 (min (v % 32) 16)
  if x.pState ≠ 0 || n = x.osize then s
  else
    let s := s.setDie die { x with osize := n }
    let s := s.scrub fun k => keyDie k == die && inOverflow s (s.die die).overflow k
    let tagged (k : Nat) : Bool := keyDie k == die && keySpc k == .hbm
    { s with full := s.full.filter (fun c => !tagged c.1), owners := s.owners.filter (fun c => !tagged c.1) }

/-- A write of the partition control register by level M or the Lantern (R329). -/
def partitionWrite (s : State) (die v : Nat) : State :=
  if v.testBit 2 then (if (s.die die).pOwner = 0 then s else s.kill (die / 4) (s.die die).pOwner)
  else if v.testBit 0 && v.testBit 1 then s
  else if v.testBit 0 then s.suspend die
  else if v.testBit 1 then s.resume die
  else s

/-- Slots whose byte 63 lies in bytes i to i + n - 1 of a window. -/
def seqSlots (i n : Nat) : List Nat := (List.range 64).filter fun k => i ≤ 64 * k + 63 && 64 * k + 63 < i + n

/-- The line monitor sees a write of byte 63 of a slot (R295). -/
def slotSeen (s : State) (m owner slot : Nat) : State :=
  let key := ctlKey (m * 4) (windowOff owner slot)
  let q := (s.rd (key + 63) 1).headD 0
  let c := s.ctx m owner
  if q = mget 0 c.lastSeq slot || !(s.md m).ready then s
  else
    let s := s.setCtx m owner { c with lastSeq := mset 0 c.lastSeq slot q }
    s.setMd m { s.md m with parses := (s.md m).parses ++ [(owner, slot, s.rd key 64)] }

/-- A write to a launch window (R290, R295). -/
def windowWrite (s : State) (m owner i : Nat) (bs : List Byte) : State :=
  (seqSlots i bs.length).foldl (fun s k => slotSeen s m owner k) (s.wr (ctlKey (m * 4) (windowOff owner 0 + i)) bs)

/-- Write of space 0xD by owner 0 (R377); prv is the level of a control hart, 3 for the Lantern, 0 for the host. -/
def ctlWrite (s : State) (die : Nat) (prv : BitVec 2) (off : Nat) (bs : List Byte) : Res Unit :=
  match ctlAccess die off bs.length with
  | none => .fault s .protectionFault
  | some (it, i) =>
    let v := mergeBytes 0 i bs
    .ok (match it with
      | .osize => if i = 0 then osizeWrite s die v else s
      | .restart =>
        let s := if v.testBit 0 then s.restart die 0 else s
        if v.testBit 1 then s.restart die 1 else s
      | .partition => if prv = 3 && i = 0 then partitionWrite s die v else s
      | .roots =>
        let changed (o : Nat) : Bool := i < 8 * o + 8 && 8 * o < i + bs.length
        { s with tlb := s.tlb.filter fun t => !(ipaHome t.base == die && changed t.owner) }.wr (ctlKey die (0x200 + i)) (wordBytes (fun w => mergeBytes 0 i bs / 2 ^ (64 * w) % 2 ^ 64 &&& 0x3FFFFFF001) i bs.length)
      | .record k => recordWrite s (die / 4) k prv i bs
      | .window k => if k = 0 then s else windowWrite s (die / 4) k i bs
      | _ => s) ()

end Sys2Proof.Machine
end

