-- ==== Sys2Proof/Machine/Flags.lean ====
section
/-! DEFINITION. Exact numbers, the float formats (R92, R93), rounding (R99 to R104) and the flags it
raises, and the operations of atomics (R264). -/

namespace Sys2Proof.Machine

open Sys2Proof

/-- fflags as raised by an operation: NV, DZ, OF, UF, NX from bit 4 down (R83). -/
abbrev FFlags := BitVec 5
/-- NV. -/
def fNV : FFlags := 16
/-- DZ. -/
def fDZ : FFlags := 8
/-- OF. -/
def fOF : FFlags := 4
/-- UF. -/
def fUF : FFlags := 2
/-- NX. -/
def fNX : FFlags := 1

/-- The float formats (R92). -/
inductive FFmt
  | f32 | f16 | b16 | f8a | f8b
  deriving DecidableEq, Repr

/-- Width in bits. -/
def FFmt.bits : FFmt → Nat
  | .f32 => 32 | .f16 => 16 | .b16 => 16 | .f8a => 8 | .f8b => 8
/-- Fraction bits. -/
def FFmt.fb : FFmt → Nat
  | .f32 => 23 | .f16 => 10 | .b16 => 7 | .f8a => 3 | .f8b => 2
/-- Exponent bias. -/
def FFmt.bias : FFmt → Nat
  | .f32 => 127 | .f16 => 15 | .b16 => 127 | .f8a => 7 | .f8b => 15
/-- Largest finite code. -/
def FFmt.maxCode : FFmt → Nat
  | .f32 => 0x7F7FFFFF | .f16 => 0x7BFF | .b16 => 0x7F7F | .f8a => 0x7E | .f8b => 0x7B
/-- Canonical NaN (R92, R94). -/
def FFmt.cnan : FFmt → Nat
  | .f32 => 0x7FC00000 | .f16 => 0x7E00 | .b16 => 0x7FC0 | .f8a => 0x7F | .f8b => 0x7E
/-- +Infinity; F8A has none. -/
def FFmt.inf : FFmt → Option Nat
  | .f32 => some 0x7F800000 | .f16 => some 0x7C00 | .b16 => some 0x7F80 | .f8a => none | .f8b => some 0x7C
/-- Exponent of the smallest normal. -/
def FFmt.emin (f : FFmt) : Int := 1 - f.bias

/-- An exact number: NaN, an infinity, a zero, or ± x with m * 2^e = x, or m * 2^e < x < (m + 1) * 2^e when st is set. -/
inductive Num
  | nan
  | inf (neg : Bool)
  | zero (neg : Bool)
  | fin (neg : Bool) (m : Nat) (e : Int) (st : Bool)
  deriving DecidableEq, Repr

/-- The value of a code (R93). -/
def FFmt.dec (f : FFmt) (w : Nat) : Num :=
  let neg := w.testBit (f.bits - 1)
  let mag := w % 2 ^ (f.bits - 1)
  let e := mag / 2 ^ f.fb
  let fr := mag % 2 ^ f.fb
  if mag = 0 then .zero neg
  else if mag ≤ f.maxCode then
    if e = 0 then .fin neg fr (f.emin - f.fb) false else .fin neg (fr + 2 ^ f.fb) (e - f.bias - f.fb : Int) false
  else if f.inf = some mag then .inf neg
  else .nan

/-- A code with its sign bit. -/
def FFmt.signed (f : FFmt) (neg : Bool) (mag : Nat) : Nat := mag + if neg then 2 ^ (f.bits - 1) else 0

/-- An integer as a number; a zero is +0. -/
def Num.ofInt (i : Int) : Num := if i = 0 then .zero false else .fin (decide (i < 0)) i.natAbs 0 false

/-- Rounding modes (R81, R99). -/
inductive RMode
  | rne | rtz | rdn | rup
  deriving DecidableEq, Repr

/-- The mode of vtype.RM. -/
def RMode.ofBits (b : BitVec 2) : RMode := match b.toNat with | 0 => .rne | 1 => .rtz | 2 => .rdn | _ => .rup

/-- |x| / 2^d for |x| = m, or between m and m + 1, as an integer in a mode; and whether it is inexact (R99). -/
def roundMag (mode : RMode) (neg : Bool) (m : Nat) (st : Bool) (d : Nat) : Nat × Bool :=
  let fl := m / 2 ^ d
  let rem := m % 2 ^ d
  let inex := rem != 0 || st
  let up := match mode with
    | .rne => d ≠ 0 && (2 * rem > 2 ^ d || (2 * rem == 2 ^ d && (st || fl % 2 == 1)))
    | .rtz => false
    | .rdn => neg && inex
    | .rup => !neg && inex
  (if up then fl + 1 else fl, inex)

/-- |x| to a multiple of 2^q: the multiple, and inexactness. -/
def roundAt (mode : RMode) (neg : Bool) (m : Nat) (e : Int) (st : Bool) (q : Int) : Nat × Bool :=
  if q ≤ e then (m * 2 ^ (e - q).toNat, st) else roundMag mode neg m st (q - e).toNat

/-- The magnitude code of n * 2^q, with q at least emin - fb; above maxCode when it overflows. -/
def FFmt.enc (f : FFmt) (n : Nat) (q : Int) : Nat :=
  if n = 0 then 0
  else
    let (n, q) := if 2 ^ (f.fb + 1) ≤ n then (n / 2, q + 1) else (n, q)
    if n < 2 ^ f.fb then n else ((q + f.fb + f.bias).toNat) * 2 ^ f.fb + (n - 2 ^ f.fb)

/-- The overflow result in a mode (R100). -/
def FFmt.over (f : FFmt) (mode : RMode) (neg : Bool) : Nat :=
  let toInf := match mode with
    | .rne => true
    | .rtz => false
    | .rdn => neg
    | .rup => !neg
  if toInf then (match f.inf with | some i => f.signed neg i | none => f.cnan) else f.signed neg f.maxCode

/-- round and, with sat, sround (R99 to R102): the code and the flags. -/
def FFmt.round (f : FFmt) (mode : RMode) (sat : Bool) : Num → Nat × FFlags
  | .nan => (f.cnan, 0)
  | .inf neg =>
    if sat then (f.signed neg f.maxCode, fNX)
    else match f.inf with
      | some i => (f.signed neg i, 0)
      | none => (f.cnan, fNV)
  | .zero neg => (f.signed neg 0, 0)
  | .fin neg m e st =>
    let lg : Int := Nat.log2 m + e
    let q := max lg f.emin - f.fb
    let r := roundAt mode neg m e st q
    let code := f.enc r.1 q
    if f.maxCode < code then
      (if sat then f.signed neg f.maxCode else f.over mode neg, fOF ||| fNX)
    else
      let u := roundAt mode neg m e st (lg - f.fb)
      let tiny := lg < f.emin && !(lg + 1 == f.emin && u.1 == 2 ^ (f.fb + 1))
      (f.signed neg code, (if r.2 then fNX else 0) ||| (if tiny && r.2 then fUF else 0))

/-! Exact operations. -/

/-- Sign of a number; NaN has none. -/
def Num.neg? : Num → Bool
  | .nan => false | .inf s => s | .zero s => s | .fin s _ _ _ => s
/-- Negation. -/
def Num.negate : Num → Num
  | .nan => .nan | .inf s => .inf !s | .zero s => .zero !s | .fin s m e st => .fin (!s) m e st
/-- NaN. -/
def Num.isNan : Num → Bool
  | .nan => true | _ => false
/-- An infinity. -/
def Num.isInf : Num → Bool
  | .inf _ => true | _ => false
/-- A zero. -/
def Num.isZero : Num → Bool
  | .zero _ => true | _ => false

/-- A finite number as integer times 2^e. -/
def Num.toInt (e : Int) : Num → Int
  | .fin s m e' _ => let v : Int := m * 2 ^ (e' - e).toNat; if s then -v else v
  | _ => 0

/-- Exponent of a finite number; a zero has a large one. -/
def Num.exp : Num → Int
  | .fin _ _ e _ => e
  | _ => 100000

/-- An integer times 2^e; a zero takes the sign given. -/
def Num.ofScaled (i e : Int) (zneg : Bool) : Num :=
  if i = 0 then .zero zneg else .fin (decide (i < 0)) i.natAbs e false

/-- The exact sum of finite numbers and zeros; an exact zero takes the sign given. -/
def sumFin (xs : List Num) (zneg : Bool) : Num :=
  let e := xs.foldl (fun e x => min e x.exp) 100000
  .ofScaled (xs.foldl (fun t x => t + x.toInt e) 0) e zneg

/-- The exact sum of a list, with its invalid operation (R104, R110). zneg is the sign of an exact zero sum of terms that are
not all zeros of one sign. -/
def sumNums (xs : List Num) (zneg : Bool) : Num × FFlags :=
  if xs.any Num.isNan then (.nan, 0)
  else
    let p := xs.any fun x => x == .inf false
    let n := xs.any fun x => x == .inf true
    if p && n then (.nan, fNV)
    else if p then (.inf false, 0)
    else if n then (.inf true, 0)
    else
      let allNeg := xs.all fun x => x == .zero true
      let allPos := xs.all fun x => x == .zero false
      (sumFin xs (if allNeg then true else if allPos then false else zneg), 0)

/-- The exact product, with 0 x inf invalid (R104). -/
def mulNum (a b : Num) : Num × FFlags :=
  let s := a.neg? != b.neg?
  match a, b with
  | .nan, _ => (.nan, 0)
  | _, .nan => (.nan, 0)
  | .inf _, .zero _ => (.nan, fNV)
  | .zero _, .inf _ => (.nan, fNV)
  | .inf _, _ => (.inf s, 0)
  | _, .inf _ => (.inf s, 0)
  | .zero _, _ => (.zero s, 0)
  | _, .zero _ => (.zero s, 0)
  | .fin _ m e _, .fin _ m' e' _ => (.fin s (m * m') (e + e') false, 0)

/-- The exact quotient (R104). -/
def divNum (a b : Num) : Num × FFlags :=
  let s := a.neg? != b.neg?
  match a, b with
  | .nan, _ => (.nan, 0)
  | _, .nan => (.nan, 0)
  | .inf _, .inf _ => (.nan, fNV)
  | .zero _, .zero _ => (.nan, fNV)
  | .inf _, _ => (.inf s, 0)
  | _, .inf _ => (.zero s, 0)
  | .zero _, _ => (.zero s, 0)
  | .fin _ _ _ _, .zero _ => (.inf s, fDZ)
  | .fin _ m e _, .fin _ m' e' _ =>
    (.fin s (m * 2 ^ 128 / m') (e - e' - 128) (m * 2 ^ 128 % m' != 0), 0)

/-- Integer square root by bits from 2^n down. -/
def isqrtFrom (w : Nat) : Nat → Nat → Nat
  | 0, r => r
  | n + 1, r => if (r + 2 ^ n) * (r + 2 ^ n) ≤ w then isqrtFrom w n (r + 2 ^ n) else isqrtFrom w n r

/-- Integer square root of a number below 4^n (root below 2^n). -/
def isqrt (n w : Nat) : Nat := isqrtFrom w n 0

/-- m * 2^e with an even exponent. -/
def evenExp (m : Nat) (e : Int) : Nat × Int := if e % 2 = 0 then (m, e) else (2 * m, e - 1)

/-- The exact square root; invalid below -0 (R104). -/
def sqrtNum : Num → Num × FFlags
  | .nan => (.nan, 0)
  | .zero s => (.zero s, 0)
  | .inf false => (.inf false, 0)
  | .inf true => (.nan, fNV)
  | .fin true _ _ _ => (.nan, fNV)
  | .fin false m e _ =>
    let p := evenExp m e
    let w := p.1 * 2 ^ 128
    let r := isqrt 80 w
    (.fin false r ((p.2 - 128) / 2) (r * r != w), 0)

/-- The exact reciprocal square root; +inf of either zero (R104). -/
def rsqrtNum : Num → Num × FFlags
  | .nan => (.nan, 0)
  | .zero _ => (.inf false, fDZ)
  | .inf false => (.zero false, 0)
  | .inf true => (.nan, fNV)
  | .fin true _ _ _ => (.nan, fNV)
  | .fin false m e _ =>
    let p := evenExp m e
    let r := isqrt 129 (2 ^ 256 / p.1)
    (.fin false r (-128 - p.2 / 2) (r * r * p.1 != 2 ^ 256), 0)

/-- Multiply by 2^k; zeros and infinities are unchanged (R105). -/
def Num.scale (k : Int) : Num → Num
  | .fin s m e st => .fin s m (e + k) st
  | x => x

/-- |x| of a finite number exceeds 1. -/
def aboveOne (m : Nat) (e : Int) (st : Bool) : Bool :=
  if 0 ≤ e then 1 < m * 2 ^ e.toNat || (m * 2 ^ e.toNat == 1 && st)
  else 2 ^ (-e).toNat < m || (m == 2 ^ (-e).toNat && st)

/-- CLAMP on the exact value (R105, step 4). -/
def Num.clamp (c : BitVec 2) (x : Num) : Num :=
  let one (s : Bool) : Num := .fin s 1 0 false
  match c.toNat, x with
  | 1, .zero _ => .zero false
  | 1, .inf s => if s then .zero false else one false
  | 1, .fin s m e st => if s then .zero false else if aboveOne m e st then one false else x
  | 2, .inf s => one s
  | 2, .fin s m e st => if aboveOne m e st then one s else x
  | _, _ => x

/-- Steps 3 to 5 of R105: scale, clamp and one narrowing. -/
def FFmt.finish (f : FFmt) (mode : RMode) (scale : BitVec 4) (clamp : BitVec 2) (x : Num × FFlags) : Nat × FFlags :=
  let r := f.round mode (clamp == 3) ((x.1.scale scale.toInt).clamp clamp)
  (r.1, x.2 ||| r.2)

/-- RNE(x, fmt) (R99). -/
def FFmt.rne (f : FFmt) (x : Num) : Nat × FFlags := f.round .rne false x

/-- -1, 0 or 1 as a is below, equal to or above b, neither a NaN; zeros compare equal. -/
def cmpNum (a b : Num) : Int :=
  match a, b with
  | .inf s, .inf t => if s = t then 0 else if s then -1 else 1
  | .inf s, _ => if s then -1 else 1
  | _, .inf t => if t then 1 else -1
  | _, _ =>
    let e := min a.exp b.exp
    let d := a.toInt e - b.toInt e
    if d < 0 then -1 else if d = 0 then 0 else 1

/-! Atomic operations (R264, R265). -/

/-- A number of w bits as a signed integer. -/
def sintOf (w x : Nat) : Int := (BitVec.ofNat w x).toInt

/-- The operations of R264 at width w: the new value, or none for a CAS that fails (R265). -/
def amoNew (op : BitVec 4) (w old a cmp : Nat) : Option Nat :=
  match op.toNat with
  | 0 => some ((old + a) % 2 ^ w)
  | 1 => some (old &&& a)
  | 2 => some (old ||| a)
  | 3 => some (old ^^^ a)
  | 4 => some (if sintOf w old ≤ sintOf w a then old else a)
  | 5 => some (if sintOf w a ≤ sintOf w old then old else a)
  | 6 => some (min old a)
  | 7 => some (max old a)
  | 8 => some a
  | 9 => if old = cmp then some a else none
  | 10 => some (min (old + a) (2 ^ w - 1))
  | _ => some ((FFmt.f32.rne (sumNums [FFmt.f32.dec old, FFmt.f32.dec a] false).1).1)

/-- The bytes that an atomic writes over a value, none where it writes nothing (R263, R265, R302). -/
def AtomicOp.new (o : AtomicOp) (old : Nat) : Option (List Byte) :=
  match o with
  | .amo op w a cmp => (amoNew op w old a cmp).map (toBytes (w / 8))
  | .preds => if old / 2 ^ 8 % 2 ^ 16 = 0 then none else some (toBytes 8 (old - 2 ^ 8))

end Sys2Proof.Machine
end

