-- ==== Sys2Proof/Machine/Access.lean ====
section
/-! DEFINITION. Accesses of harts and agents: where a read is served (R206, R209, R213), the order within a class (R224, R236,
R237), the side log (R244), what a barrier waits for (R223, R228). -/

namespace Sys2Proof.Machine

open Sys2Proof

/-! Accesses of other dies (R306, R311). -/

/-- The entry of an agent's access. -/
def Far.is (f : Far) (a : Agent) (ipa : Nat) : Bool :=
  f.source == a.source && f.elt == a.elt && f.ipa == ipa && f.owner == a.owner

/-- The request of an access enters its channel queue; without room there its source stalls (R306, R309). -/
def State.ask (s : State) (f : Far) : State :=
  let fl := flowId f.source (ipaHome f.ipa) f.cls
  if flowRoom s fl then
    let s := s.enqueue fl f.owner (.request f.source f.elt f.ipa f.out f.back)
    { s with far := s.far ++ [f] }
  else s

/-- A message that is a page request. -/
def isPageRequest : Msg → Bool
  | .pageRequest .. => true
  | _ => false

/-- A packet that asks for a page. -/
def Packet.asks (p : Packet) : Bool :=
  match p.body with
  | .pageAsk .. => true
  | _ => false

/-- The second state with the requests to the host and to other dies that were made on the way to the first: all that is left of an
attempt that must wait. -/
def keepRequests (a b : State) : State :=
  let s := a.modules.foldl (fun s p => s.setMd p.1 { s.md p.1 with preqs := p.2.preqs }) b
  let s := { s with serial := a.serial, out := b.out ++ (a.out.drop b.out.length).filter isPageRequest }
  let s := (a.far.filter fun f => f.state == .sent && !b.far.contains f).foldl State.ask s
  (a.packets.filter fun p => p.asks && !b.packets.contains p).foldl State.offer s

/-- A request and its response pass in one step, over links that hold no other packet (log 6). -/
def passBoth (s : State) (a : Agent) (ipa out back : Nat) : Option State :=
  (passLink s (flowId a.source (ipaHome ipa) a.cls) a.owner out false).bind fun s =>
    passLink s (flowId (unitSource (ipaHome ipa) 0) a.die a.cls) a.owner back true

/-- An access keeps its place when what it does at its home must wait. -/
def orStay {α : Type} (s : State) (r : Res α) : Res α :=
  match r with
  | .stall _ w => .stall s w
  | r => r

/-- The agent has waited 2^16 cycles for a response that is lost (R311); a hart is told so. -/
def waitedOut (s : State) (a : Agent) (f : Far) : Bool :=
  if a.source < 65536 && a.elt = 0 then a.told == some (.remoteFailed (ipaHome f.ipa)) else f.since + 2 ^ 16 ≤ (s.die a.die).clk

/-- What an access to a home on another die comes to when it is dropped, or its response is lost: DATA_ERROR; a store of a hart is
counted, and counts as performed (R311). -/
def dropOutcome {α : Type} (s : State) (a : Agent) (op : FarOp) (done : State → FarVal → Res α) : Res α :=
  match op with
  | .write _ _ => if a.source < 65536 && a.elt = 0 then done (s.countCtx (a.die / 4) a.owner 0) (.val 0 none) else .fault s .dataError
  | _ => .fault s .dataError

/-- What an access came to when it acted at its home: the collapse that it began may be over. -/
def FarVal.now (v : FarVal) (s : State) : FarVal :=
  match v with
  | .val x c => .val x (c.filter fun c => s.collapses.any fun y => y.id == c)
  | v => v

/-- An access at its home: on another die once its request, with out bytes of payload, has gone there and its response, with back
bytes, has come; done goes on with what it came to there, k acts. A dropped one, or one whose response is lost, has its outcome
(R311). -/
def crossing {α : Type} (s : State) (a : Agent) (ipa key out back : Nat) (op : FarOp) (k : State → Res α)
    (done : State → FarVal → Res α) : Res α :=
  let home := ipaHome ipa
  if home = a.die then k s
  else match s.far.find? fun f => f.is a ipa with
    | some f =>
      let gone : State := { s with far := s.far.erase f }
      (match f.state with
       | .sent => .stall s (.remote home f.since)
       | .back => (match f.val with
         | some v => done gone (v.now s)
         | none => orStay s (k gone))
       | .dropped => dropOutcome gone a op done
       | .lost => if waitedOut s a f then dropOutcome gone a op done else .stall s (.remote home f.since))
    | none =>
      if a.told = some (.remoteFailed home) then dropOutcome s a op done
      else if a.fast then
        (match passBoth s a ipa out back with
         | some s' => orStay s (k s')
         | none => .stall s .order)
      else
        let now := (s.die a.die).clk
        .stall (s.ask ⟨a.source, a.elt, ipa, a.owner, a.cls, key, op, out, back, now, .sent, none⟩) (.remote home now)

/-- A read at its home, on another die with n bytes in its response; it binds in the step in which its source goes on. -/
def readCrossing {α : Type} (s : State) (a : Agent) (ipa key n : Nat) (gen : Option (BitVec 4)) (k : State → Res α) : Res α :=
  crossing s a ipa key 0 n (.read gen) k fun s _ => k s

/-- What a write or an atomic came to at its home, as its value and its collapse. -/
def FarVal.pair (s : State) (v : FarVal) : Res (Nat × Option Nat) :=
  match v with
  | .val x c => .ok s (x, c)
  | .fault c => .fault s c

/-- A write at its home. -/
def writeCrossing (s : State) (a : Agent) (ipa key : Nat) (prv : BitVec 2) (bs : List Byte) (k : State → Res (Option Nat)) :
    Res (Option Nat) :=
  crossing s a ipa key bs.length 0 (.write prv bs) k fun s v => (v.pair s).bind fun s r => .ok s r.2

/-- What an access moves between HBM and its home's controller is metered (R371). -/
def metered {α : Type} (s : State) (a : Agent) (ipa key : Nat) (need : Need) (r : Res α) : Res α :=
  match r with
  | .ok t x => .ok (s.fillCharge t key a.owner ipa (recvOwner a.die (keyDie key) a.owner false) (need.getLsbD 0) (need.getLsbD 1)) x
  | r => r

/-! Reads at their place of service. -/

/-- Bytes o to o + n - 1 of a line copy. -/
def slice (bs : List Byte) (o n : Nat) : List Byte := (bs.drop o).take n

/-- The key of a die's copy of a window line (R209). -/
def winKey (die ipa : Nat) : Nat := die * 2 ^ 57 + ipa / 128

/-- An open window of the die and owner covers an IPA (R209, R359). -/
def windowOpen (s : State) (die owner ipa : Nat) : Bool :=
  (s.die die).windows.any fun p => p.2.isOpen && p.2.owner == owner && p.2.base ≤ ipa && ipa < p.2.base + p.2.len

/-- The line may be copied as it stands: under the owner's key and without a poisoned granule. -/
def cleanLine (s : State) (key owner ipa : Nat) : Bool :=
  !s.poisoned (keyLine key * 128) 128 && (s.spc key != .hbm || !s.foreign key owner ipa)

/-- The line that holds a storage address, as a copy of the owner's. -/
def lineCopy (s : State) (key owner ipa : Nat) : LineCopy := ⟨owner, tweakOf owner ipa, ipa, s.rd (keyLine key * 128) 128, []⟩

/-- The owner's copy of a line in a store of copies (R213, R214). -/
def copyFor (m : Map (Option LineCopy)) (k owner ipa : Nat) : Option LineCopy :=
  (mget none m k).filter fun c => c.owner == owner && c.tweak == tweakOf owner ipa

/-- GEN of the region that steers a read of an IPA (R358); 0 outside every region. -/
def steerGen (s : State) (ipa : Nat) : BitVec 4 :=
  match regionOf s (ipaHome ipa / 4) ipa with
  | some (_, r) => r.gen
  | none => 0

/-- A read by a die of the home's module that is not the home (R206). A copy that the die may no longer hold is dropped before it
is served (R208). -/
def readReplica (s : State) (a : Agent) (ipa key n : Nat) : Res (List Byte) :=
  let line := keyLine key
  let holder := isHolder s ipa a.die
  match if holder && !s.far.any (·.is a ipa) then copyFor s.replicas (line * 4 + a.die % 4) a.owner ipa else none with
  | some c => .ok (s.l1Fill a.die a.core line) (slice c.bytes (key % 128) n)
  | none =>
    let s := if holder then s else s.dropReplica line a.die
    if s.collapsing line then .stall s (.home ipa (steerGen s ipa))
    else readCrossing s a ipa key (if holder then 128 else n) (some (steerGen s ipa)) fun s =>
      (heldByTest s key n (homeRead (s.noteRemote ipa) a.owner ipa key n)).bind fun s bs =>
        .ok (if holder && cleanLine s key a.owner ipa then
            let c := lineCopy s key a.owner ipa
            let s := s.l2Room a.die
            { s with replicas := mset none s.replicas (line * 4 + a.die % 4) (some c) }.l1Fill a.die a.core line
          else s) bs

/-- A copy may serve a load: none of its bytes is older than one that a load of the hart and class has returned (R225, R238). -/
def LineCopy.fresh (c : LineCopy) (who : Option (Nat × Nat)) (o n : Nat) : Bool :=
  match who with
  | none => true
  | some (h, cls) => c.stale.all fun x => x.1 != h || x.2.1 != cls || x.2.2 < o || o + n ≤ x.2.2

/-- The bytes of a line that loads of harts of a die have returned from their buffers, as marks of a copy of the line (R225, R238). -/
def fwdMarks (s : State) (die line : Nat) : List (Nat × Nat × Nat) :=
  (s.harts.filter fun p => hartDie p.1 == die).flatMap fun p => p.2.pend.flatMap fun e =>
    if e.key.map keyLine = some line then e.seenBy.map fun q => (p.1, q.1, e.ipa % 128 + q.2) else []

/-- A load of the hart and class has returned bytes that a window line of its die may hold in an older value (R225, R238). -/
def State.staleWin (s : State) (die h cls ipa : Nat) (os : List Nat) : State :=
  if ipaHome ipa / 4 = die / 4 then s
  else match mget none s.winLines (winKey die ipa) with
    | none => s
    | some c =>
      let new := (os.map fun o => (h, cls, o)).filter fun p => !c.stale.contains p
      { s with winLines := mset none s.winLines (winKey die ipa) (some { c with stale := c.stale ++ new }) }

/-- A read of another module's memory (R209). One that its home serves while the die still holds a line of a revoked window leaves
that line behind (R225, R238). -/
def readRemote (s : State) (a : Agent) (ipa key n : Nat) : Res (List Byte) :=
  let k := winKey a.die ipa
  let inWin := windowOpen s a.die a.owner ipa
  match if inWin && !s.far.any (·.is a ipa) then (copyFor s.winLines k a.owner ipa).filter fun c => c.fresh a.who (key % 128) n else none with
  | some c => .ok (s.l1Fill a.die a.core (keyLine key)) (slice c.bytes (key % 128) n)
  | none =>
    if s.collapsing (keyLine key) then .stall s (.home ipa (steerGen s ipa))
    else readCrossing s a ipa key (if inWin then 128 else n) none fun s =>
      (heldByTest s key n (homeRead (s.noteHome ipa) a.owner ipa key n)).bind fun s bs =>
        .ok (if inWin && cleanLine s key a.owner ipa then
            let c := { lineCopy s key a.owner ipa with stale := fwdMarks s a.die (keyLine key) }
            let s := s.l2Room a.die
            { s with winLines := mset none s.winLines k (some c) }.l1Fill a.die a.core (keyLine key)
          else if inWin then { s with winLines := mset none s.winLines k none }
          else match a.who with
            | some (h, cls) => s.staleWin a.die h cls ipa ((List.range n).map (key % 128 + ·))
            | none => s) bs

/-- A translated read within one line, where it is served. -/
def serveRead (s : State) (a : Agent) (ipa key n : Nat) : Res (List Byte) :=
  let home := ipaHome ipa
  metered s a ipa key needR
    (if ipaSpace ipa = 13 then readCrossing s a ipa key n none fun s => ctlRead s home (ipaOff ipa) n
     else if !pagedSpace (ipaSpace ipa) then readCrossing s a ipa key n none fun s => heldByTest s key n (homeRead s a.owner ipa key n)
     else if home = a.die then
       (heldByTest s key n (homeRead (s.noteHome ipa) a.owner ipa key n)).bind fun s bs => .ok (s.l1Fill a.die a.core (keyLine key)) bs
     else if home / 4 = a.die / 4 then readReplica s a ipa key n
     else readRemote s a ipa key n)

/-- A read by an agent at an IPA (R239). -/
def readAt (s : State) (a : Agent) (ipa n : Nat) : Res (List Byte) :=
  match translate s a ipa needR with
  | (s, .refuse c) => .fault s c
  | (s, .miss) => missStall s a ipa needR
  | (s, .ok key _) => serveRead s a ipa key n

/-- Apply a translated write of one line at its home (R222); one that meets a reset of the home is dropped (R219). prv is the level of
a control hart; into is the collapse of a write of the line that is sent together with it (R237). -/
def applyWrite (s : State) (owner : Nat) (prv : BitVec 2) (ipa key : Nat) (bs : List Byte) (into : Option Nat) :
    Res (Option Nat) :=
  if inReset s (ipaHome ipa) then .ok s none
  else if ipaSpace ipa = 13 then (ctlWrite s (ipaHome ipa) prv (ipaOff ipa) bs).bind fun s _ => .ok s none
  else homeWrite (s.noteWrite ipa) owner ipa key bs into

/-- A write by an agent at an IPA (R239). -/
def writeAt (s : State) (a : Agent) (ipa : Nat) (bs : List Byte) : Res (Option Nat) :=
  match translate s a ipa needW with
  | (s, .refuse c) => .fault s c
  | (s, .miss) => missStall s a ipa needW
  | (s, .ok key _) =>
    metered s a ipa key needW (writeCrossing s a ipa key 3 bs fun s => applyWrite s a.owner 3 ipa key bs none)

/-- An atomic by an agent on n bytes at an IPA (R263): the old value, and the collapse of its write. -/
def atomicAt (s : State) (a : Agent) (ipa n : Nat) (o : AtomicOp) : Res (Nat × Option Nat) :=
  match translate s a ipa needRW with
  | (s, .refuse c) => .fault s c
  | (s, .miss) => missStall s a ipa needRW
  | (s, .ok key _) =>
    metered s a ipa key needRW (crossing s a ipa key 32 32 (.atomic n o) (fun s => homeAtomic s a.owner ipa key n o.new)
      fun s v => v.pair s)

/-! Order within a class. -/

/-- Accesses of these classes are ordered (R224, R226). -/
def related (a b : Nat) : Bool := a == b || a == 15 || b == 15

/-- Outstanding elements that an access of a class is ordered behind. -/
def Hart.behind (x : Hart) (cls : Nat) : List Elt := x.pend.filter fun e => related e.cls cls

/-- A log or replay queue holds elements of the class (R236, R244, R245). -/
def Hart.logged (x : Hart) (cls : Nat) : Bool :=
  (x.behind cls).any (·.logged)

/-- A log or replay queue holds elements of the class that are older than number unit (R236). -/
def Hart.loggedBelow (x : Hart) (unit cls : Nat) : Bool :=
  (x.behind cls).any fun e => e.id < unit && e.logged

/-- A write of the hart's own in the class has not reached every die (R223). -/
def unreached (s : State) (x : Hart) (cls : Nat) : Bool :=
  x.seen.any fun y => y.own && related y.cls cls && s.collapses.any fun c => c.id == y.collapse

/-- A load of the class has returned bytes of the line from the hart's buffer that have not reached every die (R223, R225). -/
def forwarded (s : State) (x : Hart) (cls key : Nat) : Bool :=
  x.seen.any fun y => y.fwd && y.cls == cls && s.collapses.any fun c => c.id == y.collapse && c.line == keyLine key

/-- The element's bytes overlap n bytes of storage at key. -/
def Elt.meets (e : Elt) (key n : Nat) : Bool :=
  match e.key with
  | some k => e.kind == .write && k < key + n && key < k + e.data.length
  | none => false

/-- The element's bytes cover n bytes of storage at key. -/
def Elt.covers (e : Elt) (key n : Nat) : Bool :=
  match e.key with
  | some k => e.kind == .write && k ≤ key && key + n ≤ k + e.data.length
  | none => false

/-- The bytes that a covering store forwards (R237). -/
def Elt.forward (e : Elt) (key n : Nat) : List Byte := slice e.data (key - e.key.getD 0) n

/-- What a load of the class does about the hart's own outstanding accesses (R224, R237). -/
inductive Gate
  | go | forward (e : Elt) | wait
  deriving DecidableEq, Repr

/-- The gate of a load of n bytes at key. A store of other bytes in the class must be performed first, one that is applied and
still being collected among them (R224). -/
def loadGate (s : State) (x : Hart) (cls key n : Nat) : Gate :=
  if unreached s x cls || forwarded s x cls key then .wait
  else match (x.behind cls).getLast? with
    | none => .go
    | some e => if (x.behind cls).all (fun e => e.meets key n) && e.covers key n then .forward e else .wait

/-- Loads of a class have returned bytes o to o + n - 1 of a store that is still buffered. -/
def Elt.noteSeen (e : Elt) (cls o n : Nat) : Elt :=
  { e with seenBy := e.seenBy ++ ((List.range n).map fun i => (cls, o + i)).filter fun p => !e.seenBy.contains p }

/-- Change an element of a hart. -/
def State.modElt (s : State) (h id : Nat) (f : Elt → Elt) : State :=
  let x := s.hart h
  s.setHart h { x with pend := x.pend.map fun e => if e.id = id then f e else e }

/-- What a load of the class returns at byte i of key when the hart has posted a store of another class there: the buffered value
once a load of the class has returned it (R225), else either value (R237; log 5). -/
def Elt.taken (e : Elt) (cls key i fresh : Nat) : Bool :=
  e.covers (key + i) 1 && (e.seenBy.contains (cls, key + i - e.key.getD 0) || Config.freeBool (fresh + i))

/-- One posted store of another class under a load: the bytes, and the store with those it has given (R237). -/
def overlay (cls key n : Nat) (r : State × List Byte × List Nat) (h : Nat) (e : Elt) : State × List Byte × List Nat :=
  let s := r.1
  let got := (List.range n).filter fun i => e.taken cls key i s.fresh
  let bs := r.2.1.zipIdx.map fun p => if got.contains p.2 then (e.forward (key + p.2) 1).headD p.1 else p.1
  let s := got.foldl (fun s i => s.modElt h e.id fun e => e.noteSeen cls (key + i - e.key.getD 0) 1) s
  ({ s with fresh := s.fresh + n }, bs, r.2.2 ++ got)

/-- A load of another class that overlaps posted stores returns either value of each byte (R237). before are the elements that
precede the load. Answers which bytes came from the buffer. -/
def otherClass (s : State) (h : Nat) (before : List Elt) (cls key n : Nat) (bs : List Byte) : State × List Byte × List Nat :=
  (before.filter fun e => !related e.cls cls && e.meets key n).foldl (fun r e => overlay cls key n r h e) (s, bs, [])

/-- The hart has read or written a line whose collapse is being collected (R223, R228). -/
def State.noteSeen (s : State) (h cls line : Nat) (own : Bool) : State :=
  match s.collapses.find? fun c => c.line == line with
  | none => s
  | some c => let x := s.hart h; s.setHart h { x with seen := x.seen ++ [⟨c.id, cls, own, false, false⟩] }

/-! Blocking accesses of a hart. -/

/-- Checks of R241 for hart h. -/
def hartCheck (s : State) (h va n align : Nat) (need : Need) (atom : Bool) : Except Cause Nat :=
  issueCheck s (s.agent h) (s.hart h).c.prv va n align need atom

/-- An early read is the one that a load makes. -/
def Early.serves (r : Early) (cls ipa key n : Nat) : Bool := r.cls == cls && r.ipa == ipa && r.key == key && r.bytes.length == n

/-- A read that has bound early for a later load (R224, log 6). -/
def earlyRead (x : Hart) (cls ipa key n : Nat) : Option (List Byte) := (x.early.find? (·.serves cls ipa key n)).map (·.bytes)

/-- An access of a class takes its place in program order: a read of the class that was to follow it has not bound (R224). The row of
R240 that lists the outcome lo = new, hi = 0 of two such reads as allowed cannot occur so: DESIGN CHOICE, log 6. -/
def State.accessed (s : State) (h cls : Nat) : State :=
  let x := s.hart h
  if x.early = [] then s else s.setHart h { x with early := x.early.filter fun r => !related r.cls cls }

/-- A load takes its early read: reads that its class is ordered with and that bound before it are not those of later loads (R224). -/
def State.tookEarly (s : State) (h cls ipa key n : Nat) : State :=
  let x := s.hart h
  s.setHart h { x with
    early := (x.early.takeWhile fun r => !r.serves cls ipa key n).filter (fun r => !related r.cls cls) ++
      (x.early.dropWhile fun r => !r.serves cls ipa key n).tail }

/-- A translated load of a hart that may go binds where it is served, among posted stores of other classes (R223, R237). -/
def bindRead (s : State) (a : Agent) (h : Nat) (before : List Elt) (cls ipa key n : Nat) : Res (List Byte) :=
  (serveRead s { a with who := some (h, cls), cls } ipa key n).bind fun s bs =>
    let r := otherClass s h before cls key n bs
    let s := r.1.staleWin a.die h cls ipa (r.2.2.map fun i => ipa % 128 + i)
    .ok (s.noteSeen h cls (keyLine key) false) r.2.1

/-- The blocking read of n bytes within one line, after R241 (R242, R243). -/
def hartReadIpa (s : State) (h cls ipa n : Nat) : Res (List Byte) :=
  let a := (s.agent h).inClass cls
  if (s.hart h).logged cls then .stall s .order else
  match translate s a ipa needR with
  | (s, .refuse c) => .fault s c
  | (s, .miss) => missStall s a ipa needR
  | (s, .ok key _) =>
    match earlyRead (s.hart h) cls ipa key n with
    | some bs => .ok (s.tookEarly h cls ipa key n) bs
    | none => match loadGate s (s.hart h) cls key n with
      | .wait => .stall s .order
      | .forward e =>
        let o := key - e.key.getD 0
        let s := if e.cls = cls && ipaHome ipa / 4 = a.die / 4 then s else s.modElt h e.id fun e => e.noteSeen cls o n
        let s := s.staleWin a.die h cls ipa ((List.range n).map (ipa % 128 + ·))
        .ok (s.accessed h cls) (e.forward key n)
      | .go => (bindRead s a h (s.hart h).pend cls ipa key n).bind fun s bs => .ok (s.accessed h cls) bs

/-- A read of n bytes at a VA binds before accesses of the hart that precede it in program order, if it passes its checks and no
access of its class is outstanding (R224, log 6). Reads of other modules bind in program order. -/
def bindEarly (s : State) (h cls va n : Nat) : State :=
  let a := s.agent h
  if (s.hart h).st ≠ .run || 15 ≤ cls || !(n == 1 || n == 2 || n == 4 || n == 8) then s
  else match hartCheck s h va n n needR false with
    | .error _ => s
    | .ok ipa =>
      if !pagedSpace (ipaSpace ipa) || ipaHome ipa / 4 ≠ hartDie h / 4 || (s.hart h).logged cls then s
      else match translate s a ipa needR with
        | (s', .ok key _) =>
          (match loadGate s' (s'.hart h) cls key n with
           | .go => (match bindRead s' a h (s'.hart h).pend cls ipa key n with
             | .ok s'' bs => let x := s''.hart h; s''.setHart h { x with early := x.early ++ [⟨cls, ipa, key, bs⟩] }
             | .stall s'' (.remote _ _) => s''
             | _ => s)
           | _ => s)
        | _ => s

/-- A blocking read element: n bytes at va (R241 to R243). -/
def hartRead (s : State) (h cls va n align : Nat) : Res (List Byte) :=
  match hartCheck s h va n align needR false with
  | .error c => .fault s c
  | .ok ipa => hartReadIpa s h cls ipa n

/-- A new outstanding element of hart h at the end of its program order. -/
def State.addElt (s : State) (h : Nat) (e : Elt) : State :=
  let s := s.accessed h e.cls
  let x := s.hart h
  s.setHart h { x with pend := x.pend ++ [{ e with id := x.next }], next := x.next + 1 }

/-- An element with its common fields. -/
def mkElt (a : Agent) (cls : Nat) (kind : EltKind) (place : EltPlace) (va ipa size : Nat) (key : Option Nat)
    (data : List Byte) : Elt :=
  { id := 0, op := 0, e := 0, cls, kind, place, va, ipa, size, key, dpa := none, data, srcVa := 0, src := [], dst := 0,
    ew := 0, owner := a.owner, gen := a.gen, seenBy := [], logged := false }

/-- Room in the side log of a hart's core (R244). -/
def logRoom (s : State) (h : Nat) : Bool := (s.core (hartCore h)).log.length < 64

/-- An element enters the side log of its core (R244). -/
def State.addLog (s : State) (h : Nat) (e : Elt) : State :=
  let id := (s.hart h).next
  let s := s.addElt h { e with place := .sideLog, logged := true }
  let k := s.core (hartCore h)
  s.setCore (hartCore h) { k with log := k.log ++ [(h, id)] }

/-- A blocking write of one line after R241: it is accepted when its translation is known (R242, R247), in program order behind
elements of its own unit that have missed. Elements from number unit on belong to that unit. A store is never held by its page, so
what the hart has been told of a page is about another access (R243, R246). -/
def hartWriteIpa (s : State) (h cls va ipa unit : Nat) (bs : List Byte) : Res Unit :=
  let a := ((s.agent h).inClass cls).untold
  let x := s.hart h
  if x.loggedBelow unit cls then .stall s .order else
  match translate s a ipa needW with
  | (s, .refuse c) => .fault s c
  | (s, .miss) =>
    if !logRoom s h then .stall s .order
    else
      let s := (pageRequest s a ipa needW).1
      .ok (s.addLog h (mkElt a cls .write .sideLog va ipa bs.length none bs)) ()
  | (s, .ok key _) =>
    let busy := (x.behind cls) != [] || unreached s x cls
    if ipaSpace ipa = 13 then
      if busy then .stall s .order
      else (writeCrossing s a ipa key x.c.prv bs fun s => applyWrite s a.owner x.c.prv ipa key bs none).bind fun s _ =>
        .ok (s.accessed h cls) ()
    else if ipaHome ipa = a.die && !busy && !mget false s.posting h && !s.collapsing (keyLine key) then
      (metered s a ipa key needW (applyWrite s a.owner x.c.prv ipa key bs none)).bind fun s _ =>
        let s := if pagedSpace (ipaSpace ipa) then s.l1Fill a.die a.core (keyLine key) else s
        .ok ((s.noteSeen h cls (keyLine key) true).accessed h cls) ()
    else .ok (s.addElt h { mkElt a cls .write .issued va ipa bs.length (some key) bs with dpa := placedDpa s a ipa }) ()

/-- A blocking write element at va (R241 to R243). -/
def hartWrite (s : State) (h cls va align unit : Nat) (bs : List Byte) : Res Unit :=
  match hartCheck s h va bs.length align needW false with
  | .error c => .fault s c
  | .ok ipa => hartWriteIpa s h cls va ipa unit bs

/-- A blocking atomic after R241 (R265, R266). -/
def hartAtomicIpa (s : State) (h cls ipa n : Nat) (o : AtomicOp) : Res Nat :=
  let a := (s.agent h).inClass cls
  let x := s.hart h
  if (x.behind cls) != [] || unreached s x cls then .stall s .order else
  (atomicAt s a ipa n o).bind fun s r =>
    let s := (s.accessed h cls).staleWin a.die h cls ipa ((List.range n).map (ipa % 128 + ·))
    match r.2 with
    | none => .ok s r.1
    | some c => let x := s.hart h; .ok (s.setHart h { x with seen := x.seen ++ [⟨c, cls, true, false, false⟩] }) r.1

/-! What a barrier waits for. -/

/-- Class c is in a mask. -/
def inMask (mask : BitVec 16) (c : Nat) : Bool := mask.getLsbD c

/-- A write being collected has reached the harts of a die: it is homed there, or the die's copies of the line are gone, so that every
read of theirs returns it or waits for it (R207, R223; at a die that is not its home DEDUCED, log 64). -/
def Collapse.reached (c : Collapse) (die : Nat) : Bool := keyDie (c.line * 128) == die || !c.dies.contains (die, false)

/-- The hart's accesses of the masked classes have reached its unit of the scope, and its reads have bound (R228, R286). -/
def barrierMet (s : State) (h : Nat) (mask : BitVec 16) (scope : Nat) : Bool :=
  let x := s.hart h
  (x.pend.all fun e => !inMask mask e.cls && e.seenBy.all fun p => !inMask mask p.1) &&
  (x.unacked.all fun u => !inMask mask u.cls && u.others.all fun c => !inMask mask c) &&
  (x.seen.all fun y => !inMask mask y.cls || s.collapses.all fun c =>
    c.id != y.collapse || (scope ≤ 3 && c.reached (hartDie h)))

/-- Every earlier access of the hart is performed at pod scope (R239, R346, R352). -/
def podMet (s : State) (h : Nat) : Bool := barrierMet s h (BitVec.allOnes 16) 5

/-- The lowest-numbered covered class that is marked failed, with the VA recorded (R246). -/
def failedMark (x : Hart) (mask : BitVec 16) : Option Nat :=
  match (List.range 16).find? fun c => inMask mask c && (mget none x.failed c).isSome with
  | none => none
  | some c => mget none x.failed c

/-- Clear the failed marks of the covered classes. -/
def Hart.clearFailed (x : Hart) (mask : BitVec 16) : Hart :=
  { x with failed := x.failed.filter fun p => !inMask mask p.1 }

end Sys2Proof.Machine
end

