-- ==== Sys2Proof/Machine/Operands.lean ====
section
/-! DEFINITION. Operand forms: memory offsets (R44, R247), sign and zero extension, elements of registers (R75). -/

namespace Sys2Proof.Machine

open Sys2Proof

/-- The address of a format-M access of a size (R44, R247). -/
def memAddr (base : Word) (imm : BitVec 9) (size : Nat) : Word := base + imm.signExtend 64 * BitVec.ofNat 64 size

/-- sext of the low w bits of a number. -/
def sextNat (w x : Nat) : Word := (BitVec.ofNat w x).signExtend 64

/-- Element e of a register at width w (R75). -/
def elemOf (v : VReg) (w e : Nat) : Nat := v.toNat / 2 ^ (w * e) % 2 ^ w

/-- A register with element e at width w replaced (R75). -/
def setElem (v : VReg) (w e x : Nat) : VReg :=
  BitVec.ofNat 4096 (v.toNat - elemOf v w e * 2 ^ (w * e) + x % 2 ^ w * 2 ^ (w * e))

/-- Go on after a scalar access: with its value, with a trap at va, or waiting (R243). -/
def scalarAccess {α : Type} (r : Res α) (i : Instr) (va : Word) (k : State → α → State) : Out :=
  match r with
  | .ok s a => .next (k s a)
  | .fault s c => .next (s.trap ⟨c, va⟩)
  | .stall s w => .next (s.wait w i)

end Sys2Proof.Machine
end

