-- ==== Sys2Proof/Machine/Memory.lean ====
section
/-! DEFINITION. Scalar loads and stores (R247) and scalar atomics (R264 to R266). -/

namespace Sys2Proof.Machine

open Sys2Proof

/-- A scalar load: n bytes at base + offset, extended and written to rd (R247). len is the instruction's length. -/
def loadOp (s : State) (i : Instr) (rd : BitVec 5) (va : Word) (cls n : Nat) (ext : Nat → Word) (len : Word) : Out :=
  scalarAccess (hartRead s s.cur cls va.toNat n n) i va fun s bs => s.write rd (ext (leBytes bs)) len

/-- A scalar store of the low n bytes of a word (R247). -/
def storeOp (s : State) (i : Instr) (va : Word) (w : Word) (cls n : Nat) (len : Word) : Out :=
  scalarAccess (hartWrite s s.cur cls va.toNat n s.me.next (toBytes n w.toNat)) i va fun s _ => s.retire len

/-- A scalar atomic on w bits (R265). -/
def amoOp (s : State) (i : Instr) (rd rs1 rs2 : BitVec 5) (op cls : BitVec 4) (w : Nat) : Out :=
  let va := s.g rs1
  match hartCheck s s.cur va.toNat (w / 8) (w / 8) needRW true with
  | .error c => .next (s.trap ⟨c, va⟩)
  | .ok ipa =>
    scalarAccess (hartAtomicIpa s s.cur cls.toNat ipa (w / 8)
        (.amo op w ((s.g rs2).toNat % 2 ^ w) ((s.g rd).toNat % 2 ^ w))) i va
      fun s old => s.write rd (sextNat w old) 4

/-- LB (R247). -/
def execLb (r base : BitVec 5) (cls : BitVec 4) (imm : BitVec 9) (s : State) : Out :=
  loadOp s (.lb r base cls imm) r (memAddr (s.g base) imm 1) cls.toNat 1 (sextNat 8) 4

/-- LH (R247). -/
def execLh (r base : BitVec 5) (cls : BitVec 4) (imm : BitVec 9) (s : State) : Out :=
  loadOp s (.lh r base cls imm) r (memAddr (s.g base) imm 2) cls.toNat 2 (sextNat 16) 4

/-- LW (R247). -/
def execLw (r base : BitVec 5) (cls : BitVec 4) (imm : BitVec 9) (s : State) : Out :=
  loadOp s (.lw r base cls imm) r (memAddr (s.g base) imm 4) cls.toNat 4 (sextNat 32) 4

/-- LD (R247). -/
def execLd (r base : BitVec 5) (cls : BitVec 4) (imm : BitVec 9) (s : State) : Out :=
  loadOp s (.ld r base cls imm) r (memAddr (s.g base) imm 8) cls.toNat 8 (BitVec.ofNat 64) 4

/-- LBU (R247). -/
def execLbu (r base : BitVec 5) (cls : BitVec 4) (imm : BitVec 9) (s : State) : Out :=
  loadOp s (.lbu r base cls imm) r (memAddr (s.g base) imm 1) cls.toNat 1 (BitVec.ofNat 64) 4

/-- LHU (R247). -/
def execLhu (r base : BitVec 5) (cls : BitVec 4) (imm : BitVec 9) (s : State) : Out :=
  loadOp s (.lhu r base cls imm) r (memAddr (s.g base) imm 2) cls.toNat 2 (BitVec.ofNat 64) 4

/-- LWU (R247). -/
def execLwu (r base : BitVec 5) (cls : BitVec 4) (imm : BitVec 9) (s : State) : Out :=
  loadOp s (.lwu r base cls imm) r (memAddr (s.g base) imm 4) cls.toNat 4 (BitVec.ofNat 64) 4

/-- SB (R247). -/
def execSb (r base : BitVec 5) (cls : BitVec 4) (imm : BitVec 9) (s : State) : Out :=
  storeOp s (.sb r base cls imm) (memAddr (s.g base) imm 1) (s.g r) cls.toNat 1 4

/-- SH (R247). -/
def execSh (r base : BitVec 5) (cls : BitVec 4) (imm : BitVec 9) (s : State) : Out :=
  storeOp s (.sh r base cls imm) (memAddr (s.g base) imm 2) (s.g r) cls.toNat 2 4

/-- SW (R247). -/
def execSw (r base : BitVec 5) (cls : BitVec 4) (imm : BitVec 9) (s : State) : Out :=
  storeOp s (.sw r base cls imm) (memAddr (s.g base) imm 4) (s.g r) cls.toNat 4 4

/-- SD (R247). -/
def execSd (r base : BitVec 5) (cls : BitVec 4) (imm : BitVec 9) (s : State) : Out :=
  storeOp s (.sd r base cls imm) (memAddr (s.g base) imm 8) (s.g r) cls.toNat 8 4

/-- AMO.W (R264, R265). -/
def execAmoW (rd rs1 rs2 : BitVec 5) (op cls : BitVec 4) (s : State) : Out :=
  amoOp s (.amoW rd rs1 rs2 op cls) rd rs1 rs2 op cls 32

/-- AMO.D (R264, R265). -/
def execAmoD (rd rs1 rs2 : BitVec 5) (op cls : BitVec 4) (s : State) : Out :=
  amoOp s (.amoD rd rs1 rs2 op cls) rd rs1 rs2 op cls 64

/-- C.LD: LD rd, [sp + off * 8], c0 (R67). -/
def execCLd (rd off : BitVec 5) (s : State) : Out :=
  loadOp s (.cLd rd off) rd (s.g 2 + off.setWidth 64 * 8) 0 8 (BitVec.ofNat 64) 2

/-- C.SD: SD rs, [sp + off * 8], c0 (R67). -/
def execCSd (rs off : BitVec 5) (s : State) : Out :=
  storeOp s (.cSd rs off) (s.g 2 + off.setWidth 64 * 8) (s.g rs) 0 8 2

end Sys2Proof.Machine
end

