-- ==== Sys2Proof/Machine/Scalar.lean ====
section
/-! DEFINITION. Scalar arithmetic, jumps and branches (R114 to R124, R128) and their compressed forms (R67). -/

namespace Sys2Proof.Machine

open Sys2Proof

/-- Signed less-than of two words. -/
def sLt (a b : Word) : Bool := a.slt b
/-- 1 or 0. -/
def flagWord (b : Bool) : Word := if b then 1 else 0
/-- Bits [127:64] of the signed product (R116). -/
def mulhS (a b : Word) : Word := BitVec.ofInt 64 (a.toInt * b.toInt / 2 ^ 64)
/-- Bits [127:64] of the unsigned product (R116). -/
def mulhU (a b : Word) : Word := BitVec.ofNat 64 (a.toNat * b.toNat / 2 ^ 64)
/-- Signed quotient, truncated towards zero, with the corners of R117. -/
def divS (a b : Word) : Word :=
  if b = 0 then BitVec.allOnes 64 else BitVec.ofInt 64 (a.toInt.tdiv b.toInt)
/-- Unsigned quotient (R117). -/
def divU (a b : Word) : Word := if b = 0 then BitVec.allOnes 64 else BitVec.ofNat 64 (a.toNat / b.toNat)
/-- Signed remainder, with the sign of a (R117). -/
def remS (a b : Word) : Word := if b = 0 then a else BitVec.ofInt 64 (a.toInt.tmod b.toInt)
/-- Unsigned remainder (R117). -/
def remU (a b : Word) : Word := if b = 0 then a else BitVec.ofNat 64 (a.toNat % b.toNat)
/-- Zero bits above the highest one bit of a number below 2 ^ n. -/
def leadZeros : Nat → Nat → Nat
  | 0, _ => 0
  | n + 1, w => if w.testBit n then 0 else 1 + leadZeros n w
/-- Zero bits below the lowest one bit, from bit i on, of n bits. -/
def trailZeros : Nat → Nat → Nat → Nat
  | 0, _, _ => 0
  | n + 1, i, w => if w.testBit i then 0 else 1 + trailZeros n (i + 1) w
/-- One bits among the low n. -/
def countOnes : Nat → Nat → Nat
  | 0, _ => 0
  | n + 1, w => (if w.testBit n then 1 else 0) + countOnes n w

/-- The I-format operand (R44). -/
def imm13 (i : BitVec 13) : Word := i.signExtend 64
/-- The B-format offset (R44). -/
def branchOff (i : BitVec 13) : Word := i.signExtend 64 <<< 1
/-- The J-format offset (R44). -/
def jumpOff (i : BitVec 18) : Word := i.signExtend 64 <<< 1
/-- The U-format operand (R44, R120). -/
def upperImm (i : BitVec 18) : Word := i.signExtend 64 <<< 13
/-- Bit 0 cleared (R40, R121). -/
def evenPc (w : Word) : Word := w &&& ~~~ 1#64

/-- Write the link register and go to a target (R121). len is the length of the jump. -/
def State.jumpTo (s : State) (rd : BitVec 5) (tgt len : Word) : State :=
  s.setMe ((s.me.setG rd (s.me.pc + len)).jump tgt)
/-- A branch of length len (R122). -/
def State.branch (s : State) (taken : Bool) (off len : Word) : State :=
  s.setMe (s.me.jump (s.me.pc + if taken then off else len))

/-- ADD (R116). -/
def execAdd (rd rs1 rs2 : BitVec 5) (s : State) : Out :=
  .next (s.write rd (s.g rs1 + s.g rs2) 4)

/-- SUB (R116). -/
def execSub (rd rs1 rs2 : BitVec 5) (s : State) : Out :=
  .next (s.write rd (s.g rs1 - s.g rs2) 4)

/-- AND (R116). -/
def execAnd (rd rs1 rs2 : BitVec 5) (s : State) : Out :=
  .next (s.write rd (s.g rs1 &&& s.g rs2) 4)

/-- OR (R116). -/
def execOr (rd rs1 rs2 : BitVec 5) (s : State) : Out :=
  .next (s.write rd (s.g rs1 ||| s.g rs2) 4)

/-- XOR (R116). -/
def execXor (rd rs1 rs2 : BitVec 5) (s : State) : Out :=
  .next (s.write rd (s.g rs1 ^^^ s.g rs2) 4)

/-- SLL (R116). -/
def execSll (rd rs1 rs2 : BitVec 5) (s : State) : Out :=
  .next (s.write rd (s.g rs1 <<< ((s.g rs2).toNat % 64)) 4)

/-- SRL (R116). -/
def execSrl (rd rs1 rs2 : BitVec 5) (s : State) : Out :=
  .next (s.write rd (s.g rs1 >>> ((s.g rs2).toNat % 64)) 4)

/-- SRA (R116). -/
def execSra (rd rs1 rs2 : BitVec 5) (s : State) : Out :=
  .next (s.write rd ((s.g rs1).sshiftRight ((s.g rs2).toNat % 64)) 4)

/-- SLT (R116). -/
def execSlt (rd rs1 rs2 : BitVec 5) (s : State) : Out :=
  .next (s.write rd (flagWord (sLt (s.g rs1) (s.g rs2))) 4)

/-- SLTU (R116). -/
def execSltu (rd rs1 rs2 : BitVec 5) (s : State) : Out :=
  .next (s.write rd (flagWord ((s.g rs1).ult (s.g rs2))) 4)

/-- MUL (R116). -/
def execMul (rd rs1 rs2 : BitVec 5) (s : State) : Out :=
  .next (s.write rd (s.g rs1 * s.g rs2) 4)

/-- MULH (R116). -/
def execMulh (rd rs1 rs2 : BitVec 5) (s : State) : Out :=
  .next (s.write rd (mulhS (s.g rs1) (s.g rs2)) 4)

/-- MULHU (R116). -/
def execMulhu (rd rs1 rs2 : BitVec 5) (s : State) : Out :=
  .next (s.write rd (mulhU (s.g rs1) (s.g rs2)) 4)

/-- DIV (R117). -/
def execDiv (rd rs1 rs2 : BitVec 5) (s : State) : Out :=
  .next (s.write rd (divS (s.g rs1) (s.g rs2)) 4)

/-- DIVU (R117). -/
def execDivu (rd rs1 rs2 : BitVec 5) (s : State) : Out :=
  .next (s.write rd (divU (s.g rs1) (s.g rs2)) 4)

/-- REM (R117). -/
def execRem (rd rs1 rs2 : BitVec 5) (s : State) : Out :=
  .next (s.write rd (remS (s.g rs1) (s.g rs2)) 4)

/-- REMU (R117). -/
def execRemu (rd rs1 rs2 : BitVec 5) (s : State) : Out :=
  .next (s.write rd (remU (s.g rs1) (s.g rs2)) 4)

/-- MIN (R116). -/
def execMin (rd rs1 rs2 : BitVec 5) (s : State) : Out :=
  .next (s.write rd (if sLt (s.g rs2) (s.g rs1) then s.g rs2 else s.g rs1) 4)

/-- MAX (R116). -/
def execMax (rd rs1 rs2 : BitVec 5) (s : State) : Out :=
  .next (s.write rd (if sLt (s.g rs1) (s.g rs2) then s.g rs2 else s.g rs1) 4)

/-- MINU (R116). -/
def execMinu (rd rs1 rs2 : BitVec 5) (s : State) : Out :=
  .next (s.write rd (if (s.g rs2).ult (s.g rs1) then s.g rs2 else s.g rs1) 4)

/-- MAXU (R116). -/
def execMaxu (rd rs1 rs2 : BitVec 5) (s : State) : Out :=
  .next (s.write rd (if (s.g rs1).ult (s.g rs2) then s.g rs2 else s.g rs1) 4)

/-- CLZ (R116). -/
def execClz (rd rs1 : BitVec 5) (s : State) : Out :=
  .next (s.write rd (BitVec.ofNat 64 (leadZeros 64 (s.g rs1).toNat)) 4)

/-- CTZ (R116). -/
def execCtz (rd rs1 : BitVec 5) (s : State) : Out :=
  .next (s.write rd (BitVec.ofNat 64 (trailZeros 64 0 (s.g rs1).toNat)) 4)

/-- POPC (R116). -/
def execPopc (rd rs1 : BitVec 5) (s : State) : Out :=
  .next (s.write rd (BitVec.ofNat 64 (countOnes 64 (s.g rs1).toNat)) 4)

/-- ADDI (R118). -/
def execAddi (rd rs1 : BitVec 5) (imm : BitVec 13) (s : State) : Out :=
  .next (s.write rd (s.g rs1 + imm13 imm) 4)

/-- ANDI (R118). -/
def execAndi (rd rs1 : BitVec 5) (imm : BitVec 13) (s : State) : Out :=
  .next (s.write rd (s.g rs1 &&& imm13 imm) 4)

/-- ORI (R118). -/
def execOri (rd rs1 : BitVec 5) (imm : BitVec 13) (s : State) : Out :=
  .next (s.write rd (s.g rs1 ||| imm13 imm) 4)

/-- XORI (R118). -/
def execXori (rd rs1 : BitVec 5) (imm : BitVec 13) (s : State) : Out :=
  .next (s.write rd (s.g rs1 ^^^ imm13 imm) 4)

/-- SLTI (R118). -/
def execSlti (rd rs1 : BitVec 5) (imm : BitVec 13) (s : State) : Out :=
  .next (s.write rd (flagWord (sLt (s.g rs1) (imm13 imm))) 4)

/-- SLTIU (R118). -/
def execSltiu (rd rs1 : BitVec 5) (imm : BitVec 13) (s : State) : Out :=
  .next (s.write rd (flagWord ((s.g rs1).ult (imm13 imm))) 4)

/-- SLLI (R119). -/
def execSlli (rd rs1 : BitVec 5) (sh : BitVec 6) (s : State) : Out :=
  .next (s.write rd (s.g rs1 <<< sh.toNat) 4)

/-- SRLI (R119). -/
def execSrli (rd rs1 : BitVec 5) (sh : BitVec 6) (s : State) : Out :=
  .next (s.write rd (s.g rs1 >>> sh.toNat) 4)

/-- SRAI (R119). -/
def execSrai (rd rs1 : BitVec 5) (sh : BitVec 6) (s : State) : Out :=
  .next (s.write rd ((s.g rs1).sshiftRight sh.toNat) 4)

/-- LUI (R120). -/
def execLui (rd : BitVec 5) (imm : BitVec 18) (s : State) : Out :=
  .next (s.write rd (upperImm imm) 4)

/-- AUIPC (R120). -/
def execAuipc (rd : BitVec 5) (imm : BitVec 18) (s : State) : Out :=
  .next (s.write rd (s.me.pc + upperImm imm) 4)

/-- JAL (R121). -/
def execJal (rd : BitVec 5) (imm : BitVec 18) (s : State) : Out :=
  .next (s.jumpTo rd (s.me.pc + jumpOff imm) 4)

/-- JALR (R121). -/
def execJalr (rd rs1 : BitVec 5) (imm : BitVec 13) (s : State) : Out :=
  .next (s.jumpTo rd (evenPc (s.g rs1 + imm13 imm)) 4)

/-- BEQ (R122). -/
def execBeq (rs1 rs2 : BitVec 5) (imm : BitVec 13) (s : State) : Out :=
  .next (s.branch (s.g rs1 == s.g rs2) (branchOff imm) 4)

/-- BNE (R122). -/
def execBne (rs1 rs2 : BitVec 5) (imm : BitVec 13) (s : State) : Out :=
  .next (s.branch (s.g rs1 != s.g rs2) (branchOff imm) 4)

/-- BLT (R122). -/
def execBlt (rs1 rs2 : BitVec 5) (imm : BitVec 13) (s : State) : Out :=
  .next (s.branch (sLt (s.g rs1) (s.g rs2)) (branchOff imm) 4)

/-- BGE (R122). -/
def execBge (rs1 rs2 : BitVec 5) (imm : BitVec 13) (s : State) : Out :=
  .next (s.branch (!sLt (s.g rs1) (s.g rs2)) (branchOff imm) 4)

/-- BLTU (R122). -/
def execBltu (rs1 rs2 : BitVec 5) (imm : BitVec 13) (s : State) : Out :=
  .next (s.branch ((s.g rs1).ult (s.g rs2)) (branchOff imm) 4)

/-- BGEU (R122). -/
def execBgeu (rs1 rs2 : BitVec 5) (imm : BitVec 13) (s : State) : Out :=
  .next (s.branch (!(s.g rs1).ult (s.g rs2)) (branchOff imm) 4)

/-- C.ADDI (R67, R118). -/
def execCAddi (rd imm : BitVec 5) (s : State) : Out :=
  .next (s.write rd (s.g rd + imm.signExtend 64) 2)

/-- C.LI (R67, R118). -/
def execCLi (rd imm : BitVec 5) (s : State) : Out :=
  .next (s.write rd (imm.signExtend 64) 2)

/-- C.MV (R67). -/
def execCMv (rd rs : BitVec 5) (s : State) : Out :=
  .next (s.write rd (s.g rs) 2)

/-- C.ADD (R67, R116). -/
def execCAdd (rd rs : BitVec 5) (s : State) : Out :=
  .next (s.write rd (s.g rd + s.g rs) 2)

/-- C.SLLI (R67, R119). -/
def execCSlli (rd sh : BitVec 5) (s : State) : Out :=
  .next (s.write rd (s.g rd <<< sh.toNat) 2)

/-- C.J (R67, R121). -/
def execCJ (imm : BitVec 10) (s : State) : Out :=
  .next (s.jumpTo 0 (s.me.pc + imm.signExtend 64 <<< 1) 2)

/-- C.JR (R67, R121). -/
def execCJr (rs : BitVec 5) (s : State) : Out :=
  .next (s.jumpTo 0 (evenPc (s.g rs)) 2)

/-- The register of C.BEQZ and C.BNEZ (R67). -/
def cReg (rs : BitVec 3) : BitVec 5 := rs.setWidth 5 + 3

/-- C.BEQZ (R67, R122). -/
def execCBeqz (rs : BitVec 3) (imm : BitVec 7) (s : State) : Out :=
  .next (s.branch (s.g (cReg rs) == 0) (imm.signExtend 64 <<< 1) 2)

/-- C.BNEZ (R67, R122). -/
def execCBnez (rs : BitVec 3) (imm : BitVec 7) (s : State) : Out :=
  .next (s.branch (s.g (cReg rs) != 0) (imm.signExtend 64 <<< 1) 2)

/-- C.NOP (R67, R128). -/
def execCNop (s : State) : Out :=
  .next (s.retire 2)

end Sys2Proof.Machine
end

