-- ==== Sys2Proof/Machine/Sync.lean ====
section
/-! DEFINITION. Completion of outstanding elements (R235, R365), full/empty words (R275 to R278), chambers (R280 to R285) and
fences (R286, R287). -/

namespace Sys2Proof.Machine

open Sys2Proof

/-! Completion of elements. -/

/-- Write element e of a register at width w; a position in a gated lane quarter is dropped (R88). -/
def putElem (s : State) (h n w e x : Nat) : State :=
  if 1024 * ((s.core (hartCore h)).q.toNat + 1) ≤ w * e then s
  else let y := s.hart h; s.setHart h (y.setV n (setElem (y.v n) w e x))

/-- A completion counter advances by 1 when its instruction is complete (R235, R365). -/
def Hart.nbDone (x : Hart) (op : Nat) : Hart :=
  match x.nb.find? fun o => o.id == op with
  | none => x
  | some o =>
    if o.issued && o.open_ = 0 && o.colls = [] then
      { x.setCc o.cls (x.ccv o.cls + 1) with nb := x.nb.filter fun o' => o'.id ≠ op }
    else x

/-- Token entries name element id as 2 * id and collapse c as 2 * c + 1 (R287). -/
def retoken (ts : List (Nat × List Nat)) (old : Nat) (new : List Nat) : List (Nat × List Nat) :=
  ts.map fun t => (t.1, t.2.flatMap fun i => if i = old then new else [i])

/-- An outstanding element completes (R235): it leaves the program order and the logs; its non-blocking instruction may
count. c is the collapse its write began: with its home on another die, the home scope is module or pod, and the instruction
counts when the collapse has ended; ack is the request whose response it still waits for (R306). -/
def State.completeElt (s : State) (h id : Nat) (c ack : Option Nat) : State :=
  let x := s.hart h
  match x.pend.find? fun e => e.id == id with
  | none => s
  | some el =>
    let others := (el.seenBy.map (·.1)).eraseDups
    let seen : List Seen := match c with
      | some c => ⟨c, el.cls, true, false, el.logged && el.op == 0 && ipaHome el.ipa != hartDie h⟩ ::
          others.map fun k => ⟨c, k, false, true, false⟩
      | none => []
    let far : List Nat := (match c with | some c => if ipaHome el.ipa = hartDie h then [] else [c] | none => []) ++ ack.toList
    let nb := x.nb.map fun (o : NbOp) => if o.id = el.op then { o with open_ := o.open_ - 1, colls := o.colls ++ far } else o
    let x : Hart := { x with
      pend := x.pend.filter (fun e => e.id ≠ id)
      seen := x.seen ++ seen
      tokens := retoken x.tokens (2 * id) ((c.toList ++ ack.toList).map fun i => 2 * i + 1)
      nb := nb }
    let k := s.core (hartCore h)
    let s := s.setCore (hartCore h)
      { k with log := k.log.filter (fun p => p ≠ (h, id)), replay := k.replay.filter (fun p => p ≠ (h, id)) }
    s.setHart h (x.nbDone el.op)

/-- An element completes with nothing left to wait for but a collapse. -/
def State.finishElt (s : State) (h id : Nat) (c : Option Nat) : State := s.completeElt h id c none

/-- A load element completes with a value for its destination (R251); a discarded one writes nothing. -/
def State.finishLoad (s : State) (h : Nat) (el : Elt) (x : Nat) : State :=
  (if el.dst ≤ 71 then putElem s h el.dst el.ew el.e x else s).finishElt h el.id none

/-- A refused or failed non-blocking element completes and is counted in DISC (R243). -/
def State.refuseElt (s : State) (h : Nat) (el : Elt) : State :=
  let s := s.countCtx (hartDie h / 4) el.owner 0
  match el.kind with
  | .read | .tagRead => s.finishLoad h el 0
  | _ => s.finishElt h el.id none

/-! Full/empty words. -/

/-- Tagged accesses: 0 LDF, 1 LDFK, 2 STE, 3 STF (R275). -/
def tagNeed (kind : Nat) : Need := if kind = 0 then needRW else if kind = 1 then needR else needW

/-- The spaces whose words carry a full/empty bit (R275). -/
def taggedSpace (ipa : Nat) : Bool := ipaSpace ipa == 9 || ipaSpace ipa == 10

/-- The condition of a record holds (R275, R212). -/
def recReady (s : State) (r : TagRec) : Bool :=
  if r.kind ≤ 1 then s.tagOf r.key == r.owner && s.isFull r.key
  else s.tagOf r.key != r.owner || !s.isFull r.key

/-- The action of a tagged access on its word, and the value it reads (R275). -/
def tagAction (s : State) (kind key owner : Nat) (data : BitVec 32) : State × Nat :=
  let s := s.claim key 4 owner
  let v := s.rdNat key 4
  if kind = 0 then (s.setFull key false, v)
  else if kind = 1 then (s, v)
  else ((s.wrAs key owner (toBytes 4 data.toNat)).setFull key true, v)

/-- A wait that only its server, or a step of its own, ends (R276, R277, R283). -/
def Why.served : Why → Bool
  | .tag _ _ | .tagRetry _ _ | .chamber _ _ | .chRetry _ _ => true
  | _ => false

/-- A served hart leaves PARK (R276). -/
def State.serveHart (s : State) (h v : Nat) : State :=
  let x := s.hart h
  s.setHart h { x with st := .run, served := some (BitVec.ofNat 64 v) }

/-- What a wait of a hart, or of its element, has come to. -/
def State.served (s : State) (h elt v : Nat) : State :=
  if elt = 0 then s.serveHart h v
  else match (s.hart h).pend.find? fun e => e.id == elt with
    | some el => s.finishLoad h el v
    | none => s

/-- A bank or Lockkeeper ends a wait; a hart of another die hears of it by a notice (R276, R283, R306). -/
def State.serveFrom (s : State) (die h elt v : Nat) : State :=
  if hartDie h = die then s.served h elt v
  else s.post (flowId (unitSource die 0) (hartDie h) 15) (s.owner h) (.notice h elt (BitVec.ofNat 64 v))

/-- A notice that ends a wait of a hart, or of its element, is on its way: it has been served. -/
def noticeFlies (s : State) (h elt : Nat) : Bool :=
  let mine (p : Packet) : Bool := match p.body with
    | .notice g e _ => g == h && e == elt
    | _ => false
  s.packets.any mine

/-- The bank serves a record: its action, and the completion of its access (R276). -/
def serveRec (s : State) (die : Nat) (r : TagRec) : State :=
  let p := tagAction s r.kind r.key r.owner r.data
  let s := p.1.setDie die { p.1.die die with recs := (p.1.die die).recs.filter (· ≠ r) }
  s.serveFrom die r.hart r.elt p.2

/-- The bank serves the records of a word, oldest first, until none can be served (R276). -/
def serveWord (s : State) (die key : Nat) : Nat → State
  | 0 => s
  | n + 1 =>
    match (s.die die).recs.find? fun r => r.key == key && recReady s r with
    | some r => serveWord (serveRec s die r) die key n
    | none => s

/-- Serve the records of a word. -/
def State.serve (s : State) (key : Nat) : State :=
  serveWord s (keyDie key) key ((s.die (keyDie key)).recs.length + 1)

/-- The banks serve the words whose full/empty bits the owner rule has changed in this step (R276). -/
def State.serveStirred (s : State) : State :=
  if s.stirred = [] then s else s.stirred.foldl State.serve { s with stirred := [] }

/-- A tagged access of 4 bytes arrives at its bank: it acts, or its condition is false (R275). One of a poisoned granule meets
its error first, whatever the word's bit (R215). -/
def tagArrive (s : State) (kind key owner : Nat) (data : BitVec 32) : Res (Option Nat) :=
  heldByTest s key 4 <|
  let s := s.claim key 4 owner
  if s.poisoned key 4 then eccFault s key 4
  else if kind ≤ 2 && !(if kind ≤ 1 then s.isFull key else !s.isFull key) then .ok s none
  else
    let p := tagAction s kind key owner data
    .ok (if kind = 1 then p.1 else p.1.serve key) (some p.2)

/-- The cycle at which a wait of the hart that begins now ends; 0 for none (R278). -/
def deadline (s : State) (h : Nat) : Nat :=
  let lim := (s.hart h).c.waitlim.toNat
  if lim = 0 then 0 else (s.die (hartDie h)).clk + lim

/-- Take a wait record, or wait for one (R276, R277): whether a record was taken. -/
def takeRecord (s : State) (r : TagRec) : State × Bool :=
  let die := keyDie r.key
  let x := s.die die
  if (x.recs.filter fun q => q.bank == r.bank).length < 16 && !(x.retries.any fun q => q.bank == r.bank) then
    (s.setDie die { x with recs := x.recs ++ [r] }, true)
  else (s.setDie die { x with retries := x.retries ++ [r] }, false)

/-- Checks of a scalar tagged access: the IPA, or the cause (R275). -/
def tagCheck (s : State) (h va kind : Nat) : Except Cause Nat :=
  match hartCheck s h va 4 4 (tagNeed kind) true with
  | .error c => .error c
  | .ok ipa => if taggedSpace ipa then .ok ipa else .error .protectionFault

/-- A tagged access at its home. One that meets a reset of its home has DATA_ERROR (R219). -/
def tagCrossing (s : State) (a : Agent) (ipa key kind va : Nat) (data : BitVec 32) (k : State → Res (Option Nat)) :
    Res (Option Nat) :=
  if inReset s (ipaHome ipa) then .fault s .dataError
  else metered s a ipa key (tagNeed kind) (crossing s a ipa key 4 4 (.tag kind data va) k fun s v => match v with
    | .val x _ => .ok s (some x)
    | .fault c => .fault s c)

/-- A tagged access after its checks: its value, or none when it must wait with the record given (R276). -/
def tagAccess (s : State) (h cls ipa va kind : Nat) (data : BitVec 32) : Res (Except TagRec Nat) :=
  let a := (s.agent h).inClass cls
  let x := s.hart h
  if (x.behind cls) != [] || unreached s x cls then .stall s .order else
  match translate s a ipa (tagNeed kind) with
  | (s, .refuse c) => .fault s c
  | (s, .miss) => missStall s a ipa (tagNeed kind)
  | (s, .ok key _) =>
    (tagCrossing s a ipa key kind va data fun s => tagArrive (s.accessed h cls) kind key a.owner data).bind fun s v =>
      match v with
      | some v => .ok (s.accessed h cls) (.ok v)
      | none => .ok s (.error ⟨bankOf key, key, h, 0, kind, data, a.owner⟩)

/-- The hart parks at its instruction with a record, or retries for one (R276, R277); the owner rule has been applied to the word
(R212). -/
def State.tagPark (s : State) (r : TagRec) (va : Nat) (i : Option Instr) : State :=
  let s := s.claim r.key 4 r.owner
  let h := r.hart
  let d := deadline s h
  let p := takeRecord s r
  let x := p.1.hart h
  if p.2 then p.1.setHart h { x with hold := some ⟨.tag va d, i⟩, st := .park }
  else p.1.setHart h { x with hold := some ⟨.tagRetry va d, i⟩ }

/-- A scalar tagged access (R275, R276); k completes it with the word. -/
def tagOp (s : State) (i : Instr) (va : Word) (cls kind : Nat) (data : BitVec 32) (k : State → Nat → State) : Out :=
  match s.me.served with
  | some v => .next (k (s.accessed s.cur cls) v.toNat)
  | none =>
    match tagCheck s s.cur va.toNat kind with
    | .error c => .next (s.trap ⟨c, va⟩)
    | .ok ipa => scalarAccess (tagAccess s s.cur cls ipa va.toNat kind data) i va fun s r =>
      match r with
      | .ok v => k s v
      | .error r => s.tagPark r va.toNat (some i)

/-- LDF (R275). -/
def execLdf (r base : BitVec 5) (cls : BitVec 4) (imm : BitVec 9) (s : State) : Out :=
  tagOp s (.ldf r base cls imm) (memAddr (s.g base) imm 4) cls.toNat 0 0 fun s v => s.write r (sextNat 32 v) 4

/-- LDFK (R275). -/
def execLdfk (r base : BitVec 5) (cls : BitVec 4) (imm : BitVec 9) (s : State) : Out :=
  tagOp s (.ldfk r base cls imm) (memAddr (s.g base) imm 4) cls.toNat 1 0 fun s v => s.write r (sextNat 32 v) 4

/-- STE (R275). -/
def execSte (r base : BitVec 5) (cls : BitVec 4) (imm : BitVec 9) (s : State) : Out :=
  tagOp s (.ste r base cls imm) (memAddr (s.g base) imm 4) cls.toNat 2 ((s.g r).setWidth 32) fun s _ => s.retire 4

/-- STF (R275). -/
def execStf (r base : BitVec 5) (cls : BitVec 4) (imm : BitVec 9) (s : State) : Out :=
  tagOp s (.stf r base cls imm) (memAddr (s.g base) imm 4) cls.toNat 3 ((s.g r).setWidth 32) fun s _ => s.retire 4

/-! Chambers. -/

/-- Fields of a chamber as one number of 128 bits (R280). -/
def chPhase (w : Nat) : Bool := w.testBit 32
/-- EXPECTED. -/
def chExpected (w : Nat) : Nat := field w 16 16
/-- COUNT. -/
def chCount (w : Nat) : Nat := field w 0 16

/-- Replace a field of a number. -/
def setField (x b w v : Nat) : Nat := x - field x b w * 2 ^ b + v % 2 ^ w * 2 ^ b

/-- Checks of a chamber access (R281). -/
def chCheck (s : State) (h va : Nat) (need : Need) : Except Cause Nat :=
  match hartCheck s h va 16 16 need true with
  | .error c => .error c
  | .ok ipa => if ipaSpace ipa = 9 then .ok ipa else .error .protectionFault

/-- A chamber at its storage address, under the owner rule: its contents (R212, R215, R281). Its RES bits (R280) are kept as the
bytes of memory that they are: a plain store reaches them and a load reads them (DESIGN CHOICE, log 51). -/
def chContents (s : State) (key owner : Nat) : Res Nat :=
  heldByTest s key 16 <|
  let s := s.claim key 16 owner
  if s.poisoned key 16 then eccFault s key 16 else .ok s (s.rdNat key 16)

/-- Release the parked CHWAITs of a chamber that p names (R281, R282). -/
def chReleaseIf (s : State) (key : Nat) (p : ChRec → Bool) : State :=
  let die := keyDie key
  let x := s.die die
  let (go, stay) := x.chRecs.partition fun r => r.key == key && p r
  (s.setDie die { x with chRecs := stay }) |> fun s => go.foldl (fun s r => s.serveFrom die r.hart 0 0) s

/-- The parked CHWAITs of a chamber are re-examined: those whose phase has gone are released (R281, R283). -/
def chRelease (s : State) (key : Nat) : State :=
  let ph := chPhase (s.rdNat key 16)
  chReleaseIf s key fun r => r.phase != ph

/-- A chamber whose trigger is armed fires it (R282, R285); a trigger whose owner has been torn down does not fire (R284). -/
def chFire (s : State) (key ipa owner w : Nat) : State :=
  let die := keyDie key
  let x := s.die die
  let k := field w 34 2
  if !w.testBit 36 || (k ≠ 1 && k ≠ 2) || (owner ≠ 0 && (s.ctx (die / 4) owner).st != .run) then s
  else
    let j : CopyJob := ⟨s.serial, owner, ipa, 0, field w 64 56, 0, 0, 0, 0, k, false, none⟩
    (s.setDie die { x with copies := x.copies ++ [j] }).number

/-- CHARR with count n on a chamber (R282): the phase before. -/
def chArrive (s : State) (key ipa owner n w : Nat) : State × Bool :=
  let c := chCount w + n
  if chExpected w ≠ 0 && chExpected w ≤ c then
    let w' := setField (setField (setField w 0 16 0) 32 1 (if chPhase w then 0 else 1)) 36 1 0
    let s := chReleaseIf (s.wrAs key owner (toBytes 16 w')) key fun _ => true
    (chFire s key ipa owner w, chPhase w)
  else (s.wrAs key owner (toBytes 16 (setField w 0 16 c)), chPhase w)

/-- CHARM's write: kind 0 disarms, another arms the trigger at an IPA (R284). -/
def chArmed (w kind ipa : Nat) : Nat :=
  if kind = 0 then setField w 36 1 0 else setField (setField (setField w 64 56 ipa) 34 2 kind) 36 1 1

/-- The Lockkeeper acts on a chamber with its contents: CHARR answers the phase before, as 0 or 1, a look and CHWAIT the contents
(R281, R282, R284). -/
def chAct (s : State) (key ipa owner w : Nat) (act : ChAct) : State × Nat :=
  match act with
  | .look | .wait _ => (s, w)
  | .init n => (chRelease (s.wrAs key owner (toBytes 16 (n * 2 ^ 16))) key, 0)
  | .arrive n => let r := chArrive s key ipa owner n w; (r.1, r.2.toNat)
  | .arm kind trigger => (chRelease (s.wrAs key owner (toBytes 16 (chArmed w kind trigger))) key, 0)

/-- A chamber at its home (R281). -/
def chHome (s : State) (key ipa owner : Nat) (act : ChAct) : Res Nat :=
  (chContents s key owner).bind fun s w => let r := chAct s key ipa owner w act; .ok r.1 r.2

/-- Reach a chamber at its home and act on it: its storage address, and what the Lockkeeper answers (R281). One that meets a reset of
its home has DATA_ERROR (R219). -/
def chReachAt (s : State) (a : Agent) (ipa va : Nat) (need : Need) (act : ChAct) : Res (Nat × Nat) :=
  match translate s a ipa need with
  | (s, .refuse c) => .fault s c
  | (s, .miss) => missStall s a ipa need
  | (s, .ok key _) =>
    if inReset s (ipaHome ipa) then .fault s .dataError
    else (metered s a ipa key need (crossing s a ipa key 16 16 (.chamber act va) (fun s => chHome s key ipa a.owner act)
      fun s v => (v.pair s).bind fun s r => .ok s r.1)).bind fun s v => .ok s (key, v)

/-- Reach a chamber in the hart's program order. -/
def chReach (s : State) (h cls ipa va : Nat) (need : Need) (act : ChAct) : Res (Nat × Nat) :=
  let x := s.hart h
  if (x.behind cls) != [] || unreached s x cls then .stall s .order
  else (chReachAt s ((s.agent h).inClass cls) ipa va need act).bind fun s r => .ok (s.accessed h cls) r

/-- A chamber instruction; act is what the Lockkeeper does, or the trap of its other operands, whose checks come before the access; k
goes on with what it answers. -/
def chOp (s : State) (i : Instr) (va : Word) (cls : Nat) (need : Need) (act : Except Trap ChAct)
    (k : State → Nat × Nat → State) : Out :=
  match chCheck s s.cur va.toNat need with
  | .error c => .next (s.trap ⟨c, va⟩)
  | .ok ipa => match act with
    | .error t => .next (s.trap t)
    | .ok act => scalarAccess (chReach s s.cur cls ipa va.toNat need act) i va k

/-- CHINIT (R281). -/
def execChinit (rs1 rs2 : BitVec 5) (cls : BitVec 4) (s : State) : Out :=
  let i : Instr := .chinit rs1 rs2 cls
  let n := (s.g rs2).toNat
  chOp s i (s.g rs1) cls.toNat needW (if n = 0 || 65535 < n then .error ⟨.illegalOperand, parcels i⟩ else .ok (.init n))
    fun s _ => s.retire 4

/-- CHARR (R282). -/
def execCharr (rd rs1 rs2 : BitVec 5) (cls : BitVec 4) (s : State) : Out :=
  chOp s (.charr rd rs1 rs2 cls) (s.g rs1) cls.toNat needRW (.ok (.arrive ((s.g rs2).toNat % 2 ^ 16)))
    fun s p => s.write rd (flagWord (p.2 == 1)) 4

/-- The hart parks in the chamber wait list, or retries for a place (R283). -/
def State.chPark (s : State) (r : ChRec) (va : Nat) (i : Instr) : State :=
  let die := keyDie r.key
  let h := r.hart
  let d := deadline s h
  let y := s.die die
  if y.chRecs.length < 1024 && y.chRetry.length = 0 then
    let s := s.setDie die { y with chRecs := y.chRecs ++ [r] }
    s.setHart h { s.hart h with hold := some ⟨.chamber va d, some i⟩, st := .park }
  else
    let s := s.setDie die { y with chRetry := y.chRetry ++ [r] }
    s.setHart h { s.hart h with hold := some ⟨.chRetry va d, some i⟩ }

/-- CHWAIT (R281, R283). -/
def execChwait (rs1 rs2 : BitVec 5) (cls : BitVec 4) (s : State) : Out :=
  let i : Instr := .chwait rs1 rs2 cls
  let ph := (s.g rs2).getLsbD 0
  let va := s.g rs1
  match s.me.served with
  | some _ => .next ((s.accessed s.cur cls.toNat).retire 4)
  | none => chOp s i va cls.toNat needR (.ok (.wait ph)) fun s p =>
    if chPhase p.2 ≠ ph then s.retire 4 else s.chPark ⟨p.1, s.cur, ph, s.owner s.cur⟩ va.toNat i

/-- A feature is offered to the hart: accepted by its context, and on a control hart every offered one (R363). -/
def hasFeature (s : State) (h bit : Nat) : Bool :=
  let m := hartDie h / 4
  if isControl h then (s.md m).foff.getLsbD bit else (s.ctx m (s.owner h)).facc.getLsbD bit

/-- CHARM (R284). -/
def execCharm (rs1 rs2 : BitVec 5) (cls : BitVec 4) (s : State) : Out :=
  let i : Instr := .charm rs1 rs2 cls
  let t := (s.g rs2).toNat
  let kind := t % 4
  let tva := field t 5 52 * 32
  if (kind = 1 && !hasFeature s s.cur 6) || (kind = 2 && !hasFeature s s.cur 10) then
    .next (s.trap ⟨.illegalInstruction, parcels i⟩)
  else
    chOp s i (s.g rs1) cls.toNat needW
      (if kind = 3 || field t 57 7 ≠ 0 || field t 2 3 ≠ 0 then .error ⟨.illegalOperand, parcels i⟩
        else if kind = 0 then .ok (.arm 0 0)
        else match hartCheck s s.cur tva 32 1 needR false with
          | .error c => .error ⟨c, BitVec.ofNat 64 tva⟩
          | .ok ipa => .ok (.arm kind ipa))
      fun s _ => s.retire 4

/-! Fences. -/

/-- Take the trap of a failed class that the mask covers, clearing the covered marks (R246). -/
def State.failTrap (s : State) (mask : BitVec 16) (va : Nat) : State :=
  (s.setMe (s.me.clearFailed mask)).trap ⟨.pageFaultFatal, BitVec.ofNat 64 va⟩

/-- A FENCE of a mask has been met: reads of masked classes, and fetches with class 15, bind after it (R227, R228). -/
def Hart.fenced (x : Hart) (msk : BitVec 16) : Hart :=
  { x with
    early := x.early.filter fun r => !inMask msk r.cls
    ic := if msk.getLsbD 15 then [] else x.ic }

/-- FENCE (R228, R286). One that covers a failed class traps once its hold is over (DEDUCED, log 67). -/
def execFence (msk : BitVec 16) (scope : BitVec 3) (s : State) : Out :=
  if !barrierMet s s.cur msk scope.toNat then .next (s.wait .order (.fence msk scope))
  else match failedMark s.me msk with
    | some va => .next (s.failTrap msk va)
    | none =>
      .next (s.setMe ((s.me.retire 4).fenced msk))

/-- What a FENI of a mask waits for: writes homed off the die, and side-log entries (R287). -/
def tokenWaits (s : State) (h : Nat) (msk : BitVec 16) : List Nat :=
  let x := s.hart h
  ((x.pend.filter fun e => inMask msk e.cls && (e.place == .sideLog ||
      (e.kind != .read && e.kind != .tagRead && ipaHome e.ipa != hartDie h))).map fun e => 2 * e.id) ++
  ((s.collapses.filter fun c => keyDie (c.line * 128) != hartDie h &&
      x.seen.any fun y => y.own && inMask msk y.cls && y.collapse == c.id).map fun c => 2 * c.id + 1) ++
  ((x.unacked.filter fun u => inMask msk u.cls).map fun u => 2 * u.id + 1)

/-- FENI (R287). -/
def execFeni (rd : BitVec 5) (msk : BitVec 16) (s : State) : Out :=
  match failedMark s.me msk with
  | some va => .next (s.failTrap msk va)
  | none =>
    if 8 ≤ s.me.tokens.length then .next (s.wait .order (.feni rd msk))
    else
      let n := s.me.feni + 1
      let x := s.me
      let w := tokenWaits s s.cur msk
      let x := { x with feni := n, tokens := if w = [] && x.tokens = [] then [] else x.tokens ++ [(n, w)] }
      .next ((s.setMe x).write rd (BitVec.ofNat 64 n) 4)

/-- FENW (R287). -/
def execFenw (rs1 : BitVec 5) (s : State) : Out :=
  let t := (s.g rs1).toNat
  if s.me.feni < t then .next (s.trap ⟨.fenceToken, s.g rs1⟩)
  else if s.me.tokens.any fun p => p.1 ≤ t then .next (s.park .token (.fenw rs1))
  else .next (s.setMe { s.me.retire 4 with early := [] })

end Sys2Proof.Machine
end

