-- ==== Sys2Proof/Machine/Elements.lean ====
section
/-! DEFINITION. Performing outstanding elements: posted stores, elements of non-blocking instructions, side-log and
replay-queue entries (R235, R236, R243 to R246, R251, R260, R270, R279). -/

namespace Sys2Proof.Machine

open Sys2Proof

/-- The element as an agent; fast says that its packets pass in the same step. -/
def Elt.agent (el : Elt) (h : Nat) (fast : Bool) : Agent :=
  { die := hartDie h, core := coreInDie h, owner := el.owner, gen := el.gen, told := none, rng := none, who := some (h, el.cls)
    source := h, cls := el.cls, elt := el.id, fast }

/-- An element that cannot go on stays as it is, but for a request that it has sent. -/
def waited (s s' : State) (w : Why) : State :=
  match w with
  | .remote _ _ => keepRequests s' s
  | _ => s

/-- Elements of the hart before one in program order. -/
def Hart.before (x : Hart) (id : Nat) : List Elt := x.pend.takeWhile fun e => e.id != id

/-- An entry of its class is older in the side log of the core, which its two harts share (R236, R244). -/
def behindLog (s : State) (h : Nat) (el : Elt) : Bool :=
  el.place == .sideLog &&
    ((s.core (hartCore h)).log.takeWhile fun p => p != (h, el.id)).any fun p =>
      (s.hart p.1).pend.any fun e => e.id == p.2 && e.cls == el.cls

/-- A reduction passes one of its own instruction that waits in the side log, of other bytes: the lanes whose pages are mapped go on
(R250, R268, R270; DEDUCED, log 60). -/
def Elt.passes (el e : Elt) : Bool :=
  el.op != 0 && e.op == el.op && e.place == .sideLog && el.place != .sideLog && (el.ipa + el.size ≤ e.ipa || e.ipa + e.size ≤ el.ipa) &&
    match el.kind with
    | .amo _ => true
    | _ => false

/-- An entry of a commit unit that still waits, which performs nothing before the unit commits (R30, R244). -/
def Hart.uncommitted (x : Hart) (el : Elt) : Bool :=
  match x.convoy with
  | some cv => cv.kept.any fun p => p.2 == el.id
  | none => false

/-- Nothing that the element is ordered behind is outstanding (R224, R236). -/
def eltReady (s : State) (h : Nat) (el : Elt) : Bool :=
  !(s.hart h).uncommitted el &&
  ((s.hart h).before el.id).all (fun e => !related e.cls el.cls || el.passes e) && !unreached s (s.hart h) el.cls &&
    !behindLog s h el

/-- Replace an element. -/
def State.setElt (s : State) (h : Nat) (el : Elt) : State := s.modElt h el.id fun _ => el

/-- An element enters the side log, or stays outside while it is full (R244). -/
def State.toLog (s : State) (h : Nat) (el : Elt) : State :=
  if el.place = .sideLog then s
  else if logRoom s h then
    let k := s.core (hartCore h)
    (s.setCore (hartCore h) { k with log := k.log ++ [(h, el.id)] }).setElt h { el with place := .sideLog, logged := true }
  else s.setElt h { el with place := .full }

/-- An element enters the replay queue, or stays outside while it is full (R245). -/
def State.toReplay (s : State) (h : Nat) (el : Elt) : State :=
  if el.place = .replay then s
  else
    let k := s.core (hartCore h)
    if k.replay.length < 128 then
      (s.setCore (hartCore h) { k with replay := k.replay ++ [(h, el.id)] }).setElt h { el with place := .replay, logged := true }
    else s.setElt h { el with place := .full }

/-- Mark a class of the hart failed, keeping the first VA (R246). -/
def Hart.fail (x : Hart) (cls va : Nat) : Hart :=
  if (mget none x.failed cls).isSome then x else { x with failed := mset none x.failed cls (some va) }

/-- A side-log entry or queued element is discarded: counted, its class marked failed with its VA, for the read of a copy that of
its source (R246). -/
def State.discardElt (s : State) (h : Nat) (el : Elt) : State :=
  let s := s.setHart h ((s.hart h).fail el.cls (if el.kind = .copy then el.srcVa else el.va))
  s.refuseElt h el

/-- The home refuses a write or reduction that is no longer issuing: an entry of the side log is discarded (R246), another
element completes as refused (R243). -/
def State.rejectElt (s : State) (h : Nat) (el : Elt) : State :=
  if el.place = .sideLog then s.discardElt h el else s.refuseElt h el

/-- The request of a miss, which may find the queue full and be retried; the element waits in its place meanwhile (R291). -/
def missElt (s : State) (a : Agent) (ipa : Nat) (need : Need) (move : State → State) : State :=
  move (pageRequest s a ipa need).1

/-- A store that meets a reset of its home is dropped; an element of a non-blocking instruction is counted (R219). -/
def State.resetElt (s : State) (h : Nat) (el : Elt) : State := if el.op = 0 then s.finishElt h el.id none else s.refuseElt h el

/-- A store or reduction element at its home (R222, R270): the collapse of its write. into is that of a write sent together with it. -/
def eltHome (s : State) (h : Nat) (el : Elt) (key : Nat) (into : Option Nat) : Res (Option Nat) :=
  match el.kind with
  | .amo op =>
    (homeAtomic s el.owner el.ipa key el.size (AtomicOp.amo op (8 * el.size) (leBytes el.data) 0).new).bind fun s r => .ok s r.2
  | _ => applyWrite s el.owner (s.hart h).c.prv el.ipa key el.data into

/-- What an element needs of its page. -/
def Elt.need (el : Elt) : Need :=
  match el.kind with
  | .write => needW
  | .read | .copy => needR
  | _ => needRW

/-- A store or reduction element is applied at its home, in the step in which its packets pass, if it has any. -/
def eltDone (s : State) (h : Nat) (el : Elt) (key : Nat) : State :=
  match metered s (el.agent h false) el.ipa key el.need (eltHome s h el key none) with
  | .ok s c => s.finishElt h el.id c
  | .fault s _ => s.refuseElt h el
  | .stall _ _ => s

/-- A store or reduction element for a home on another die leaves in a request of its own (R306). -/
def sendElt (s : State) (h : Nat) (el : Elt) : State :=
  let f := flowId h (ipaHome el.ipa) el.cls
  if el.place = .sent || !flowRoom s f then s
  else (s.enqueue f el.owner (.stores h [el.id])).modElt h el.id fun e => { e with place := .sent }

/-- Apply a store or reduction element at its home (R222); for one on another die a request is sent, whose packets pass at once with
fast (log 6). -/
def applyElt (s : State) (h : Nat) (el : Elt) (key : Nat) (fast : Bool) : State :=
  let a := el.agent h fast
  if inReset s (ipaHome el.ipa) then s.resetElt h el
  else if ipaHome el.ipa = a.die then eltDone s h el key
  else if fast then (match passBoth s a el.ipa el.data.length 0 with
    | some s => eltDone s h el key
    | none => s)
  else sendElt s h el

/-- A store or reduction element. -/
def performWrite (s : State) (h : Nat) (el : Elt) (fast : Bool) : State :=
  let a := el.agent h fast
  match el.key with
  | some key => applyElt s h el key fast
  | none =>
    match translate s a el.ipa el.need with
    | (s, .refuse _) => s.rejectElt h el
    | (s, .miss) => missElt s a el.ipa el.need fun s => s.toLog h el
    | (s, .ok key _) =>
      let el := { el with key := some key, dpa := placedDpa s a el.ipa }
      applyElt (s.setElt h el) h el key fast

/-- Read n bytes for an element: its bytes, a refusal or error, or a move to a queue. -/
def readFor (s : State) (h : Nat) (el : Elt) (fast : Bool) (ipa n : Nat) (bad : State → State) (k : State → List Byte → State) :
    State :=
  let a := el.agent h fast
  match translate s a ipa needR with
  | (s, .refuse _) => bad s
  | (s, .miss) => missElt s a ipa needR fun s => s.toReplay h el
  | (s, .ok key _) =>
    match bindRead s a h ((s.hart h).before el.id) el.cls ipa key n with
    | .ok s bs => k s bs
    | .fault s _ => bad s
    | .stall s' w => waited s s' w

/-- A load element (R251). -/
def performRead (s : State) (h : Nat) (el : Elt) (fast : Bool) : State :=
  readFor s h el fast el.ipa el.size (fun s => s.refuseElt h el) fun s bs => s.finishLoad h el (leBytes bs)

/-- The read of a copy segment, part by part, then its write; its place in the replay queue is free once the read has bound (R245,
R260). -/
def performCopy (s : State) (h : Nat) (el : Elt) (fast : Bool) (got : List Byte) : List (Nat × Nat) → State
  | [] =>
    let el := { el with kind := .write, data := got, key := none, place := .issued }
    let k := s.core (hartCore h)
    let s := s.setCore (hartCore h) { k with replay := k.replay.filter fun p => p ≠ (h, el.id) }
    performWrite (s.setElt h el) h el fast
  | (ipa, n) :: r =>
    readFor s h el fast ipa n (fun s => s.refuseElt h el) fun s bs => performCopy s h el fast (got ++ bs) r

/-- A VLDF.NB element takes a record, or waits for one (R276, R277, R279). -/
def tagEltWait (s : State) (h : Nat) (el : Elt) (key : Nat) : State :=
  let k := s.core (hartCore h)
  let s := s.setCore (hartCore h) { k with replay := k.replay.filter fun p => p ≠ (h, el.id) }
  (takeRecord (s.setElt h { el with place := .tagWait, srcVa := deadline s h }) ⟨bankOf key, key, h, el.id, 0, 0, el.owner⟩).1

/-- A VLDF.NB element arrives at its bank, and may take a record or wait for one (R276, R277, R279). -/
def performTag (s : State) (h : Nat) (el : Elt) (fast : Bool) : State :=
  let a := el.agent h fast
  if el.place = .tagWait then s else
  match translate s a el.ipa needRW with
  | (s, .refuse _) => s.refuseElt h el
  | (s, .miss) => missElt s a el.ipa needRW fun s => s.toReplay h el
  | (s, .ok key _) =>
    match tagCrossing s a el.ipa key 0 el.va 0 fun s => tagArrive s 0 key el.owner 0 with
    | .ok s (some v) => s.finishLoad h el v
    | .ok s none => tagEltWait s h el key
    | .fault s _ => s.refuseElt h el
    | .stall s' w => waited s s' w

/-- The IPAs of the pages that an element needs, with the need. -/
def Elt.pages (el : Elt) : List (Nat × Need) :=
  match el.kind with
  | .copy => el.src.map fun p => (p.1, needR)
  | _ => [(el.ipa, el.need)]

/-- A request for a page of the element waits for its answer (R353). -/
def Elt.asked (s : State) (h : Nat) (el : Elt) : Bool :=
  el.key.isNone && el.pages.any fun p => Machine.asked s (el.agent h false) p.1

/-- The page of an element that is missing, with the need. -/
def missingPage (s : State) (h : Nat) (el : Elt) : Option (Nat × Need) :=
  if el.key.isSome then none else el.pages.find? fun p => (translate s (el.agent h false) p.1 p.2).2 == .miss

/-- The outcome of an element's translation is known: it waits in a queue, or its pages are mapped. -/
def placed (s : State) (h : Nat) (el : Elt) : Bool :=
  !(el.place == .issued || el.place == .full) || (missingPage s h el).isNone

/-- The elements of one instruction miss one by one, in their order: an element that must wait for earlier ones of its own instruction
alone is translated, and enters its queue if its page is missing (R243, R244, R250). One in a queue, whose request found the
page-request queue full, asks again (R291). -/
def tryPark (s : State) (h : Nat) (el : Elt) : State :=
  match missingPage s h el with
  | none => s
  | some p =>
    if el.place = .sideLog || el.place = .replay then missElt s (el.agent h false) p.1 p.2 id
    else if el.op = 0 || !((s.hart h).before el.id).all fun e => !related e.cls el.cls || (e.op == el.op && placed s h e) then s
    else missElt s (el.agent h false) p.1 p.2 fun s =>
      match el.kind with
      | .write | .amo _ => s.toLog h el
      | _ => s.toReplay h el

/-- An element that a hart has just issued misses at once, if its page is missing. -/
def State.parkIssued (s : State) (h id : Nat) : State :=
  match (s.hart h).pend.find? fun e => e.id == id with
  | some el => tryPark s h el
  | none => s

/-- Perform an outstanding element of a hart, if its turn in the order of its class has come and the host has answered for its
page; fast says that packets for it pass in the same step. -/
def State.performAs (s : State) (h : Nat) (fast : Bool) (id : Nat) : State :=
  match (s.hart h).pend.find? fun e => e.id == id with
  | none => s
  | some el =>
    if el.place = .sent && !fast then s
    else if el.asked s h then (if el.place = .full || el.place = .issued then tryPark s h el else s)
    else if !eltReady s h el then tryPark s h el
    else match el.kind with
      | .write | .amo _ => performWrite s h el fast
      | .read => performRead s h el fast
      | .copy => performCopy s h el fast [] el.src
      | .tagRead => performTag s h el fast

/-- Perform an outstanding element; one homed on another die sends its request and goes on with the response (R306). -/
def State.performElt (s : State) (h id : Nat) : State := s.performAs h false id

/-! Accesses of other dies at their homes (R306). -/

/-- An access acts at its home in the turn of its request; one that a unit of a convoy makes among others waits for the step in which
its hart goes on (log 6). -/
def Far.acts (f : Far) (s : State) : Bool :=
  f.elt != 0 || 65536 ≤ f.source ||
    match (s.hart f.source).hold with
    | some w => w.i.isSome
    | none => false

/-- The agent of an access at its home. -/
def Far.agent (f : Far) : Agent := { unitAgent (sourceDie f.source) f.owner 0 f.source f.cls none with elt := f.elt }

/-- An access acts at its home: its value and collapse, none for a wait (R222, R263, R276, R281). A home that no longer admits its
module refuses it, and one under reset fails it (R211, R219). -/
def farHome (s : State) (f : Far) : Res (Option (Nat × Option Nat)) :=
  let a := f.agent
  let ok (r : Res (Nat × Option Nat)) : Res (Option (Nat × Option Nat)) := r.bind fun s v => .ok s (some v)
  if !peerOk s a f.ipa then .fault s .protectionFault
  else match f.op with
    | .read _ => .ok s none
    | .write prv bs => metered s a f.ipa f.key needW
        ((applyWrite s f.owner prv f.ipa f.key bs none).bind fun s c => .ok s (some (0, c)))
    | .atomic n o =>
      if inReset s (ipaHome f.ipa) then .fault s .dataError
      else metered s a f.ipa f.key needRW (ok (homeAtomic s f.owner f.ipa f.key n o.new))
    | .tag kind data _ =>
      if inReset s (ipaHome f.ipa) then .fault s .dataError
      else metered s a f.ipa f.key (tagNeed kind)
        ((tagArrive s kind f.key f.owner data).bind fun s v => .ok s (v.map fun x => (x, none)))
    | .chamber act _ =>
      if inReset s (ipaHome f.ipa) then .fault s .dataError
      else metered s a f.ipa f.key needRW ((chHome s f.key f.ipa f.owner act).bind fun s w =>
        .ok s (if act == .wait (chPhase w) then none else some (w, none)))

/-- The source of an access whose condition is false at its home waits there: its hart parks with a record, or retries for one (R276,
R277, R283); so does its element (R279). -/
def farWait (s : State) (f : Far) : State :=
  let h := f.source
  let i := (s.hart h).hold.bind (·.i)
  match f.op, i with
  | .tag kind data va, _ =>
    if f.elt = 0 then s.tagPark ⟨bankOf f.key, f.key, h, 0, kind, data, f.owner⟩ va i
    else match (s.hart h).pend.find? fun e => e.id == f.elt with
      | some el => tagEltWait s h el f.key
      | none => s
  | .chamber (.wait ph) va, some i => s.chPark ⟨f.key, h, ph, f.owner⟩ va i
  | _, _ => s

/-- Keep what an access has come to. -/
def State.farCame (s : State) (f : Far) (v : FarVal) : State :=
  { s with far := s.far.map fun (g : Far) => if g = f then { g with val := some v } else g }

/-- The turn of an access at its home: it acts, and what it comes to is kept for its response; or it waits there, and is gone. Whether
it is to be answered. -/
def farTurn (s : State) (f : Far) : State × Bool :=
  match farHome s f with
  | .ok t (some v) => (t.farCame f (.val v.1 v.2), true)
  | .ok t none => (farWait { t with far := t.far.erase f } f, false)
  | .fault t c => (t.farCame f (.fault c), true)
  | .stall _ _ => (s, false)

/-! Collapses. -/

/-- A collapse has ended: the hart's write is performed, and an instruction that waited for it may count (R223, R235). -/
def Hart.collapsed (x : Hart) (id : Nat) : Hart :=
  let x := { x with
    seen := x.seen.filter fun y => y.collapse != id
    tokens := retoken x.tokens (2 * id + 1) []
    nb := x.nb.map fun (o : NbOp) => { o with colls := o.colls.filter (· ≠ id) } }
  (x.nb.map (·.id)).foldl Hart.nbDone x

/-- A collapse has collected every acknowledgement: its write reaches every hart (R207, R223). -/
def State.endCollapse (s : State) (id : Nat) : State :=
  { s with
    collapses := s.collapses.filter (fun c => c.id != id)
    harts := (s.harts.map fun p => (p.1, p.2.collapsed id)).filter fun p => p.2 ≠ Hart.idle }

/-- A die's copies of the line of a collapse are gone. -/
def State.dropFor (s : State) (c : Collapse) (die : Nat) : State := s.dropReplica c.line die

/-- Collect at once what a collapse still waits for. -/
def State.hurryCollapse (s : State) (c : Collapse) : State :=
  (c.dies.foldl (fun s d => s.dropFor c d.1) s).endCollapse c.id

/-- An access that has reached its home acts there although its source will not hear of it (R219, R311). -/
def farAlone (s : State) (f : Far) : State :=
  if f.val.isSome then s
  else
    let s := (s.collapses.filter fun c => c.line == keyLine f.key).foldl State.hurryCollapse s
    s.pastTests (keyDie f.key) fun s => match f.op, farHome s f with
      | .read _, _ => s
      | _, .ok t _ => t
      | _, .fault t _ => t
      | _, .stall _ _ => s

/-- Perform now what the hart's next access of a class is ordered behind: its outstanding elements and the collapses of its
own writes (R224). This is one moment at which they may be performed (log 6). -/
def State.settle (s : State) (h cls : Nat) : State :=
  let s := ((s.hart h).behind cls).foldl (fun s e => s.performAs h true e.id) s
  (s.collapses.filter fun c =>
    (s.hart h).seen.any fun y => (y.own || y.fwd) && related y.cls cls && y.collapse == c.id).foldl State.hurryCollapse s

end Sys2Proof.Machine
end

