-- ==== Sys2Proof/Machine/System.lean ====
section
/-! DEFINITION. System instructions, safe points and CSR access (R125 to R131), lane gating (R86 to R88), vector length
(R134). -/

namespace Sys2Proof.Machine

open Sys2Proof

/-- PRIVILEGE unless the hart's level is at least lvl: 1 S, 3 M (R48, R68). -/
def needPriv (s : State) (i : Instr) (lvl : BitVec 2) (k : Out) : Out :=
  if s.me.c.prv < lvl then .next (s.trap ⟨.privilege, parcels i⟩) else k

/-- ILLEGAL_INSTRUCTION unless the feature is accepted (R363). -/
def needFeature (s : State) (i : Instr) (bit : Nat) (k : Out) : Out :=
  if hasFeature s s.cur bit then k else .next (s.trap ⟨.illegalInstruction, parcels i⟩)

/-! Lanes. -/

/-- Bits of a register in the lane quarters that Q powers, q bits to a quarter. -/
def lowQuarters (bits q x : Nat) : Nat := x % 2 ^ (bits * (q + 1))

/-- A map of registers with the slices of unpowered quarters zero (R88). -/
def gateMap {n : Nat} (bits q : Nat) (m : Map (BitVec n)) : Map (BitVec n) :=
  (m.map fun p => (p.1, BitVec.ofNat n (lowQuarters bits q p.2.toNat))).filter fun p => p.2 ≠ 0

/-- Effective VLMAX at a width code (R87). -/
def vlMax (q : BitVec 2) (ew : Nat) : Nat := 1024 * (q.toNat + 1) / (8 * 2 ^ ew)

/-- A hart after maxvl.Q becomes q, the quarters above m having been without power (R87, R88). -/
def Hart.relane (x : Hart) (m q : BitVec 2) : Hart :=
  { x with
    f := { x.f with v := gateMap 1024 m.toNat x.f.v, k := gateMap 128 m.toNat x.f.k, t := gateMap 1024 m.toNat x.f.t }
    c := { x.c with vl := min x.c.vl (vlMax q (x.c.vtype.toNat % 4)) } }

/-- The other hart of a core. -/
def sibling (h : Nat) : Nat := if h % 2 = 0 then h + 1 else h - 1

/-- A write of maxvl.Q on a core: the lanes change and neither hart issues for 64 cycles (R86 to R88). -/
def State.setQ (s : State) (core : Nat) (q : BitVec 2) : State :=
  let k := s.core core
  let m := if q < k.q then q else k.q
  let s := s.setCore core { k with q := q, stall := 65 }
  let s := s.setHart (2 * core) ((s.hart (2 * core)).relane m q)
  s.setHart (2 * core + 1) ((s.hart (2 * core + 1)).relane m q)

/-! CSRs. -/

/-- A CSR as it reads (R80 to R86). -/
def csrRead (s : State) (n : BitVec 11) : Word :=
  let c := s.me.c
  match n.toNat with
  | 0x000 => c.epos.setWidth 64
  | 0x001 => c.fflags.setWidth 64
  | 0x002 => c.mflags.setWidth 64
  | 0x100 => BitVec.ofNat 64 c.vl
  | 0x101 => c.vtype.setWidth 64
  | 0x102 => c.mtype.setWidth 64
  | 0x103 => c.cycle
  | 0x104 => c.instret
  | 0x105 => c.ctxid.setWidth 64
  | 0x200 => (s.core (hartCore s.cur)).q.setWidth 64
  | 0x201 => statusWordOf c
  | 0x202 => c.cause.setWidth 64
  | 0x203 => c.epc
  | 0x204 => c.tval
  | 0x205 => c.tvec
  | 0x206 => c.scratch
  | 0x207 => c.bindbase
  | 0x208 => c.lmbase
  | 0x209 => c.waitlim.setWidth 64
  | 0x600 => c.safelim.setWidth 64
  | _ => 0

/-- The low bits lo to 56 of a word. -/
def vaField (lo : Nat) (w : Word) : Word := (w <<< 7) >>> (7 + lo) <<< lo

/-- CSRs after a write, maxvl apart (R80 to R85, R130). -/
def csrPut (c : Csrs) (n : BitVec 11) (w : Word) : Csrs :=
  match n.toNat with
  | 0x000 => { c with epos := w.setWidth 9 }
  | 0x001 => { c with fflags := w.setWidth 5 }
  | 0x002 => { c with mflags := w.setWidth 4 }
  | 0x201 => { c with pp := if w.setWidth 2 = 2#2 then c.pp else w.setWidth 2 }
  | 0x202 => { c with cause := w.setWidth 8 }
  | 0x203 => { c with epc := evenPc w }
  | 0x204 => { c with tval := w }
  | 0x205 => { c with tvec := vaField 1 w }
  | 0x206 => { c with scratch := w }
  | 0x207 => { c with bindbase := vaField 11 w }
  | 0x208 => { c with lmbase := vaField 6 w }
  | 0x209 => { c with waitlim := w.setWidth 32 }
  | 0x600 => { c with safelim := w.setWidth 32 }
  | _ => c

/-- A CSR access with its privilege check (R130, R131): new is the value to write, none for a read. The level of a CSR is
bits [10:9] of its number (R52). -/
def csrOp (s : State) (i : Instr) (rd : BitVec 5) (n : BitVec 11) (new : Option (Word → Word)) : Out :=
  needPriv s i (n.extractLsb' 9 2)
    (let old := csrRead s n
     match new with
     | none => .next (s.write rd old 4)
     | some f =>
       if n = 0x200 then
         if (s.hart (sibling s.cur)).convoy.isSome then .next (s.wait .order i)
         else .next ((s.setQ (hartCore s.cur) ((f old).setWidth 2)).write rd old 4)
       else .next ((s.setMe { s.me with c := csrPut s.me.c n (f old) }).write rd old 4))

/-- CSRR (R130). -/
def execCsrr (rd : BitVec 5) (csr : BitVec 11) (s : State) : Out :=
  csrOp s (.csrr rd csr) rd csr none

/-- CSRW (R130). -/
def execCsrw (rd : BitVec 5) (csr : BitVec 11) (rs1 : BitVec 5) (s : State) : Out :=
  csrOp s (.csrw rd csr rs1) rd csr (some fun _ => s.g rs1)

/-- CSRS (R130); with g0 it writes nothing. -/
def execCsrs (rd : BitVec 5) (csr : BitVec 11) (rs1 : BitVec 5) (s : State) : Out :=
  csrOp s (.csrs rd csr rs1) rd csr (if rs1 = 0 then none else some fun w => w ||| s.g rs1)

/-- CSRC (R130); with g0 it writes nothing. -/
def execCsrc (rd : BitVec 5) (csr : BitVec 11) (rs1 : BitVec 5) (s : State) : Out :=
  csrOp s (.csrc rd csr rs1) rd csr (if rs1 = 0 then none else some fun w => w &&& ~~~ s.g rs1)

/-! Traps and returns. -/

/-- TRAP (R125). -/
def execTrap (code : BitVec 15) (s : State) : Out :=
  .next (s.trap ⟨.trapInstruction, code.setWidth 64⟩)

/-- SRET (R126). -/
def execSret (s : State) : Out :=
  needPriv s .sret 1
    (if s.me.c.pp = 3 then .next (s.trap ⟨.privilege, parcels .sret⟩) else .next (s.setMe s.me.trapReturn))

/-- MRET (R126). -/
def execMret (s : State) : Out :=
  needPriv s .mret 3 (.next (s.setMe s.me.trapReturn))

/-- The CHALT bit of a control hart is set (R378). -/
def State.chaltSet (s : State) (h : Nat) : State :=
  let m := hartDie h / 4
  s.setMd m { s.md m with chalt := (s.md m).chalt ||| (1#8 <<< (2 * (hartDie h % 4) + h % 2)) }

/-- HALT (R127). -/
def execHalt (s : State) : Out :=
  needPriv s .halt 3
    (if barrierMet s s.cur (BitVec.allOnes 16) 3 then
      let x := s.me.retire 4
      .next ((s.setMe { x with st := .halted, c := { x.c with epc := x.pc } }).chaltSet s.cur)
    else .next (s.wait .order .halt))

/-! Safe points. -/

/-- Bytes of a context's memory that the save mechanism reads in class 15; none where they cannot be read, in an unmapped page
among others (R129, R331). A read may wait at its home (R207, R311). -/
def reachBytes (s : State) (va n : Nat) : Res (Option (List Byte)) :=
  match hartCheck s s.cur va n n needR false with
  | .error _ => .ok s none
  | .ok ipa =>
    match (translate s (s.agent s.cur) ipa needR).2 with
    | .miss => .ok s none
    | _ => match hartReadIpa s s.cur 15 ipa n with
      | .ok s bs => .ok s (some bs)
      | .fault s _ => .ok s none
      | .stall s w => .stall s w

/-- A live-map entry as R331 gives it; none when unreadable. -/
def liveMap (s : State) (idx : Nat) : Res (Option (BitVec 256)) :=
  let base := s.me.c.lmbase.toNat
  (reachBytes s (base - 32) 32).bind fun s hd =>
    match hd with
    | none => .ok s none
    | some hd =>
      if leBytes hd % 2 ^ 32 ≤ idx || base < 32 then .ok s none
      else (reachBytes s (base + 32 * idx) 32).bind fun s bs =>
        .ok s (bs.bind fun bs => if 2 ^ 136 ≤ leBytes bs then none else some (BitVec.ofNat 256 (leBytes bs)))

/-- A safe point of an instruction of n bytes (R129): retires, and with PREQ = 1 the hart is to be saved. -/
def safeOp (s : State) (i : Instr) (idx : Nat) (n : Word) : Out :=
  if !s.me.c.preq then .next (s.retire n)
  else if (s.me.behind 15) != [] || unreached s s.me 15 then .next (s.wait .order i)
  else
    let save (s : State) (k : Nat × Nat × BitVec 256) : State :=
      let x := s.me.retire n
      (s.setMe { x with saving := some k, c := { x.c with epos := 0 } }).savePoint (hartDie s.cur)
    match liveMap s idx with
    | .ok s (some m) => .next (save s (1, idx, m))
    | .ok s none => .next (save s (2, idx, BitVec.allOnes 256))
    | .fault s _ => .next (save s (2, idx, BitVec.allOnes 256))
    | .stall s' w => .next ((keepRequests s' s).wait w i)

/-- SAFE (R129). -/
def execSafe (idx : BitVec 23) (s : State) : Out := safeOp s (.safe idx) idx.toNat 4

/-- C.SAFE (R67, R129). -/
def execCSafe (idx : BitVec 10) (s : State) : Out := safeOp s (.cSafe idx) idx.toNat 2

/-! Vector length. -/

/-- A vtype value that is not reserved (R53, R81, R134). -/
def vtypeOk (nt : Word) : Bool :=
  let ew := nt.extractLsb' 0 2
  let kind := nt.getLsbD 2
  nt >>> 6 == 0 && !(kind && (ew == 0 || ew == 3)) && !(nt.getLsbD 5 && !(kind && ew == 1))

/-- VSETVL and VSETVLI (R134). -/
def vsetOp (s : State) (i : Instr) (rd rs1 : BitVec 5) (nt : Word) : Out :=
  if vtypeOk nt then
    let vl := min (s.g rs1).toNat (vlMax (s.core (hartCore s.cur)).q (nt.toNat % 4))
    let x := s.me
    .next ((s.setMe { x with c := { x.c with vtype := nt.setWidth 6, vl := vl } }).write rd (BitVec.ofNat 64 vl) 4)
  else .next (s.trap ⟨.illegalInstruction, parcels i⟩)

/-- VSETVL (R134). -/
def execVsetvl (rd rs1 rs2 : BitVec 5) (s : State) : Out :=
  vsetOp s (.vsetvl rd rs1 rs2) rd rs1 (s.g rs2)

/-- VSETVLI (R134). -/
def execVsetvli (rd rs1 : BitVec 5) (imm : BitVec 13) (s : State) : Out :=
  vsetOp s (.vsetvli rd rs1 imm) rd rs1 (imm.setWidth 64)

end Sys2Proof.Machine
end

