-- ==== Sys2Proof/Machine/Counters.lean ====
section
/-! DEFINITION. Completion counters (R365 to R367) and the meter read (R374). -/

namespace Sys2Proof.Machine

open Sys2Proof

/-- Something of class n is outstanding (R365): an element that is not applied, or one that is not yet performed at its home scope
(R235). -/
def Hart.outstanding (x : Hart) (n : Nat) : Bool :=
  (x.pend.any fun e => e.cls == n && (e.op != 0 || e.logged)) || (x.nb.any fun o => o.cls == n && o.colls != []) ||
    x.seen.any fun y => y.cls == n && y.logged

/-- CCWAIT once its wait is over: the marks of the class, then retirement of n bytes (R366). -/
def ccPass (s : State) (n : Nat) (len : Word) : Out :=
  let x := s.me
  match mget none x.failed n, mget none x.timedOut n with
  | some va, _ => .next ((s.setMe { x with failed := mset none x.failed n none }).trap ⟨.pageFaultFatal, BitVec.ofNat 64 va⟩)
  | none, some va =>
    .next ((s.setMe { x with timedOut := mset none x.timedOut n none }).trap ⟨.tagWaitTimeout, BitVec.ofNat 64 va⟩)
  | none, none => .next (s.setMe { s.me.retire len with early := [] })

/-- CCWAIT: park until nothing of the class is outstanding or the target is reached (R366). -/
def ccWait (s : State) (i : Instr) (n : BitVec 4) (reached : Bool) (len : Word) : Out :=
  if reached || !s.me.outstanding n.toNat then ccPass s n.toNat len
  else .next (s.park (.counter n.toNat) i)

/-- CCRD (R366). -/
def execCcrd (rd : BitVec 5) (n : BitVec 4) (s : State) : Out :=
  .next (s.write rd ((s.me.ccv n.toNat).setWidth 64) 4)

/-- CCWAIT ALL (R366). -/
def execCcwaitAll (n : BitVec 4) (s : State) : Out :=
  ccWait s (.ccwaitAll n) n false 4

/-- CCWAIT GE (R366). -/
def execCcwaitGe (n : BitVec 4) (rs1 : BitVec 5) (s : State) : Out :=
  ccWait s (.ccwaitGe n rs1) n (decide ((s.me.ccv n.toNat - (s.g rs1).setWidth 32).toNat < 2 ^ 31)) 4

/-- C.CCWAIT (R67, R366). -/
def execCCcwait (n : BitVec 4) (s : State) : Out :=
  ccWait s (.cCcwait n) n false 2

/-- CCSET (R366). -/
def execCcset (n : BitVec 4) (rs1 : BitVec 5) (s : State) : Out :=
  .next ((s.setMe (s.me.setCc n.toNat ((s.g rs1).setWidth 32))).retire 4)

/-- A meter with the pending accumulators of its owner on every die of the module (R374). -/
def meterValue (s : State) (m owner meter : Nat) : Nat :=
  mget 0 (s.ctx m owner).meters meter +
    ((moduleDies m).map fun d => mget 0 (s.die d).pendM (owner * 8 + meter)).sum

/-- MTRRD (R374). -/
def execMtrrd (rd : BitVec 5) (meter : BitVec 3) (s : State) : Out :=
  if isControl s.cur then .next (s.trap ⟨.illegalInstruction, parcels (.mtrrd rd meter)⟩)
  else .next (s.write rd (BitVec.ofNat 64 (meterValue s (hartDie s.cur / 4) (s.owner s.cur) meter.toNat)) 4)

end Sys2Proof.Machine
end

