-- ==== Sys2Proof/Machine/Tables.lean ====
section
/-! DEFINITION. Instructions on tables: ranges, regions, interleave entries, translation invalidation, windows (R346, R347,
R352, R355, R357, R360). -/

namespace Sys2Proof.Machine

open Sys2Proof

/-- Go on once every earlier access of the hart is performed at pod scope (R346, R352). -/
def afterPod (s : State) (i : Instr) (k : Out) : Out :=
  if podMet s s.cur then k else .next (s.wait .order i)

/-- The owner that a selector's owner field names: the hart's own on a dispatched hart, 1 to 63 on a control hart (R346,
R352). -/
def ownerField (s : State) (n : Nat) : Option Nat :=
  if isControl s.cur then (if n = 0 then none else some n)
  else if n = 0 || n = s.owner s.cur then some (s.owner s.cur) else none

/-- Range and owner of an RNGW or RNGR selector (R346). -/
def rangeSel (s : State) (w : Word) : Option (Nat × Nat) :=
  if w.toNat / 2 ^ 10 ≠ 0 then none else
  match ownerField s (field w.toNat 4 6) with
  | none => none
  | some o => if (s.ctx (hartDie s.cur / 4) o).st = .free then none else some (field w.toNat 0 4, o)

/-- RW bits of range word w (R343). -/
def rangeMask (w : Nat) : Word :=
  if w = 0 then 0x01FFFFFFFFE000E7 else if w = 1 then 0x01FFFFFFFFE00000 else 0x00FFFFFFFFE00000

/-- The wait is that of an access that has issued, not of one that waits for its turn. -/
def Why.issued : Why → Bool
  | .order | .counter _ | .token | .coll => false
  | _ => true

/-- An access of the context that has issued and waits, of a hart or of the line monitor, keeps the range registers of its issue
(R347). -/
def State.keepRanges (s : State) (m o : Nat) : State :=
  let old := (s.ctx m o).ranges
  let keep := fun (p : Nat × Hart) =>
    if (hartDie p.1 / 4 == m && p.2.hold.any (fun w => w.why.issued) && s.owner p.1 == o && p.1 != s.cur) = true then
      (p.1, { p.2 with rng := some (p.2.rng.getD old) })
    else p
  let s := { s with harts := s.harts.map keep }
  if (s.md m).launches.any (fun l => l.owner == o && l.told.any Why.issued) then
    s.setMd m { s.md m with launches := (s.md m).launches.map fun (l : Launch) =>
      if l.owner = o && l.told.any Why.issued then { l with rng := some (l.rng.getD old) } else l }
  else s

/-- RNGW (R346, R347). -/
def execRngw (rs1 rs2 : BitVec 5) (w : BitVec 8) (s : State) : Out :=
  let i : Instr := .rngw rs1 rs2 w
  let m := hartDie s.cur / 4
  needPriv s i 1
    (match rangeSel s (s.g rs1) with
     | none => .next (s.trap ⟨.illegalOperand, parcels i⟩)
     | some (r, o) => afterPod s i
       (let c := s.ctx m o
        let s := s.keepRanges m o
        .next ((s.setCtx m o { c with ranges := mset 0 c.ranges (3 * r + w.toNat) (s.g rs2 &&& rangeMask w.toNat) }).retire 4)))

/-- RNGR (R346). -/
def execRngr (rd rs1 : BitVec 5) (w : BitVec 8) (s : State) : Out :=
  let i : Instr := .rngr rd rs1 w
  needPriv s i 1
    (match rangeSel s (s.g rs1) with
     | none => .next (s.trap ⟨.illegalOperand, parcels i⟩)
     | some (r, o) => afterPod s i (.next (s.write rd (rangeWord (s.ctx (hartDie s.cur / 4) o).ranges r w.toNat) 4)))

/-- Invalidate the replicas of a module's lines in an IPA interval on every die. -/
def dropReplicas (s : State) (m lo hi : Nat) : State :=
  { s with replicas := s.replicas.filter fun p => match p.2 with
    | some _ =>
      let key := p.1 / 4 * 128
      !(keyDie key / 4 == m && lo ≤ key && key < hi)
    | none => true }

/-- The storage addresses that region IPAs map to are not kept with a replica; every replica of the module's lines whose home
a changed region covers is dropped by dropping all of the module's (R357: one that goes is only fetched again). -/
def dropModuleReplicas (s : State) (m : Nat) : State := dropReplicas s m 0 (2 ^ 48 * 256)

/-- The value of region word 0 is allowed (R357). -/
def regionOk0 (w : Nat) : Bool :=
  let l := field w 8 6
  21 ≤ l && l ≤ 47 && (field w 21 35 * 2 ^ 21) % 2 ^ l == 0

/-- The value of region word 1 is allowed (R357). -/
def regionOk1 (w : Nat) : Bool :=
  field w 16 16 != 0 && field w 8 2 != 3 && field w 6 2 != 3 && field w 6 2 ≤ field w 8 2

/-- A region after RRTW (R356, R357). -/
def Region.put (r : Region) (w v : Nat) : Region :=
  let r := if w = 0 then { r with base := field v 21 35 * 2 ^ 21, lsize := BitVec.ofNat 6 (field v 8 6), en := v.testBit 0 }
    else { r with thresh := BitVec.ofNat 16 (field v 16 16), maxdeg := BitVec.ofNat 2 (field v 8 2),
                  mindeg := BitVec.ofNat 2 (field v 6 2), pinned := v.testBit 5 }
  { r with gen := r.gen + 1, deg := if r.pinned then r.maxdeg else r.mindeg, rread := 0, window := 0 }

/-- RRTW (R346, R357). -/
def execRrtw (rs1 rs2 : BitVec 5) (w : BitVec 8) (s : State) : Out :=
  let i : Instr := .rrtw rs1 rs2 w
  let m := hartDie s.cur / 4
  let v := (s.g rs2).toNat
  let r := (s.g rs1).toNat
  needPriv s i 3
    (if 256 ≤ r || !(if w = 0 then regionOk0 v else regionOk1 v) then .next (s.trap ⟨.illegalOperand, parcels i⟩)
     else afterPod s i
       (let x := mget Region.reset (s.md m).regions r
        .next ((dropModuleReplicas (s.setRegion m r (x.put w.toNat v)) m).retire 4)))

/-- The requests that an entry's old value steered are steered afresh before the new one is installed: translated elements that
have not been applied take their places under it, with its GEN (R358). -/
def State.resteer (s : State) (d c : Nat) : State :=
  let gen := mget 0 (s.die d).igen c
  let move (e : Elt) : Elt :=
    match e.dpa with
    | some (p, _) => if ipaHome e.ipa = d && p / 2 ^ 34 = c then { e with key := some (dpaKey s d p), dpa := some (p, gen) } else e
    | none => e
  { s with harts := s.harts.map fun p => (p.1, { p.2 with pend := p.2.pend.map move, early := [] }) }

/-- ILTW (R346, R355, R358). -/
def execIltw (rs1 rs2 : BitVec 5) (w : BitVec 8) (s : State) : Out :=
  let i : Instr := .iltw rs1 rs2 w
  let sel := (s.g rs1).toNat
  let v := (s.g rs2).toNat
  let d := hartDie s.cur / 4 * 4 + field sel 3 2
  let c := field sel 0 3
  let x := s.die d
  let n := popNat 64 v
  let ok := if w = 0 then n == 8 || n == 16 || n == 32 || n == 64
    else field v 8 4 * 2 ^ 28 + 2 ^ 34 / popNat 64 (x.mask c) ≤ 2 ^ 31
  needPriv s i 3
    (if 32 ≤ sel || !ok then .next (s.trap ⟨.illegalOperand, parcels i⟩)
     else afterPod s i
       (let x := { x with igen := mset 0 x.igen c (mget 0 x.igen c + 1) }
        let x := if w = 0 then { x with imask := mset (BitVec.allOnes 64) x.imask c (s.g rs2) }
          else { x with ibase := mset none x.ibase c (some (BitVec.ofNat 4 (field v 8 4))) }
        .next (((s.setDie d x).resteer d c).retire 4)))

/-! Translation invalidation. -/

/-- Size of the page of a span code (R350). -/
def spanSize (code : Nat) : Nat :=
  match code with
  | 0 => 2 ^ 12 | 1 => 2 ^ 14 | 2 => 2 ^ 16 | 3 => 2 ^ 21 | 4 => 2 ^ 23 | 5 => 2 ^ 25 | 6 => 2 ^ 30 | _ => 2 ^ 34

/-- First IPA and size of what a PTINV value covers (R352). -/
def invalSpan (ipa v : Nat) : Nat × Nat :=
  let ipa := ipa % 2 ^ 56
  if v.testBit 15 then (ipa / 2 ^ 48 * 2 ^ 48, 2 ^ 48)
  else let n := spanSize (field v 0 3); (ipa / n * n, n)

/-- A PTINV value has its must-be-zero bits 0 (R352). -/
def invalOk (v : Nat) : Bool := v / 2 ^ 16 == 0 && !v.testBit 14 && field v 3 5 == 0

/-- A die drops the cache entries of an owner that overlap an interval. -/
def dropTlb (s : State) (die owner lo n : Nat) : State :=
  { s with tlb := s.tlb.filter fun t => !(t.die == die && t.owner == owner && t.base < lo + n && lo < t.base + t.size) }

/-- An access of the die's harts that used such an entry has not been applied at its home. -/
def usesTlb (s : State) (die owner lo n : Nat) : Bool :=
  s.harts.any fun p => hartDie p.1 == die && p.2.pend.any fun e =>
    e.owner == owner && e.key.isSome && e.ipa < lo + n && lo < e.ipa + e.size

/-- The dies of the pod that may hold entries or accesses of an owner in an interval. -/
def invalDies (s : State) (owner lo n : Nat) : List Nat :=
  (List.range 256).filter fun d => usesTlb s d owner lo n

/-- PTINV (R352). A die without an access to wait for acknowledges at once. -/
def execPtinv (rs1 rs2 : BitVec 5) (s : State) : Out :=
  let i : Instr := .ptinv rs1 rs2
  let v := (s.g rs2).toNat
  let p := invalSpan (s.g rs1).toNat v
  needPriv s i 1
    (match if invalOk v then ownerField s (field v 8 6) else none with
     | none => .next (s.trap ⟨.illegalOperand, parcels i⟩)
     | some o => afterPod s i
       (let s' := { s with tlb := s.tlb.filter fun t => !(t.owner == o && t.base < p.1 + p.2 && p.1 < t.base + t.size) }
        if invalDies s o p.1 p.2 = [] then .next (s'.retire 4) else .next (s'.wait .order i)))

/-! Windows. -/

/-- The end of the range that covers a VA; a control hart's VAs run to 2^56 (R345, R360). -/
def rangeEnd (s : State) (va : Nat) : Nat :=
  if isControl s.cur then 2 ^ 56 else
  let r := (s.ctx (hartDie s.cur / 4) (s.owner s.cur)).ranges
  match rangeFind r va with
  | some j => granuleVa (rangeWord r j 1) + 2 ^ 21
  | none => 0

/-- The lowest window entry that can be opened. -/
def freeWindow (x : Die) : Option Nat :=
  (List.range 64).find? fun e => let w := mget Window.closed x.windows e; !w.isOpen && w.closing == none

/-- WIN.OPEN (R360). -/
def execWinOpen (rd rs1 rs2 : BitVec 5) (s : State) : Out :=
  let i : Instr := .winOpen rd rs1 rs2
  let va := (s.g rs1).toNat
  let len := (s.g rs2).toNat
  let d := hartDie s.cur
  needFeature s i 7 (needPriv s i 1
    (if va % 2 ^ 21 ≠ 0 then .next (s.trap ⟨.misaligned, s.g rs1⟩) else
     match xlateVa s (s.agent s.cur) va needR with
     | .error c => .next (s.trap ⟨c, s.g rs1⟩)
     | .ok ipa =>
       if ipaHome ipa / 4 = d / 4 then .next (s.trap ⟨.protectionFault, s.g rs1⟩)
       else if len = 0 || len % 2 ^ 21 ≠ 0 || rangeEnd s va < va + len then .next (s.trap ⟨.illegalOperand, parcels i⟩)
       else match freeWindow (s.die d) with
         | none => .next (s.write rd (BitVec.allOnes 64) 4)
         | some e =>
           let x := s.die d
           let w := mget Window.closed x.windows e
           let q := w.seq + 1
           let w : Window := ⟨true, q, s.owner s.cur, ipa, len, none⟩
           .next ((s.setDie d { x with windows := mset Window.closed x.windows e w }).write rd
             (BitVec.ofNat 64 (q.toNat * 64 + e)) 4)))

/-- The open entry of the hart's die and owner that a handle names (R360). -/
def windowOf (s : State) (hd : Nat) : Option (Nat × Window) :=
  let w := mget Window.closed (s.die (hartDie s.cur)).windows (hd % 64)
  if w.isOpen && w.seq.toNat == hd / 64 && w.owner == s.owner s.cur then some (hd % 64, w) else none

/-- Drop the owner's lines of a window on a die (R209, R360). -/
def dropWinLines (s : State) (die : Nat) (w : Window) : State :=
  { s with winLines := s.winLines.filter fun p =>
      let ipa := p.1 % 2 ^ 57 * 128
      match p.2 with
      | some c => !(p.1 / 2 ^ 57 == die && c.owner == w.owner && w.base ≤ ipa && ipa < w.base + w.len)
      | none => true }

/-- WIN.REV (R360). -/
def execWinRev (rs1 : BitVec 5) (s : State) : Out :=
  let i : Instr := .winRev rs1
  let d := hartDie s.cur
  needFeature s i 7 (needPriv s i 1
    (match windowOf s (s.g rs1).toNat with
     | none => .next (s.retire 4)
     | some (e, w) =>
       let x := s.die d
       .next ((s.setDie d { x with windows := mset Window.closed x.windows e { w with isOpen := false, closing := some 0 } }).retire 4)))

/-- WIN.SYNC (R360). -/
def execWinSync (rs1 : BitVec 5) (s : State) : Out :=
  let i : Instr := .winSync rs1
  needFeature s i 7 (needPriv s i 1
    (match windowOf s (s.g rs1).toNat with
     | none => .next (s.retire 4)
     | some (_, w) => .next ((dropWinLines s (hartDie s.cur) w).retire 4)))

end Sys2Proof.Machine
end

