-- ==== Sys2Proof/Machine/Vector.lean ====
section
/-! DEFINITION. Pipe A on one commit unit: elements, modifiers, integer and float operations, masks, moves, permutes and
reductions (R75 to R78, R104 to R108, R136 to R156). -/

namespace Sys2Proof.Machine

open Sys2Proof

/-- What the instructions of a convoy read beside the register files, and the elements of the commit unit: [lo, hi). -/
structure VCx where
  /-- The g registers as they stood when the convoy started (R28). -/
  gs   : Map Word
  vt   : BitVec 6
  /-- maxvl.Q. -/
  q    : BitVec 2
  vl   : Nat
  lo   : Nat
  hi   : Nat
  /-- The source element of the convoy's VBCAST as it stood when the convoy started (R149). -/
  bval : Nat
  deriving DecidableEq, Repr

/-- EW as a code. -/
def VCx.ewc (cx : VCx) : Nat := cx.vt.toNat % 4
/-- EW in bits. -/
def VCx.w (cx : VCx) : Nat := 8 * 2 ^ cx.ewc
/-- KIND is float. -/
def VCx.flt (cx : VCx) : Bool := cx.vt.getLsbD 2
/-- The rounding mode. -/
def VCx.rm (cx : VCx) : RMode := RMode.ofBits (cx.vt.extractLsb' 3 2)
/-- The float format of a vtype value (R81). -/
def vtFmt (vt : BitVec 6) : FFmt := if vt.toNat % 4 = 2 then .f32 else if vt.getLsbD 5 then .b16 else .f16
/-- The float format of the elements (R137). -/
def VCx.fmt (cx : VCx) : FFmt := vtFmt cx.vt
/-- A g register as the convoy reads it. -/
def VCx.g (cx : VCx) (r : BitVec 5) : Word := if r = 0 then 0 else mget 0 cx.gs r.toNat
/-- The elements of the unit. -/
def VCx.elems (cx : VCx) : List Nat := (List.range (cx.hi - cx.lo)).map (· + cx.lo)

/-- Bit e of mask register k (R78). -/
def Hart.maskBit (x : Hart) (k : BitVec 3) (e : Nat) : Bool := (x.k k.toNat).getLsbD e

/-- Element e, at width w, of a source specifier (R45, R46). Latches la, ll, lx, lm lie at 72 to 75. -/
def readOp (x : Hart) (cx : VCx) (p : BitVec 7) (w e : Nat) : Nat :=
  let n := p.toNat
  if n < 76 then elemOf (x.v n) w e
  else if n < 96 then (cx.g (BitVec.ofNat 5 (n % 16))).toNat % 2 ^ w
  else (p.setWidth 5).signExtend 64 |>.toNat % 2 ^ w

/-- An element under the in-register rule (R148). A broadcast g register or immediate has its value at every index inside the register,
in a quarter without power too, and zero beyond it (R46; DEDUCED, log 65). -/
def inReg (x : Hart) (cx : VCx) (p : BitVec 7) (i : Nat) : Nat :=
  if i < 4096 / cx.w then readOp x cx p cx.w i else 0

/-- Write element e of a register at width w unless it lies in an unpowered quarter (R88); d of 76 is discard. -/
def Hart.put (x : Hart) (q : BitVec 2) (d w e v : Nat) : Hart :=
  if 76 ≤ d || 1024 * (q.toNat + 1) ≤ w * e then x else x.setV d (setElem (x.v d) w e v)

/-- Write the elements that have a value to a destination, and each element, or zero, to a latch (R136). -/
def writeElems (x : Hart) (q : BitVec 2) (d lat w : Nat) (es : List (Nat × Option Nat)) : Hart :=
  es.foldl (fun x p =>
    let x := match p.2 with
      | some v => x.put q d w p.1 v
      | none => x
    x.put q lat w p.1 (p.2.getD 0)) x

/-- The result of an instruction that covers its unit: its latch is zero wherever it writes nothing, whatever an earlier
instruction of the convoy left there (R77, R136). -/
def latchElems (x : Hart) (q : BitVec 2) (d lat w : Nat) (es : List (Nat × Option Nat)) : Hart :=
  writeElems (x.setV lat 0) q d lat w es

/-- Raise float flags. -/
def Hart.flag (x : Hart) (f : FFlags) : Hart := { x with c := { x.c with fflags := x.c.fflags ||| f } }

/-! Modifiers (R94, R105, R106). -/

/-- N and A of source j, 1 to 3 (R65). -/
def modNeg (p : Pfx) (j : Nat) : Bool := p.mods.getLsbD (7 - 2 * j)
/-- A of source j. -/
def modAbs (p : Pfx) (j : Nat) : Bool := p.mods.getLsbD (6 - 2 * j)

/-- Modifiers on float data of w bits. -/
def modF (p : Pfx) (j w v : Nat) : Nat :=
  let v := if modAbs p j then v % 2 ^ (w - 1) else v
  if modNeg p j then v ^^^ 2 ^ (w - 1) else v

/-- Modifiers on integer data of w bits; uns says that it is read as unsigned. -/
def modI (p : Pfx) (j w : Nat) (uns : Bool) (v : Nat) : Nat :=
  let v := if modAbs p j && !uns && 2 ^ (w - 1) ≤ v then (2 ^ w - v) % 2 ^ w else v
  if modNeg p j then (2 ^ w - v) % 2 ^ w else v

/-- Modifiers as vtype.KIND data. -/
def modK (p : Pfx) (cx : VCx) (j v : Nat) : Nat := if cx.flt then modF p j cx.w v else modI p j cx.w false v

/-- No modifier is set. -/
def plainMods (p : Pfx) : Bool := p.mods == 0 && p.scale == 0 && p.clamp == 0

/-- Saturation to the range of w bits (R96). -/
def satInt (w : Nat) (uns : Bool) (x : Int) : Nat :=
  let lo : Int := if uns then 0 else -(2 ^ (w - 1))
  let hi : Int := if uns then 2 ^ w - 1 else 2 ^ (w - 1) - 1
  ((if x < lo then lo else if hi < x then hi else x) % 2 ^ w).toNat

/-- Wrapping to w bits (R96). -/
def wrapInt (w : Nat) (x : Int) : Nat := (x % 2 ^ w).toNat

/-- Narrowing of an integer result (R106). -/
def narrowInt (p : Pfx) (w : Nat) (uns : Bool) (x : Int) : Nat := if p.clamp = 3 then satInt w uns x else wrapInt w x

/-- The last step of an instruction that copies or combines bits (R138). -/
def finishBits (p : Pfx) (cx : VCx) (v : Nat) : Nat × FFlags :=
  if plainMods p then (v, 0)
  else if cx.flt then cx.fmt.finish cx.rm p.scale p.clamp (cx.fmt.dec v, 0)
  else (narrowInt p cx.w false (sintOf cx.w v), 0)

/-! Integer operations (R140). -/

/-- Source 1 and, for the range of saturation, the result are unsigned. -/
def vvUns : VVOp → Bool
  | .mulhu | .minu | .maxu | .srl | .saddu | .ssubu => true
  | _ => false

/-- Source 2 is read as unsigned. -/
def vvUns2 : VVOp → Bool
  | .mulhu | .minu | .maxu | .saddu | .ssubu => true
  | _ => false

/-- A value of w bits as an integer. -/
def intOf (w : Nat) (uns : Bool) (v : Nat) : Int := if uns then v else sintOf w v

/-- The exact result of an integer operation (R140). -/
def vvInt (op : VVOp) (w a b c : Nat) : Int :=
  let sa := sintOf w a
  let sb := sintOf w b
  let s := b % w
  match op with
  | .add | .sadd => sa + sb
  | .sub | .ssub => sa - sb
  | .mul => sa * sb
  | .mulh => sa * sb / 2 ^ w
  | .mulhu => ((a * b / 2 ^ w : Nat) : Int)
  | .mac => sintOf w c + sa * sb
  | .min => if sb < sa then sb else sa
  | .max => if sa < sb then sb else sa
  | .minu => ((min a b : Nat) : Int)
  | .maxu => ((max a b : Nat) : Int)
  | .sll => sa * 2 ^ s
  | .srl => ((a / 2 ^ s : Nat) : Int)
  | .sra => sa / 2 ^ s
  | .saddu => (a : Int) + b
  | .ssubu => (a : Int) - b
  | _ => 0

/-- The operation saturates without CLAMP. -/
def vvSat : VVOp → Bool
  | .sadd | .saddu | .ssub | .ssubu => true
  | _ => false

/-- An element of an integer operation. -/
def vvIntElem (p : Pfx) (op : VVOp) (w a b c : Nat) : Nat :=
  let a := modI p 1 w (vvUns op) a
  let b := modI p 2 w (vvUns2 op) b
  let x := vvInt op w a b (modI p 3 w false c)
  if vvSat op || p.clamp = 3 then satInt w (vvUns op) x else wrapInt w x

/-- A bitwise operation (R138, R140). -/
def bitOp (op : VVOp) (a b : Nat) : Nat :=
  match op with
  | .and => a &&& b
  | .or => a ||| b
  | _ => a ^^^ b

/-! Float operations (R141 to R144). -/

/-- The smaller, or with big the larger, of two values (R142). -/
def fltPick (big : Bool) (a b : Num) : Num :=
  if a.isNan then b else if b.isNan then a else
  if a.isZero && b.isZero then (if a.neg? == big then b else a) else
  if (cmpNum a b < 0) != big then a else b

/-- The exact result of a float operation; rdn gives an exact zero sum the sign -, R141. -/
def vvFlt (op : VVOp) (rdn : Bool) (a b c : Num) : Num × FFlags :=
  let fused (x y : Num) (z : Num) : Num × FFlags :=
    let m := mulNum x y
    let r := sumNums [m.1, z] rdn
    (r.1, m.2 ||| r.2)
  match op with
  | .fadd => sumNums [a, b] rdn
  | .fsub => sumNums [a, b.negate] rdn
  | .fmul => mulNum a b
  | .fdiv => divNum a b
  | .fmin => (fltPick false a b, 0)
  | .fmax => (fltPick true a b, 0)
  | .fma => fused a b c
  | .fms => fused a b c.negate
  | _ => fused a.negate b c

/-- Terms of the power series of 2^f for f = y / 2^256 / ln 2: y^k / k!, from term t on. -/
def expTerms (y : Nat) : Nat → Nat → Nat → Nat
  | 0, _, _ => 0
  | n + 1, k, t => t + expTerms y n (k + 1) (t * y / 2 ^ 256 / (k + 1))

/-- ln 2 in units of 2^-256. -/
def ln2 : Nat := 0xb17217f7d1cf79abc9e3b39803f2f6af40f343267298b62d8a0d175b8baafa2b

/-- 2^f for a fraction f = n / 2^d, 0 < f < 1, as m with m / 2^200 <= 2^f < (m + 1) / 2^200 (log 10). -/
def exp2Frac (n d : Nat) : Nat := expTerms (n * ln2 / 2 ^ d) 80 0 (2 ^ 256) / 2 ^ 56

/-- The exact power 2^x (R143). -/
def exp2Num : Num → Num × FFlags
  | .nan => (.nan, 0)
  | .zero _ => (.fin false 1 0 false, 0)
  | .inf false => (.inf false, 0)
  | .inf true => (.zero false, 0)
  | .fin s m e _ =>
    let d := (-e).toNat
    let signed (k : Int) : Int := if s then -k else k
    if 4096 ≤ m * 2 ^ (min e.toNat 13) / 2 ^ d then (.fin false 1 (signed 4096) true, 0)
    else
      let v : Int := signed (m * 2 ^ e.toNat)
      let f := (v % 2 ^ d).toNat
      if f = 0 then (.fin false 1 (v / 2 ^ d) false, 0) else (.fin false (exp2Frac f d) (v / 2 ^ d - 200) true, 0)

/-- The exact result of a VFUN operation (R143). -/
def vfFlt (op : VFOp) (a : Num) : Num × FFlags :=
  match op with
  | .fsqrt => sqrtNum a
  | .frcp => divNum (.fin false 1 0 false) a
  | .frsq => rsqrtNum a
  | _ => exp2Num a

/-- VFCLASS (R144). -/
def classOf (f : FFmt) (v : Nat) : Nat :=
  match f.dec v with
  | .nan => 2 ^ 8
  | .inf s => if s then 1 else 2 ^ 7
  | .zero s => if s then 2 ^ 3 else 2 ^ 4
  | .fin s _ _ _ =>
    let sub := v % 2 ^ (f.bits - 1) < 2 ^ f.fb
    if s then (if sub then 2 ^ 2 else 2 ^ 1) else if sub then 2 ^ 5 else 2 ^ 6

/-! Compares (R145). -/

/-- VCMP: signed conditions but for codes 4, 5, 8 and 9. -/
def cmpUns (cond : BitVec 4) : Bool := cond == 4 || cond == 5 || cond == 8 || cond == 9

/-- VCMP on integers as read. -/
def cmpInt (cond : BitVec 4) (a b : Int) : Bool :=
  match cond.toNat with
  | 0 => a == b | 1 => a != b
  | 2 | 4 => a < b | 3 | 5 => a ≤ b | 6 | 8 => b < a | _ => b ≤ a

/-- VFCMP: the result and its flag. -/
def cmpFlt (cond : BitVec 4) (a b : Num) : Bool × FFlags :=
  if a.isNan || b.isNan then
    match cond.toNat with
    | 1 | 6 => (true, 0)
    | 0 | 7 => (false, 0)
    | _ => (false, fNV)
  else
    let c := cmpNum a b
    match cond.toNat with
    | 0 => (c == 0, 0) | 1 => (c != 0, 0) | 2 => (c < 0, 0) | 3 => (c ≤ 0, 0) | 4 => (0 < c, 0) | 5 => (0 ≤ c, 0)
    | 6 => (false, 0) | _ => (true, 0)

/-- Replace bit e of a mask value. -/
def setBit (m : KReg) (e : Nat) (b : Bool) : KReg :=
  if b then m ||| 1#512 <<< e else m &&& ~~~ (1#512 <<< e)

/-- Write bits of a mask register. -/
def Hart.putBits (x : Hart) (k : BitVec 3) (bs : List (Nat × Bool)) : Hart :=
  x.setK k.toNat (bs.foldl (fun m p => setBit m p.1 p.2) (x.k k.toNat))

/-! The instructions on a unit. -/

/-- Elements that each get a value and flags, or stay as they are: to vd and la. -/
def runElems (x : Hart) (cx : VCx) (d : Nat) (f : Nat → Option (Nat × FFlags)) : Hart :=
  let es := cx.elems.map fun e => (e, f e)
  (latchElems x cx.q d 72 cx.w (es.map fun p => (p.1, p.2.map (·.1)))).flag
    (es.foldl (fun fl p => fl ||| (p.2.map (·.2)).getD 0) 0)

/-- Source bits after the modifiers of R138. -/
def bitSrc (x : Hart) (cx : VCx) (p : Pfx) (j : Nat) (vs : BitVec 7) (e : Nat) : Nat :=
  modK p cx j (readOp x cx vs cx.w e)

/-- A float source after its modifiers. -/
def fltSrc (x : Hart) (cx : VCx) (p : Pfx) (j : Nat) (vs : BitVec 7) (e : Nat) : Num :=
  cx.fmt.dec (modF p j cx.w (readOp x cx vs cx.w e))

/-- VV instructions (R140, R141, R152, R154). -/
def runVV (x : Hart) (cx : VCx) (p : Pfx) (op : VVOp) (vs2 vs1 vd : BitVec 7) : Hart :=
  let w := cx.w
  let act (e : Nat) : Bool := x.maskBit p.k e
  match op with
  | .and | .or | .xor => runElems x cx vd.toNat fun e =>
      if act e then some (finishBits p cx (bitOp op (bitSrc x cx p 1 vs1 e) (bitSrc x cx p 2 vs2 e))) else none
  | .perm => runElems x cx vd.toNat fun e =>
      if act e then some (finishBits p cx (modK p cx 1 (inReg x cx vs1 (readOp x cx vs2 w e)))) else none
  | .merge => runElems x cx vd.toNat fun e =>
      some (finishBits p cx (if act e then bitSrc x cx p 1 vs1 e else bitSrc x cx p 2 vs2 e))
  | .fadd | .fsub | .fmul | .fdiv | .fmin | .fmax | .fma | .fms | .fnma => runElems x cx vd.toNat fun e =>
      if act e then some (cx.fmt.finish cx.rm p.scale p.clamp
        (vvFlt op (cx.rm == .rdn) (fltSrc x cx p 1 vs1 e) (fltSrc x cx p 2 vs2 e) (fltSrc x cx p 3 vd e))) else none
  | _ => runElems x cx vd.toNat fun e =>
      if act e then some (vvIntElem p op w (readOp x cx vs1 w e) (readOp x cx vs2 w e) (readOp x cx vd w e), 0) else none

/-- VCMP and VFCMP (R145). -/
def runCmp (x : Hart) (cx : VCx) (p : Pfx) (fl : Bool) (vs2 vs1 : BitVec 7) (cond : BitVec 4) (kd : BitVec 3) : Hart :=
  let r (e : Nat) : Bool × FFlags :=
    if !x.maskBit p.k e then (false, 0)
    else if fl then cmpFlt cond (fltSrc x cx p 1 vs1 e) (fltSrc x cx p 2 vs2 e)
    else
      let u := cmpUns cond
      let i (j : Nat) (vs : BitVec 7) : Int := intOf cx.w u (modI p j cx.w u (readOp x cx vs cx.w e))
      (cmpInt cond (i 1 vs1) (i 2 vs2), 0)
  let es := cx.elems.map fun e => (e, r e)
  (x.putBits kd (es.map fun q => (q.1, q.2.1))).flag (es.foldl (fun f q => f ||| q.2.2) 0)

/-- Neighbouring leaves of the tree of R107 joined: pairs of optional codes, rounded at each node. An exact zero sum of operands of
unlike sign is +0 (DESIGN CHOICE, log 57). -/
def treePairs (f : FFmt) : List (Option Nat) → List (Option Nat) × FFlags
  | [] => ([], 0)
  | [a] => ([a], 0)
  | a :: b :: r =>
    let t := treePairs f r
    match a, b with
    | none, b => (b :: t.1, t.2)
    | a, none => (a :: t.1, t.2)
    | some a, some b =>
      let s := sumNums [f.dec a, f.dec b] false
      let y := f.rne s.1
      (some y.1 :: t.1, t.2 ||| s.2 ||| y.2)

/-- Levels of the tree of R107. -/
def treeSum (f : FFmt) : Nat → List (Option Nat) → Option Nat × FFlags
  | 0, l => (l.headD none, 0)
  | n + 1, l =>
    let p := treePairs f l
    let r := treeSum f n p.1
    (r.1, p.2 ||| r.2)

/-- A code with any NaN made canonical (R94). -/
def FFmt.canon (f : FFmt) (v : Nat) : Nat := if (f.dec v).isNan then f.cnan else v

/-- Running sums of R108; an exact zero sum of operands of unlike sign is +0 (DESIGN CHOICE, log 57). -/
def fscanFrom (f : FFmt) : Option Nat → List (Nat × Option Nat) → List (Nat × Option (Nat × FFlags))
  | _, [] => []
  | acc, (e, none) :: r => (e, none) :: fscanFrom f acc r
  | none, (e, some v) :: r => (e, some (f.canon v, 0)) :: fscanFrom f (some v) r
  | some a, (e, some v) :: r =>
    let s := sumNums [f.dec a, f.dec v] false
    let y := f.rne s.1
    (e, some (y.1, s.2 ||| y.2)) :: fscanFrom f (some y.1) r

/-- Running exact sums (R156). -/
def scanFrom (acc : Int) : List (Nat × Option Int) → List (Nat × Option Int)
  | [] => []
  | (e, none) :: r => (e, none) :: scanFrom acc r
  | (e, some v) :: r => (e, some (acc + v)) :: scanFrom (acc + v) r

/-- A list of optional values written as a scan writes them. -/
def writeScan (x : Hart) (cx : VCx) (d : Nat) (es : List (Nat × Option (Nat × FFlags))) : Hart :=
  (latchElems x cx.q d 72 cx.w (es.map fun p => (p.1, p.2.map (·.1)))).flag
    (es.foldl (fun fl p => fl ||| (p.2.map (·.2)).getD 0) 0)

/-- A reduction's result to element 0; elements above are unchanged, and la holds zero there (R156). -/
def writeRed (x : Hart) (cx : VCx) (d : Nat) (r : Nat × FFlags) : Hart :=
  if cx.vl = 0 then x
  else writeScan x cx d (cx.elems.map fun e => (e, if e = 0 then some r else none))

/-- The reductions and scans (R107, R108, R156). -/
def runRed (x : Hart) (cx : VCx) (p : Pfx) (op : VFOp) (vs vd : BitVec 7) : Hart :=
  let w := cx.w
  let f := cx.fmt
  let d := vd.toNat
  let raw := cx.elems.map fun e => (e, if x.maskBit p.k e then some (readOp x cx vs w e) else none)
  let ints (u : Bool) : List (Nat × Option Int) := raw.map fun q => (q.1, q.2.map fun v => intOf w u (modI p 1 w u v))
  let vals (u : Bool) : List Int := (ints u).filterMap (·.2)
  let flts : List (Nat × Option Nat) := raw.map fun q => (q.1, q.2.map (modF p 1 w))
  let fold (u : Bool) (z : Int) (pick : Int → Int → Int) : Nat × FFlags := (narrowInt p w u ((vals u).foldl pick z), 0)
  let ffold (big : Bool) : Nat × FFlags :=
    f.finish cx.rm p.scale p.clamp
      (match flts.filterMap (·.2) with
       | [] => (Num.inf big, 0)
       | v :: r => (r.foldl (fun a b => fltPick big a (f.dec b)) (f.dec v), 0))
  match op with
  | .redsum => writeRed x cx d (narrowInt p w false (vals false).sum, 0)
  | .redmin => writeRed x cx d (fold false (2 ^ (w - 1) - 1) min)
  | .redmax => writeRed x cx d (fold false (-(2 ^ (w - 1))) max)
  | .redminu => writeRed x cx d (fold true (2 ^ w - 1) min)
  | .redmaxu => writeRed x cx d (fold true 0 max)
  | .fredsum =>
    let t := treeSum f 9 (flts.map (·.2))
    writeRed x cx d (f.canon (t.1.getD 0), t.2)
  | .fredmin => writeRed x cx d (ffold false)
  | .fredmax => writeRed x cx d (ffold true)
  | .scan => writeScan x cx d ((scanFrom 0 (ints false)).map fun q => (q.1, q.2.map fun v => (narrowInt p w false v, 0)))
  | _ => writeScan x cx d (fscanFrom f none flts)

/-- VCOMPRESS (R153). -/
def runCompress (x : Hart) (cx : VCx) (p : Pfx) (vs vd : BitVec 7) : Hart :=
  let sel := cx.elems.filter fun e => x.maskBit p.k e
  let vals := sel.map fun e => finishBits p cx (bitSrc x cx p 1 vs e)
  writeScan x cx vd.toNat (cx.elems.map fun e => (e, vals[e]?))

/-- VEXPAND (R153). -/
def runExpand (x : Hart) (cx : VCx) (p : Pfx) (vs vd : BitVec 7) : Hart :=
  let sel := cx.elems.filter fun e => x.maskBit p.k e
  let vals := sel.zipIdx.map fun q => (q.1, finishBits p cx (bitSrc x cx p 1 vs q.2))
  writeScan x cx vd.toNat (cx.elems.map fun e => (e, vals.lookup e))

/-- VF instructions without a g field (R143, R144, R148, R153, R156). -/
def runVF (x : Hart) (cx : VCx) (p : Pfx) (op : VFOp) (vs vd : BitVec 7) : Hart :=
  let act (e : Nat) : Bool := x.maskBit p.k e
  match op with
  | .fsqrt | .frcp | .frsq | .fexp2 => runElems x cx vd.toNat fun e =>
      if act e then some (cx.fmt.finish cx.rm p.scale p.clamp (vfFlt op (fltSrc x cx p 1 vs e))) else none
  | .fclass => runElems x cx vd.toNat fun e =>
      if act e then some (classOf cx.fmt (modF p 1 cx.w (readOp x cx vs cx.w e)), 0) else none
  | .mv => runElems x cx vd.toNat fun e => if act e then some (finishBits p cx (bitSrc x cx p 1 vs e)) else none
  | .id => runElems x cx vd.toNat fun e => if act e then some (narrowInt p cx.w false e, 0) else none
  | .compress => runCompress x cx p vs vd
  | .expand => runExpand x cx p vs vd
  | _ => runRed x cx p op vs vd

/-- VF instructions with a g field (R148 to R151); for VEXT vd names rd. -/
def runVG (x : Hart) (cx : VCx) (p : Pfx) (op : VGOp) (gs : BitVec 5) (vs vd : BitVec 7) : Hart :=
  let i := (cx.g gs).toNat
  let act (e : Nat) : Bool := x.maskBit p.k e
  match op with
  | .bcast => runElems x cx vd.toNat fun e => if act e then some (finishBits p cx (modK p cx 1 cx.bval)) else none
  | .ext =>
    let v := inReg x cx vs i
    x.setG (vd.setWidth 5) (if cx.flt then BitVec.ofNat 64 v else sextNat cx.w v)
  | .ins =>
    let v := finishBits p cx (bitSrc x cx p 1 vs 0)
    writeScan x cx vd.toNat (cx.elems.map fun e => (e, if e = i && act e then some v else none))
  | .slup => runElems x cx vd.toNat fun e =>
      if act e && i ≤ e then some (finishBits p cx (bitSrc x cx p 1 vs (e - i))) else none
  | .sldn => runElems x cx vd.toNat fun e =>
      if act e then some (finishBits p cx (modK p cx 1 (inReg x cx vs (e + i)))) else none

/-- KOP by function code (R146). -/
def runKop (x : Hart) (cx : VCx) (op : Nat) (kd ks1 ks2 : BitVec 3) : Hart :=
  let f (e : Nat) : Bool :=
    let a := x.maskBit ks1 e
    let b := x.maskBit ks2 e
    match op with
    | 0 => a && b | 1 => a || b | 2 => a != b | 3 => a && !b | 4 => !a | _ => a
  x.putBits kd (cx.elems.map fun e => (e, f e))

/-- KPOP and KFIRST (R147). -/
def runKsc (x : Hart) (cx : VCx) (first : Bool) (rd : BitVec 5) (ks : BitVec 3) : Hart :=
  let on := (List.range cx.vl).filter fun e => x.maskBit ks e
  x.setG rd (if first then (match on.head? with | some e => BitVec.ofNat 64 e | none => BitVec.allOnes 64)
    else BitVec.ofNat 64 on.length)

end Sys2Proof.Machine
end

