-- ==== Sys2Proof/Machine/Convert.lean ====
section
/-! DEFINITION. Pipe X on one commit unit: conversion, quantisation, packing and the Hadamard stage (R97, R98, R157 to R168). -/

namespace Sys2Proof.Machine

open Sys2Proof

/-- The float format of a code (R56). -/
def fltOfCode (c : BitVec 4) : Option FFmt :=
  match c.toNat with
  | 0 => some .f32 | 1 => some .f16 | 2 => some .b16 | 3 => some .f8a | 4 => some .f8b | _ => none

/-- Element width of a format code (R56, R91). -/
def codeWidth (c : BitVec 4) : Nat :=
  match c.toNat with
  | 0 | 10 => 32 | 1 | 2 | 5 => 16 | 9 => 4 | 11 => 64 | _ => 8

/-- N8 is unsigned (R96, R160). -/
def codeUns (c : BitVec 4) : Bool := c == 7

/-- Write the elements to vd and lx with their flags. -/
def runX (x : Hart) (cx : VCx) (d w : Nat) (f : Nat → Option (Nat × FFlags)) : Hart :=
  let es := cx.elems.map fun e => (e, f e)
  (latchElems x cx.q d 74 w (es.map fun p => (p.1, p.2.map (·.1)))).flag
    (es.foldl (fun fl p => fl ||| (p.2.map (·.2)).getD 0) 0)

/-- A value narrowed to a float format, saturating or not (R105, R160). -/
def cvtFlt (f : FFmt) (rm : RMode) (p : Pfx) (sat : Bool) (x : Num) : Nat × FFlags :=
  f.round rm (sat || p.clamp == 3) ((x.scale p.scale.toInt).clamp p.clamp)

/-- A float value narrowed to an integer format of width w (R160, R161). A value out of range that is not an integer raises NX beside
the NV of R161's table, since R160 has every inexact n raise it (DEDUCED, log 66). -/
def cvtInt (w : Nat) (uns sat : Bool) (rm : RMode) (x : Num) : Nat × FFlags :=
  let lo : Int := if uns then 0 else -(2 ^ (w - 1))
  let hi : Int := if uns then 2 ^ w - 1 else 2 ^ (w - 1) - 1
  match x with
  | .nan => (0, fNV)
  | .inf s => if sat then (satInt w uns (if s then lo else hi), fNX) else (0, fNV)
  | .zero _ => (0, 0)
  | .fin s m e st =>
    let r := roundAt rm s m e st 0
    let n : Int := if s then -(r.1 : Int) else r.1
    let nx : FFlags := if r.2 then fNX else 0
    if lo ≤ n && n ≤ hi then (wrapInt w n, nx)
    else if sat then (satInt w uns n, fNX)
    else (wrapInt w n, fNV ||| nx)

/-- One element of VCVT (R160). -/
def cvtElem (cx : VCx) (p : Pfx) (sat : Bool) (sf df : BitVec 4) (v : Nat) : Nat × FFlags :=
  let sat' := sat || p.clamp == 3
  match fltOfCode sf, fltOfCode df with
  | some f, some g => cvtFlt g cx.rm p sat (f.dec (modF p 1 f.bits v))
  | some f, none => cvtInt (codeWidth df) (codeUns df) sat' cx.rm (f.dec (modF p 1 f.bits v))
  | none, some g => cvtFlt g cx.rm p sat (Num.ofInt (intOf (codeWidth sf) (codeUns sf) (modI p 1 (codeWidth sf) (codeUns sf) v)))
  | none, none =>
    let x := intOf (codeWidth sf) (codeUns sf) (modI p 1 (codeWidth sf) (codeUns sf) v)
    (if sat' then satInt (codeWidth df) (codeUns df) x else wrapInt (codeWidth df) x, 0)

/-! Quantisation. -/

/-- The nearest integer to a / b, ties to even (R163). -/
def rheDiv (a : Int) (b : Nat) : Int :=
  let q := a / b
  let r := a % b
  if (b : Int) < 2 * r || (2 * r = b && q % 2 = 1) then q + 1 else q

/-- The nearest integer to x / s for x = a 2^e and s = b 2^f, b not 0. -/
def rheRatio (a e b f : Int) : Int :=
  let a := if b < 0 then -a else a
  if f ≤ e then rheDiv (a * 2 ^ (e - f).toNat) b.natAbs else rheDiv a (b.natAbs * 2 ^ (f - e).toNat)

/-- A finite number as integer and exponent. -/
def Num.parts : Num → Int × Int
  | .fin s m e _ => (if s then -(m : Int) else m, e)
  | _ => (0, 0)

/-- Finite, zero included. -/
def Num.isFin : Num → Bool
  | .fin _ _ _ _ => true | .zero _ => true | _ => false

/-- One code of a group with scale s and zero point z (R163, R164). -/
def quantElem (qmax : Nat) (s : Num) (z : Nat) (x : Num) : Nat × FFlags :=
  match x with
  | .nan => (z, fNV)
  | .inf neg => if neg then (0, fNV) else (qmax, fNV)
  | _ =>
    let a := x.parts
    let b := s.parts
    let r := rheRatio a.1 a.2 b.1 b.2 + z
    let c : Int := if r < 0 then 0 else if (qmax : Int) < r then qmax else r
    let e := min a.2 b.2
    (c.toNat, if a.1 * 2 ^ (a.2 - e).toNat = b.1 * (c - z) * 2 ^ (b.2 - e).toNat then 0 else fNX)

/-- The scale code and zero point that VQUANT chooses for a group's finite values (R163). -/
def quantScale (qmax : Nat) (xs : List Num) : Nat × Nat :=
  let e := xs.foldl (fun e x => min e x.exp) 100000
  let vs := xs.map fun x => x.toInt e
  let lo := vs.foldl min 0
  let hi := vs.foldl max 0
  if hi = lo then (0x3C00, 0)
  else
    let c := (FFmt.f16.rne (divNum (.fin false (hi - lo).toNat e false) (.fin false qmax 0 false)).1).1
    let c := if c = 0x7C00 then 0x7BFF else if c = 0 then 1 else c
    let s := (FFmt.f16.dec c).parts
    (c, (min (qmax : Int) (rheRatio (-lo) e s.1 s.2)).toNat)

/-- Zero point of a record (R98). -/
def recZp (q4 : Bool) (r : Nat) : Nat := if q4 then field r 16 4 else field r 16 8

/-- Group size of an mtype value (R82, R97). -/
def groupSize (mt : BitVec 22) : Nat := 32 * 2 ^ (mt.extractLsb' 12 2).toNat

/-- VQUANT and VQSC (R163, R164): with choose the records are formed and written, else they are read. -/
def runQuant (x : Hart) (cx : VCx) (p : Pfx) (mt : BitVec 22) (choose : Bool) (sf qf : BitVec 4) (vs vd : BitVec 7) : Hart :=
  let q4 := qf == 9
  let qmax := if q4 then 15 else 255
  let gs := groupSize mt
  let om := 64 + p.om.toNat
  let f := (fltOfCode sf).getD .f32
  let act (e : Nat) : Bool := x.maskBit p.k e
  let val (e : Nat) : Num := f.dec (modF p 1 f.bits (readOp x cx vs f.bits e))
  let groups := List.range ((cx.vl + gs - 1) / gs)
  let recs : List (Nat × Nat) := groups.map fun g =>
    if choose then
      quantScale qmax (((cx.elems.filter fun e => e / gs == g && act e).map val).filter Num.isFin)
    else let r := elemOf (x.v om) 32 g; (r % 2 ^ 16, recZp q4 r)
  let y := if choose then
      recs.zipIdx.foldl (fun (y : Hart) r => y.put cx.q om 32 r.2 (r.1.2 * 2 ^ 16 + r.1.1)) x
    else x
  let codes := cx.elems.map fun e =>
    if !act e then (e, none) else
    let r := recs.getD (e / gs) (0, 0)
    let s := FFmt.f16.dec r.1
    (e, some (if s.isNan || s.isInf || s.isZero then (r.2, fNV) else quantElem qmax s r.2 (val e)))
  (latchElems y cx.q vd.toNat 74 (codeWidth qf) (codes.map fun c => (c.1, c.2.map (·.1)))).flag
    (codes.foldl (fun fl c => fl ||| (c.2.map (·.2)).getD 0) 0)

/-- VDEQ (R166). A vd that is its own metadata register is written as the units commit, and later units read the records as they then
stand (DEDUCED, log 9). -/
def runDeq (x : Hart) (cx : VCx) (p : Pfx) (mt : BitVec 22) (qf df : BitVec 4) (vs vd : BitVec 7) : Hart :=
  let q4 := qf == 9
  let f := (fltOfCode df).getD .f32
  runX x cx vd.toNat f.bits fun e =>
    if !x.maskBit p.k e then none else
    let r := elemOf (x.v (64 + p.om.toNat)) 32 (e / groupSize mt)
    let d : Int := (readOp x cx vs (codeWidth qf) e : Int) - recZp q4 r
    some (f.finish cx.rm p.scale p.clamp (mulNum (FFmt.f16.dec (r % 2 ^ 16)) (Num.ofInt d)))

/-- Carrier width of a packed format (R167). -/
def carrierWidth (f : BitVec 4) : Nat := if f = 9 then 8 else 32

/-- VPACK (R167). -/
def runPack (x : Hart) (cx : VCx) (f : BitVec 4) (vs vd : BitVec 7) : Hart :=
  runX x cx vd.toNat (codeWidth f) fun e => some (readOp x cx vs (carrierWidth f) e % 2 ^ codeWidth f, 0)

/-- VUNPACK (R167). -/
def runUnpack (x : Hart) (cx : VCx) (f : BitVec 4) (vs vd : BitVec 7) : Hart :=
  let w := carrierWidth f
  runX x cx vd.toNat w fun e =>
    let v := readOp x cx vs (codeWidth f) e
    some (if f = 5 || f = 6 then wrapInt w (sintOf (codeWidth f) v) else v, 0)

/-- VHAD (R168). An exact zero sum of a float stage has the sign that R141 gives pipe A: -0 in RDN, else +0 (DESIGN CHOICE,
log 49). -/
def runHad (x : Hart) (cx : VCx) (p : Pfx) (j : Nat) (vs vd : BitVec 7) : Hart :=
  let d := 2 ^ j
  let raw (i : Nat) : Nat := readOp x cx vs cx.w i
  let low (e : Nat) : Bool := !e.testBit j
  runX x cx vd.toNat cx.w fun e =>
    if !x.maskBit p.k e then none
    else if cx.flt then
      let inp (i : Nat) : Num := if i < cx.vl then cx.fmt.dec (modF p 1 cx.w (raw i)) else .zero false
      let rdn := cx.rm == .rdn
      some (cx.fmt.finish cx.rm p.scale p.clamp
        (if low e then sumNums [inp e, inp (e + d)] rdn else sumNums [inp (e - d), (inp e).negate] rdn))
    else
      let inp (i : Nat) : Int := if i < cx.vl then sintOf cx.w (modI p 1 cx.w false (raw i)) else 0
      some (narrowInt p cx.w false (if low e then inp e + inp (e + d) else inp (e - d) - inp e), 0)

/-- Pipe-X instructions. -/
def runVX (x : Hart) (cx : VCx) (p : Pfx) (mt : BitVec 22) (op : VXOp) (sat : BitVec 1) (f2 f1 : BitVec 4) (vs vd : BitVec 7) :
    Hart :=
  match op with
  | .cvt => runX x cx vd.toNat (codeWidth f1) fun e =>
      if x.maskBit p.k e then some (cvtElem cx p (sat == 1) f2 f1 (readOp x cx vs (codeWidth f2) e)) else none
  | .quant => runQuant x cx p mt true f2 f1 vs vd
  | .qsc => runQuant x cx p mt false f2 f1 vs vd
  | .deq => runDeq x cx p mt f2 f1 vs vd
  | .had => runHad x cx p f1.toNat vs vd
  | .pack => runPack x cx f2 vs vd
  | .unpack => runUnpack x cx f2 vs vd

end Sys2Proof.Machine
end

