-- ==== Sys2Proof/Machine/ConvoyOps.lean ====
section
/-! DEFINITION. Convoy instructions in one form, their operands and pipes, and the checks made before a convoy starts (R21, R24
to R31, R45, R47, R68, R137, R253 to R257). -/

namespace Sys2Proof.Machine

open Sys2Proof

/-- How the elements of a vector access are addressed (R249). -/
inductive Addr
  /-- base + aux + e * width. -/
  | flat
  /-- base + e * aux. -/
  | strided
  /-- base + an element of register n. -/
  | indexed (n : Nat)
  deriving DecidableEq, Repr

/-- A convoy instruction. Registers of 5-bit fields are numbers, so that a bound one can be read from the latch ll. -/
inductive COp
  | vec (p : Pfx) (b : VBase)
  | kop (f : Nat) (kd ks1 ks2 : BitVec 3)
  | ksc (first : Bool) (rd : BitVec 5) (ks : BitVec 3)
  | amo (p : Pfx) (op cls : BitVec 4) (va : Nat) (vd : Option Nat) (vv : Nat)
  | load (a : Addr) (k : BitVec 3) (nb : Bool) (cls : Nat) (aux base : BitVec 5) (spec : BitVec 7)
  | first (k : BitVec 3) (cls : Nat) (aux base : BitVec 5) (spec : BitVec 7)
  | store (a : Addr) (k : BitVec 3) (nb : Bool) (cls : Nat) (aux base : BitVec 5) (spec : BitVec 7)
  | tagLoad (k : BitVec 3) (nb : Bool) (cls : Nat) (aux base : BitVec 5) (spec : BitVec 7)
  | tagStore (k : BitVec 3) (cls : Nat) (aux base : BitVec 5) (spec : BitVec 7)
  | bind (cls : Nat) (base : BitVec 5) (spec : BitVec 7)
  | unbind (cls : Nat) (spec : BitVec 7)
  | xcopy (nb : Bool) (cls : Nat) (src dst n : BitVec 5)
  | acquire (k : BitVec 3) (cls : Nat) (va : Nat) (kd : BitVec 3)
  | release (k : BitVec 3) (cls : Nat) (va : Nat)
  /-- The strip of bound register n (R256). -/
  | strip (n : Nat)
  | tile (i : Instr)
  deriving DecidableEq, Repr

/-- A prefix with a mask alone. -/
def maskPfx {n : Nat} (k : BitVec n) : Pfx := ⟨0, k.setWidth 3, 0, 0, 0⟩

/-- A VV instruction in its 32-bit form (R65). -/
def vvOp (op : VVOp) (k : BitVec 2) (vs2 vs1 vd : BitVec 7) : Option COp := some (.vec (maskPfx k) (.vv op vs2 vs1 vd))
/-- A VF instruction in its 32-bit form. -/
def vfOp (op : VFOp) (k : BitVec 2) (vs vd : BitVec 7) : Option COp := some (.vec (maskPfx k) (.vf op vs vd))
/-- A VF instruction with a g field, unmasked. -/
def vgOp (op : VGOp) (gs : BitVec 5) (vs vd : BitVec 7) : Option COp := some (.vec (maskPfx 0#3) (.vg op gs vs vd))
/-- A VF-X instruction, unmasked. -/
def vxOp (op : VXOp) (sat : BitVec 1) (f2 f1 : BitVec 4) (vs vd : BitVec 7) : Option COp :=
  some (.vec (maskPfx 0#3) (.vx op sat f2 f1 vs vd))
/-- VAMO's vd field: 31 is the non-blocking form (R63). -/
def amoDst (vd : BitVec 5) : Option Nat := if vd = 31 then none else some vd.toNat

/-- The convoy form of an instruction; none for a scalar instruction and for a step of another agent (R24). -/
def convoyOp : Instr → Option COp
  | .vadd _ k a b d => vvOp .add k a b d
  | .vsub _ k a b d => vvOp .sub k a b d
  | .vmul _ k a b d => vvOp .mul k a b d
  | .vmulh _ k a b d => vvOp .mulh k a b d
  | .vmulhu _ k a b d => vvOp .mulhu k a b d
  | .vmac _ k a b d => vvOp .mac k a b d
  | .vmin _ k a b d => vvOp .min k a b d
  | .vmax _ k a b d => vvOp .max k a b d
  | .vminu _ k a b d => vvOp .minu k a b d
  | .vmaxu _ k a b d => vvOp .maxu k a b d
  | .vand _ k a b d => vvOp .and k a b d
  | .vor _ k a b d => vvOp .or k a b d
  | .vxor _ k a b d => vvOp .xor k a b d
  | .vsll _ k a b d => vvOp .sll k a b d
  | .vsrl _ k a b d => vvOp .srl k a b d
  | .vsra _ k a b d => vvOp .sra k a b d
  | .vsadd _ k a b d => vvOp .sadd k a b d
  | .vsaddu _ k a b d => vvOp .saddu k a b d
  | .vssub _ k a b d => vvOp .ssub k a b d
  | .vssubu _ k a b d => vvOp .ssubu k a b d
  | .vfadd _ k a b d => vvOp .fadd k a b d
  | .vfsub _ k a b d => vvOp .fsub k a b d
  | .vfmul _ k a b d => vvOp .fmul k a b d
  | .vfdiv _ k a b d => vvOp .fdiv k a b d
  | .vfmin _ k a b d => vvOp .fmin k a b d
  | .vfmax _ k a b d => vvOp .fmax k a b d
  | .vfma _ k a b d => vvOp .fma k a b d
  | .vfms _ k a b d => vvOp .fms k a b d
  | .vfnma _ k a b d => vvOp .fnma k a b d
  | .vperm _ k a b d => vvOp .perm k a b d
  | .vmerge _ k a b d => vvOp .merge k a b d
  | .vcmp _ k a b cond kd => some (.vec (maskPfx k) (.cmp false a b cond kd))
  | .vfcmp _ k a b cond kd => some (.vec (maskPfx k) (.cmp true a b cond kd))
  | .vfsqrt _ k a d => vfOp .fsqrt k a d
  | .vfrcp _ k a d => vfOp .frcp k a d
  | .vfrsq _ k a d => vfOp .frsq k a d
  | .vfexp2 _ k a d => vfOp .fexp2 k a d
  | .vfclass _ k a d => vfOp .fclass k a d
  | .vmv _ k a d => vfOp .mv k a d
  | .vid _ k d => vfOp .id k 0 d
  | .vcompress _ k a d => vfOp .compress k a d
  | .vexpand _ k a d => vfOp .expand k a d
  | .vredsum _ k a d => vfOp .redsum k a d
  | .vredmin _ k a d => vfOp .redmin k a d
  | .vredmax _ k a d => vfOp .redmax k a d
  | .vredminu _ k a d => vfOp .redminu k a d
  | .vredmaxu _ k a d => vfOp .redmaxu k a d
  | .vfredsum _ k a d => vfOp .fredsum k a d
  | .vfredmin _ k a d => vfOp .fredmin k a d
  | .vfredmax _ k a d => vfOp .fredmax k a d
  | .vscan _ k a d => vfOp .scan k a d
  | .vfscan _ k a d => vfOp .fscan k a d
  | .vbcast _ gs a d => vgOp .bcast gs a d
  | .vext _ gs a rd => vgOp .ext gs a (rd.setWidth 7)
  | .vins _ gs a d => vgOp .ins gs a d
  | .vslup _ gs a d => vgOp .slup gs a d
  | .vsldn _ gs a d => vgOp .sldn gs a d
  | .vcvt _ sat f2 f1 a d => vxOp .cvt sat f2 f1 a d
  | .vquant _ f2 f1 a d => vxOp .quant 0 f2 f1 a d
  | .vqsc _ f2 f1 a d => vxOp .qsc 0 f2 f1 a d
  | .vdeq _ f2 f1 a d => vxOp .deq 0 f2 f1 a d
  | .vhad _ j a d => vxOp .had 0 0 j a d
  | .vpack _ f a d => vxOp .pack 0 f 0 a d
  | .vunpack _ f a d => vxOp .unpack 0 f 1 a d
  | .kand _ kd a b => some (.kop 0 kd a b)
  | .kor _ kd a b => some (.kop 1 kd a b)
  | .kxor _ kd a b => some (.kop 2 kd a b)
  | .kandn _ kd a b => some (.kop 3 kd a b)
  | .knot _ kd a => some (.kop 4 kd a 0)
  | .kmov _ kd a => some (.kop 5 kd a 0)
  | .kpop _ rd ks => some (.ksc false rd ks)
  | .kfirst _ rd ks => some (.ksc true rd ks)
  | .vld _ m nb cls aux base p => some (.load .flat (m.setWidth 3) (nb == 1) cls.toNat aux base p)
  | .vlds _ m nb cls aux base p => some (.load .strided (m.setWidth 3) (nb == 1) cls.toNat aux base p)
  | .vldx _ m nb cls aux base p => some (.load (.indexed aux.toNat) (m.setWidth 3) (nb == 1) cls.toNat aux base p)
  | .vldff _ m cls aux base p => some (.first (m.setWidth 3) cls.toNat aux base p)
  | .vst _ m nb cls aux base p => some (.store .flat (m.setWidth 3) (nb == 1) cls.toNat aux base p)
  | .vsts _ m nb cls aux base p => some (.store .strided (m.setWidth 3) (nb == 1) cls.toNat aux base p)
  | .vstx _ m nb cls aux base p => some (.store (.indexed aux.toNat) (m.setWidth 3) (nb == 1) cls.toNat aux base p)
  | .vldf _ m nb cls aux base p => some (.tagLoad (m.setWidth 3) (nb == 1) cls.toNat aux base p)
  | .vste _ m cls aux base p => some (.tagStore (m.setWidth 3) cls.toNat aux base p)
  | .vbind _ cls base p => some (.bind cls.toNat base p)
  | .vunbind _ cls p => some (.unbind cls.toNat p)
  | .xcopy _ nb cls aux base gn => some (.xcopy (nb == 1) cls.toNat aux base gn)
  | .vamo _ op cls va vd vv => some (.amo (maskPfx 0#3) op cls va.toNat (amoDst vd) vv.toNat)
  | .vamoNb _ op cls va vv => some (.amo (maskPfx 0#3) op cls va.toNat none vv.toNat)
  | .vacq _ k cls va kd => some (.acquire k cls.toNat va.toNat kd)
  | .vrel _ k cls va => some (.release k cls.toNat va.toNat)
  | .prefixed64BitForm _ p (.amo op cls va vd vv) => some (.amo p op cls va.toNat (amoDst vd) vv.toNat)
  | .prefixed64BitForm _ p b => some (.vec p b)
  | .cVadd a b d => vvOp .add 0 (8#4 ++ a) (8#4 ++ b) (8#4 ++ d)
  | .cVmv vs d => vfOp .mv 0 (vs.setWidth 7) (8#4 ++ d)
  | i@(.tzero ..) | i@(.tld ..) | i@(.tst ..) | i@(.trd ..) | i@(.twr ..) | i@(.tdrain ..) | i@(.tdrainBp ..) | i@(.bld ..)
  | i@(.bldW ..) | i@(.binv ..) | i@(.mcfg ..) | i@(.mopa ..) | i@(.mipa ..) | i@(.mrwa ..) | i@(.mrws ..) => some (.tile i)
  | _ => none

/-- The convoy-start bit C; a 16-bit instruction has none (R26, R42, R64). -/
def convoyC (i : Instr) : Bool :=
  match encode i with
  | some (4, w) => w.getLsbD 1
  | some (8, w) => w.getLsbD 2
  | _ => false

/-! Operands. -/

/-- A specifier that names a main or operand register (R45). -/
def isReg (p : BitVec 7) : Bool := p.toNat < 72
/-- A specifier that names a latch. -/
def isLatch (p : BitVec 7) : Bool := 72 ≤ p.toNat && p.toNat < 76
/-- A specifier that may be a destination: a register or discard. -/
def dstOk (p : BitVec 7) : Bool := isReg p || p == 76
/-- A specifier that may be a source: anything but discard. -/
def srcOk (p : BitVec 7) : Bool := p != 76

/-- Elements of width w that a VF-X instruction reads (R157). -/
def vxSrcW (op : VXOp) (ew : Nat) (f2 : BitVec 4) : Nat :=
  match op with
  | .had => ew
  | .pack => carrierWidth f2
  | _ => codeWidth f2

/-- Width of the elements that a VF-X instruction writes (R157). -/
def vxDstW (op : VXOp) (ew : Nat) (f2 f1 : BitVec 4) : Nat :=
  match op with
  | .had => ew
  | .pack => codeWidth f2
  | .unpack => carrierWidth f2
  | _ => codeWidth f1

/-- An operation whose destination is a third source (R47). -/
def readsDst : VVOp → Bool
  | .mac | .fma | .fms | .fnma => true
  | _ => false

/-- Source specifiers of a convoy instruction with their widths; a broadcast counts too. -/
def srcSpecs (ew : Nat) : COp → List (BitVec 7 × Nat)
  | .vec _ (.vv op vs2 vs1 vd) => [(vs1, ew), (vs2, ew)] ++ if readsDst op then [(vd, ew)] else []
  | .vec _ (.cmp _ vs2 vs1 _ _) => [(vs1, ew), (vs2, ew)]
  | .vec _ (.vf .id _ _) => []
  | .vec _ (.vf _ vs _) => [(vs, ew)]
  | .vec _ (.vg _ _ vs _) => [(vs, ew)]
  | .vec _ (.vx op _ f2 _ vs _) => [(vs, vxSrcW op ew f2)]
  | .store _ _ _ _ _ _ p => [(p, ew)]
  | .tagStore _ _ _ _ p => [(p, 32)]
  | .tile (.twr _ _ _ _ _ p) => [(p, 32)]
  | .tile (.mopa _ _ _ _ p _) => [(p, 32)]
  | .tile (.mipa _ _ _ _ _ p _) | .tile (.mrwa _ _ _ _ _ p _) | .tile (.mrws _ _ _ _ _ p _) => [(p, 32)]
  | _ => []

/-- Registers that a convoy instruction reads through 5-bit fields, with their widths. -/
def idxRegs (ew : Nat) : COp → List (Nat × Nat)
  | .load (.indexed n) .. | .store (.indexed n) .. => [(n, ew)]
  | .amo _ op _ va vd vv => [(va, 64), (vv, ew)] ++ (match vd with | some d => if op = 9 then [(d, ew)] else [] | none => [])
  | .acquire _ _ va _ | .release _ _ va => [(va, 64)]
  | _ => []

/-- Destination specifiers with their widths. -/
def dstSpecs (ew : Nat) : COp → List (BitVec 7 × Nat)
  | .vec _ (.vv _ _ _ vd) | .vec _ (.vf _ _ vd) => [(vd, ew)]
  | .vec _ (.vg .ext _ _ _) => []
  | .vec _ (.vg _ _ _ vd) => [(vd, ew)]
  | .vec _ (.vx op _ f2 f1 _ vd) => [(vd, vxDstW op ew f2 f1)]
  | .amo _ _ _ _ (some d) _ => [(BitVec.ofNat 7 d, ew)]
  | .load _ _ _ _ _ _ p | .first _ _ _ _ p => [(p, ew)]
  | .tagLoad _ _ _ _ _ p => [(p, 32)]
  | .tile (.trd _ _ _ _ _ p) => [(p, 32)]
  | .tile (.tdrain _ _ _ _ _ _ _ p f) => [(p, codeWidth f)]
  | _ => []

/-- The operand register of metadata or indices: read, and written by VQUANT (R163, R185). -/
def metaReg : COp → Option (Nat × Bool)
  | .vec p (.vx .quant ..) => some (64 + p.om.toNat, true)
  | .vec p (.vx .qsc ..) | .vec p (.vx .deq ..) => some (64 + p.om.toNat, false)
  | .tile (.mopa _ _ om _ _ _) | .tile (.mipa _ _ om _ _ _ _) | .tile (.mrwa _ _ om _ _ _ _)
  | .tile (.mrws _ _ om _ _ _ _) => some (64 + om.toNat, false)
  | _ => none

/-- The latch that a convoy instruction writes, with its width (R77). -/
def latchOf (ew : Nat) : COp → Option (Nat × Nat)
  | .vec _ (.vv ..) | .vec _ (.vf ..) => some (72, ew)
  | .vec _ (.vg .ext ..) => none
  | .vec _ (.vg ..) => some (72, ew)
  | .vec _ (.vx op _ f2 f1 _ _) => some (74, vxDstW op ew f2 f1)
  | .load _ _ nb _ _ _ _ => if nb then none else some (73, ew)
  | .first .. => some (73, ew)
  | .strip _ => some (73, ew)
  | .tile (.trd ..) => some (75, 32)
  | .tile (.tdrain _ _ _ _ _ _ _ _ f) | .tile (.tdrainBp _ _ _ _ _ _ _ _ f) => some (75, codeWidth f)
  | _ => none

/-- The mask register that selects the elements. -/
def maskOf : COp → BitVec 3
  | .vec p _ | .amo p .. => p.k
  | .load _ k .. | .store _ k .. | .first k .. | .tagLoad k .. | .tagStore k .. | .acquire k .. | .release k .. => k
  | .tile (.tld _ k ..) | .tile (.tst _ k ..) | .tile (.trd _ k ..) | .tile (.twr _ k ..) | .tile (.tdrain _ k ..)
  | .tile (.tdrainBp _ k ..) | .tile (.mopa _ k ..) | .tile (.mipa _ k ..) | .tile (.mrwa _ k ..) | .tile (.mrws _ k ..) => k
  | _ => 0

/-- The mask register written. -/
def maskDst : COp → Option (BitVec 3)
  | .vec _ (.cmp _ _ _ _ kd) | .kop _ kd _ _ | .acquire _ _ _ kd => some kd
  | _ => none

/-- Every v and o register and latch read. -/
def readRegs (ew : Nat) (o : COp) : List (Nat × Nat) :=
  ((srcSpecs ew o).filter fun p => p.1.toNat < 76).map (fun p => (p.1.toNat, p.2)) ++ idxRegs ew o ++
    (match metaReg o with | some (n, _) => [(n, 32)] | none => [])

/-- Every v and o register and latch written. -/
def writeRegs (ew : Nat) (o : COp) : List (Nat × Nat) :=
  ((dstSpecs ew o).filter fun p => p.1.toNat < 72).map (fun p => (p.1.toNat, p.2)) ++ (latchOf ew o).toList ++
    (match metaReg o with | some (n, true) => [(n, 32)] | _ => [])

/-- Every v and o register named. -/
def namedRegs (ew : Nat) (o : COp) : List Nat :=
  (((readRegs ew o) ++ (writeRegs ew o)).map (·.1)).filter (· < 72)

/-- Destination of a non-blocking load (R251). -/
def nbDst : COp → Option Nat
  | .load _ _ true _ _ _ p | .tagLoad _ true _ _ _ p => if isReg p then some p.toNat else none
  | _ => none

/-- Widest element width of a convoy instruction's vector operands, metadata apart (R30). -/
def opWidth (ew : Nat) (o : COp) : Nat :=
  let regs := (srcSpecs ew o ++ dstSpecs ew o).map (·.2) ++ (idxRegs ew o).map (·.2)
  regs.foldl max ew

/-- The instruction makes its convoy widened (R31). -/
def widens : COp → Bool
  | .vec _ (.vv .perm ..) => true
  | .vec _ (.vf op ..) => match op with
    | .fsqrt | .frcp | .frsq | .fexp2 | .fclass | .mv | .id => false
    | _ => true
  | .vec _ (.vg .bcast ..) => false
  | .vec _ (.vg ..) => true
  | .vec _ (.vx op ..) => match op with
    | .cvt | .deq => false
    | _ => true
  | .ksc .. | .first .. | .acquire .. | .release .. | .tile _ => true
  | _ => false

/-- VBND and XCOPY stand alone in a convoy (R255). -/
def standsAlone : COp → Bool
  | .bind .. | .unbind .. | .xcopy .. => true
  | _ => false

/-! Pipes (R21, R27, R184). -/

/-- The pipes, X and M by section. -/
inductive Pipe
  | a | l | s | xHad | xCvt | mEdge | mArray | y
  deriving DecidableEq, Repr

/-- The pipe of a section: A, L, S, X, M, Y as 0 to 5 (R18). -/
def Pipe.num : Pipe → Nat
  | .a => 0 | .l => 1 | .s => 2 | .xHad | .xCvt => 3 | .mEdge | .mArray => 4 | .y => 5

/-- The pipes an instruction occupies. -/
def pipesOf : COp → List Pipe
  | .vec _ (.vx .had ..) => [.xHad]
  | .vec _ (.vx ..) => [.xCvt]
  | .vec .. | .kop .. | .ksc .. => [.a]
  | .load .. | .first .. | .strip _ => [.l]
  | .store .. => [.s]
  | .amo .. | .tagLoad .. | .tagStore .. | .bind .. | .unbind .. | .acquire .. | .release .. => [.y]
  | .xcopy .. => [.l, .s]
  | .tile (.tld ..) => [.l, .mArray]
  | .tile (.tst ..) => [.s, .mArray]
  | .tile (.tdrain ..) | .tile (.tdrainBp ..) => [.mEdge]
  | .tile _ => [.mArray]

/-- The bound registers that an instruction reads (R256). -/
def boundRead (x : Hart) (ew : Nat) (o : COp) : List Nat :=
  ((readRegs ew o).map (·.1)).filter fun n => n < 64 && (mget none x.bind n).isSome

/-- The pipes of a list of instructions, a strip at the first reader of its register. -/
def pipesUsed (x : Hart) (ew : Nat) (os : List COp) : List Pipe :=
  os.flatMap pipesOf ++ if os.any fun o => boundRead x ew o != [] then [.l] else []

/-- A second use of a pipe by o after the instructions before it (R26, R27, R184, R256). -/
def pipeClash (x : Hart) (ew : Nat) (before : List COp) (o : COp) : Bool :=
  let used := before.flatMap pipesOf
  let strips := before.flatMap (boundRead x ew)
  let mine := boundRead x ew o
  let hads := used.filter (· == .xHad)
  (pipesOf o).any (fun p => if p = .xHad then 7 ≤ hads.length || used.contains .xCvt else used.contains p) ||
  (strips != [] && (pipesOf o).contains .l) ||
  (mine.any fun n => (strips ++ mine).any (· != n)) ||
  (mine != [] && (used.contains .l || (pipesOf o).contains .l))

/-! Check 2 (R68): what depends on vtype, mtype, the context and g registers. -/

/-- The instruction's element kind is wrong (R137, R157, R267, R279). -/
def badKind (cx : VCx) : COp → Bool
  | .vec _ (.vv op ..) => match op with
    | .and | .or | .xor | .perm | .merge => false
    | .fadd | .fsub | .fmul | .fdiv | .fmin | .fmax | .fma | .fms | .fnma => !cx.flt
    | _ => cx.flt
  | .vec _ (.cmp fl ..) => fl != cx.flt
  | .vec _ (.vf op ..) => match op with
    | .mv | .id | .compress | .expand => false
    | .redsum | .redmin | .redmax | .redminu | .redmaxu | .scan => cx.flt
    | _ => !cx.flt
  | .amo _ op .. => cx.ewc < 2 || (op == 11 && !(cx.ewc == 2 && cx.flt))
  | .tagLoad .. | .tagStore .. => cx.ewc != 2
  | _ => false

/-- The result is integer (R106). -/
def intResult (cx : VCx) : VBase → Bool
  | .vf .id _ _ => true
  | .vx .cvt _ _ f1 _ _ => (fltOfCode f1).isNone
  | .vx .deq .. => false
  | _ => !cx.flt

/-- A SCALE or CLAMP that an integer result does not allow (R106). -/
def badScale (cx : VCx) : COp → Bool
  | .vec p b => (p.scale != 0 || p.clamp == 1 || p.clamp == 2) && intResult cx b
  | _ => false

/-- Feature bits that a format code belongs to (R363). -/
def codeFeature (c : BitVec 4) : List Nat :=
  if c = 3 || c = 4 then [2] else if c = 8 || c = 9 then [1] else []

/-- Feature bits that an instruction needs (R363). -/
def featuresOf : COp → List Nat
  | .vec _ (.vx op _ f2 f1 _ _) =>
    (match op with
     | .cvt => codeFeature f2 ++ codeFeature f1
     | .quant | .qsc => [1]
     | .deq => 1 :: codeFeature f1
     | .had => [4]
     | _ => codeFeature f2)
  | .bind .. | .unbind .. => [5]
  | .acquire .. | .release .. => [8]
  | .xcopy .. => [10]
  | .tile (.mrwa ..) | .tile (.mrws ..) => [0, 3]
  | .tile (.tdrain _ _ _ _ _ _ _ _ f) | .tile (.tdrainBp _ _ _ _ _ _ _ _ f) => 0 :: codeFeature f
  | .tile _ => [0]
  | _ => []

/-- An mtype value that MCFG refuses; has says that a feature is accepted (R82). -/
def mcfgBad (has : Nat → Bool) (w : Word) : Bool :=
  let af := w.extractLsb' 0 4
  let bf := w.extractLsb' 4 4
  let acc := w.extractLsb' 8 4
  2 ^ 22 ≤ w.toNat || w.extractLsb' 12 2 == 3 || 12 ≤ af.toNat || 12 ≤ bf.toNat || (acc != 0 && acc != 10) ||
    ((codeFeature af ++ codeFeature bf).any fun f => !has f)

/-- AF of an mtype value. -/
def mtAf (mt : BitVec 22) : BitVec 4 := mt.extractLsb' 0 4
/-- BF. -/
def mtBf (mt : BitVec 22) : BitVec 4 := mt.extractLsb' 4 4
/-- ACC. -/
def mtAcc (mt : BitVec 22) : BitVec 4 := mt.extractLsb' 8 4
/-- GS. -/
def mtGs (mt : BitVec 22) : BitVec 2 := mt.extractLsb' 12 2
/-- Active columns. -/
def mtCols (mt : BitVec 22) : Nat := (mt.extractLsb' 14 7).toNat + 1
/-- SAT. -/
def mtSat (mt : BitVec 22) : Bool := mt.getLsbD 21

/-- AF and ACC form a pair of R186. -/
def pairOk (mt : BitVec 22) : Bool :=
  let a := (mtAf mt).toNat
  if a = 5 || a = 6 || a = 7 then mtAcc mt == 10 else (a ≤ 4 || a = 8 || a = 9) && mtAcc mt == 0

/-- The format checks of a tile instruction at decode (R178, R183, R186). R186 asks a pair of AF and ACC of every MMA, and MRWS for
its own AF as well (DEDUCED, log 48). -/
def tileBad (mt : BitVec 22) : Instr → Bool
  | .bld .. => mtBf mt == 10 || mtBf mt == 11
  | .bldW .. => mtBf mt != 9
  | .tdrain _ _ clamp scale _ _ _ _ f | .tdrainBp _ _ clamp scale _ _ _ _ f =>
    (fltOfCode f).isNone && (scale != 0 || clamp == 1 || clamp == 2)
  | .mopa .. | .mipa .. => !pairOk mt
  | .mrwa .. => !pairOk mt || mtAf mt == 8 || mtAf mt == 9
  | .mrws .. => !pairOk mt || 3 ≤ (mtAf mt).toNat
  | _ => false

/-- Q format. -/
def isQ (f : BitVec 4) : Bool := f == 8 || f == 9

/-! Checks 6 and 7 (R68). -/

/-- Operand combinations that raise ILLEGAL_OPERAND at check 6 (R47, R61, R66, R165, R188, R267). -/
def badOperand (mt : BitVec 22) (o : COp) : Bool :=
  (dstSpecs 8 o).any (fun p => !dstOk p.1) || (srcSpecs 8 o).any (fun p => !srcOk p.1) ||
  (match o with
   | .vec _ (.vv op _ _ vd) => readsDst op && !isReg vd
   | .vec p (.vx op _ _ _ vs vd) =>
     (op == .quant || op == .qsc) && vd.toNat == 64 + p.om.toNat || op == .deq && vs.toNat == 64 + p.om.toNat
   | .amo _ _ _ va (some d) vv => d == va || d == vv
   | .bind _ _ p | .unbind _ p => 64 ≤ p.toNat
   | .tile (.tdrainBp _ _ _ _ _ _ _ p _) => p != 76
   | .tile (.mopa _ _ _ t _ _) => isQ (mtAf mt) && t.getLsbD 0
   | _ => false)

/-- A latch is read that no earlier instruction of the convoy writes (R29). -/
def badLatch (x : Hart) (ew : Nat) (before : List COp) (o : COp) : Bool :=
  let written := (before.filterMap (latchOf ew)).map (·.1) ++
    if before.any fun b => boundRead x ew b != [] then [73] else []
  ((srcSpecs ew o).any fun p => isLatch p.1 && !written.contains p.1.toNat)

/-- A VBCAST whose source is a latch or is written earlier in its convoy (R149). -/
def badBcast (ew : Nat) (before : List COp) : COp → Bool
  | .vec _ (.vg .bcast _ vs _) => isLatch vs || (before.flatMap (writeRegs ew)).any fun p => p.1 == vs.toNat
  | _ => false

/-- Check 5 for the instruction at a place in its convoy (R26, R149, R169, R251, R255, R256). all are the convoy's other
instructions that decode, those at other places. -/
def badConvoy (x : Hart) (ew : Nat) (before all : List COp) (i : Instr) (o : COp) : Bool :=
  (before == [] && !convoyC i) ||
  (before.length == 1 && (standsAlone o || all.any standsAlone)) ||
  ((namedRegs ew o).any fun n => all.any fun b => nbDst b == some n) ||
  pipeClash x ew before o || badBcast ew before o

/-! The strip of a bound register (R253, R256). -/

/-- A field of a binding record. -/
def recField (r : BitVec 256) (b w : Nat) : Nat := field r.toNat b w
/-- SFMT. -/
def recSfmt (r : BitVec 256) : BitVec 4 := BitVec.ofNat 4 (recField r 96 4)
/-- DFMT. -/
def recDfmt (r : BitVec 256) : BitVec 4 := BitVec.ofNat 4 (recField r 100 4)
/-- POS. -/
def recPos (r : BitVec 256) : Nat := recField r 192 64
/-- STRIDE as a word. -/
def recStride (r : BitVec 256) : Word := sextNat 32 (recField r 64 32)

/-- The pairs of R253. -/
def bindPair (sf df : BitVec 4) : Bool :=
  let s := sf.toNat
  let d := df.toNat
  (s == d && s ≤ 11 && s != 8 && s != 9) || (1 ≤ s && s ≤ 4 && d == 0) || ((s == 3 || s == 4) && d == 1) ||
    ((s == 6 || s == 7) && (d == 5 || d == 10)) || (s == 5 && d == 10) || ((s == 8 || s == 9) && (d == s || d == 0))

/-- A record that VBIND refuses (R254). -/
def bindBad (has : Nat → Bool) (r : BitVec 256) : Bool :=
  let sf := recSfmt r
  let df := recDfmt r
  let bytes := max 1 (codeWidth sf / 8)
  recField r 106 21 != 0 || recField r 104 2 == 3 || !bindPair sf df ||
    ((codeFeature sf ++ codeFeature df).any fun f => !has f) || recField r 0 64 % bytes != 0 ||
    recField r 64 32 % bytes != 0 || (sf == 9 && recField r 64 32 != 0) || (isQ sf && recField r 128 64 % 4 != 0)

/-! The start checks that do not read tiles (R256, R257, R157, R259, R267, R271). -/

/-- The first bound register that an instruction names as a destination (R257). -/
def boundDst (x : Hart) (ew : Nat) (o : COp) : Option Nat :=
  (((dstSpecs ew o).map (·.1.toNat)).find? fun n => n < 64 && (mget none x.bind n).isSome)

/-- The strip does not fit a register (R256). -/
def stripBig (x : Hart) (cx : VCx) (o : COp) : Bool :=
  (boundRead x cx.w o).any fun n => match mget none x.bind n with
    | some (_, r) => 4096 < cx.vl * codeWidth (recDfmt r)
    | none => false

/-- Segments of an XCOPY of n bytes to d (R259). -/
def copySegs (d n : Nat) : Nat := if n = 0 then 0 else (d % 128 + n + 127) / 128

/-- Count limits (R157, R175, R259, R267, R271). -/
def countBad (cx : VCx) (o : COp) : Bool :=
  match o with
  | .vec _ (.vx op _ f2 f1 _ _) => 4096 / max (vxSrcW op cx.w f2) (vxDstW op cx.w f2 f1) < cx.vl
  | .amo .. | .acquire .. | .release .. => 64 < cx.vl
  | .xcopy _ _ _ dst n => 512 < copySegs (cx.g dst).toNat (cx.g n).toNat
  | .tile i =>
    match i with
    | .tld .. | .tst .. | .trd .. | .twr .. | .tdrain .. | .tdrainBp .. | .mrwa .. | .mrws .. => 128 < cx.vl
    | .mopa .. | .mipa .. => cx.vl * cx.w % 32 != 0 || 128 < cx.vl * cx.w / 32
    | _ => false
  | _ => false

end Sys2Proof.Machine
end

