-- ==== Sys2Proof/Machine/Tiles.lean ====
section
/-! DEFINITION. Tiles, plane rows and matrix multiply-accumulate (R79, R109 to R112, R171 to R192). -/

namespace Sys2Proof.Machine

open Sys2Proof

/-! Plane row descriptors (R172). -/

/-- Fields of a descriptor. -/
structure PDesc where
  va    : Nat
  cls   : Nat
  mrow  : Nat
  gpos  : Nat
  gs    : Nat
  fmt   : Nat
  w     : Bool
  md    : Bool
  lazy  : Bool
  valid : Bool
  deriving DecidableEq, Repr

/-- The 128 bits of a descriptor. -/
def packDesc (d : PDesc) : BitVec 128 :=
  BitVec.ofNat 128 (d.va % 2 ^ 57 * 2 ^ 64 + d.cls % 16 * 2 ^ 32 + d.mrow % 2 ^ 13 * 2 ^ 19 + d.gpos % 32 * 2 ^ 14 +
    d.gs % 4 * 2 ^ 12 + d.fmt % 16 * 2 ^ 8 + d.w.toNat * 2 ^ 7 + d.md.toNat * 2 ^ 6 + d.lazy.toNat * 2 ^ 5 +
    d.valid.toNat * 2 ^ 4)

/-- The fields of 128 bits. -/
def unpackDesc (b : BitVec 128) : PDesc :=
  let n := b.toNat
  ⟨field n 64 57, field n 32 4, field n 19 13, field n 14 5, field n 12 2, field n 8 4, n.testBit 7, n.testBit 6,
    n.testBit 5, n.testBit 4⟩

/-- Descriptor of a plane row. -/
def Hart.desc (x : Hart) (p : Nat) : PDesc := unpackDesc (mget 0 x.f.pdesc p)
/-- Word j of a plane row. -/
def Hart.planeWord (x : Hart) (p j : Nat) : Nat := elemOf (mget 0 x.f.plane p) 32 j
/-- Fill a plane row. -/
def Hart.setRow (x : Hart) (p : Nat) (v : VReg) (d : PDesc) : Hart :=
  { x with f := { x.f with plane := mset 0 x.f.plane p v, pdesc := mset 0 x.f.pdesc p (packDesc d) } }

/-- Elements of a format to a 32-bit word (R173). -/
def kOf (f : Nat) : Nat := if f = 0 || f = 5 then 1 else if f = 1 || f = 2 then 2 else if f = 9 then 8 else 4

/-- The row that 512 source bytes, or 256 codes to widen, make (R178). -/
def rowOf (wide md : Bool) (bs : List Byte) : VReg :=
  let bs := if !wide then bs
    else if md then bs.zipIdx.map fun p => if p.2 % 4 = 2 then p.1 &&& 15 else p.1
    else bs.flatMap fun b => [b &&& 15, b >>> 4]
  BitVec.ofNat 4096 (leBytes bs)

/-- Source bytes of a row. -/
def rowBytes (d : PDesc) : Nat := if d.w && !d.md then 256 else 512

/-- The rows that BLD fills: number and descriptor (R178). -/
def bldRows (cx : VCx) (mt : BitVec 22) (cls : Nat) (wide : Bool) (p va : Nat) : List (Nat × PDesc) :=
  let fmt := if wide then 8 else (mtBf mt).toNat
  let rb := if wide then 256 else 512
  let rg := groupSize mt / kOf fmt
  let n := cx.vl
  let q := fmt = 8 || fmt = 9
  (List.range n).map (fun i =>
    (p + i, ⟨va + i * rb, cls, p + n + i / rg, i % rg, (mtGs mt).toNat, fmt, wide, false, false, true⟩)) ++
  (List.range (if q then n / rg else 0)).map fun g =>
    (p + n + g, ⟨va + n * rb + g * 512, cls, 0, 0, (mtGs mt).toNat, fmt, wide, true, false, true⟩)

/-- The start checks of BLD (R176, R178). -/
def bldBad (cx : VCx) (mt : BitVec 22) (wide : Bool) (p : Nat) : Bool :=
  let fmt := if wide then 8 else (mtBf mt).toNat
  let rg := groupSize mt / kOf fmt
  let q := fmt = 8 || fmt = 9
  8192 ≤ p || (q && cx.vl % rg != 0) || 8192 < p + cx.vl + (if q then cx.vl / rg else 0)

/-! Tile lines (R79, R182, R183). -/

/-- Row and column of line element e. -/
def lineAt (dir : BitVec 2) (x e : Nat) : Nat × Nat :=
  match dir.toNat with
  | 0 => (x, e) | 1 => (e, x) | _ => (e, (e + x) % 128)

/-- A word of a tile. -/
def Hart.tileWord (x : Hart) (t : BitVec 3) (p : Nat × Nat) : Nat := elemOf (x.tile t.toNat p.1) 32 p.2

/-- Write a word of a tile; a gated column is dropped (R88). -/
def Hart.putTile (x : Hart) (q : BitVec 2) (t : BitVec 3) (p : Nat × Nat) (v : Nat) : Hart :=
  if 32 * (q.toNat + 1) ≤ p.2 then x else x.setTile t.toNat p.1 (setElem (x.tile t.toNat p.1) 32 p.2 v)

/-- The index of a tile operand: bits [6:0] of a g register. -/
def VCx.tileIdx (cx : VCx) (gi : BitVec 5) : Nat := (cx.g gi).toNat % 128

/-- The line elements of the unit that the mask selects (R177). -/
def lineElems (x : Hart) (cx : VCx) (k : BitVec 3) : List Nat := (List.range cx.vl).filter fun e => x.maskBit k e

/-- Raise array flags. -/
def Hart.mflag (x : Hart) (f : BitVec 4) : Hart := { x with c := { x.c with mflags := x.c.mflags ||| f } }

/-- One word drained to a format (R183). -/
def drainWord (mt : BitVec 22) (clamp : BitVec 2) (scale : BitVec 4) (fmt : BitVec 4) (w : Nat) : Nat × BitVec 4 :=
  let v := if mtAcc mt = 10 then Num.ofInt (sintOf 32 w) else FFmt.f32.dec w
  match fltOfCode fmt with
  | some f =>
    let r := f.finish .rne scale clamp (v, 0)
    (r.1, (if r.2 &&& fOF != 0 then 8 else 0) ||| (if r.2 &&& fNV != 0 then 4 else 0))
  | none =>
    let n := codeWidth fmt
    let u := codeUns fmt
    match v with
    | .nan => (0, 4)
    | .inf s => (satInt n u (if s then -(2 ^ 64) else 2 ^ 64), 2)
    | .zero _ => (0, 0)
    | .fin s m e st =>
      let r := (roundAt .rne s m e st 0).1
      let i : Int := if s then -(r : Int) else r
      (satInt n u i, if intOf n u (satInt n u i) = i then 0 else 2)

/-- TDRAIN and TDRAIN.BP (R183). -/
def runDrain (x : Hart) (cx : VCx) (mt : BitVec 22) (k : BitVec 3) (clamp : BitVec 2) (scale : BitVec 4) (dir : BitVec 2)
    (t : BitVec 3) (gi : BitVec 5) (vd : BitVec 7) (fmt : BitVec 4) : Hart :=
  let es := (lineElems x cx k).map fun e => (e, drainWord mt clamp scale fmt (x.tileWord t (lineAt dir (cx.tileIdx gi) e)))
  (latchElems x cx.q vd.toNat 75 (codeWidth fmt) (es.map fun p => (p.1, some p.2.1))).mflag
    (es.foldl (fun f p => f ||| p.2.2) 0)

/-! Multiply and accumulate. -/

/-- The fields of an MMA; form 0 MOPA, 1 MIPA, 2 MRWA, 3 MRWS (R185). -/
structure MArgs where
  form : Nat
  k    : BitVec 3
  om   : BitVec 3
  t    : BitVec 3
  gi   : BitVec 5
  spec : BitVec 7
  gb   : BitVec 5
  deriving DecidableEq, Repr

/-- The MMA that an instruction is. -/
def mmaOf : Instr → Option MArgs
  | .mopa _ k om t p gb => some ⟨0, k, om, t, 0, p, gb⟩
  | .mipa _ k om t gi p gb => some ⟨1, k, om, t, gi, p, gb⟩
  | .mrwa _ k om t gi p gb => some ⟨2, k, om, t, gi, p, gb⟩
  | .mrws _ k om t gi p gb => some ⟨3, k, om, t, gi, p, gb⟩
  | _ => none

/-- Count of an MMA (R175). -/
def mmaCount (cx : VCx) (a : MArgs) : Nat := if a.form < 2 then cx.vl * cx.w / 32 else cx.vl
/-- Steps that the mask selects. -/
def mmaSel (x : Hart) (cx : VCx) (a : MArgs) : List Nat := (List.range (mmaCount cx a)).filter fun e => x.maskBit a.k e
/-- Word i of META. -/
def metaWord (x : Hart) (a : MArgs) (i : Nat) : Nat := elemOf (x.v (64 + a.om.toNat)) 32 i
/-- The first plane row. -/
def mmaRow (cx : VCx) (a : MArgs) : Nat := (cx.g a.gb).toNat

/-- Data rows that an MMA uses (R189 to R191). -/
def mmaData (x : Hart) (cx : VCx) (mt : BitVec 22) (a : MArgs) : List Nat :=
  let p := mmaRow cx a
  let n := mmaCount cx a
  match a.form with
  | 0 => if n = 0 then [] else [p]
  | 1 => (if isQ (mtAf mt) then List.range n else mmaSel x cx a).map (p + ·)
  | 2 => (mmaSel x cx a).map fun s => p + metaWord x a s / kOf (mtAf mt).toNat
  | _ => (mmaSel x cx a).map fun s => p + metaWord x a s

/-- A row format that may stand beside AF (R186). -/
def rowFits (form af fmt : Nat) : Bool :=
  if form = 3 then fmt == 1 || fmt == 2
  else if af = 3 || af = 4 then fmt == 3 || fmt == 4
  else if af = 6 || af = 7 then fmt == 6 || fmt == 7
  else fmt == af

/-- A row that an MMA cannot use (R176, R181, R186). -/
def rowBad (x : Hart) (form af p : Nat) (md : Bool) : Bool :=
  let d := x.desc p
  8192 ≤ p || !d.valid || d.md != md || !rowFits form af d.fmt

/-- The checks of an MMA at execution: ILLEGAL_OPERAND when true (R176, R181, R186, R188 to R191). A MOPA compares GS with row p
alone (R188), a MIPA with each metadata row too (R189). A Q-format MIPA with n = 0 checks no row, so not the GPOS of row p
either (DESIGN CHOICE, log 48). -/
def mmaBad (x : Hart) (cx : VCx) (mt : BitVec 22) (a : MArgs) : Bool :=
  let af := (mtAf mt).toNat
  let rows := mmaData x cx mt a
  let gs := (mtGs mt).toNat
  8192 ≤ mmaRow cx a || (rows.any fun p => rowBad x a.form af p false) ||
  (isQ (mtAf mt) && (
    (rows.any fun p => let d := x.desc p; d.gs != gs || rowBad x a.form af d.mrow true || (a.form == 1 && (x.desc d.mrow).gs != gs)) ||
    (a.form == 1 && rows != [] && ((x.desc (mmaRow cx a)).gpos != 0 || mmaCount cx a % (groupSize mt / kOf af) != 0))))

/-- Rows that an MMA reads, each data row before its metadata row (R181). -/
def mmaReads (x : Hart) (cx : VCx) (mt : BitVec 22) (a : MArgs) : List Nat :=
  (mmaData x cx mt a).flatMap fun p => if isQ (mtAf mt) then [p, (x.desc p).mrow] else [p]

/-- Word i of the A source (R176). -/
def aWord (x : Hart) (cx : VCx) (a : MArgs) (i : Nat) : Nat := readOp x cx a.spec 32 i

/-- The k elements of an array word (R91, R173). -/
def wordElems (fmt w : Nat) : List Nat :=
  if fmt = 5 then [w % 2 ^ 16] else (List.range (kOf fmt)).map fun q => w / 2 ^ (32 / kOf fmt * q) % 2 ^ (32 / kOf fmt)

/-- A float element. -/
def fltElem (fmt v : Nat) : Num := ((fltOfCode (BitVec.ofNat 4 fmt)).getD .f32).dec v
/-- An integer element or code. -/
def intElem (fmt v : Nat) : Int := if fmt = 5 then sintOf 16 v else if fmt = 6 then sintOf 8 v else v

/-- acc + a sum of products rounded once, with the special values of R110. In the product sa * sb * I of R112 a zero I counts as +0, so
that the zero product has the sign of sa * sb (DESIGN CHOICE, log 57). -/
def addProducts (acc : Nat) (ps : List (List Num)) : Nat × BitVec 4 :=
  let c := FFmt.f32.dec acc
  if c.isNan || ps.any (·.any Num.isNan) then (FFmt.f32.cnan, 0)
  else
    let ms := ps.map fun l => l.foldl (fun x y => (mulNum x y).1) (.fin false 1 0 false)
    if ms.any Num.isNan then (FFmt.f32.cnan, 4)
    else
      let s := sumNums (c :: ms) false
      if s.1.isNan then (FFmt.f32.cnan, 4)
      else let y := FFmt.f32.rne s.1; (y.1, if y.2 &&& fOF != 0 then 8 else 0)

/-- step (R109 to R111): pairs of elements into one accumulator word. -/
def mstep (mt : BitVec 22) (af bf acc : Nat) (es : List (Nat × Nat)) : Nat × BitVec 4 :=
  if mtAcc mt = 10 then
    let s := sintOf 32 acc + (es.map fun e => intElem af e.1 * intElem bf e.2).sum
    if mtSat mt then (satInt 32 false s, if sintOf 32 (satInt 32 false s) = s then 0 else 2) else (wrapInt 32 s, 0)
  else addProducts acc (es.map fun e => [fltElem af e.1, fltElem bf e.2])

/-- Scale and zero point of a record. -/
def recParts (fmt r : Nat) : Num × Int := (FFmt.f16.dec (r % 2 ^ 16), recZp (fmt == 9) r)

/-- The exact sum of (ca - za)(cb - zb) over the codes of two words (R112). -/
def codeDot (fmt aw bw : Nat) (za zb : Int) : Int :=
  (((wordElems fmt aw).zip (wordElems fmt bw)).map fun e => ((e.1 : Int) - za) * ((e.2 : Int) - zb)).sum

/-- The words of a row at columns below n replaced, with the flags raised. -/
def mapRow (v : VReg) (n : Nat) (f : Nat → Nat → Nat × BitVec 4) : VReg × BitVec 4 :=
  (List.range n).foldl (fun r j => let y := f j (elemOf r.1 32 j); (setElem r.1 32 j y.1, r.2 ||| y.2)) (v, 0)

/-- Replace a tile row by a function of its columns below n. -/
def Hart.mapTile (x : Hart) (t i n : Nat) (f : Nat → Nat → Nat × BitVec 4) : Hart :=
  let r := mapRow (x.tile t i) n f
  (x.setTile t i r.1).mflag r.2

/-- Columns that an MMA updates: active and powered (R88, R185). -/
def mmaCols (cx : VCx) (mt : BitVec 22) : Nat := min (mtCols mt) (32 * (cx.q.toNat + 1))

/-- One MOPA step of a Q format on tile row i (R188). -/
def qstep (x : Hart) (cx : VCx) (mt : BitVec 22) (a : MArgs) (i : Nat) : Hart :=
  let p := mmaRow cx a
  let d := x.desc p
  let af := (mtAf mt).toNat
  let ra := recParts af (metaWord x a i)
  let t := a.t.toNat
  let last := d.gpos = groupSize mt / kOf af - 1
  let u (j w : Nat) : Nat :=
    let w := if d.gpos = 0 then 0 else w
    wrapInt 32 ((w : Int) + codeDot af (aWord x cx a i) (x.planeWord p j) ra.2 (recParts af (x.planeWord d.mrow j)).2)
  let old := x.tile (t + 1) i
  let y := if last then x.mapTile t i (mmaCols cx mt) fun j w =>
      addProducts w [[ra.1, (recParts af (x.planeWord d.mrow j)).1, Num.ofInt (sintOf 32 (u j (elemOf old 32 j)))]]
    else x
  y.mapTile (t + 1) i (mmaCols cx mt) fun j w => (if last then 0 else u j w, 0)

/-- MOPA (R187, R188). -/
def runMopa (x : Hart) (cx : VCx) (mt : BitVec 22) (a : MArgs) : Hart :=
  let af := (mtAf mt).toNat
  let p := mmaRow cx a
  (mmaSel x cx a).foldl (fun y i =>
    if isQ (mtAf mt) then qstep y cx mt a i
    else y.mapTile a.t.toNat i (mmaCols cx mt) fun j w =>
      mstep mt af (x.desc p).fmt w ((wordElems af (aWord x cx a i)).zip (wordElems (x.desc p).fmt (x.planeWord p j)))) x

/-- MIPA (R189). -/
def runMipa (x : Hart) (cx : VCx) (mt : BitVec 22) (a : MArgs) : Hart :=
  let af := (mtAf mt).toNat
  let p := mmaRow cx a
  let sel := mmaSel x cx a
  let r := cx.tileIdx a.gi
  let rg := groupSize mt / kOf af
  if isQ (mtAf mt) then
    (List.range (mmaCount cx a / rg)).foldl (fun y g =>
      let ra := recParts af (metaWord x a g)
      let m := (x.desc (p + g * rg)).mrow
      y.mapTile a.t.toNat r (mmaCols cx mt) fun j w =>
        let rb := recParts af (x.planeWord m j)
        let i := ((sel.filter fun s => s / rg == g).map fun s =>
          codeDot af (aWord x cx a s) (x.planeWord (p + s) j) ra.2 rb.2).sum
        addProducts w [[ra.1, rb.1, Num.ofInt i]]) x
  else sel.foldl (fun y s =>
    y.mapTile a.t.toNat r (mmaCols cx mt) fun j w =>
      mstep mt af (x.desc (p + s)).fmt w
        ((wordElems af (aWord x cx a s)).zip (wordElems (x.desc (p + s)).fmt (x.planeWord (p + s) j)))) x

/-- Ae(s): element s of A at the width of AF (R185). -/
def aElem (x : Hart) (cx : VCx) (mt : BitVec 22) (a : MArgs) (s : Nat) : Nat :=
  let w := codeWidth (mtAf mt)
  aWord x cx a (s * w / 32) / 2 ^ (s * w % 32) % 2 ^ w

/-- MRWA (R190). -/
def runMrwa (x : Hart) (cx : VCx) (mt : BitVec 22) (a : MArgs) : Hart :=
  let af := (mtAf mt).toNat
  let k := kOf af
  (mmaSel x cx a).foldl (fun y s =>
    let p := mmaRow cx a + metaWord x a s / k
    y.mapTile a.t.toNat (cx.tileIdx a.gi) (mmaCols cx mt) fun j w =>
      mstep mt af (x.desc p).fmt w
        [(aElem x cx mt a s, (wordElems (x.desc p).fmt (x.planeWord p j)).getD (metaWord x a s % k) 0)]) x

/-- The entries of a compressed row from word j on, at most n (R191). -/
def rowEntries (x : Hart) (p : Nat) : Nat → Nat → List (Nat × Nat)
  | 0, _ => []
  | n + 1, j =>
    let w := x.planeWord p j
    if w / 2 ^ 16 = 0xFFFF then [] else (w / 2 ^ 16, w % 2 ^ 16) :: rowEntries x p n (j + 1)

/-- Insert into a rising list without repeats. -/
def insertNat (c : Nat) : List Nat → List Nat
  | [] => [c]
  | d :: r => if c < d then c :: d :: r else if c = d then d :: r else d :: insertNat c r

/-- The entries of the selected rows with their factors, in order: column, factor, value (R191). -/
def mrwsTerms (x : Hart) (cx : VCx) (mt : BitVec 22) (a : MArgs) : List (Nat × Num × Num) :=
  (mmaSel x cx a).flatMap fun s =>
    let p := mmaRow cx a + metaWord x a s
    (rowEntries x p 128 0).map fun e => (e.1, fltElem (mtAf mt).toNat (aElem x cx mt a s), fltElem (x.desc p).fmt e.2)

/-- MRWS (R191). -/
def runMrws (x : Hart) (cx : VCx) (mt : BitVec 22) (a : MArgs) : Hart :=
  if mmaCount cx a = 0 then x else
  let ts := mrwsTerms x cx mt a
  let cols := ts.foldl (fun l e => insertNat e.1 l) []
  let out := cols.map fun c => (ts.filter fun e => e.1 == c).foldl
    (fun (y : Nat × BitVec 4) e => let z := addProducts y.1 [[e.2.1, e.2.2]]; (z.1, y.2 ||| z.2)) (0, 0)
  let l := 32 * (cx.q.toNat + 1)
  let n := min cols.length l
  let r := cx.tileIdx a.gi
  let t := a.t.toNat
  let y := x.mapTile t r n fun j _ => ((out.getD j (0, 0)).1, 0)
  let y := y.mapTile t ((r + 1) % 128) n fun j _ => (cols.getD j 0, 0)
  let y := y.mflag ((out.foldl (fun f p => f ||| p.2) 0) ||| (if l < cols.length then 1 else 0))
  y.setG a.gi (BitVec.ofNat 64 cols.length)

/-- An MMA on a hart whose rows are present. -/
def runMma (x : Hart) (cx : VCx) (mt : BitVec 22) (a : MArgs) : Hart :=
  match a.form with
  | 0 => runMopa x cx mt a
  | 1 => runMipa x cx mt a
  | 2 => runMrwa x cx mt a
  | _ => runMrws x cx mt a

/-- Units of meter 1 that an MMA is charged (R371). -/
def mmaUnits (x : Hart) (cx : VCx) (mt : BitVec 22) (a : MArgs) : Nat :=
  let sel := (mmaSel x cx a).length
  let rg := groupSize mt / kOf (mtAf mt).toNat
  let q := isQ (mtAf mt)
  match a.form with
  | 0 => if q && (x.desc (mmaRow cx a)).gpos != rg - 1 then 0 else sel * mmaCols cx mt
  | 1 => (if q then mmaCount cx a / rg else sel) * mmaCols cx mt
  | 2 => sel * mmaCols cx mt
  | _ => (mrwsTerms x cx mt a).length

/-- BINV (R180): rows p to p + c - 1 lose VALID and LAZY. -/
def runBinv (x : Hart) (p c : Nat) : Hart :=
  let pd := x.f.pdesc.map fun r =>
    if p ≤ r.1 && r.1 < p + c then let d := unpackDesc r.2; (r.1, packDesc { d with valid := false, lazy := false }) else r
  { x with f := { x.f with pdesc := pd.filter fun r => r.2 ≠ 0 } }

end Sys2Proof.Machine
end

