-- ==== Sys2Proof/Machine/VecMem.lean ====
section
/-! DEFINITION. One instruction of a convoy on the elements of a commit unit, its memory accesses included (R136, R178, R181,
R182, R248 to R260, R267 to R273, R279). -/

namespace Sys2Proof.Machine

open Sys2Proof

/-- Why a commit unit did not run to its end. -/
inductive Stop
  /-- An element trap (R30). -/
  | trap (e : Nat) (t : Trap)
  /-- A fault found before any element commits (R326): the instruction's VA. -/
  | bad (pc : Word) (t : Trap)
  | hold (e : Nat) (w : Why)
  /-- A tagged access waits with a record; the values that the elements below it were served (R276, R279). -/
  | tag (e : Nat) (r : TagRec) (va : Nat) (vals : List Nat)
  /-- VLDFF shortens vl (R252). -/
  | short (k : Nat)
  deriving DecidableEq, Repr

/-- A run of part of a unit. -/
abbrev Run := State × Option Stop

/-- Go on unless the run has stopped. -/
def runThen (r : Run) (f : State → Run) : Run :=
  match r.2 with
  | none => f r.1
  | some _ => r

/-- A convoy on a commit unit: its hart, what its instructions read, and the convoy. The unit's accesses are those of elements
alo to ahi - 1. With ahead set, cx covers every element of the convoy from its start on, and the elements below alo were bound by
earlier units (R28, log 9). -/
structure Job where
  h     : Nat
  cx    : VCx
  cv    : Conv
  alo   : Nat
  ahi   : Nat
  ahead : Bool
  /-- Elements of a strip that are read before the first unit, for a VBCAST from it (log 9). -/
  early : List Nat
  /-- Number of the hart's first element of this unit (R236). -/
  mark  : Nat
  /-- Elements of a store that the host's answer has discarded while the unit waited (R246). -/
  skip  : List Nat
  /-- The elements of each pipe's memory instruction that make their access, where not those of the unit (log 9). -/
  wins  : List (Pipe × Nat × Nat)
  deriving DecidableEq, Repr

/-- The job with accesses up to element hi alone. -/
def Job.upTo (j : Job) (hi : Nat) : Job :=
  { j with ahi := hi, cx := if j.ahead then j.cx else { j.cx with hi := min j.cx.hi hi } }

/-- The job of one instruction: its own elements to access, where its pipe has them. -/
def Job.at (j : Job) (o : COp) : Job :=
  match j.wins.find? fun p => (pipesOf o).contains p.1 with
  | some (_, lo, hi) => { j with alo := lo, ahi := hi }
  | none => j

/-- A blocking access of the convoy; one that only waits for the hart's own earlier accesses has them performed first, since
they stand before it in the same commit unit (R224, log 9). -/
def settled {α : Type} (s : State) (h cls : Nat) (f : State → Res α) : Res α :=
  match f s with
  | .stall s' .order => (match f (s.settle h cls) with
    | .stall _ w => .stall s' w
    | r => r)
  | r => r

/-- The elements of a list one by one, each at its VA. -/
def eachElem (va : Nat → Nat) (f : State → Nat → Res Unit) : List Nat → State → Run
  | [], s => (s, none)
  | e :: r, s =>
    match f s e with
    | .ok s _ => eachElem va f r s
    | .fault s c => (s, some (.trap e ⟨c, BitVec.ofNat 64 (va e)⟩))
    | .stall s w => (s, some (.hold e w))

/-- Change the hart of the job. -/
def State.modHart (s : State) (h : Nat) (f : Hart → Hart) : State := s.setHart h (f (s.hart h))

/-- Active elements under a mask register whose accesses the unit makes. -/
def Job.active (j : Job) (s : State) (k : BitVec 3) : List Nat :=
  j.cx.elems.filter fun e => j.alo ≤ e && e < j.ahi && (s.hart j.h).maskBit k e

/-- Active elements under a mask register that an earlier unit has bound, where the instructions run over them again. -/
def Job.past (j : Job) (s : State) (k : BitVec 3) : List Nat :=
  if j.ahead then j.cx.elems.filter fun e => e < j.alo && (s.hart j.h).maskBit k e else []

/-- Element e, of w bits, that the convoy's pipe-L instruction bound in an earlier unit. -/
def Job.boundL (j : Job) (w e : Nat) : Nat := elemOf ((j.cv.ahead.map (·.2.1)).getD 0) w e
/-- Element e, of w bits, that the convoy's pipe-Y instruction bound in an earlier unit. -/
def Job.boundY (j : Job) (w e : Nat) : Nat := elemOf ((j.cv.ahead.map (·.2.2)).getD 0) w e

/-- A value that a pipe-Y instruction binds: written to its destination, and kept for the units after this one. -/
def Job.putY (j : Job) (d w e v : Nat) (x : Hart) : Hart :=
  let x := x.put j.cx.q d w e v
  if j.ahead then x.setV 76 (setElem (x.v 76) w e v) else x

/-- The VA of element e of a vector access (R249). -/
def Job.addr (j : Job) (s : State) (a : Addr) (aux base : BitVec 5) (size e : Nat) : Nat :=
  let b := j.cx.g base
  (match a with
   | .flat => b + j.cx.g aux + BitVec.ofNat 64 (e * size)
   | .strided => b + BitVec.ofNat 64 e * j.cx.g aux
   | .indexed n => b + sextNat (8 * size) (elemOf ((s.hart j.h).v n) (8 * size) e)).toNat

/-! Non-blocking instructions (R235, R251). -/

/-- The number of the non-blocking instruction at pc, which a resumed convoy finds again. -/
def nbFind (x : Hart) (pc : Word) : Option NbOp := x.nb.find? fun o => !o.issued && o.pc == pc

/-- Begin, or find again, the non-blocking instruction at pc: its number. -/
def nbBegin (s : State) (h : Nat) (pc : Word) (cls : Nat) (vd : Option Nat) : State × Nat :=
  let x := s.hart h
  match nbFind x pc with
  | some o => (s, o.id)
  | none => (s.setHart h { x with nb := x.nb ++ [⟨x.next, cls, 0, false, vd, pc, []⟩], next := x.next + 1 }, x.next)

/-- Issue an element of a non-blocking instruction. -/
def nbIssue (s : State) (h op : Nat) (el : Elt) : State :=
  let s := s.addElt h { el with op := op }
  s.modHart h fun x => { x with nb := x.nb.map fun o => if o.id = op then { o with open_ := o.open_ + 1 } else o }

/-- A non-blocking access at issue: checks, then its element (R241, R251). -/
def nbElem (s : State) (h op va size align : Nat) (need : Need) (atom : Bool) (mk : Agent → Nat → Elt) : Res Unit :=
  match hartCheck s h va size align need atom with
  | .error c => .fault s c
  | .ok ipa => .ok ((nbIssue s h op (mk (s.agent h) ipa)).parkIssued h (s.hart h).next) ()

/-! Loads and stores. -/

/-- A vector load (R248, R251). -/
def runLoad (j : Job) (pc : Word) (a : Addr) (k : BitVec 3) (nb : Bool) (cls : Nat) (aux base : BitVec 5) (p : BitVec 7)
    (s : State) : Run :=
  let n := j.cx.w / 8
  let s := s.modHart j.h fun x => writeElems x j.cx.q p.toNat 73 (8 * n)
    ((if nb then [] else j.past s k).map fun e => (e, some (j.boundL (8 * n) e)))
  let va := j.addr s a aux base n
  let es := j.active s k
  if nb then
    let r := nbBegin s j.h pc cls (nbDst (.load a k nb cls aux base p))
    eachElem va (fun s e => nbElem s j.h r.2 (va e) n n needR false fun ag ipa =>
      { mkElt ag cls .read .issued (va e) ipa n none [] with e := e, dst := p.toNat, ew := 8 * n }) es r.1
  else eachElem va (fun s e => (settled s j.h cls fun s => hartRead s j.h cls (va e) n n).bind fun s bs =>
      .ok (s.modHart j.h fun x => writeElems x j.cx.q p.toNat 73 (8 * n) [(e, some (leBytes bs))]) ()) es s

/-- VLDFF would stop at an element: it fails its checks, is refused, misses, or its page or destination does not allow it; one that
has issued is no longer such an element, whatever becomes of its destination (R252). -/
def firstFails (s : State) (h va n : Nat) : State × Bool :=
  match hartCheck s h va n n needR false with
  | .error _ => (s, true)
  | .ok ipa =>
    match translate s (s.agent h) ipa needR with
    | (s, .ok _ leaf) =>
      let a := s.agent h
      let issued := s.far.any (fun f => f.is a ipa) || a.told == some (.remoteFailed (ipaHome ipa))
      (s, leaf.getLsbD 5 || (!issued && unreachable s (hartDie h) (ipaHome ipa)))
    | (s, _) => (s, true)

/-- The elements of a VLDFF (R252); one at or above ahi is scanned and not loaded. -/
def firstElems (j : Job) (cls n : Nat) (p : BitVec 7) (va : Nat → Nat) : List Nat → State → Run
  | [], s => (s, none)
  | e :: r, s =>
    let f := if e = 0 then (s, false) else firstFails s j.h (va e) n
    let s := f.1
    if f.2 then (s, some (.short e))
    else if j.ahi ≤ e then firstElems j cls n p va r s
    else runThen (eachElem va (fun s e => (settled s j.h cls fun s => hartRead s j.h cls (va e) n n).bind fun s bs =>
        .ok (s.modHart j.h fun x => writeElems x j.cx.q p.toNat 73 (8 * n) [(e, some (leBytes bs))]) ()) [e] s)
      (firstElems j cls n p va r)

/-- VLDFF (R252). -/
def runFirst (j : Job) (k : BitVec 3) (cls : Nat) (aux base : BitVec 5) (p : BitVec 7) (s : State) : Run :=
  let n := j.cx.w / 8
  firstElems j cls n p (j.addr s .flat aux base n) (j.cx.elems.filter fun e => (s.hart j.h).maskBit k e) s

/-- One blocking store element, of n bytes that lie on an n-byte boundary; an entry of the side log remembers which element it is. -/
def Job.storeElem (j : Job) (cls va n e : Nat) (bs : List Byte) (s : State) : Res Unit :=
  if j.skip.contains e then .ok s ()
  else
    let id := (s.hart j.h).next
    settled s j.h cls fun s => (hartWrite s j.h cls va n j.mark bs).bind fun s _ => .ok (s.modElt j.h id fun q => { q with e := e }) ()

/-- A vector store (R248, R251). -/
def runStore (j : Job) (pc : Word) (a : Addr) (k : BitVec 3) (nb : Bool) (cls : Nat) (aux base : BitVec 5) (p : BitVec 7)
    (s : State) : Run :=
  let n := j.cx.w / 8
  let va := j.addr s a aux base n
  let es := j.active s k
  let data (s : State) (e : Nat) : List Byte := toBytes n (readOp (s.hart j.h) j.cx p (8 * n) e)
  if nb then
    let r := nbBegin s j.h pc cls none
    eachElem va (fun s e => nbElem s j.h r.2 (va e) n n needW false fun ag ipa =>
      { mkElt ag cls .write .issued (va e) ipa n none (data s e) with e := e }) es r.1
  else eachElem va (fun s e => j.storeElem cls (va e) n e (data s e) s) es s

/-! Tagged accesses (R279). -/

/-- One tagged element: its value, none for a wait. -/
def tagElem (j : Job) (cls kind va : Nat) (data : BitVec 32) (s : State) : Res (Except TagRec Nat) :=
  match tagCheck s j.h va kind with
  | .error c => .fault s c
  | .ok ipa => settled s j.h cls fun s => tagAccess s j.h cls ipa va kind data

/-- The active elements of a blocking VLDF or VSTE, one at a time; vals are the values served so far, oldest first. put says
what an element does with its value. -/
def tagElems (j : Job) (cls kind : Nat) (va : Nat → Nat) (data : State → Nat → BitVec 32) (put : Nat → Nat → Hart → Hart) :
    List Nat → List Nat → List Nat → State → Run
  | [], _, _, s => (s, none)
  | e :: r, v :: old, vals, s => tagElems j cls kind va data put r old (vals ++ [v]) (s.modHart j.h (put e v))
  | e :: r, [], vals, s =>
    match (s.hart j.h).served with
    | some w =>
      tagElems j cls kind va data put r [] (vals ++ [w.toNat])
        ((s.accessed j.h cls).modHart j.h fun x => put e w.toNat { x with served := none })
    | none =>
      match tagElem j cls kind (va e) (data s e) s with
      | .fault s c => (s, some (.trap e ⟨c, BitVec.ofNat 64 (va e)⟩))
      | .stall s w => (s, some (.hold e w))
      | .ok s (.error q) => (s, some (.tag e q (va e) vals))
      | .ok s (.ok v) => tagElems j cls kind va data put r [] (vals ++ [v]) (s.modHart j.h (put e v))

/-- VLDF (R279). -/
def runTagLoad (j : Job) (pc : Word) (k : BitVec 3) (nb : Bool) (cls : Nat) (aux base : BitVec 5) (p : BitVec 7) (s : State) :
    Run :=
  let va := j.addr s .flat aux base 4
  let s := (if nb then [] else j.past s k).foldl (fun s e => s.modHart j.h (j.putY p.toNat 32 e (j.boundY 32 e))) s
  let es := j.active s k
  if nb then
    let r := nbBegin s j.h pc cls (nbDst (.tagLoad k nb cls aux base p))
    eachElem va (fun s e =>
      match tagCheck s j.h (va e) 0 with
      | .error c => .fault s c
      | .ok ipa => .ok ((nbIssue s j.h r.2
          { mkElt (s.agent j.h) cls .tagRead .issued (va e) ipa 4 none [] with e := e, dst := p.toNat, ew := 32 }).parkIssued j.h
          (s.hart j.h).next) ()) es r.1
  else tagElems j cls 0 va (fun _ _ => 0) (j.putY p.toNat 32) es j.cv.vals [] s

/-- VSTE (R279). -/
def runTagStore (j : Job) (k : BitVec 3) (cls : Nat) (aux base : BitVec 5) (p : BitVec 7) (s : State) : Run :=
  tagElems j cls 2 (j.addr s .flat aux base 4) (fun s e => BitVec.ofNat 32 (readOp (s.hart j.h) j.cx p 32 e))
    (fun _ _ x => x) (j.active s k) j.cv.vals [] s

/-! Vector atomics (R267 to R270) and mutexes (R271 to R273). -/

/-- Element e of a register as a VA. -/
def vaElem (x : Hart) (n e : Nat) : Nat := elemOf (x.v n) 64 e

/-- Check and translate an element without applying it (R269, R271). -/
def atomicProbe (h cls n va : Nat) (s : State) : Res Unit :=
  match hartCheck s h va n n needRW true with
  | .error c => .fault s c
  | .ok ipa =>
    if (s.hart h).logged cls then .stall s .order else
    match translate s (s.agent h) ipa needRW with
    | (s, .refuse c) => .fault s c
    | (s, .miss) => missStall s (s.agent h) ipa needRW
    | (s, .ok _ _) => .ok s ()

/-- One element of an atomic. -/
def atomicElem (h cls n va : Nat) (o : AtomicOp) (s : State) : Res Nat :=
  match hartCheck s h va n n needRW true with
  | .error c => .fault s c
  | .ok ipa => settled s h cls fun s => hartAtomicIpa s h cls ipa n o

/-- Operand of a VAMO element after its modifiers (R267). -/
def amoOperand (p : Pfx) (op : BitVec 4) (w v : Nat) : Nat :=
  if op = 11 then modF p 1 w v else modI p 1 w (op == 6 || op == 7 || op == 10) v

/-- VAMO (R267 to R270). -/
def runAmo (j : Job) (pc : Word) (p : Pfx) (op : BitVec 4) (cls rva : Nat) (vd : Option Nat) (vv : Nat) (s : State) : Run :=
  let w := j.cx.w
  let n := w / 8
  let x := s.hart j.h
  let va (e : Nat) : Nat := vaElem x rva e
  let a (s : State) (e : Nat) : Nat := amoOperand p op w (elemOf ((s.hart j.h).v vv) w e)
  let es := j.active s p.k
  match vd with
  | none =>
    let r := nbBegin s j.h pc cls none
    eachElem va (fun s e => nbElem s j.h r.2 (va e) n n needRW true fun ag ipa =>
      { mkElt ag cls (.amo op) .issued (va e) ipa n none (toBytes n (a s e)) with e := e }) es r.1
  | some d =>
    let s := (j.past s p.k).foldl (fun s e => s.modHart j.h (j.putY d w e (j.boundY w e))) s
    runThen (eachElem va (fun s e => settled s j.h cls (atomicProbe j.h cls n (va e))) es s) fun s =>
      eachElem va (fun s e => (atomicElem j.h cls n (va e) (.amo op w (a s e) (elemOf ((s.hart j.h).v d) w e)) s).bind fun s old =>
        .ok (s.modHart j.h (j.putY d w e old)) ()) es s

/-- Insert a lane at its place by VA, then lane. -/
def insertLane (p : Nat × Nat) : List (Nat × Nat) → List (Nat × Nat)
  | [] => [p]
  | q :: r => if p.1 < q.1 || (p.1 == q.1 && p.2 < q.2) then p :: q :: r else q :: insertLane p r

/-- The lowest lane of each VA, in rising VA order: VA and lane (R272). -/
def lanes (va : Nat → Nat) (es : List Nat) : List (Nat × Nat) :=
  (es.filter fun e => !es.any fun f => f < e && va f == va e).foldl (fun l e => insertLane (va e, e) l) []

/-- The token of a hart (R272). -/
def mutexToken (s : State) (h : Nat) : Nat :=
  let d := hartDie h
  2 ^ 63 + (s.hart h).c.ctxid.toNat * 2 ^ 32 + (d / 4 * 384 + d % 4 * 96 + coreInDie h * 2 + h % 2)

/-- The access of a lane to another die was dropped, or its response is lost (R311). -/
def laneFar (s : State) (h va : Nat) : Bool :=
  let a := s.agent h
  match hartCheck s h va 8 8 needRW true with
  | .ok ipa => a.told == some (.remoteFailed (ipaHome ipa)) ||
      s.far.any fun f => f.is a ipa && (f.state == .dropped || f.state == .lost)
  | .error _ => false

/-- The lanes of VACQ and VREL in their order; a lane whose word is in error is lost with lost, and counted (R272). A lane that
is dropped as unreachable traps (R311). -/
def laneElems (h cls : Nat) (lost : Bool) (o : AtomicOp) (won : State → Nat → Nat → State) :
    List (Nat × Nat) → State → Run
  | [], s => (s, none)
  | (va, e) :: r, s =>
    match atomicElem h cls 8 va o s with
    | .ok s old => laneElems h cls lost o won r (won s e old)
    | .fault s c =>
      if lost && c = .dataError && !laneFar s h va then laneElems h cls lost o won r (s.countCtx (hartDie h / 4) (s.owner h) 3)
      else (s, some (.trap e ⟨c, BitVec.ofNat 64 va⟩))
    | .stall s w => (s, some (.hold e w))

/-- VACQ (R271, R272). -/
def runAcquire (j : Job) (k : BitVec 3) (cls rva : Nat) (kd : BitVec 3) (s : State) : Run :=
  let x := s.hart j.h
  let va (e : Nat) : Nat := vaElem x rva e
  let es := j.active s k
  let t := mutexToken s j.h
  runThen (eachElem va (fun s e => settled s j.h cls (atomicProbe j.h cls 8 (va e))) es s) fun s =>
    laneElems j.h cls true (.amo 9 64 t 0)
      (fun s e old => s.modHart j.h fun x => x.putBits kd [(e, decide (old = 0))])
      (lanes va es) (s.modHart j.h fun x => x.putBits kd (j.cx.elems.map fun e => (e, false)))

/-- VREL (R273). -/
def runRelease (j : Job) (k : BitVec 3) (cls rva : Nat) (s : State) : Run :=
  let x := s.hart j.h
  let va (e : Nat) : Nat := vaElem x rva e
  let es := j.active s k
  runThen (eachElem va (fun s e => settled s j.h cls (atomicProbe j.h cls 8 (va e))) es s) fun s =>
    laneElems j.h cls false (.amo 8 64 0 0) (fun s _ _ => s) (lanes va es) s

/-! Stream binding (R253 to R258). -/

/-- Bytes read at consecutive VAs in pieces of n: the bytes, or the stop. -/
def readPieces (j : Job) (cls n e : Nat) : List Nat → List Byte → State → (List Byte → State → Run) → Run
  | [], got, s, k => k got s
  | va :: r, got, s, k =>
    match settled s j.h cls fun s => hartRead s j.h cls va n n with
    | .ok s bs => readPieces j cls n e r (got ++ bs) s k
    | .fault s c => (s, some (.trap e ⟨c, BitVec.ofNat 64 va⟩))
    | .stall s w => (s, some (.hold e w))

/-- VBIND (R254). -/
def runBind (j : Job) (cls : Nat) (base : BitVec 5) (p : BitVec 7) (s : State) : Run :=
  let va := (j.cx.g base).toNat
  if va % 32 ≠ 0 then (s, some (.trap 0 ⟨.misaligned, j.cx.g base⟩))
  else readPieces j cls 8 0 [va, va + 8, va + 16, va + 24] [] s fun bs s =>
    let r := BitVec.ofNat 256 (leBytes bs) &&& ~~~ (1#256 <<< 127)
    if bindBad (hasFeature s j.h) r then (s, some (.trap 0 ⟨.bindFault, j.cx.g base⟩))
    else (s.modHart j.h fun x => { x with bind := mset none x.bind p.toNat (some (cls, r)) }, none)

/-- VUNBIND (R254). -/
def runUnbind (j : Job) (cls : Nat) (p : BitVec 7) (s : State) : Run :=
  match mget none (s.hart j.h).bind p.toNat with
  | none => (s, none)
  | some (_, r) =>
    let va := ((s.hart j.h).c.bindbase + BitVec.ofNat 64 (32 * p.toNat)).toNat
    match settled s j.h cls fun s => hartWrite s j.h cls va 32 j.mark (toBytes 32 r.toNat) with
    | .ok s _ => (s.modHart j.h fun x => { x with bind := mset none x.bind p.toNat none }, none)
    | .fault s c => (s, some (.trap 0 ⟨c, BitVec.ofNat 64 va⟩))
    | .stall s w => (s, some (.hold 0 w))

/-- VA of stored element i of a record (R253). -/
def streamVa (r : BitVec 256) (i : Nat) : Nat :=
  let base : Word := BitVec.ofNat 64 (recField r 0 64)
  let w := codeWidth (recSfmt r)
  (if recField r 64 32 = 0 then base + BitVec.ofNat 64 (i * w / 8) else base + BitVec.ofNat 64 i * recStride r).toNat

/-- Group size of a record. -/
def recGroup (r : BitVec 256) : Nat := 32 * 2 ^ recField r 104 2

/-- A stored element decoded (R253). m is its metadata record. Between equal formats the bits are copied, those of a NaN too
(DEDUCED, log 63). -/
def streamDecode (sf df : BitVec 4) (v m : Nat) : Nat :=
  if sf = df then v
  else match fltOfCode sf, fltOfCode df with
    | some f, some g => (g.rne (f.dec v)).1
    | none, some g => (g.rne (mulNum (FFmt.f16.dec (m % 2 ^ 16)) (Num.ofInt ((v : Int) - recZp (sf == 9) m))).1).1
    | _, _ => wrapInt (codeWidth df) (intOf (codeWidth sf) (codeUns sf) v)

/-- The strip of a bound register over elements of the unit (R256). What stops at an element that is read early stops the first
element of the unit (log 9). -/
def stripElems (j : Job) (cls : Nat) (r : BitVec 256) : List Nat → State → Run
  | [], s => (s, none)
  | e :: es, s =>
    let i := recPos r + e
    let sf := recSfmt r
    let n := max 1 (codeWidth sf / 8)
    let at_ := if j.alo ≤ e && e < j.ahi then e else j.alo
    let put (v m : Nat) (s : State) : State :=
      let v := if sf = 9 then v / 2 ^ (4 * (i % 2)) % 16 else v
      s.modHart j.h fun x => x.put j.cx.q 73 (codeWidth (recDfmt r)) e (streamDecode sf (recDfmt r) v m)
    readPieces j cls n at_ [streamVa r i] [] s fun bs s =>
      if isQ sf && recDfmt r != sf then
        readPieces j cls 4 at_ [(BitVec.ofNat 64 (recField r 128 64 + 4 * (i / recGroup r))).toNat] [] s fun ms s =>
          stripElems j cls r es (put (leBytes bs) (leBytes ms) s)
      else stripElems j cls r es (put (leBytes bs) 0 s)

/-- The strip of register n (R256). A convoy that resumes reads none of the elements below its start; a VBCAST of such an element
takes a free value, which the convoy drew when it started (R148; DESIGN CHOICE, log 56). -/
def runStrip (j : Job) (n : Nat) (s : State) : Run :=
  match mget none (s.hart j.h).bind n with
  | none => (s, none)
  | some (cls, r) =>
    let w := codeWidth (recDfmt r)
    let start := (s.hart j.h).c.epos.toNat
    let kept (e : Nat) : Bool := j.cv.ahead.isSome && (j.early.contains e || (j.ahead && e < j.alo))
    let s := (j.early.filter (· < start)).foldl
      (fun s e => s.modHart j.h fun x => x.put j.cx.q 73 w e (j.cv.bval / 2 ^ (w * (e % max 1 (j.cx.w / w))))) s
    let all := (j.early.filter fun e => start ≤ e && !j.cx.elems.contains e) ++ j.cx.elems
    let s := (all.filter kept).foldl (fun s e => s.modHart j.h fun x => x.put j.cx.q 73 w e (j.boundL w e)) s
    stripElems j cls r (all.filter fun e => !kept e && (j.early.contains e || (j.alo ≤ e && e < j.ahi))) s

/-! XCOPY (R259, R260). -/

/-- Check a piece, reporting the first byte that fails (R260). -/
def checkPiece (s : State) (h : Nat) (need : Need) (p : Nat × Nat) : Except (Nat × Cause) Nat :=
  match hartCheck s h p.1 p.2 1 need false with
  | .ok ipa => .ok ipa
  | .error c =>
    let bad := (List.range p.2).find? fun i => match hartCheck s h (p.1 + i) 1 1 need false with | .ok _ => false | .error _ => true
    let i := bad.getD 0
    match hartCheck s h (p.1 + i) 1 1 need false with
    | .error c => .error (p.1 + i, c)
    | .ok _ => .error (p.1, c)

/-- Check pieces in order: their IPAs and sizes. -/
def checkPieces (s : State) (h : Nat) (need : Need) : List (Nat × Nat) → Except (Nat × Cause) (List (Nat × Nat × Nat))
  | [] => .ok []
  | p :: r =>
    match checkPiece s h need p with
    | .error e => .error e
    | .ok ipa =>
      match checkPieces s h need r with
      | .error e => .error e
      | .ok l => .ok ((p.1, ipa, p.2) :: l)

/-- The read of a segment, piece by piece; a refusal or an error is that of the first byte that meets it (R260). -/
def copyRead (j : Job) (cls e : Nat) : List (Nat × Nat × Nat) → List Byte → State → (List Byte → State → Run) → Run
  | [], got, s, k => k got s
  | (va, ipa, n) :: r, got, s, k =>
    match settled s j.h cls fun s => hartReadIpa s j.h cls ipa n with
    | .ok s bs => copyRead j cls e r (got ++ bs) s k
    | .fault s' c =>
      let bad := match translate s' (s'.agent j.h) ipa needR with
        | (_, .ok key _) => (List.range n).find? fun i => s'.poisoned (key + i) 1
        | _ => none
      (s', some (.trap e ⟨c, BitVec.ofNat 64 (va + bad.getD 0)⟩))
    | .stall s w => (s, some (.hold e w))

/-- The source of a segment is one access of space 0xD that leaves the item it starts in (R377). -/
def copySplit (s : State) (h va n : Nat) : Bool :=
  match xlateVa s (s.agent h) va needR with
  | .ok ipa => ipaSpace ipa == 13 && !check4 s (s.agent h) (s.hart h).c.prv ipa n needR false
  | .error _ => false

/-- One segment of an XCOPY; op is the number of a non-blocking one (R260). -/
def copySegment (j : Job) (cls : Nat) (op : Option Nat) (src dst n e : Nat) (s : State) : Run :=
  let ld := dst - dst % 128
  let lo := max dst (ld + 128 * e)
  let hi := min (dst + n) (ld + 128 * (e + 1))
  let size := hi - lo
  match checkPieces s j.h needR (linePieces 3 ((src + lo - dst) % 2 ^ 64) size) with
  | .error (va, c) => (s, some (.trap e ⟨c, BitVec.ofNat 64 va⟩))
  | .ok ps =>
    let sva := (src + lo - dst) % 2 ^ 64
    if copySplit s j.h sva size then (s, some (.trap e ⟨.protectionFault, BitVec.ofNat 64 sva⟩))
    else match checkPieces s j.h needW [(lo % 2 ^ 64, size)] with
    | .error (va, c) => (s, some (.trap e ⟨c, BitVec.ofNat 64 va⟩))
    | .ok ds =>
      let d := ds.headD (0, 0, 0)
      match op with
      | some id => ((nbIssue s j.h id
          { mkElt (s.agent j.h) cls .copy .issued d.1 d.2.1 size none [] with
            e := e, srcVa := sva, src := ps.map fun p => (p.2.1, p.2.2) }).parkIssued j.h (s.hart j.h).next, none)
      | none => copyRead j cls e ps [] s fun bs s =>
        match settled s j.h cls fun s => hartWriteIpa s j.h cls d.1 d.2.1 j.mark bs with
        | .ok s _ => (s, none)
        | .fault s c => (s, some (.trap e ⟨c, BitVec.ofNat 64 d.1⟩))
        | .stall s w => (s, some (.hold e w))

/-- The segments of the unit. -/
def copyElems (j : Job) (cls : Nat) (op : Option Nat) (src dst n : Nat) : List Nat → State → Run
  | [], s => (s, none)
  | e :: r, s => runThen (copySegment j cls op src dst n e s) (copyElems j cls op src dst n r)

/-- XCOPY (R259). -/
def runCopy (j : Job) (pc : Word) (nb : Bool) (cls : Nat) (src dst n : BitVec 5) (s : State) : Run :=
  let go (s : State) (op : Option Nat) : Run :=
    copyElems j cls op (j.cx.g src).toNat (j.cx.g dst).toNat (j.cx.g n).toNat j.cx.elems s
  if nb then let r := nbBegin s j.h pc cls none; go r.1 (some r.2) else go s none

/-! Tile instructions with memory accesses. -/

/-- TLD (R182). -/
def runTld (j : Job) (k : BitVec 3) (dir : BitVec 2) (t : BitVec 3) (gi gb : BitVec 5) (cls : Nat) (s : State) : Run :=
  let va (e : Nat) : Nat := (j.cx.g gb + BitVec.ofNat 64 (4 * e)).toNat
  eachElem va (fun s e => (settled s j.h cls fun s => hartRead s j.h cls (va e) 4 4).bind fun s bs =>
    .ok (s.modHart j.h fun x => x.putTile j.cx.q t (lineAt dir (j.cx.tileIdx gi) e) (leBytes bs)) ())
    ((lineElems (s.hart j.h) j.cx k).filter (· < j.ahi)) s

/-- TST (R182). -/
def runTst (j : Job) (k : BitVec 3) (dir : BitVec 2) (t : BitVec 3) (gi gb : BitVec 5) (cls : Nat) (s : State) : Run :=
  let va (e : Nat) : Nat := (j.cx.g gb + BitVec.ofNat 64 (4 * e)).toNat
  eachElem va (fun s e => j.storeElem cls (va e) 4 e (toBytes 4 ((s.hart j.h).tileWord t (lineAt dir (j.cx.tileIdx gi) e))) s)
    ((lineElems (s.hart j.h) j.cx k).filter (· < j.ahi)) s

/-- VAs of the 128-byte pieces of a row. -/
def rowPieces (d : PDesc) : List Nat := (List.range (rowBytes d / 128)).map fun i => d.va + 128 * i

/-- Fill rows from memory in order, as element e on (R178, R181). -/
def fillRows (j : Job) (e : Nat) : List (Nat × PDesc) → State → Run
  | [], s => (s, none)
  | (p, d) :: r, s =>
    readPieces j d.cls 128 e (rowPieces d) [] s fun bs s =>
      fillRows j (e + 1) r (s.modHart j.h fun x => x.setRow p (rowOf d.w d.md bs) { d with lazy := false })

/-- The start checks of a BLD: its trap, if any (R178). epc of its MISALIGNED is the convoy's start, as the table of R324 says, not
the BLD's own VA, as R69 and R326 read (startEpc; DEDUCED, log 48). -/
def bldTrap (x : Hart) (cx : VCx) (wide : Bool) (gb gi : BitVec 5) (i : Instr) : Option Trap :=
  if bldBad cx x.c.mtype wide (cx.g gb).toNat then some ⟨.illegalOperand, parcels i⟩
  else if (cx.g gi).toNat % (if wide then 256 else 512) ≠ 0 then some ⟨.misaligned, cx.g gi⟩
  else none

/-- BLD and BLD.W (R178). -/
def runBld (j : Job) (wide : Bool) (gb gi : BitVec 5) (cls : Nat) (s : State) : Run :=
  fillRows j 0 ((bldRows j.cx (s.hart j.h).c.mtype cls wide (j.cx.g gb).toNat (j.cx.g gi).toNat).take j.ahi) s

/-- Refetch the LAZY rows of a list in order (R181). -/
def refetch (j : Job) : List Nat → State → Run
  | [], s => (s, none)
  | p :: r, s =>
    let d := (s.hart j.h).desc p
    if d.lazy then runThen (fillRows j 0 [(p, d)] s) (refetch j r) else refetch j r s

/-- An MMA: checks, refetches, arithmetic (R181, R186 to R191). -/
def runMmaOn (j : Job) (pc : Word) (i : Instr) (a : MArgs) (s : State) : Run :=
  let x := s.hart j.h
  let mt := x.c.mtype
  if mmaBad x j.cx mt a then (s, some (.bad pc ⟨.illegalOperand, parcels i⟩))
  else runThen (refetch j (mmaReads x j.cx mt a) s) fun s =>
    let x := s.hart j.h
    let s := s.setHart j.h (runMma x j.cx mt a)
    (if s.owner j.h = 0 then s else s.charge (hartDie j.h) (s.owner j.h) 1 (mmaUnits x j.cx mt a), none)

/-- A tile instruction on its unit. -/
def runTile (j : Job) (pc : Word) (i : Instr) (s : State) : Run :=
  let set (f : Hart → Hart) : Run := (s.modHart j.h f, none)
  let x := s.hart j.h
  match i with
  | .tzero _ t => set fun x => (List.range 128).foldl (fun x r => x.setTile t.toNat r 0) x
  | .tld _ k dir t gi gb cls => runTld j k dir t gi gb cls.toNat s
  | .tst _ k dir t gi gb cls => runTst j k dir t gi gb cls.toNat s
  | .trd _ k dir t gi p =>
    set fun x => latchElems x j.cx.q p.toNat 75 32 ((lineElems x j.cx k).map fun e =>
      (e, some (x.tileWord t (lineAt dir (j.cx.tileIdx gi) e))))
  | .twr _ k dir t gi p =>
    set fun x => (lineElems x j.cx k).foldl (fun y e =>
      y.putTile j.cx.q t (lineAt dir (j.cx.tileIdx gi) e) (readOp x j.cx p 32 e)) x
  | .tdrain _ k clamp scale dir t gi p f => set fun x => runDrain x j.cx x.c.mtype k clamp scale dir t gi p f
  | .tdrainBp _ k clamp scale dir t gi p f => set fun x => runDrain x j.cx x.c.mtype k clamp scale dir t gi p f
  | .bld _ gb gi cls =>
    match bldTrap x j.cx false gb gi i with
    | some t => (s, some (.bad pc t))
    | none => runBld j false gb gi cls.toNat s
  | .bldW _ gb gi cls =>
    match bldTrap x j.cx true gb gi i with
    | some t => (s, some (.bad pc t))
    | none => runBld j true gb gi cls.toNat s
  | .binv _ gb gi => set fun x => runBinv x (j.cx.g gb).toNat (j.cx.g gi).toNat
  | .mcfg _ gi => set fun x => { x with c := { x.c with mtype := (j.cx.g gi).setWidth 22 } }
  | _ => match mmaOf i with
    | some a => runMmaOn j pc i a s
    | none => (s, none)

/-! One instruction. -/

/-- The convoy's VBCAST from a bound register takes its element of the strip, which the convoy has read early; on a resumption
above that element it takes a free value (R148, R256; DESIGN CHOICE, log 56). -/
def Job.withStrip (j : Job) (s : State) : VBase → Job
  | .vg .bcast gs vs _ => if vs = 73 then { j with cx := { j.cx with bval := inReg (s.hart j.h) j.cx vs (j.cx.g gs).toNat } } else j
  | _ => j

/-- A pipe-A or pipe-X instruction on its unit. -/
def runVec (x : Hart) (cx : VCx) (p : Pfx) : VBase → Hart
  | .vv op vs2 vs1 vd => runVV x cx p op vs2 vs1 vd
  | .cmp fl vs2 vs1 cond kd => runCmp x cx p fl vs2 vs1 cond kd
  | .vf op vs vd => runVF x cx p op vs vd
  | .vg op gs vs vd => runVG x cx p op gs vs vd
  | .vx op sat f2 f1 vs vd => runVX x cx p x.c.mtype op sat f2 f1 vs vd
  | _ => x

/-- One instruction of a convoy on the unit; i is the instruction itself. -/
def runOp (j : Job) (pc : Word) (o : COp) (s : State) : Run :=
  match o with
  | .vec p b => (s.modHart j.h fun x => runVec x (j.withStrip s b).cx p b, none)
  | .kop f kd a b => (s.modHart j.h fun x => runKop x j.cx f kd a b, none)
  | .ksc first rd ks => (s.modHart j.h fun x => runKsc x j.cx first rd ks, none)
  | .amo p op cls va vd vv => runAmo j pc p op cls.toNat va vd vv s
  | .load a k nb cls aux base p => runLoad j pc a k nb cls aux base p s
  | .first k cls aux base p => runFirst j k cls aux base p s
  | .store a k nb cls aux base p => runStore j pc a k nb cls aux base p s
  | .tagLoad k nb cls aux base p => runTagLoad j pc k nb cls aux base p s
  | .tagStore k cls aux base p => runTagStore j k cls aux base p s
  | .bind cls base p => runBind j cls base p s
  | .unbind cls p => runUnbind j cls p s
  | .xcopy nb cls src dst n => runCopy j pc nb cls src dst n s
  | .acquire k cls va kd => runAcquire j k cls va kd s
  | .release k cls va => runRelease j k cls va s
  | .strip n => runStrip j n s
  | .tile i => runTile j pc i s

/-- The latch that an instruction writes, a strip at its decoded width. -/
def latchAt (x : Hart) (ew : Nat) : COp → Option (Nat × Nat)
  | .strip n => match mget none x.bind n with
    | some (_, r) => some (73, codeWidth (recDfmt r))
    | none => none
  | o => latchOf ew o

/-- The latch of an instruction below the element at which its convoy has resumed holds a free value (R77; DESIGN CHOICE, log 61). It
matters only to a later instruction that reads narrower elements. -/
def Job.oldLatch (j : Job) (o : COp) (s : State) : State :=
  match latchAt (s.hart j.h) j.cx.w o with
  | some (n, w) =>
    let b := w * (s.hart j.h).c.epos.toNat
    if j.ahead && b != 0 then
      s.modHart j.h fun x => x.setV n (BitVec.ofNat 4096 ((x.v n).toNat / 2 ^ b * 2 ^ b + j.cv.latch.toNat % 2 ^ b))
    else s
  | none => s

/-- The instructions of a convoy on the unit, in program order (R28). -/
def runOps (j : Job) : List (Word × COp) → State → Run
  | [], s => (s, none)
  | (pc, o) :: r, s => runThen (runOp (j.at o) pc o s) fun s => runOps j r (j.oldLatch o s)

end Sys2Proof.Machine
end

