-- ==== Sys2Proof/Machine/Convoy.lean ====
section
/-! DEFINITION. Convoys: the checks before one starts, its commit units, traps and waits, and its completion (R24 to R33, R68,
R69, R85, R90, R256, R324, R326). -/

namespace Sys2Proof.Machine

open Sys2Proof

/-- An instruction of a convoy as fetched: VA, length, parcels, and the instruction, none for an illegal one. -/
structure Slot where
  pc  : Word
  len : Word
  raw : Word
  i   : Option Instr
  deriving DecidableEq, Repr

/-- Length of an instruction in bytes. -/
def insnLen (i : Instr) : Word :=
  match encode i with
  | some (n, _) => BitVec.ofNat 64 n
  | none => 4

/-- A fetched instruction that decodes. -/
def slotOf (pc : Word) (i : Instr) : Slot := ⟨pc, insnLen i, parcels i, some i⟩

/-- The convoy form of a slot. -/
def Slot.op (l : Slot) : Option COp := l.i.bind convoyOp

/-! Checks. -/

/-- What the instructions of hart h read, for a convoy that starts with the given g registers. -/
def cxOf (s : State) (h : Nat) (gs : Map Word) (lo hi bval : Nat) : VCx :=
  let x := s.hart h
  { gs := gs, vt := x.c.vtype, q := (s.core (hartCore h)).q, vl := x.c.vl, lo, hi, bval }

/-- Check 2 (R68), for a hart with mtype mt. -/
def check2 (s : State) (h : Nat) (cx : VCx) (mt : BitVec 22) (o : COp) : Bool :=
  badKind cx o || badScale cx o || (featuresOf o).any (fun f => !hasFeature s h f) ||
  (match o with
   | .tile i => tileBad mt i || (match i with | .mcfg _ gi => mcfgBad (hasFeature s h) (cx.g gi) | _ => false)
   | _ => false)

/-- The VBCAST source element of a convoy at its start (R149). -/
def bcastVal (x : Hart) (cx : VCx) (os : List COp) : Nat :=
  os.foldl (fun v o => match o with
    | .vec _ (.vg .bcast gs vs _) => if isReg vs || 76 < vs.toNat then inReg x cx vs (cx.g gs).toNat else v
    | _ => v) 0

/-- A convoy as it starts: no unit has committed, and it has its pipes. -/
def freshConv (start : Word) (insns : List (Word × Instr)) (gs : Map Word) (lo bval : Nat) : Conv :=
  { start, insns, gs, lo, bval, vals := [], ahead := none, on := true, flags := 0, kept := [], latch := 0 }

/-! Strips. -/

/-- Replace the source registers of a convoy instruction: specifiers by f, 5-bit fields by g (R256). -/
def mapSrc (f : BitVec 7 → BitVec 7) (g : Nat → Nat) : COp → COp
  | .vec p (.vv op a b d) => .vec p (.vv op (f a) (f b) d)
  | .vec p (.cmp fl a b c kd) => .vec p (.cmp fl (f a) (f b) c kd)
  | .vec p (.vf op a d) => .vec p (.vf op (if op = .id then a else f a) d)
  | .vec p (.vg op gs a d) => .vec p (.vg op gs (f a) d)
  | .vec p (.vx op s f2 f1 a d) => .vec p (.vx op s f2 f1 (f a) d)
  | .amo p op cls va vd vv => .amo p op cls (g va) vd (g vv)
  | .load (.indexed n) k nb cls aux base p => .load (.indexed (g n)) k nb cls aux base p
  | .store a k nb cls aux base p =>
    .store (match a with | .indexed n => .indexed (g n) | a => a) k nb cls aux base (f p)
  | .tagStore k cls aux base p => .tagStore k cls aux base (f p)
  | .acquire k cls va kd => .acquire k cls (g va) kd
  | .release k cls va => .release k cls (g va)
  | .tile i => .tile (match i with
      | .twr c k dir t gi p => .twr c k dir t gi (f p)
      | .mopa c k om t p gb => .mopa c k om t (f p) gb
      | .mipa c k om t gi p gb => .mipa c k om t gi (f p) gb
      | .mrwa c k om t gi p gb => .mrwa c k om t gi (f p) gb
      | .mrws c k om t gi p gb => .mrws c k om t gi (f p) gb
      | i => i)
  | o => o

/-- The instructions of a convoy with the strip of its bound register before the first reader, which then reads the latch
ll. -/
def withStrips (x : Hart) (ew : Nat) : Bool → List (Word × COp) → List (Word × COp)
  | _, [] => []
  | done, (pc, o) :: r =>
    match boundRead x ew o with
    | [] => (pc, o) :: withStrips x ew done r
    | n :: _ =>
      let bound (m : Nat) : Bool := m < 64 && (mget none x.bind m).isSome
      let o' := mapSrc (fun p => if bound p.toNat then 73 else p) (fun m => if bound m then 73 else m) o
      (if done then [] else [(pc, COp.strip n)]) ++ (pc, o') :: withStrips x ew true r

/-! Start checks. -/

/-- The earlier instructions of a convoy run on the hart as it is, to see what they will leave. -/
def runBefore (s : State) (h : Nat) (x : Hart) (cx : VCx) (before : List COp) : Run :=
  let j : Job := { h, cx := { cx with lo := 0, hi := cx.vl }, cv := freshConv x.pc [] cx.gs 0 (bcastVal x cx before), alo := 0
                   ahi := 2 ^ 14, ahead := false, early := [], mark := x.next, skip := [], wins := [] }
  runOps j (withStrips x cx.w false (before.map fun o => (x.pc, o))) (s.setHart h x)

/-- The hart as the earlier instructions of a convoy will leave it; none where one of them stops. -/
def hartAfter (s : State) (h : Nat) (x : Hart) (cx : VCx) (before : List COp) : Option Hart :=
  match runBefore s h x cx before with
  | (s, none) => some (s.hart h)
  | _ => none

/-- An earlier instruction of the convoy writes what the row checks of an MMA read. -/
def mmaDirty (cx : VCx) (before : List COp) (a : MArgs) : Bool :=
  before.any fun b => (writeRegs cx.w b).any (fun p => p.1 == 64 + a.om.toNat) || (a.k != 0 && maskDst b == some a.k)

/-- The start checks of a tile instruction (R176, R178, R180, R186, R188, R189). An MMA whose META or mask register an earlier
instruction of the convoy writes is checked on what that instruction will write; where that instruction waits, the convoy does not
start yet, and where it traps, that trap is the convoy's (DEDUCED, log 32). -/
def tileStart (s : State) (h : Nat) (x : Hart) (cx : VCx) (before : List COp) (i : Instr) : Option Trap :=
  match i with
  | .bld _ gb gi _ => bldTrap x cx false gb gi i
  | .bldW _ gb gi _ => bldTrap x cx true gb gi i
  | .binv _ gb _ => if 8192 ≤ (cx.g gb).toNat then some ⟨.illegalOperand, parcels i⟩ else none
  | _ =>
    match mmaOf i with
    | none => none
    | some a =>
      match if mmaDirty cx before a then hartAfter s h x cx before else some x with
      | some y => if mmaBad y cx x.c.mtype a then some ⟨.illegalOperand, parcels i⟩ else none
      | none => none

/-- The trap of a slot in its convoy, if any of its checks fails: checks 2 to 7, then its start checks (R68, R326). x has the
mtype that the earlier instructions leave. -/
def slotTrap (s : State) (h : Nat) (x : Hart) (cx : VCx) (before all : List COp) (l : Slot) : Option Trap :=
  match l.i, l.op with
  | some i, some o =>
    if check2 s h cx x.c.mtype o then some ⟨.illegalInstruction, l.raw⟩
    else if (match o with | .tile _ => !isMClass h | _ => false) then some ⟨.noArray, l.raw⟩
    else if badConvoy x cx.w before all i o then some ⟨.illegalConvoy, l.raw⟩
    else if badOperand x.c.mtype o then some ⟨.illegalOperand, l.raw⟩
    else if badLatch x cx.w before o then some ⟨.illegalOperand, l.raw⟩
    else match boundDst x cx.w o with
      | some n => some ⟨.bindFault, BitVec.ofNat 64 n⟩
      | none =>
        if stripBig x cx o || countBad cx o then some ⟨.illegalOperand, l.raw⟩
        else match o with
          | .tile i => tileStart s h x cx before i
          | _ => none
  | _, _ => some ⟨.illegalInstruction, l.raw⟩

/-- The mtype after an instruction. -/
def mtypeAfter (x : Hart) (cx : VCx) (o : COp) : Hart :=
  match o with
  | .tile (.mcfg _ gi) => { x with c := { x.c with mtype := (cx.g gi).setWidth 22 } }
  | _ => x

/-- What the checks before a convoy come to, if they do not pass: the first failing slot, its VA and its trap; or a wait. -/
inductive Refused
  | trap (pc : Word) (t : Trap)
  | wait (s : State) (w : Why)

/-- The row checks of a slot need a value that an earlier instruction of the convoy still waits for (log 32). -/
def slotWait (s : State) (h : Nat) (x : Hart) (cx : VCx) (before : List COp) (l : Slot) : Option (State × Why) :=
  match l.i.bind mmaOf with
  | some a =>
    if mmaDirty cx before a then
      match runBefore s h x cx before with
      | (s', some (.hold _ w)) => some (keepRequests s' s, w)
      | _ => none
    else none
  | none => none

/-- The checks of the slots in order (R69, R326). -/
def convoyRefused (s : State) (h : Nat) (cx : VCx) : Hart → List COp → List Slot → Option Refused
  | _, _, [] => none
  | x, before, l :: r =>
    let all := before ++ (r.filterMap Slot.op)
    match slotTrap s h x cx before all l with
    | some t => some (.trap l.pc t)
    | none =>
      match slotWait s h x cx before l with
      | some p => some (.wait p.1 p.2)
      | none =>
        match l.op with
        | some o => convoyRefused s h cx (mtypeAfter x cx o) (before ++ [o]) r
        | none => none

/-! Units. -/

/-- The instructions of a convoy in their convoy form. -/
def convOps (x : Hart) (cv : Conv) (ew : Nat) : List (Word × COp) :=
  withStrips x ew false (cv.insns.filterMap fun p => (convoyOp p.2).map fun o => (p.1, o))

/-- Widest operand of an instruction, a strip at its decoded width (R30). -/
def opWidthOf (x : Hart) (ew : Nat) : COp → Nat
  | .strip n => match mget none x.bind n with
    | some (_, r) => max ew (codeWidth (recDfmt r))
    | none => ew
  | o => opWidth ew o

/-- Registers that an instruction writes, a strip at its decoded width. -/
def writesOf (x : Hart) (ew : Nat) : COp → List (Nat × Nat)
  | .strip n => match mget none x.bind n with
    | some (_, r) => [(73, codeWidth (recDfmt r))]
    | none => []
  | o => writeRegs ew o

/-- A register that two instructions name, the later one at a greater width, one of them writing: then elements of the later one
reach into elements of later units of the earlier one, and instruction by instruction, the order of R28, is not unit by unit. -/
def widened (x : Hart) (ew : Nat) (os : List COp) : Bool :=
  os.zipIdx.any fun a => (os.zipIdx.filter fun b => a.2 < b.2).any fun b =>
    let meets (l r : List (Nat × Nat)) : Bool := l.any fun p => r.any fun q => p.1 == q.1 && p.2 < q.2
    let wa := writesOf x ew a.1
    let wb := writesOf x ew b.1
    meets wa (readRegs ew b.1) || meets wa wb || meets (readRegs ew a.1) wb

/-- The place of a width among the powers of two. -/
def widthLog (w : Nat) : Int := if w ≤ 4 then 2 else if w ≤ 8 then 3 else if w ≤ 16 then 4 else if w ≤ 32 then 5 else 6

/-- What element e of a value rests on: elements of a pipe's memory instruction below (e + 1) * 2 ^ n. -/
abbrev Rests := List (Pipe × Int)

/-- A write of a convoy: the register, a mask register k being 100 + k; the width; whether elements may keep what they held; and what
it rests on. -/
structure Write where
  reg  : Nat
  w    : Int
  part : Bool
  rests : Rests
  deriving DecidableEq, Repr

/-- What register r, read at width w, rests on after writes, the newest first. -/
def restsOn (r : Nat) (w : Int) : List Write → Rests
  | [] => []
  | p :: ps =>
    if p.reg ≠ r then restsOn r w ps
    else p.rests.map (fun q => (q.1, q.2 + w - p.w)) ++ if !p.part && w ≤ p.w then [] else restsOn r w ps

/-- The mask registers that an instruction reads. -/
def maskSrcs (o : COp) : List Nat :=
  (match o with
   | .kop _ _ a b => [a.toNat, b.toNat]
   | _ => []) ++ [(maskOf o).toNat]

/-- What an instruction's elements rest on: its sources and masks; a metadata record covers at least an element of its own width, so
that it lies no further on than the element (R163). -/
def opRests (ew : Nat) (ps : List Write) (o : COp) : Rests :=
  (((srcSpecs ew o).filter fun p => p.1.toNat < 76).map (fun p => (p.1.toNat, p.2)) ++ idxRegs ew o).flatMap
      (fun p => restsOn p.1 (widthLog p.2) ps) ++
    (match metaReg o with
     | some (n, _) => (restsOn n 5 ps).map fun q => (q.1, min q.2 0)
     | none => []) ++
    (maskSrcs o).flatMap fun k => if k = 0 then [] else restsOn (100 + k) 0 ps

/-- A memory instruction of a convoy that is not widened: its pipe and class. -/
def accessOfOp (x : Hart) : COp → Option (Pipe × Nat)
  | .load _ _ _ cls _ _ _ => some (.l, cls)
  | .strip n => (mget none x.bind n).map fun p => (.l, p.1)
  | .store _ _ _ cls _ _ _ => some (.s, cls)
  | .amo _ _ cls _ _ _ => some (.y, cls.toNat)
  | .tagLoad _ _ cls _ _ _ | .tagStore _ cls _ _ _ => some (.y, cls)
  | _ => none

/-- The memory instructions of a convoy in order: pipe, class, and what their accesses rest on. -/
def accessRests (x : Hart) (ew : Nat) : List Write → List COp → List (Pipe × Nat × Rests)
  | _, [] => []
  | ps, o :: r =>
    let rests := opRests ew ps o
    let here := accessOfOp x o
    let out := rests ++ (here.map fun a => (a.1, 0)).toList
    let ws := (writesOf x ew o).map (fun p => (⟨p.1, widthLog p.2, p.1 < 72 && maskOf o != 0, out⟩ : Write)) ++
      ((maskDst o).map fun k => (⟨100 + k.toNat, 0, maskOf o != 0, out⟩ : Write)).toList
    (here.map fun a => (a.1, a.2, rests)).toList ++ accessRests x ew (ws ++ ps) r

/-- How far ahead each memory instruction runs, as powers of two: at least as far as floor says, as the accesses that rest on it
ask, and as the later ones of its class go (R224). -/
def leadsFrom (floor : Pipe → Nat) : List (Pipe × Nat × Rests) → List ((Pipe × Nat × Rests) × Nat)
  | [] => []
  | a :: r =>
    let later := leadsFrom floor r
    let asked := later.flatMap fun c =>
      (if related c.1.2.1 a.2.1 then [c.2] else []) ++ (c.1.2.2.filter fun q => q.1 == a.1).map fun (q : Pipe × Int) => (q.2 + (c.2 : Int)).toNat
    (a, asked.foldl max (floor a.1)) :: later

/-- The lead of a pipe. -/
def leadOf (ls : List ((Pipe × Nat × Rests) × Nat)) (p : Pipe) : Nat := ((ls.find? fun a => a.1.1 == p).map (·.2)).getD 0

/-- A later instruction of the class of an earlier one goes along with it, unless that one would then have to go further still. -/
def leadsAlong (as : List (Pipe × Nat × Rests)) (ls : List ((Pipe × Nat × Rests) × Nat)) (q : Pipe × Nat × Rests) :
    List ((Pipe × Nat × Rests) × Nat) :=
  let before := as.takeWhile fun a => a.1 != q.1
  let with_ := before.filter fun a => related a.2.1 q.2.1
  let n := (with_.map fun a => leadOf ls a.1).foldl max (leadOf ls q.1)
  let ls' := leadsFrom (fun p => if p == q.1 then n else leadOf ls p) as
  if before.all fun a => leadOf ls' a.1 == leadOf ls a.1 then ls' else ls

/-- The leads of a convoy's memory instructions: a convoy in which an access of one unit rests on a value that an earlier
instruction binds in a later unit has that instruction, and those that R224 ties to it, run ahead by that many units; none run
ahead in any other convoy (R28, R221; DEDUCED, log 9). -/
def leadsOf (x : Hart) (ew : Nat) (os : List COp) : List (Pipe × Nat) :=
  let as := accessRests x ew [] os
  let ls := as.foldl (leadsAlong as) (leadsFrom (fun _ => 0) as)
  if ls.any fun a => a.2 != 0 then ls.map fun a => (a.1.1, a.2) else []

/-- A latch that an instruction reads at a smaller width than an earlier one has written it: the reader's elements lie in earlier
units of the writer, and the latch holds its full result (R77). -/
def latchNarrowed (x : Hart) (ew : Nat) (os : List COp) : Bool :=
  os.zipIdx.any fun a => (latchAt x ew a.1).any fun p => (os.drop a.2).any fun b =>
    (srcSpecs ew b).any fun q => q.1.toNat == p.1 && q.2 < p.2

/-- Elements of the convoy's strip that its VBCAST reads (R148, R256). -/
def earlyElems (x : Hart) (cv : Conv) (ew vl : Nat) (os : List COp) : List Nat :=
  match os.findSome? (fun o => match o with | .strip n => mget none x.bind n | _ => none),
    os.findSome? (fun o => match o with | .vec _ (.vg .bcast gs vs _) => if vs == 73 then some gs else none | _ => none) with
  | some (_, r), some gs =>
    let i := if gs = 0 then 0 else (mget 0 cv.gs gs.toNat).toNat
    let w := codeWidth (recDfmt r)
    if i < 4096 / ew then
      ((List.range (max 1 (ew / w))).map (i * ew / w + ·)).filter (· < vl)
    else []
  | _, _ => []

/-- What a convoy's elements are: their number, elements of a commit unit, whether it is widened (R30, R31, R255, R260), whether
its instructions run over all elements in each unit, with the unit's accesses alone (R28, log 9), the elements of its strip
that are read first, and the leads of its memory instructions, by units of sub elements. -/
structure Shape where
  total : Nat
  unit  : Nat
  wide  : Bool
  ahead : Bool
  early : List Nat
  leads : List (Pipe × Nat)
  sub   : Nat
  deriving DecidableEq, Repr

/-- The shape of a convoy. -/
def shapeOf (x : Hart) (cv : Conv) (ops : List (Word × COp)) : Shape :=
  let ew := 8 * 2 ^ (x.c.vtype.toNat % 4)
  let os : List COp := ops.map (·.2)
  match os with
  | [COp.bind ..] | [COp.unbind ..] => ⟨1, 1, true, false, [], [], 1⟩
  | [COp.xcopy _ _ _ dst n] =>
    let g (r : BitVec 5) : Nat := if r = 0 then 0 else (mget 0 cv.gs r.toNat).toNat
    ⟨copySegs (g dst) (g n), 1, false, false, [], [], 1⟩
  | _ =>
    if os.any widens then ⟨x.c.vl, max 1 x.c.vl, true, false, [], [], 1⟩
    else
      let n := 1024 / os.foldl (fun w o => max w (opWidthOf x ew o)) 8
      let leads := leadsOf x ew os
      ⟨x.c.vl, if leads = [] then n else max 1 x.c.vl, false, widened x ew os || latchNarrowed x ew os || leads != [],
        earlyElems x cv ew x.c.vl os, leads, n⟩

/-- A hart with empty latches (R29). -/
def Hart.clearLatches (x : Hart) : Hart :=
  { x with f := { x.f with v := x.f.v.filter fun p => p.1 < 72 } }

/-- Error counters as in the first state; the rest as in the second. -/
def keepErrs (a b : State) : State :=
  a.dies.foldl (fun s p => s.setDie p.1 { s.die p.1 with errs := p.2.errs }) b

/-- The element of a stop. -/
def Stop.elem : Stop → Nat
  | .trap e _ | .hold e _ | .tag e _ _ _ => e
  | .bad _ _ | .short _ => 0

/-- A VLDFF of the unit shortens vl to an element at or below one where another instruction stops: vl applies to every
instruction of the convoy, so that instruction makes no access there (R31, R252). -/
def shortAt (j : Job) (ops : List (Word × COp)) (s : State) (e : Nat) : Option Nat :=
  if ops.any fun p => match p.2 with | .first .. => true | _ => false then
    match runOps { j with ahi := e, cx := { j.cx with hi := min j.cx.hi (e + 1) } } ops s with
    | (_, some (.short k)) => some k
    | _ => none
  else none

/-- The parts of a convoy with leads, in order: in each step the instructions of each lead, the longest first, take their units up to
that far ahead (log 9). -/
def leadMoves (j : Job) (leads : List (Pipe × Nat)) (sub : Nat) : List (Nat × Nat) :=
  let most := (leads.map (·.2)).foldl max 0
  let levels := ((List.range (most + 1)).reverse).filter fun n => leads.any fun p => p.2 == n
  ((List.range ((j.ahi + sub - 1) / sub)).flatMap fun t => levels.flatMap fun n => (List.range (2 ^ n)).map fun i => (n, 2 ^ n * t + i)).filter
    fun m => m.2 * sub < j.ahi && j.alo < (m.2 + 1) * sub

/-- Run them: each runs all the instructions from the files before the unit, with its own accesses alone and the values bound so
far; done holds the elements of each pipe that have made theirs. -/
def runMoves (j : Job) (ops : List (Word × COp)) (base : Files) (sub : Nat) :
    List (Nat × Nat) → List (Pipe × Nat × Nat) → State → Run
  | [], _, s => (s, none)
  | (n, u) :: r, done, s =>
    let lo := max j.alo (u * sub)
    let hi := min j.ahi ((u + 1) * sub)
    let wins := done.map fun p => if p.2.1 = n then (p.1, lo, hi) else (p.1, p.2.2, p.2.2)
    let s := s.modHart j.h fun x => ({ x with f := base } : Hart).clearLatches
    runThen (runOps { j with wins } ops s) fun s =>
      let y := s.hart j.h
      runMoves { j with cv := { j.cv with ahead := some (base, y.v 73, y.v 76) } } ops base sub r
        (done.map fun p => if p.2.1 = n then (p.1, n, hi) else p) s

/-- The instructions of a convoy on the unit, with or without leads. -/
def runPart (j : Job) (ops : List (Word × COp)) (sh : Shape) (s : State) : Run :=
  if sh.leads = [] then runOps j ops s
  else runMoves j ops (s.hart j.h).f sh.sub (leadMoves j sh.leads sh.sub) (sh.leads.map fun p => (p.1, p.2, j.alo)) s

/-- Run a unit from a state with the accesses below element hi, and, when it stops at element e, again with those below e, until
a run is clean: the clean state with its latches, the last stop, and the state of the run that stopped (R30, R326). -/
def runWindow (j : Job) (ops : List (Word × COp)) (sh : Shape) (s0 : State) :
    Nat → Nat → Option (Stop × State) → State × Option (Stop × State)
  | 0, _, best => (s0, best)
  | f + 1, hi, best =>
    let r := runPart (j.upTo hi) ops sh (s0.modHart j.h Hart.clearLatches)
    match r.2 with
    | none => (r.1, best)
    | some st =>
      match st with
      | .bad _ _ => (s0, some (st, r.1))
      | .short _ => (s0, some (st, r.1))
      | _ =>
        match shortAt j ops (s0.modHart j.h Hart.clearLatches) st.elem with
        | some k => (s0, some (.short k, r.1))
        | none => if st.elem ≤ j.alo then (s0, some (st, r.1)) else runWindow j ops sh s0 f st.elem (some (st, r.1))

/-- An instruction waits at a full/empty word element by element (R279). -/
def isTagged : COp → Bool
  | .tagLoad .. | .tagStore .. => true
  | _ => false

/-- The tagged accesses of a widened convoy's elements below a wait have taken effect, while the rest of the convoy has not:
replay them on the state before the unit (R279, log 9). -/
def replayTags (j : Job) (ops : List (Word × COp)) (s0 : State) (e : Nat) : State :=
  let before := ops.takeWhile fun p => !isTagged p.2
  let f := ((runOps j before (s0.modHart j.h Hart.clearLatches)).1.hart j.h).f
  let s := (runOps (j.upTo e) (ops.filter fun p => isTagged p.2)
    (s0.modHart j.h fun x => { x with f := f })).1
  s.setHart j.h { s0.hart j.h with served := none }

/-- Where a trap found before any element commits has its epc: at the instruction that fails (R69), but a MISALIGNED, which only a
BLD raises here, at the convoy's start, as the table of R324 gives it (DEDUCED, log 48). -/
def startEpc (start : Word) (p : Word × Trap) : Word × Trap := if p.2.cause = .misaligned then (start, p.2) else p

/-- What the next unit of a convoy comes to. -/
inductive Unit_
  /-- It committed; the convoy goes on. -/
  | next (s : State) (cv : Conv)
  /-- The hart trapped or waits. -/
  | stop (s : State)

/-- Sources on the V-die of the M instructions of a convoy: what the operand queue holds while it is in progress (R194). -/
def queueOf (x : Hart) (cv : Conv) : List VReg :=
  (cv.insns.flatMap fun p => match convoyOp p.2 with
    | some (.tile i) => (srcSpecs 32 (.tile i)).filterMap fun q => if isReg q.1 then some (x.v q.1.toNat) else none
    | _ => []).take 8

/-- The state of a convoy that waits. -/
def State.holdConvoy (s : State) (h : Nat) (cv : Conv) (w : Why) : State :=
  s.modHart h fun x => { x with convoy := some cv, opq := queueOf x cv, hold := some ⟨w, none⟩ }

/-- Run a unit; a VLDFF that shortens vl has it run again with that vl (R31). An MMA of the convoy then takes its count from the
shortened vl, rounded down to whole A words, with no second check of R175 (DESIGN CHOICE, log 48). -/
def runUnit (j : Job) (ops : List (Word × COp)) (sh : Shape) (s : State) (hi : Nat) : State × Option (Stop × State) :=
  match runWindow j ops sh s (hi - j.alo + 2) hi none with
  | (_, some (.short k, bad)) =>
    runWindow { j with cx := { j.cx with vl := k, hi := min j.cx.hi k } } ops sh
      ((keepErrs bad s).modHart j.h fun x => { x with c := { x.c with vl := k } }) (hi + 2) hi none
  | r => r

/-- The hart's registers as the elements below hi leave them, when the unit ran over all elements: once more from the first
element on, with the values bound (R28, R30, log 9). -/
def commitBelow (j : Job) (ops : List (Word × COp)) (base : Files) (hi : Nat) (s : State) : State :=
  let y := s.hart j.h
  let cv := { j.cv with ahead := some (base, y.v 73, y.v 76) }
  (runOps { j with cx := { j.cx with hi := min j.cx.hi hi }, cv, alo := hi, ahi := hi } ops
    (s.setHart j.h { y with f := base, c := { y.c with fflags := j.cv.flags } })).1

/-- A waiting unit's entries leave the side log again: the unit makes them anew, or they are given back (R30, R244). -/
def State.takeEntries (s : State) (h : Nat) (kept : List (Nat × Nat)) : State :=
  if kept = [] then s
  else
    let mine (id : Nat) : Bool := kept.any fun p => p.2 == id
    let k := s.core (hartCore h)
    (s.setCore (hartCore h) { k with log := k.log.filter fun p => !(p.1 == h && mine p.2) }).modHart h fun x =>
      { x with pend := x.pend.filter fun e => !mine e.id, convoy := x.convoy.map fun cv => { cv with kept := [] } }

/-- Those of the hart's convoy. -/
def State.takeKept (s : State) (h : Nat) : State := s.takeEntries h (((s.hart h).convoy.map (·.kept)).getD [])

/-- Elements of a waiting unit's store whose entries are gone: the host has failed their page, and they have been discarded
(R246). -/
def keptLost (x : Hart) (kept : List (Nat × Nat)) : List Nat :=
  (kept.filter fun p => !x.pend.any fun e => e.id == p.2).map (·.1)

/-- A unit that waits keeps what it has entered into the side log: its stores there are accepted (R243, R244). -/
def State.keepLog (s bad : State) (h mark : Nat) (lost : List Nat) : State × List (Nat × Nat) :=
  let y := bad.hart h
  let es := y.pend.filter fun e => mark ≤ e.id && e.op == 0 && e.place == .sideLog
  let k := s.core (hartCore h)
  let s := s.setCore (hartCore h) { k with log := k.log ++ (bad.core (hartCore h)).log.filter fun p => p.1 == h && es.any fun e => e.id == p.2 }
  (s.modHart h fun x => { x with pend := x.pend ++ es, next := y.next }, lost.map (·, 0) ++ es.map fun e => (e.e, e.id))

/-- The next unit of a convoy, from a state that holds nothing of it: its shape, its job, the state and the convoy after the elements
that commit, and where it stopped, with the state there. lost are elements of its store that have been discarded. -/
def nextUnit (s : State) (h : Nat) (cv : Conv) (lost : List Nat) : Shape × Job × State × Conv × Option (Stop × State) :=
  let x := s.hart h
  let ops := convOps x cv (8 * 2 ^ (x.c.vtype.toNat % 4))
  let sh := shapeOf x cv ops
  let lo := if sh.wide then 0 else cv.lo
  let hi := if sh.wide then sh.total else min sh.total ((lo / sh.unit + 1) * sh.unit)
  let base := (cv.ahead.map (·.1)).getD x.f
  let cx := if sh.ahead then cxOf s h cv.gs x.c.epos.toNat sh.total cv.bval else cxOf s h cv.gs lo hi cv.bval
  let j : Job := { h, cx, cv, alo := lo, ahi := hi, ahead := sh.ahead, early := sh.early, mark := x.next, skip := lost, wins := [] }
  let r := runUnit j ops sh (if sh.ahead then s.setHart h { x with f := base } else s) (if sh.wide then 2 ^ 14 else hi)
  let none_ := match r.2 with
    | some (st, _) => st.elem ≤ lo
    | none => false
  if sh.ahead && none_ then (sh, j, s, cv, r.2)
  else
    let last := match r.2 with
      | some (st, _) => st.elem
      | none => hi
    let s' := if sh.ahead then commitBelow j ops base last r.1 else r.1
    let y := s'.hart h
    let cv := { cv with
      lo := last
      ahead := if (sh.ahead || sh.early != []) && !none_ then some (base, y.v 73, y.v 76) else cv.ahead }
    (sh, j, s'.modHart h Hart.clearLatches, cv, r.2)

/-- Commit the next unit of a convoy, from element cv.lo. -/
def commitUnit (s : State) (h : Nat) (cv : Conv) : Unit_ :=
  let lost := keptLost (s.hart h) cv.kept
  let s := s.takeEntries h cv.kept
  match nextUnit s h cv lost with
  | (_, _, s', cv', none) => .next (s'.modHart h fun x => { x with served := none, hold := none, rng := none }) { cv' with kept := [] }
  | (sh, j, s', cv', some (st, bad)) =>
    match st with
    | .bad pc t => .stop ((keepErrs bad s).trapAt h t (startEpc cv.start (pc, t)).1 0)
    | .short _ => .stop s
    | .trap e t =>
      if sh.wide then .stop ((keepErrs bad s).trapAt h t cv.start 0)
      else .stop ((keepErrs bad s').trapAt h t cv.start (BitVec.ofNat 9 e))
    | .hold _ w =>
      let p := (keepRequests bad s).keepLog bad h j.mark lost
      .stop (p.1.holdConvoy h { cv with kept := p.2 } w)
    | .tag e r va vals =>
      if sh.wide then
        let x := s.hart h
        let p := (replayTags j (convOps x cv (8 * 2 ^ (x.c.vtype.toNat % 4))) s e).keepLog bad h j.mark lost
        let s := p.1.modHart h fun x =>
          { x with convoy := some { cv with vals := vals, on := false, kept := p.2 }, opq := queueOf x cv }
        .stop (s.tagPark r va none)
      else .stop ((s'.modHart h fun x => { x with convoy := some { cv' with lo := e, on := false, kept := [] }, served := none }).tagPark
        r va none)

/-! Completion. -/

/-- The non-blocking instruction of a slot: class and destination. -/
def nbOf : COp → Option (Nat × Option Nat)
  | .load a k true cls x b p => some (cls, nbDst (.load a k true cls x b p))
  | .store _ _ true cls _ _ _ => some (cls, none)
  | .tagLoad k true cls x b p => some (cls, nbDst (.tagLoad k true cls x b p))
  | .amo _ _ cls _ none _ => some (cls.toNat, none)
  | .xcopy true cls _ _ _ => some (cls, none)
  | _ => none

/-- The non-blocking instruction at pc has issued every active element (R251). -/
def nbIssued (s : State) (h : Nat) (pc : Word) (o : COp) : State :=
  match nbOf o with
  | none => s
  | some (cls, vd) =>
    let r := nbBegin s h pc cls vd
    r.1.modHart h fun x =>
      let x : Hart := { x with nb := x.nb.map fun (q : NbOp) => if q.id = r.2 then { q with issued := true } else q }
      x.nbDone r.2

/-- The pc after a convoy. -/
def convEnd (cv : Conv) : Word := cv.insns.foldl (fun _ p => p.1 + insnLen p.2) cv.start

/-- POS of a binding slot advances (R256). -/
def advancePos (n : Nat) (b : Option (Nat × BitVec 256)) : Option (Nat × BitVec 256) :=
  b.map fun p => (p.1, BitVec.ofNat 256 ((p.2.toNat % 2 ^ 192) + (recPos p.2 + n) % 2 ^ 64 * 2 ^ 192))

/-- A convoy has drained (R28, R33, R90, R256). -/
def finishConvoy (s : State) (h : Nat) (cv : Conv) : State :=
  let x := s.hart h
  let ops := convOps x cv (8 * 2 ^ (x.c.vtype.toNat % 4))
  let s := ops.foldl (fun s p => nbIssued s h p.1 p.2) s
  s.modHart h fun x =>
    let bind := ops.foldl (fun b p => match p.2 with
      | .strip n => mset none b n (advancePos x.c.vl (mget none b n))
      | _ => b) x.bind
    { x with
      pc := convEnd cv, bind := bind, convoy := none, opq := [], hold := none, rng := none, served := none, st := .run
      c := { x.c with epos := 0, instret := x.c.instret + BitVec.ofNat 64 cv.insns.length } }

/-- The convoy has a unit left to commit. A widened convoy has exactly one; done says that it has committed. -/
def unitsLeft (s : State) (h : Nat) (cv : Conv) (done : Bool) : Bool :=
  let x := s.hart h
  let sh := shapeOf x cv (convOps x cv (8 * 2 ^ (x.c.vtype.toNat % 4)))
  if sh.wide then !done else cv.lo < sh.total

/-- Commit units until the convoy completes, traps or waits. -/
def runUnits (h : Nat) : Nat → State → Conv → State
  | 0, s, _ => s
  | f + 1, s, cv =>
    match commitUnit s h cv with
    | .stop s => s
    | .next s' cv => if unitsLeft s' h cv true then runUnits h f s' cv else finishConvoy s' h cv

/-- Run a convoy that has started, from element cv.lo. -/
def runConvoy (s : State) (h : Nat) (cv : Conv) : State :=
  let x := s.hart h
  let sh := shapeOf x cv (convOps x cv (8 * 2 ^ (x.c.vtype.toNat % 4)))
  if unitsLeft s h cv false then runUnits h (sh.total + 1) s cv else finishConvoy s h cv

/-! Start. -/

/-- A convoy names the destination of an outstanding non-blocking load (R251). -/
def nbBusy (x : Hart) (ew : Nat) (os : List COp) : Bool :=
  os.any fun o => (namedRegs ew o).any fun n => x.nb.any fun q => q.vd == some n && q.open_ != 0

/-- A convoy that starts afresh forgets what its non-blocking instructions issued when it last trapped (R251). -/
def dropStale (x : Hart) (ls : List Slot) : Hart :=
  { x with nb := x.nb.filter fun o => o.issued || !ls.any fun l => l.pc == o.pc }

/-- A convoy that resumes holds a VBCAST of a strip element below the first that it reads (R148, R256). -/
def unreadBcast (x : Hart) (cv : Conv) : Bool :=
  let ew := 8 * 2 ^ (x.c.vtype.toNat % 4)
  (earlyElems x cv ew x.c.vl ((convOps x cv ew).map (·.2))).any (· < x.c.epos.toNat)

/-- A convoy that must wait at its start: the state, with the requests of what it waits for, and the reason. -/
def startWait (s : State) (h : Nat) (ls : List Slot) : State × Why :=
  let x := s.hart h
  match convoyRefused s h (cxOf s h x.f.g 0 0 0) x [] ls with
  | some (.wait s w) => (s, w)
  | _ => (s, .order)

/-- The traps before a convoy, or the convoy itself as it starts; none while it must wait at its start. What a resumed VBCAST
broadcasts of a strip element that the convoy does not read again is open: a free value (R148, R256; DESIGN CHOICE, log 56); so is
what a latch holds below the element at which a convoy resumes (R77; DESIGN CHOICE, log 61). -/
def startConvoy (s : State) (h : Nat) (ls : List Slot) : Except (Word × Trap) (Option (State × Conv)) :=
  let x := s.hart h
  let cx := cxOf s h x.f.g 0 0 0
  match convoyRefused s h cx x [] ls with
  | some (.trap pc t) => .error (startEpc x.pc (pc, t))
  | some (.wait _ _) => .ok none
  | none =>
    let os := ls.filterMap Slot.op
    if nbBusy x cx.w os then .ok none
    else
      let cv := { freshConv x.pc (ls.filterMap fun l => l.i.map fun i => (l.pc, i)) x.f.g x.c.epos.toNat (bcastVal x cx os) with
        flags := x.c.fflags }
      if x.c.epos = 0 || os.any widens then .ok (some (s.setHart h (dropStale x ls), cv))
      else
        let p := if unreadBcast x cv then (s.draw, { cv with bval := leBytes (freeBytes s.fresh 8) }) else (s, cv)
        if latchNarrowed x cx.w ((convOps x cv cx.w).map (·.2)) then
          .ok (some (p.1.draw, { p.2 with latch := BitVec.ofNat 4096 (leBytes (freeBytes p.1.fresh 512)) }))
        else .ok (some p)

/-! Pipes of a core (R17, R18). -/

/-- The six pipes that convoy instructions need on a hart. -/
def needPipes (x : Hart) (os : List COp) : List Nat :=
  ((pipesUsed x (8 * 2 ^ (x.c.vtype.toNat % 4)) os).map Pipe.num).eraseDups

/-- The pipes of a convoy. -/
def Conv.pipes (cv : Conv) (x : Hart) : List Nat := needPipes x (cv.insns.filterMap fun p => convoyOp p.2)

/-- The pipes that a hart holds: those of its convoy in progress, unless it is in PARK or IDLE, or has not had them back since
(R17). -/
def pipesHeld (x : Hart) : List Nat :=
  match x.convoy with
  | some cv => if x.st == .run && cv.on then cv.pipes x else []
  | none => []

/-- A convoy of hart h that is ready asks for its pipes (R18): it waits while the other hart of the core holds one of them, or has
waited longer for one; of two that have waited as long, the one that did not receive the last tie goes first. -/
def pipeGate (s : State) (h : Nat) (ps : List Nat) : State × Bool :=
  let y := s.hart (h ^^^ 1)
  let k := s.core (hartCore h)
  let since := ((s.hart h).ready.map (·.1)).getD (s.die (hartDie h)).clk
  let waits : State × Bool := (s.modHart h fun x => { x with ready := some (since, ps) }, false)
  let goes (s : State) : State × Bool := (s.modHart h fun x => { x with ready := none }, true)
  if ps.any (pipesHeld y).contains then waits
  else match y.ready with
    | some (t, qs) =>
      if y.st != .run || !ps.any qs.contains || since < t then goes s
      else if t < since || k.tie == h % 2 then waits
      else goes (s.setCore (hartCore h) { k with tie := h % 2 })
    | none => goes s

/-- A convoy in progress has its pipes, or asks for them again after it has parked; none while it must wait for them. -/
def havePipes (s : State) (h : Nat) (cv : Conv) : State × Option Conv :=
  if cv.on then (s, some cv)
  else match pipeGate s h (cv.pipes (s.hart h)) with
    | (s, true) => (s, some { cv with on := true })
    | (s, false) => (s, none)

/-- A convoy in progress goes on, once it has its pipes. -/
def convoyOn (s : State) (h : Nat) (cv : Conv) (f : State → Conv → State) : State :=
  match havePipes s h cv with
  | (s, some cv) => f s cv
  | (s, none) => s

/-- A convoy of the acting hart that holds one instruction (R25, R26). -/
def convoyAlone (i : Instr) (s : State) : Out :=
  match startConvoy s s.cur [slotOf s.me.pc i] with
  | .error (pc, t) => .next (s.trapAt s.cur t pc 0)
  | .ok none => .next (s.wait .order i)
  | .ok (some (s, cv)) => .next (runConvoy s s.cur cv)

end Sys2Proof.Machine
end

