-- ==== Sys2Proof/Machine/Nodes.lean ====
section
/-! DEFINITION. Nodes: descriptors and readiness (R296, R297), the Basin and its spill (R298), launches (R295, R302), NSPAWN, NEND
and NYIELD (R301 to R303). -/

namespace Sys2Proof.Machine

open Sys2Proof

/-! Agents without a hart (R344). -/

/-- The line monitor of a module for an owner (R344). -/
def lineMonitor (s : State) (m n : Nat) (told : Option Why) : Agent :=
  unitAgent (m * 4) n (s.ctx m n).gen.toNat (unitSource (m * 4) 2) 15 told

/-- A read of n bytes by an agent without a hart, with its checks (R344). -/
def agentRead (s : State) (a : Agent) (va n align : Nat) : Res (List Byte) :=
  match issueCheck s a 0 va n align needR false with
  | .error c => .fault s c
  | .ok ipa => readAt s a ipa n

/-! Descriptors. -/

/-- The fields of bytes 0 to 0x4F of a descriptor; none where R297 makes it invalid whatever its affinity. -/
def parseDesc (va : Nat) (bs : List Byte) : Option Desc :=
  let w := leBytes bs
  if field w 89 39 ≠ 0 || field w 64 2 = 3 || 65535 < field w 448 64 || field w 610 30 ≠ 0 then none
  else some
    { va := BitVec.ofNat 64 va, entry := BitVec.ofNat 64 (field w 0 64), strict := w.testBit 88, preds := field w 72 16,
      prio := field w 69 3, width := field w 66 3 + 1, cls := field w 64 2
      args := [128, 192, 256, 320].map fun b => BitVec.ofNat 64 (field w b 64)
      succ := BitVec.ofNat 64 (field w 384 64), nsucc := field w 448 64
      opd0 := BitVec.ofNat 64 (field w 512 64), opd0M := BitVec.ofNat 2 (field w 608 2) }

/-- The affinity die: the DIE field of the translation of OPD0's base (R296). -/
def affinity (s : State) (a : Agent) (d : Desc) : Option Nat :=
  if d.opd0M = 0 then none
  else match xlateVa s a d.opd0.toNat 0 with
    | .ok ipa => some (ipaHome ipa % 4)
    | .error _ => none

/-- The descriptor in a snapshot with its affinity die; none for an invalid one (R297). -/
def descOf (s : State) (a : Agent) (va : Nat) (bs : List Byte) : Option (Desc × Option Nat) :=
  match parseDesc va bs with
  | none => none
  | some d => if d.strict && (affinity s a d).isNone then none else some (d, affinity s a d)

/-! Launches. -/

/-- Replace the launches of a number. -/
def State.modLaunch (s : State) (m id : Nat) (f : Launch → Launch) : State :=
  s.setMd m { s.md m with launches := (s.md m).launches.map fun (l : Launch) => if l.id = id then f l else l }

/-- A launch by number. -/
def launchOf (s : State) (m id : Nat) : Option Launch := (s.md m).launches.find? fun l => l.id == id

/-- Record a status; a launch reports the first nonzero one (R295). -/
def State.launchStatus (s : State) (m id st : Nat) : State :=
  s.modLaunch m id fun l => { l with status := if l.status = 0 then st else l.status }

/-- The count of a launch's live nodes. -/
def State.launchLive (s : State) (m id : Nat) (f : Nat → Nat) : State :=
  s.modLaunch m id fun l => { l with live := f l.live }

/-- complete(L): the notify write, then the report (R302). -/
def complete (s : State) (a : Agent) (m id : Nat) : Res Unit :=
  match launchOf s m id with
  | none => .ok s ()
  | some l =>
    let fin (s : State) : State :=
      let st := match launchOf s m id with | some l => l.status | none => 0
      let s := s.report m l.owner l.slot l.seq st
      s.setMd m { s.md m with launches := (s.md m).launches.filter fun l => l.id != id }
    let bad (s : State) : State := fin (s.launchStatus m id 7)
    if l.nva = 0 then .ok (fin s) ()
    else match issueCheck s a 0 l.nva.toNat 8 8 needW false with
      | .error _ => .ok (bad s) ()
      | .ok ipa =>
        match writeAt s a ipa (toBytes 8 l.nval.toNat) with
        | .ok s _ => .ok (fin s) ()
        | .fault s _ => .ok (bad s) ()
        | .stall s w => .stall s w

/-! The Basin and its spill. -/

/-- Entries that have been claimed and wait in a dispatch queue. -/
def claimed (s : State) (m : Nat) : List Nat := (moduleDies m).flatMap fun d => (s.die d).queue

/-- The entries in the Basin. -/
def inBasin (s : State) (m : Nat) : List Entry := (s.md m).basin.filter fun e => !(claimed s m).contains e.id

/-- An entry goes to the Basin: it has room, and no context has spilled entries waiting (R297). -/
def basinOpen (s : State) (m : Nat) : Bool := (inBasin s m).length < 4096 && (s.md m).spilled == []

/-- The spill of a context has room for a ready node (R290). -/
def spillRoom (s : State) (m n : Nat) : Bool :=
  ((s.md m).spilled.filter fun e => e.owner == n && e.node == none).length < 2 ^ 20

/-- An entry takes its place in the Basin, with its time of entry. -/
def State.toBasin (s : State) (m : Nat) (e : Entry) : State :=
  let e := { e with at_ := (moduleDies m).map fun d => (s.die d).clk, order := s.serial }
  (s.setMd m { s.md m with basin := (s.md m).basin ++ [e] }).number

/-- An entry waits in its context's spill. -/
def State.toSpill (s : State) (m : Nat) (e : Entry) : State :=
  let s := s.setMd m { s.md m with spilled := (s.md m).spilled ++ [e] }
  let c := s.ctx m e.owner
  s.setCtx m e.owner { c with spill := c.spill ++ [e.id] }

/-- The placing of an entry; a ready node is lost when the spill is full too (R297). -/
def State.enter (s : State) (m : Nat) (e : Entry) : State :=
  if basinOpen s m then s.toBasin m e
  else if e.node.isSome || spillRoom s m e.owner then s.toSpill m e
  else (s.launchStatus m e.launch 6).launchLive m e.launch (· - 1)

/-- make_ready once the descriptor has been read: step 4 of R297. -/
def State.ready (s : State) (m n id : Nat) (d : Desc) (aff : Option Nat) : State :=
  let e : Entry := { id := s.serial, owner := n, launch := id, d, aff, node := none, at_ := [], order := 0 }
  (s.number.launchLive m id (· + 1)).enter m e

/-- make_ready on a snapshot (R297). -/
def makeReady (s : State) (a : Agent) (m n id va : Nat) (bs : List Byte) : State :=
  match descOf s a va bs with
  | none => s.launchStatus m id 5
  | some (d, aff) => s.ready m n id d aff

/-- An entry leaves the Basin: its reservations end (R299). -/
def State.unreserve (s : State) (m id : Nat) : State :=
  (moduleDies m).foldl (fun s d => s.setDie d { s.die d with reserved := (s.die d).reserved.filter fun p => p.2 != some id }) s

/-- Harts that an entry needs. -/
def Entry.need (e : Entry) : Nat := e.d.width

/-- One context's turn in an admission pass (R298). -/
def admitCtx (m n : Nat) : Nat → State → State
  | 0, s => s
  | f + 1, s =>
    let c := s.ctx m n
    match c.spill with
    | [] => s.setCtx m n { c with deficit := 0 }
    | id :: r =>
      match (s.md m).spilled.find? fun e => e.id == id with
      | none => admitCtx m n f (s.setCtx m n { c with spill := r })
      | some e =>
        if (inBasin s m).length < 4096 && e.need ≤ c.deficit then
          let s := s.setCtx m n { c with spill := r, deficit := c.deficit - e.need }
          let s := s.setMd m { s.md m with spilled := (s.md m).spilled.filter fun e => e.id != id }
          admitCtx m n f (s.toBasin m e)
        else s

/-- One pass of the deficit round robin, while Basin entries are free (R298). -/
def admitPass (s : State) (m : Nat) : State :=
  if 4096 ≤ (inBasin s m).length then s else
  (List.range 64).foldl (fun s n =>
    let c := s.ctx m n
    if c.spill = [] then s
    else
      let w := if c.weight = 0 then 1 else c.weight.toNat
      admitCtx m n (c.spill.length + 1) (s.setCtx m n { c with deficit := c.deficit + w })) s

/-! Gangs. -/

/-- A node by number. -/
def nodeOf (s : State) (m : Nat) (id : Option Nat) : Option Node := (s.md m).nodes.find? fun n => some n.id == id

/-- Replace a node. -/
def State.setNode (s : State) (m : Nat) (n : Node) : State :=
  s.setMd m { s.md m with nodes := (s.md m).nodes.map fun (x : Node) => if x.id = n.id then n else x }

/-- The node of hart h. -/
def nodeAt (s : State) (h : Nat) : Option Node := nodeOf s (hartDie h / 4) (s.hart h).node

/-- Another rank has not executed NEND (R302). -/
def othersLeft (n : Node) (h : Nat) : Bool := n.ranks.any fun r => r.2 != .ended && r.2 != .hart h

/-- The hart's rank has executed NEND: it becomes IDLE and its slot is free (R302, R414). -/
def State.endRank (s : State) (h : Nat) : State :=
  let m := hartDie h / 4
  let x := s.hart h
  let n := s.owner h
  let s := match nodeAt s h with
    | some nd => s.setNode m { nd with ranks := nd.ranks.map fun (r : Nat × RankAt) => if r.2 = RankAt.hart h then (r.1, RankAt.ended) else r }
    | none => s
  let c := s.ctx m n
  (((s.setCtx m n { c with slots := c.slots.filter (· ≠ x.slot) }).dropFar h).setHart h (x.retire 4).atRest).suspendDone (hartDie h)

/-! Releases. -/

/-- The sequencer of a module that a handle names, while it still names it (R320). -/
def handleSeq (s : State) (m : Nat) (hd : Word) : Option (Nat × Nat × Sequencer) :=
  let d := m * 4 + hd.toNat / 16 % 4
  let q := hd.toNat % 16
  if (s.seq d q).seq = hd.toNat / 2 ^ 16 then some (d, q, s.seq d q) else none

/-- A collective that the hart started has not ended. -/
def collRunning (s : State) (m : Nat) (hd : Word) : Bool :=
  match handleSeq s m hd with
  | some (_, _, x) => x.st == .run || x.st == .paused
  | none => false

/-- A collective that the hart started has ended with STATE 2 or 3 (R319, R320). -/
def collBad (s : State) (m : Nat) (hd : Word) : Bool :=
  match handleSeq s m hd with
  | some (_, _, x) => x.st == .done && x.status.getLsbD 63
  | none => false

/-- Free the sequencer of a collective that has ended. -/
def State.collect (s : State) (h : Nat) (hd : Word) : State :=
  let s := s.setHart h { s.hart h with colls := (s.hart h).colls.filter (· ≠ hd) }
  match handleSeq s (hartDie h / 4) hd with
  | some (d, q, x) => s.setSeq d q { x with collected := true }
  | none => s

/-- VA of entry i of a node's successor list (R296). -/
def succVa (nd : Node) (i : Nat) : Nat := (nd.d.succ + BitVec.ofNat 64 (8 * i)).toNat

/-- The decrement for one successor: the VA of its descriptor when its count has come to 0 (R302). -/
def releaseOne (s : State) (a : Agent) (nd : Node) (i : Nat) : Res (Option Nat) :=
  let m := a.die / 4
  let bad (s : State) : Res (Option Nat) := .ok (s.launchStatus m nd.launch 5) none
  match agentRead s a (succVa nd i) 8 8 with
  | .stall s w => .stall s w
  | .fault s _ => bad s
  | .ok s bs =>
    let va := leBytes bs
    if va % 128 ≠ 0 then bad s
    else match issueCheck s a 0 (va + 8) 8 8 needRW true with
      | .error _ => bad s
      | .ok ipa =>
        match atomicAt s a ipa 8 .preds with
        | .stall s w => .stall s w
        | .fault s _ => bad s
        | .ok s (old, c) =>
          if field old 8 16 = 0 then .ok (s.countCtx m nd.owner 3) none
          else
            .ok ((s.collapses.filter fun x => some x.id == c).foldl State.hurryCollapse s)
              (if field old 8 16 = 1 then some va else none)

/-- make_ready for a successor whose count has come to 0 (R302). -/
def releaseReady (s : State) (a : Agent) (nd : Node) (va : Nat) : Res Unit :=
  let m := a.die / 4
  match agentRead s a va 80 128 with
  | .ok s bs => .ok (makeReady s a m nd.owner nd.launch va bs) ()
  | .fault s _ => .ok (s.launchStatus m nd.launch 5) ()
  | .stall s w => .stall s w

/-- The releases of a last NEND from successor i on, whose descriptor, in due, is still to be made ready; at most f moves. Answers how
far it got, and the wait it met. What the agent has been told is about the first access alone: each successor whose page is missing
has a request of its own (R302, R344). -/
def releaseFrom (a : Agent) (nd : Node) : Nat → Nat × Option Nat → State → State × (Nat × Option Nat) × Option Why
  | 0, p, s => (s, p, none)
  | f + 1, (i, due), s =>
    if nd.d.nsucc ≤ i then (s, (i, none), none)
    else
      let a' : Agent := { a with told := none, rng := none }
      match due with
      | some va => match releaseReady s a nd va with
        | .ok s _ => releaseFrom a' nd f (i + 1, none) s
        | .fault s _ => releaseFrom a' nd f (i + 1, none) s
        | .stall s' w => (keepRequests s' s, (i, due), some w)
      | none => match releaseOne s a nd i with
        | .ok s (some va) => releaseFrom a' nd f (i, some va) s
        | .ok s none => releaseFrom a' nd f (i + 1, none) s
        | .fault s _ => releaseFrom a' nd f (i + 1, none) s
        | .stall s' w => (keepRequests s' s, (i, none), some w)

/-- The last NEND of a node, from its progress on: releases, the launch's count, its completion (R302). -/
def lastEnd (s : State) (h : Nat) (nd : Node) (i : Instr) : State :=
  let m := hartDie h / 4
  let a := s.agent h
  let hold (s : State) (rel : Nat × Option Nat) (w : Why) : State :=
    let s := s.setNode m { nd with rel := some rel.1, due := rel.2 }
    s.setHart h { s.hart h with hold := some ⟨w, some i⟩ }
  let r := releaseFrom a nd (2 * nd.d.nsucc) (nd.rel.getD 0, nd.due) s
  match r.2.2 with
  | some w => hold r.1 r.2.1 w
  | none =>
    let s := if nd.rel = some (nd.d.nsucc + 1) then r.1 else r.1.launchLive m nd.launch (· - 1)
    let fin (s : State) : State :=
      let s := s.endRank h
      s.setMd m { s.md m with nodes := (s.md m).nodes.filter fun x => x.id != nd.id }
    match launchOf s m nd.launch with
    | some l =>
      if l.live = 0 && !l.parsing then
        match complete s (if nd.rel = some (nd.d.nsucc + 1) then a else { a with told := none, rng := none }) m l.id with
        | .ok s _ => fin s
        | .fault s _ => fin s
        | .stall s w => hold s (nd.d.nsucc + 1, none) w
      else fin s
    | none => fin s

/-- ILLEGAL_INSTRUCTION on a control hart (R301). -/
def noControl (s : State) (i : Instr) (k : Out) : Out :=
  if isControl s.cur then .next (s.trap ⟨.illegalInstruction, parcels i⟩) else k

/-- NEND (R302). -/
def execNend (s : State) : Out :=
  let h := s.cur
  let x := s.me
  noControl s .nend
    (match nodeAt s h with
     | some nd =>
       if nd.rel.isSome then .next (lastEnd s h nd .nend)
       else if !barrierMet s h (BitVec.allOnes 16) 5 then .next (s.wait .order .nend)
       else match failedMark x (BitVec.allOnes 16) with
         | some va => .next (s.failTrap (BitVec.allOnes 16) va)
         | none =>
           if !x.tokens.isEmpty || x.colls.any (collRunning s (hartDie h / 4)) then .next (s.wait .order .nend)
           else match x.colls.find? (collBad s (hartDie h / 4)) with
             | some hd =>
               let st := match handleSeq s (hartDie h / 4) hd with | some (_, _, y) => y.status | none => 0
               .next ((s.collect h hd).trap ⟨.collectiveAbort, st⟩)
             | none =>
               let s := x.colls.foldl (fun s hd => s.collect h hd) s
               if othersLeft nd h then .next (s.endRank h) else .next (lastEnd s h nd .nend)
     | none => .next (s.endRank h))

/-- NSPAWN (R301). -/
def execNspawn (rd rs1 : BitVec 5) (s : State) : Out :=
  let i : Instr := .nspawn rd rs1
  let h := s.cur
  let m := hartDie h / 4
  let va := s.g rs1
  let owner := s.owner h
  noControl s i (needFeature s i 9 (afterPod s i
    (match hartCheck s h va.toNat 128 128 needR false with
     | .error c => .next (s.trap ⟨c, va⟩)
     | .ok ipa => scalarAccess (hartReadIpa s h 15 ipa 80) i va fun s bs =>
       let id := match nodeAt s h with | some nd => nd.launch | none => 0
       match descOf s (s.agent h) va.toNat bs with
       | none => s.write rd 3 4
       | some (d, aff) =>
         if d.preds ≠ 0 then s.write rd 1 4
         else if 4096 ≤ (inBasin s m).length && !spillRoom s m owner then s.write rd 2 4
         else (s.ready m owner id d aff).write rd 0 4)))

/-! Dispatch decisions. -/

/-- Age of an entry on a die (R299). -/
def entryAge (s : State) (die : Nat) (e : Entry) : Nat := (s.die die).clk - e.at_.getD (die % 4) 0

/-- Effective priority of an entry on a die (R299). -/
def effPrio (s : State) (die : Nat) (e : Entry) : Nat :=
  let cap := match launchOf s (die / 4) e.launch with | some l => l.cap | none => 7
  min 7 (min e.d.prio cap + entryAge s die e / 2 ^ 20)

/-- A cluster of the class of an entry: clusters 0 to 7 are M-class (R14, R296). -/
def classAllows (cls cl : Nat) : Bool := cls == 2 || (if cl < 8 then cls == 0 else cls == 1)

/-- Two entries allow a class in common. -/
def shareClass (a b : Entry) : Bool := a.d.cls == 2 || b.d.cls == 2 || a.d.cls == b.d.cls

/-- Entries that the die may run (R299). -/
def eligible (s : State) (die : Nat) : List Entry :=
  (inBasin s (die / 4)).filter fun e =>
    e.owner == (s.die die).pOwner && (!e.d.strict || e.aff == some (die % 4))

/-- x ranks above y on a die (R299). -/
def ranksAbove (s : State) (die : Nat) (x y : Entry) : Bool :=
  let ex := effPrio s die x
  let ey := effPrio s die y
  let ax := x.aff == some (die % 4)
  let ay := y.aff == some (die % 4)
  if ex ≠ ey then ey < ex else if ax ≠ ay then ax else x.order < y.order

/-- Insert an entry by rank. -/
def rankIn (s : State) (die : Nat) (x : Entry) : List Entry → List Entry
  | [] => [x]
  | y :: r => if ranksAbove s die x y then x :: y :: r else y :: rankIn s die x r

/-- Entries by rank. -/
def ranked (s : State) (die : Nat) : List Entry := (eligible s die).foldl (fun l x => rankIn s die x l) []

/-- The free harts of a cluster, lowest first (R216, R300). -/
def freeHarts (s : State) (die cl : Nat) : List Nat :=
  if (s.die die).clOff.contains cl || inReset s die || (s.md (die / 4)).doff.getLsbD (die % 4) then [] else
  ((List.range 8).map fun j => die * 128 + cl * 8 + j).filter fun h =>
    (s.hart h).st == .idle && (s.hart h).pend == [] && (s.hart h).unacked == [] && !(s.core (hartCore h)).offline

/-- Harts of a cluster that claims not yet placed will take. -/
def claimedHarts (s : State) (die cl : Nat) : Nat :=
  (((s.die die).claims.filter fun p => p.2 == cl).map fun p =>
    match (s.md (die / 4)).basin.find? fun e => e.id == p.1 with | some e => e.need | none => 0).sum

/-- Harts of a die that are free in a cluster for another claim. -/
def freeCount (s : State) (die cl : Nat) : Nat := (freeHarts s die cl).length - claimedHarts s die cl

/-- The saved ranks of a node: rank and slot (R337). -/
def savedRanks (nd : Node) : List (Nat × Nat) :=
  (nd.ranks.zipIdx.filter fun r => r.1.2 == .saved).map fun r => (r.2, r.1.1)

/-- Number of the frame of a slot (R334, R414). -/
def frameKey (m owner slot : Nat) : Nat := ((m * 4 + slot / 96) * 64 + owner) * 96 + slot % 96

/-- The harts that saved ranks take, given the Q each was saved with: a core at that Q, or one whose harts are both free, which
then takes it (R338). -/
def matchHarts (s : State) (free : List Nat) : List (BitVec 2) → List Nat → List (Nat × BitVec 2) → Option (List Nat)
  | [], _, _ => some []
  | _, [], _ => none
  | q :: qs, h :: hs, set =>
    let now := match set.find? fun p => p.1 == hartCore h with
      | some p => some p.2
      | none => if (s.core (hartCore h)).q = q then some q
        else if free.contains (sibling h) then some q else none
    if now = some q then (matchHarts s free qs hs ((hartCore h, q) :: set)).map (h :: ·)
    else matchHarts s free (q :: qs) hs set

/-- The Q of each saved rank of a node. -/
def savedQs (s : State) (m : Nat) (nd : Node) : List (BitVec 2) :=
  (savedRanks nd).map fun r => match mget none s.frames (frameKey m nd.owner r.2) with
    | some _ => frameQ s m nd.owner r.2
    | none => 3

/-- The harts of a cluster that an entry would take now (R300, R337, R338). -/
def hartsFor (s : State) (die cl : Nat) (e : Entry) : Option (List Nat) :=
  let free := (freeHarts s die cl).drop (claimedHarts s die cl)
  match nodeOf s (die / 4) e.node with
  | some nd => matchHarts s free (savedQs s (die / 4) nd) free []
  | none => if e.need ≤ free.length then some (free.take e.need) else none

/-- Free hart slots of a context on a die, claims not yet placed apart (R414). -/
def freeSlots (s : State) (die owner : Nat) : Nat :=
  let m := die / 4
  let taken := ((s.ctx m owner).slots.filter fun x => x / 96 == die % 4).length
  let waiting := ((s.die die).queue.map fun id =>
    match (s.md m).basin.find? fun e => e.id == id && e.node == none with | some e => e.need | none => 0).sum
  96 - taken - waiting

/-- The cluster is reserved for an entry of a list (R299). -/
def reservedFor (s : State) (die cl : Nat) (l : List Entry) : Bool :=
  match mget none (s.die die).reserved cl with
  | some id => l.any fun e => e.id == id
  | none => false

/-- The cluster with the most free harts, the lowest number on ties. -/
def mostFree (s : State) (die : Nat) : List Nat → Option Nat
  | [] => none
  | c :: r => match mostFree s die r with
    | none => some c
    | some b => if freeCount s die c < freeCount s die b then some b else some c

/-- Claim a cluster for an entry (R299). -/
def State.claimEntry (s : State) (die cl : Nat) (e : Entry) : State :=
  let s := s.unreserve (die / 4) e.id
  let x := s.die die
  s.setDie die { x with queue := x.queue ++ [e.id], claims := x.claims ++ [(e.id, cl)],
                        reserved := mset none x.reserved cl none }

/-- Reserve a cluster for an entry, in place of any it already holds on the die (R299). -/
def State.reserve (s : State) (die cl : Nat) (e : Entry) : State :=
  let x := s.die die
  s.setDie die { x with reserved := mset none (x.reserved.filter fun p => p.2 != some e.id) cl (some e.id) }

/-- The placement decision over the ranked entries, with what a claim does; above holds those that have been passed (R299). -/
def decideFrom (die : Nat) (claim : State → Nat → Entry → State) : List Entry → List Entry → State → State
  | _, [], s => s
  | above, x :: r, s =>
    let cls := (List.range 12).filter fun c =>
      classAllows x.d.cls c && !reservedFor s die c above && !(s.die die).clOff.contains c
    let room := x.node.isSome || x.need ≤ freeSlots s die x.owner
    match if room then cls.find? fun c => (hartsFor s die c x).isSome else none with
    | some c => claim s c x
    | none =>
      let s := if above.any (shareClass x) then s
        else match mostFree s die cls with
          | some c => s.reserve die c x
          | none => s
      decideFrom die claim (above ++ [x]) r s

/-- A die may make a placement decision in the present cycle: one for each cycle (R299). -/
def mayDecide (s : State) (die : Nat) : Bool :=
  let x := s.die die
  x.pState == 1 && (s.ctx (die / 4) x.pOwner).st == .run && !(s.md (die / 4)).doff.getLsbD (die % 4) && !inReset s die &&
    x.queue.length < 16 && !x.decided

/-- The decision of a die, were it alone, claims an entry. -/
def wouldClaim (s : State) (die : Nat) (e : Entry) : Bool :=
  mayDecide s die && ((decideFrom die (fun s c x => s.claimEntry die c x) [] (ranked s die) s).die die).queue.getLast? == some e.id &&
    !(s.die die).queue.contains e.id

/-- A claim of an entry loses to that of another die which has still to decide in its present cycle: the entry's affinity die, else
one of a lower number (R299). -/
def losesClaim (s : State) (die : Nat) (e : Entry) : Bool :=
  (moduleDies (die / 4)).any fun d =>
    d != die && e.aff != some (die % 4) && (e.aff == some (d % 4) || d < die) && wouldClaim s d e

/-- The die makes its placement decision of a cycle (R299). -/
def dispatchDecision (s : State) (die : Nat) : State :=
  if mayDecide s die then
    let claim (s : State) (c : Nat) (x : Entry) : State := if losesClaim s die x then s else s.claimEntry die c x
    let s := decideFrom die claim [] (ranked s die) s
    s.setDie die { s.die die with decided := true }
  else s

/-- NYIELD (R303). -/
def execNyield (s : State) : Out :=
  let h := s.cur
  let die := hartDie h
  noControl s .nyield
    (match nodeAt s h with
     | none => .next (s.retire 4)
     | some nd =>
       let cl := coreInDie h / 4
       if (eligible s die).any fun e => classAllows e.d.cls cl && nd.d.prio ≤ effPrio s die e then
         let s := nd.ranks.foldl (fun s r => match r.2 with
           | .hart g => if g = h then s else s.requestPreempt g
           | _ => s) s
         let x := s.me.retire 4
         .next ((s.setMe { x with saving := some (2, 0, BitVec.allOnes 256), c := { x.c with epos := 0 } }).savePoint die)
       else .next (s.retire 4))

end Sys2Proof.Machine
end

