-- ==== Sys2Proof/Machine/Collect.lean ====
section
/-! DEFINITION. Collective sequencers: programs, steps, reductions, loss and gang pause (R314 to R322), COLL and COLLW (R320). -/

namespace Sys2Proof.Machine

open Sys2Proof

/-! Accesses of a sequencer (R315). -/

/-- The sequencer as an agent. -/
def Sequencer.agent (x : Sequencer) (die q : Nat) : Agent :=
  unitAgent die x.owner x.gen (seqSource die q) x.cls x.told

/-- Translate and check an access of a sequencer's program by an agent: its IPA, or the cause. -/
def seqAddr (s : State) (x : Sequencer) (a : Agent) (va n align : Nat) (need : Need) (atom : Bool) : Except Cause Nat :=
  if va % align ≠ 0 then .error .misaligned else
  match x.xlate a.die va need with
  | .error c => .error c
  | .ok ipa => if check4 s a 0 ipa n need atom then .ok ipa else .error .protectionFault

/-- Read pieces in order. -/
def seqRead (x : Sequencer) (a : Agent) : List (Nat × Nat) → List Byte → State → Res (List Byte)
  | [], got, s => .ok s got
  | (va, n) :: r, got, s =>
    match seqAddr s x a va n 1 needR false with
    | .error c => .fault s c
    | .ok ipa => (readAt s a ipa n).bind fun s bs => seqRead x a r (got ++ bs) s

/-- Write pieces in order; answers the collapses that the writes began. -/
def seqWrite (x : Sequencer) (a : Agent) : List (Nat × Nat) → List Byte → List Nat → State → Res (List Nat)
  | [], _, cs, s => .ok s cs
  | (va, n) :: r, bs, cs, s =>
    match seqAddr s x a va n 1 needW false with
    | .error c => .fault s c
    | .ok ipa => (writeAt s a ipa (bs.take n)).bind fun s c => seqWrite x a r (bs.drop n) (cs ++ c.toList) s

/-- The source of a segment is one access of space 0xD that leaves the item it starts in (R377). -/
def seqSplit (s : State) (x : Sequencer) (a : Agent) (va n : Nat) : Bool :=
  match seqAddr s x a va 1 1 needR false, seqAddr s x a va n 1 needR false with
  | .ok ipa, .error _ => ipaSpace ipa == 13
  | _, _ => false

/-- A copy by line segments of the destination (R233, R317). -/
def seqCopy (x : Sequencer) (a : Agent) (src dst : Nat) : List (Nat × Nat) → List Nat → State → Res (List Nat)
  | [], cs, s => .ok s cs
  | (va, n) :: r, cs, s =>
    let from_ := (src + (va + 2 ^ 64 - dst) % 2 ^ 64) % 2 ^ 64
    if seqSplit s x a from_ n then .fault s .protectionFault else
    (seqRead x a (linePieces 3 from_ n) [] s).bind fun s bs =>
      (seqWrite x a [(va, n)] bs [] s).bind fun s c => seqCopy x a src dst r (cs ++ c) s

/-! Headers (R314). -/

/-- CHUNK of a header. -/
def hdrChunk (h : List Word) : Nat := field (h.getD 3 0).toNat 0 32
/-- N of a header. -/
def hdrN (h : List Word) : Nat := field (h.getD 0 0).toNat 32 16
/-- RANK of a header. -/
def hdrRank (h : List Word) : Nat := field (h.getD 0 0).toNat 16 16
/-- FMT of a header. -/
def hdrFmt (h : List Word) : BitVec 4 := BitVec.ofNat 4 (field (h.getD 3 0).toNat 32 4)
/-- ROP of a header. -/
def hdrRop (h : List Word) : Nat := field (h.getD 3 0).toNat 36 4

/-- A header is valid (R314). -/
def hdrOk (h : List Word) : Bool :=
  let w3 := (h.getD 3 0).toNat
  field (h.getD 0 0).toNat 48 16 == 0 && 1 ≤ hdrN h && hdrN h ≤ 256 && (hdrRank h < hdrN h || hdrRank h == 0xFFFF) &&
  (h.getD 2 0).toNat % 8 == 0 && field w3 44 20 == 0 && hdrRop h < 8 &&
  [0, 1, 2, 6, 7, 5, 10, 11].contains (hdrFmt h).toNat &&
  hdrChunk h % 128 == 0 && 128 ≤ hdrChunk h && hdrChunk h ≤ 65536

/-- n words of 8 bytes. -/
def wordsOf (bs : List Byte) (n : Nat) : List Word :=
  (List.range n).map fun i => BitVec.ofNat 64 (leBytes ((bs.drop (8 * i)).take 8))

/-- The rank that the header names, with the rank map (R314). -/
def rankOf (h : List Word) (map : List Nat) (die : Nat) : Option Nat :=
  if hdrRank h ≠ 0xFFFF then some (hdrRank h)
  else match (map.zipIdx.filter fun p => p.1 == die) with
    | [p] => some p.2
    | _ => none

/-- Read the rank map: the die of each rank; none where an entry is not valid. -/
def readMap (x : Sequencer) (ag : Agent) (va : Nat) : Nat → Nat → List Nat → State → Res (Option (List Nat))
  | 0, _, got, s => .ok s (some got)
  | f + 1, i, got, s =>
    let a := (va + 8 * i) % 2 ^ 64
    match seqAddr s x ag a 8 8 needR false with
    | .error _ => .ok s none
    | .ok ipa =>
      match readAt s ag ipa 8 with
      | .stall s w => .stall s w
      | .fault s _ => .ok s none
      | .ok s bs =>
        let w := leBytes bs
        if 256 ≤ w then .ok s none else readMap x ag va f (i + 1) (got ++ [w % 64 * 4 + w / 64]) s

/-- The lowest sequencer of a die that is free (R320). -/
def freeSeq (s : State) (die : Nat) : Option Nat :=
  (List.range 16).find? fun q => let x := s.seq die q; x.st == .free || (x.st == .done && x.collected)

/-- A running sequencer of the die holds a tag. -/
def tagHeld (s : State) (die tag : Nat) : Bool :=
  (s.die die).seqs.any fun p => (p.2.st == .run || p.2.st == .paused) && p.2.tag == tag

/-- What a start comes to. -/
inductive Started
  | bad | full | ok (q : Nat)
  deriving DecidableEq, Repr

/-- Start a program whose header the agent has read; x holds its owner, ranges, VA and argument (R320). -/
def seqStart (s : State) (a : Agent) (x : Sequencer) (hdr : List Byte) : Res Started :=
  let h := wordsOf hdr 8
  let die := a.die
  if !hdrOk h then .ok s .bad
  else match readMap x a (h.getD 1 0).toNat (hdrN h) 0 [] s with
    | .stall s w => .stall s w
    | .fault s _ => .ok s .bad
    | .ok s none => .ok s .bad
    | .ok s (some map) =>
      match rankOf h map die with
      | none => .ok s .bad
      | some rank =>
        if tagHeld s die (field (h.getD 0 0).toNat 0 16) then .ok s .bad
        else match freeSeq s die with
          | none => .ok s .full
          | some q =>
            let n := ((s.seq die q).seq + 1) % 2 ^ 48
            let y : Sequencer := { x with
              st := .run, seq := if n = 0 then 1 else n, header := h, rank, map, told := none, collected := false }
            .ok (s.setSeq die q y) (.ok q)

/-- A sequencer's fields before a start by an agent with the context's range registers (R315). -/
def seqFresh (s : State) (a : Agent) (va : Nat) (b3 : Word) (hart : Option Nat) : Sequencer :=
  { Sequencer.reset with
    va, b3, ranges := (s.ctx (a.die / 4) a.owner).ranges, owner := a.owner, gen := a.gen, hart, told := a.told }

/-- Handle of a sequencer: die is its number in its module, 0 to 3 (R8, R320). -/
def seqHandle (s : State) (die q : Nat) : Word := BitVec.ofNat 64 ((s.seq die q).seq * 2 ^ 16 + die % 4 * 16 + q)

/-- COLL (R320). -/
def execColl (rd rs1 rs2 : BitVec 5) (s : State) : Out :=
  let i : Instr := .coll rd rs1 rs2
  let h := s.cur
  let die := hartDie h
  let va := s.g rs1
  needFeature s i 6 (afterPod s i
    (match hartCheck s h va.toNat 64 64 needR false with
     | .error c => .next (s.trap ⟨c, va⟩)
     | .ok ipa =>
       match (hartReadIpa s h 15 ipa 64).bind fun s bs =>
           seqStart s (s.agent h) (seqFresh s (s.agent h) va.toNat (s.g rs2) (some h)) bs with
       | .fault s c => .next (s.trap ⟨c, va⟩)
       | .stall s' w => .next ((keepRequests s' s).wait w i)
       | .ok s .bad => .next (s.write rd (BitVec.allOnes 64) 4)
       | .ok s .full => .next (s.write rd 0 4)
       | .ok s (.ok q) =>
         let hd := seqHandle s die q
         .next ((s.setMe { s.me with colls := s.me.colls ++ [hd] }).write rd hd 4)))

/-- COLLW (R320). One that reports an end orders what follows as a FENCE of all classes does (R239). -/
def execCollw (rd rs1 : BitVec 5) (s : State) : Out :=
  let i : Instr := .collw rd rs1
  let hd := s.g rs1
  needFeature s i 6
    (match if s.me.colls.contains hd then handleSeq s (hartDie s.cur / 4) hd else none with
     | none => .next (s.write rd (BitVec.allOnes 64) 4)
     | some (_, _, x) =>
       if x.st ≠ .done then .next (s.park .coll i)
       else
         let s := (s.collect s.cur hd).modHart s.cur fun x => x.fenced (BitVec.allOnes 16)
         if x.status.getLsbD 63 then .next (s.trap ⟨.collectiveAbort, x.status⟩) else .next (s.write rd x.status 4))

/-! Stopping (R319, R321). -/

/-- TAG of a collective message. -/
def bodyTag : Body → Option Nat
  | .chunk t _ _ _ | .credit t _ _ | .loss t _ _ | .pauseReq t _ | .pauseAns t _ _ | .pauseAt t _ _ | .resume t _ => some t
  | _ => none

/-- The step's accesses have stalled: nothing of it has happened but its requests. -/
def seqStall (s s' : State) (die q : Nat) (w : Why) : State :=
  let s := keepRequests s' s
  s.setSeq die q { s.seq die q with told := some w }

/-- The messages of a collective that has ended are discarded; credits are kept where it ended normally, for they belong to the
next program with its tag (R317, R321). -/
def dropMail (s : State) (die tag owner : Nat) (credits : Bool) : State :=
  let stays (b : Body) : Bool := match b with
    | .credit .. => credits
    | _ => false
  s.setDie die { s.die die with
    mail := (s.die die).mail.filter fun p => !(p.1 == owner && bodyTag p.2 == some tag && !stays p.2) }

/-- Credits beyond the sends of a program that has ended are the next one's (R317). -/
def spareCredits (x : Sequencer) : List (Nat × Body) :=
  x.credit.flatMap fun p => (List.range (p.2 - mget 0 x.sent p.1)).map fun i => (x.owner, .credit x.tag p.1 (i + 1))

/-- The writes of a sequencer that it waits for have been performed at pod scope. -/
def seqPerformed (s : State) (x : Sequencer) : Bool :=
  match x.written with
  | some cs => s.collapses.all fun c => !cs.contains c.id
  | none => false

/-- The sequencer is DONE (R319). -/
def seqDone (s : State) (die q : Nat) (st : Word) : State :=
  let x := s.seq die q
  let s := dropMail s die x.tag x.owner (!st.getLsbD 63)
  let s := if st.getLsbD 63 then s
    else s.setDie die { s.die die with mail := spareCredits x ++ (s.die die).mail }
  (s.setSeq die q { s.seq die q with
    st := .done, status := st, ending := none, stored := false, written := none, told := none, collected := x.hart.isNone }).suspendDone die

/-- The end of a program: once its writes are performed at pod scope it writes its status word, and it is DONE when that write is
performed there too, or has been refused (R239, R319). -/
def seqFinish (s : State) (die q : Nat) : State :=
  let x := s.seq die q
  let a := x.agent die q
  match x.ending with
  | none => s
  | some st =>
    if x.written.isSome && !seqPerformed s x then s
    else if x.stored then seqDone s die q st
    else match seqAddr s x a (x.header.getD 2 0).toNat 8 8 needW false with
      | .error _ => seqDone s die q st
      | .ok ipa =>
        match writeAt s a ipa (toBytes 8 st.toNat) with
        | .ok s c => s.setSeq die q { s.seq die q with stored := true, written := some c.toList, told := none }
        | .fault s _ => seqDone s die q st
        | .stall s' w => seqStall s s' die q w

/-- The chunk packets of a program that no channel has sent yet are discarded (R321). -/
def dropChunks (s : State) (die tag owner : Nat) : State :=
  let mine (p : Packet) : Bool := flowSrc p.flow == die && p.owner == owner && match p.body with
    | .chunk t _ _ _ => t == tag
    | _ => false
  { s with
    outbox := s.outbox.filter fun p => !mine p
    chans := s.chans.map fun c => (c.1, { c.2 with queue := c.2.queue.filter fun p => !mine p }) }

/-- The sequencer stops at once, its outstanding sends discarded, and is to end with a status; a step whose writes have all been
performed counts (R319, R321). -/
def seqStop (s : State) (die q st lost ecode : Nat) : State :=
  let x := s.seq die q
  let did := seqPerformed s x
  let chunks := if did then x.chunks + 1 else x.chunks
  (dropChunks s die x.tag x.owner).setSeq die q { x with
    st := .run, sends := [], written := if did then none else x.written, inbox := [], told := none, pausing := false
    target := none, pausers := [], chunks, ending := some (statusWord st lost ecode x.step chunks), stored := false }

/-- A rank is lost: the die that detects it tells every rank and stops (R321). -/
def seqLost (s : State) (die q lost : Nat) : State :=
  let x := s.seq die q
  if (x.st = .run || x.st = .paused) && x.ending.isNone then
    seqStop (s.tellRanks die q (.loss x.tag x.rank lost)) die q 2 lost 0
  else s

/-- The program stops with an error, telling its peers (R319). -/
def seqError (s : State) (die q ecode : Nat) : State :=
  let x := s.seq die q
  seqStop (s.tellRanks die q (.loss x.tag x.rank x.rank)) die q 3 0 ecode

/-- An access of a step fails: the collapses that its earlier writes have begun are waited for (R319). -/
def seqFails (before s : State) (die q : Nat) : State :=
  let new := (s.collapses.filter fun c => !before.collapses.any fun b => b.id == c.id).map (·.id)
  let s := seqError s die q 3
  let x := s.seq die q
  s.setSeq die q { x with written := if new = [] then x.written else some (x.written.getD [] ++ new) }

/-! Steps (R316 to R318). -/

/-- The float format of a code, if it is one. -/
def seqFloat (f : BitVec 4) : Option FFmt :=
  match f.toNat with | 0 => some .f32 | 1 => some .f16 | 2 => some .b16 | _ => none

/-- The operation and format of a reduction go together (R318). -/
def redOk (rop : Nat) (f : BitVec 4) : Bool :=
  if (seqFloat f).isSome then rop ≤ 2 else if f = 7 then 3 ≤ rop else true

/-- One element of a reduction (R318). -/
def redElem (rop : Nat) (f : BitVec 4) (l i : Nat) : Nat :=
  let w := codeWidth f
  match seqFloat f with
  | some t =>
    let a := t.dec l
    let b := t.dec i
    let r := if rop = 0 then (sumNums [a, b] false).1 else fltPick (rop == 2) a b
    (t.rne r).1
  | none =>
    let sl := sintOf w l
    let si := sintOf w i
    match rop with
    | 0 => (l + i) % 2 ^ w
    | 1 => if si < sl then i else l
    | 2 => if sl < si then i else l
    | 3 => min l i
    | 4 => max l i
    | 5 => l &&& i
    | 6 => l ||| i
    | _ => l ^^^ i

/-- Elements of k bytes reduced one by one. -/
def reduceBytes (rop : Nat) (f : BitVec 4) (k : Nat) : Nat → List Byte → List Byte → List Byte
  | 0, _, _ => []
  | n + 1, l, i =>
    toBytes k (redElem rop f (leBytes (l.take k)) (leBytes (i.take k))) ++ reduceBytes rop f k n (l.drop k) (i.drop k)

/-- A chunk reduced with another. -/
def reduceChunk (h : List Word) (l i : List Byte) : List Byte :=
  let k := codeWidth (hdrFmt h) / 8
  reduceBytes (hdrRop h) (hdrFmt h) k (hdrChunk h / k) l i

/-- A step word has its must-be-zero fields 0 and no reserved value (R316). -/
def stepOk (w : Nat) : Bool :=
  match w / 2 ^ 60 with
  | 0 => w == 0
  | 6 => field w 1 59 == 0
  | 7 => field w 16 44 == 0
  | 8 => field w 48 12 == 0 && field w 28 4 == 0 && field w 1 15 == 0 && field w 32 16 != 0
  | op =>
    op ≤ 5 && field w 0 22 == 0 && field w 26 2 != 2 && field w 24 2 != 2 &&
    (if op = 1 || op = 3 then field w 44 2 == 0 else if op = 2 then field w 46 2 == 0
     else if op = 5 then field w 48 12 == 0 else true)

/-- The contribution of a loop counter. -/
def loopTerm (code l : Nat) : Int := if code = 1 then l else if code = 3 then -(l : Int) else 0

/-- The chunk index of a data step; none when out of range (R316). -/
def stepChunk (x : Sequencer) (w : Nat) : Option Nat :=
  let j : Int := field w 28 16 + (if w.testBit 23 then (x.rank : Int) else 0) + loopTerm (field w 26 2) x.l0 +
    loopTerm (field w 24 2) x.l1
  if w.testBit 22 then some (j % (hdrN x.header : Int)).toNat
  else if j < 0 || 65535 < j then none else some j.toNat

/-- The to-peer, or with back the from-peer, of a data step; none when out of range (R316). -/
def stepPeer (x : Sequencer) (w : Nat) (back : Bool) : Option Nat :=
  let n := hdrN x.header
  let p := field w 48 11
  if w.testBit 59 then (if x.rank ^^^ p < n then some (x.rank ^^^ p) else none)
  else if back then some ((x.rank + n - p % n) % n) else some ((x.rank + p) % n)

/-- VA of chunk j of buffer b; none for B3 while it is 0 (R319). -/
def chunkVa (x : Sequencer) (b j : Nat) : Option Nat :=
  let base := if b = 3 then x.b3 else x.header.getD (4 + b) 0
  if b = 3 && x.b3 = 0 then none else some ((base.toNat + j * hdrChunk x.header) % 2 ^ 64)

/-- The 128-byte pieces of a chunk. -/
def chunkPieces (x : Sequencer) (va : Nat) : List (Nat × Nat) := linePieces (hdrChunk x.header / 128 + 1) va (hdrChunk x.header)

/-- Where an access of a sequencer goes: its IPA, and its storage address if its page is present; none where it is refused. -/
def seqPlace (s : State) (x : Sequencer) (a : Agent) (va n : Nat) (need : Need) : Option (Nat × Option Nat) :=
  match seqAddr s x a va n 1 need false with
  | .error _ => none
  | .ok ipa => match (translate s a ipa need).2 with
    | .ok key _ => some (ipa, some key)
    | .miss => some (ipa, none)
    | .refuse _ => none

/-- Two places share bytes: in storage, or by their IPAs while a page is missing. -/
def placesMeet (p : (Nat × Option Nat) × Nat) (r : (Nat × Option Nat) × Nat) : Bool :=
  match p.1.2, r.1.2 with
  | some a, some b => a < b + r.2 && b < a + p.2
  | _, _ => p.1.1 < r.1.1 + r.2 && r.1.1 < p.1.1 + p.2

/-- An outstanding send has not read bytes that a write of pieces would change (R317). -/
def sendUnread (s : State) (x : Sequencer) (a : Agent) (ps : List (Nat × Nat)) : Bool :=
  let at_ (need : Need) (p : Nat × Nat) : Option ((Nat × Option Nat) × Nat) := (seqPlace s x a p.1 p.2 need).map fun q => (q, p.2)
  let unread := (x.sends.filter fun p => p.2.2.2 == []).flatMap fun p => (chunkPieces x p.2.2.1).filterMap (at_ needR)
  unread != [] && (ps.filterMap (at_ needW)).any fun w => unread.any (placesMeet w)

/-- The next step, with an update of the sequencer. -/
def seqNext (s : State) (die q : Nat) (f : Sequencer → Sequencer) : State :=
  let x := f (s.seq die q)
  s.setSeq die q { x with step := x.step + 1, told := none }

/-- A send becomes outstanding; with data, it has been read (R317). -/
def Sequencer.send (x : Sequencer) (peer va : Nat) (data : List Byte) : Sequencer :=
  let k := mget 0 x.sent peer + 1
  { x with sent := mset 0 x.sent peer k, sends := x.sends ++ [(peer, k, va, data)] }

/-- The data step's writes have been applied, to be counted when they are performed at pod scope. -/
def seqWrote (s : State) (die q : Nat) (cs : List Nat) (f : Sequencer → Sequencer) : State :=
  s.setSeq die q { f (s.seq die q) with written := some cs, told := none }

/-- The next credit goes to a peer (R317). -/
def giveCredit (s : State) (die q peer : Nat) : State :=
  let x := s.seq die q
  let n := mget 0 x.given peer + 1
  (s.post (flowId (seqSource die q) (x.map.getD peer 0) x.cls) x.owner (.credit x.tag x.rank n)).setSeqWith die q fun x =>
    { x with given := mset 0 x.given peer n }

/-- The chunk that a receiving step awaits: a credit goes to the peer once, and the chunk is taken when it has arrived
(R317). -/
def seqAwait (s : State) (die q peer : Nat) (k : State → List Byte → State) : State :=
  let x := s.seq die q
  let n := mget 0 x.recvd peer + 1
  let s := if mget 0 x.given peer < n then giveCredit s die q peer else s
  match x.inbox.find? fun p => p.1 == peer && p.2.1 == n && hdrChunk x.header ≤ p.2.2.length with
  | none => s
  | some p => k s p.2.2

/-- The sequencer takes a received chunk. -/
def Sequencer.take (x : Sequencer) (peer : Nat) : Sequencer :=
  let n := mget 0 x.recvd peer + 1
  { x with recvd := mset 0 x.recvd peer n, inbox := x.inbox.filter fun p => !(p.1 == peer && p.2.1 == n) }

/-- A data step (R317). -/
def seqData (s : State) (die q w : Nat) : State :=
  let x := s.seq die q
  let op := w / 2 ^ 60
  let h := x.header
  let sb := field w 46 2
  let db := field w 44 2
  if (op = 3 || op = 4) && !redOk (hdrRop h) (hdrFmt h) then seqError s die q 1 else
  match stepChunk x w, stepPeer x w false, stepPeer x w true with
  | some j, some dest, some fr =>
    let src := chunkVa x sb j
    let dst := chunkVa x db j
    if (op ≠ 2 && src.isNone) || ((op = 2 || 4 ≤ op) && dst.isNone) then seqError s die q 4 else
    let src := src.getD 0
    let dst := dst.getD 0
    let a := x.agent die q
    let rd (s : State) (k : State → List Byte → State) : State :=
      match seqRead x a (chunkPieces x src) [] s with
      | .ok s bs => k s bs
      | .fault s _ => seqError s die q 3
      | .stall s' w => seqStall s s' die q w
    let put (s0 : State) (bs : List Byte) (f : Sequencer → Sequencer) : State :=
      match seqWrite x a (chunkPieces x dst) bs [] s0 with
      | .ok s cs => seqWrote s die q cs f
      | .fault s _ => seqFails s0 s die q
      | .stall s' w => seqStall s0 s' die q w
    let unread (s : State) : Bool := sendUnread s x a (chunkPieces x dst)
    match op with
    | 1 =>
      if 8 ≤ x.sends.length then s
      else seqNext s die q fun x => { x.send dest src [] with chunks := x.chunks + 1 }
    | 2 => seqAwait s die q fr fun s bs => if unread s then s else put s bs fun x => x.take fr
    | 3 => seqAwait s die q fr fun s bs =>
      if 8 ≤ x.sends.length then s
      else rd s fun s l => seqNext s die q fun x =>
        { (x.take fr).send dest src (reduceChunk h l bs) with chunks := x.chunks + 1 }
    | 4 => seqAwait s die q fr fun s bs =>
      if unread s then s else rd s fun s l => put s (reduceChunk h l bs) fun x => x.take fr
    | _ =>
      if unread s then s
      else match seqCopy x a src dst (chunkPieces x dst) [] s with
        | .ok s cs => seqWrote s die q cs id
        | .fault s' _ => seqFails s s' die q
        | .stall s' w => seqStall s s' die q w
  | _, _, _ => seqError s die q 2

/-- A step on the program's chamber: WAIT, and ARRIVE (R317). -/
def seqChamber (s : State) (die q w : Nat) : State :=
  let x := s.seq die q
  let a := x.agent die q
  let va := (x.header.getD 7 0).toNat
  let wait := w / 2 ^ 60 == 6
  match seqAddr s x a va 16 16 (if wait then needR else needRW) true with
  | .error _ => seqError s die q 3
  | .ok ipa =>
    if ipaSpace ipa ≠ 9 then seqError s die q 3
    else if !wait && sendUnread s x a [(va, 16)] then s
    else match chReachAt s a ipa va (if wait then needR else needRW) (if wait then .look else .arrive (field w 0 16)) with
      | .stall s' w => seqStall s s' die q w
      | .fault s _ => seqError s die q 3
      | .ok s (_, ch) => if wait && chPhase ch == w.testBit 0 then s else seqNext s die q id

/-- LOOP (R317). -/
def seqLoop (s : State) (die q w : Nat) : State :=
  let x := s.seq die q
  let n := field w 32 16
  let tgt := field w 16 12
  if x.step ≤ tgt then seqError s die q 5
  else
    let l := (if w.testBit 0 then x.l1 else x.l0) + 1
    let put (x : Sequencer) (v : Nat) : Sequencer := if w.testBit 0 then { x with l1 := v } else { x with l0 := v }
    if l < n then s.setSeq die q { put x l with step := tgt, told := none } else seqNext s die q fun x => put x 0

/-- Execute a step word. -/
def seqExec (s : State) (die q w : Nat) : State :=
  if !stepOk w then seqError s die q 1
  else match w / 2 ^ 60 with
    | 0 =>
      let x := s.seq die q
      if x.sends ≠ [] then s
      else seqFinish (s.setSeq die q { x with ending := some (statusWord 1 0 0 x.step x.chunks), told := none }) die q
    | 6 | 7 => seqChamber s die q w
    | 8 => seqLoop s die q w
    | _ => seqData s die q w

/-! Gang pause (R322). -/

/-- The sequencer of a peer is paused. -/
def peerPaused (s : State) (x : Sequencer) (rank : Nat) : Bool :=
  (s.die (x.map.getD rank 0)).seqs.any fun p => p.2.st == .paused && p.2.tag == x.tag && p.2.owner == x.owner

/-- The next step needs a peer that has already paused. -/
def needsPaused (s : State) (x : Sequencer) (w : Nat) : Bool :=
  let op := w / 2 ^ 60
  ((op == 1 || op == 3) && (match stepPeer x w false with | some p => peerPaused s x p | none => false)) ||
  ((op == 2 || op == 3 || op == 4) && (match stepPeer x w true with | some p => peerPaused s x p | none => false))

/-- Chunks that the peer of a rank has sent, or is to send, to a sequencer's rank. -/
def peerSent (s : State) (x : Sequencer) (rank : Nat) : Nat :=
  match (s.die (x.map.getD rank 0)).seqs.find? fun p =>
      p.2.st != .free && p.2.tag == x.tag && p.2.owner == x.owner && p.2.rank == rank with
  | some p => mget 0 p.2.sent x.rank
  | none => 0

/-- Ranks that have sends for the sequencer to which it has given no credit. -/
def owedCredit (s : State) (x : Sequencer) : List Nat :=
  (List.range x.map.length).filter fun r => mget 0 x.given r < peerSent s x r

/-- The sequencer has reached its pause point. The sends that its peers have made to it are let come, so that theirs complete; it is
PAUSED once its own have completed. The harts whose collectives pause are pre-empted (R322, R330). -/
def seqPause (s : State) (die q : Nat) : State :=
  let x := s.seq die q
  match owedCredit s x with
  | r :: _ => giveCredit s die q r
  | [] =>
    if x.sends ≠ [] then s
    else
      let s := (s.setSeq die q { x with st := .paused, told := none }).say (.pausedTogether die q)
      let s := x.map.foldl State.savePoint s
      match x.hart with
      | some h => (s.requestPreempt h).suspendDone die
      | none => s.suspendDone die

/-- SEQUENCER_STEP: the next step of a running program, or what is left of its end (R317, R319, R322). -/
def seqStep (s : State) (die q : Nat) : State :=
  let x := s.seq die q
  let ag := x.agent die q
  if x.st ≠ .run || s.stalled (seqSource die q) || toldPage s x.told x.owner then s
  else if x.ending.isSome then seqFinish s die q
  else if x.written.isSome then s
  else if x.target.any fun p => p ≤ x.chunks then seqPause s die q
  else if 4096 ≤ x.step then seqError s die q 1
  else
    let a := x.va + 64 + 8 * x.step
    match if x.byIpa then .ok a else seqAddr s x ag (a % 2 ^ 64) 8 8 needR false with
    | .error _ => seqError s die q 3
    | .ok ipa =>
      match readAt s ag ipa 8 with
      | .stall s' w => seqStall s s' die q w
      | .fault s _ => seqError s die q 3
      | .ok s bs =>
        let w := leBytes bs
        if x.target.isSome && stepOk w && needsPaused s x w then seqPause s die q else seqExec s die q w

/-- A data step's writes are performed at pod scope: it is counted (R317). -/
def seqCount (s : State) (die q : Nat) : State :=
  let x := s.seq die q
  if x.st = .run && seqPerformed s x then seqNext s die q fun x => { x with written := none, chunks := x.chunks + 1 } else s

/-! Messages. -/

/-- Take the oldest message for a sequencer that f accepts. -/
def takeMail {α : Type} (s : State) (die q : Nat) (f : Body → Option α) : Option (State × α) :=
  let x := s.seq die q
  let d := s.die die
  match d.mail.find? fun p => p.1 == x.owner && (f p.2).isSome with
  | none => none
  | some p => (f p.2).map fun a => (s.setDie die { d with mail := d.mail.erase p }, a)

/-- Bytes of a chunk join those of it that have come (R323). -/
def addPiece (l : List (Nat × Nat × List Byte)) (m : Nat × Nat × List Byte) : List (Nat × Nat × List Byte) :=
  let mine (p : Nat × Nat × List Byte) : Bool := p.1 == m.1 && p.2.1 == m.2.1
  if l.any mine then l.map fun p => if mine p then (p.1, p.2.1, p.2.2 ++ m.2.2) else p else l ++ [m]

/-- A packet of a chunk that has arrived (R317, R323). -/
def seqArrival (s : State) (die q : Nat) : State :=
  let x := s.seq die q
  if x.st = .free then s
  else match takeMail s die q fun b => match b with
      | .chunk t r n bs => if t = x.tag then some (r, n, bs) else none
      | _ => none with
    | some (s, m) => s.setSeq die q { s.seq die q with inbox := addPiece (s.seq die q).inbox m }
    | none => s

/-- The packets of a send whose data have been read, 128 bytes each, while their channel queue has room (R309, R323). -/
def sendPieces (die q : Nat) (p : Nat × Nat × Nat × List Byte) : Nat → List Byte → State → State
  | 0, _, s => s
  | f + 1, bs, s =>
    let x := s.seq die q
    let rest (bs : List Byte) (s : State) : State := s.setSeqWith die q fun x =>
      { x with sends := if bs = [] then x.sends.filter fun r => !(r.1 == p.1 && r.2.1 == p.2.1)
                        else x.sends.map fun r => if r.1 = p.1 && r.2.1 = p.2.1 then (r.1, r.2.1, r.2.2.1, bs) else r }
    let fl := flowId (seqSource die q) (x.map.getD p.1 0) x.cls
    if bs = [] || !flowRoom s fl then rest bs s
    else sendPieces die q p f (bs.drop 128) (s.post fl x.owner (.chunk x.tag x.rank p.2.1 (bs.take 128)))

/-- Transmit the sends whose credits have come, oldest first (R317). -/
def seqTransmit (die q : Nat) : Nat → State → State
  | 0, s => s
  | f + 1, s =>
    let x := s.seq die q
    match x.sends.find? fun p => p.2.1 ≤ mget 0 x.credit p.1 with
    | none => s
    | some p =>
      let go (s : State) (bs : List Byte) : State :=
        let s := sendPieces die q p 514 bs (s.setSeqWith die q fun x => { x with told := none })
        if (s.seq die q).sends.length < x.sends.length then seqTransmit die q f s else s
      if p.2.2.2 ≠ [] then go s p.2.2.2
      else if !flowRoom s (flowId (seqSource die q) (x.map.getD p.1 0) x.cls) then s
      else match seqRead x (x.agent die q) (chunkPieces x p.2.2.1) [] s with
        | .ok s bs => go s bs
        | .fault s _ => seqError s die q 3
        | .stall s' w => seqStall s s' die q w

/-- SEQ_CREDIT: a peer's next credit is taken, and the sends that have theirs are transmitted (R317). -/
def seqCredit (s : State) (die q : Nat) : State :=
  let x := s.seq die q
  if x.st ≠ .run || x.ending.isSome || s.stalled (seqSource die q) || toldPage s x.told x.owner then s
  else
    let s := match takeMail s die q fun b => match b with
        | .credit t r n => if t = x.tag && n = mget 0 x.credit r + 1 then some (r, n) else none
        | _ => none with
      | some (s, (r, n)) => s.setSeqWith die q fun y => { y with credit := mset 0 y.credit r n }
      | none => s
    seqTransmit die q 9 s

/-- LOSS_NOTICE: a notice that rank n is lost stops the sequencer (R321). -/
def seqNotice (s : State) (die q n : Nat) : State :=
  let x := s.seq die q
  if (x.st ≠ .run && x.st ≠ .paused) || x.ending.isSome then s
  else match takeMail s die q fun b => match b with
      | .loss t _ l => if t = x.tag && l = n then some l else none
      | _ => none with
    | some (s, l) => seqStop s die q 2 l 0
    | none => s

/-- The partition of a sequencer's context is pre-empted, or its hart is (R322). -/
def mustPause (s : State) (die : Nat) (x : Sequencer) : Bool :=
  x.st == .run && (((s.die die).pState == 2 && (s.die die).pOwner == x.owner) ||
    (match x.hart with | some h => (s.hart h).c.preq || (s.hart h).saving.isSome | none => false))

/-- No sequencer at a rank's die holds the program any more: it has ended there. -/
def peerGone (s : State) (x : Sequencer) (rank : Nat) : Bool :=
  !(s.die (x.map.getD rank 0)).seqs.any fun p => p.2.st != .free && p.2.tag == x.tag && p.2.owner == x.owner

/-- All answers are in: the pausing rank announces the largest chunk number (R322). -/
def pauseAgreed (s : State) (die q : Nat) : State :=
  let x := s.seq die q
  if (List.range x.map.length).all fun r => (mget none x.answers r).isSome || peerGone s x r then
    let p := (x.answers.map fun a => a.2.getD 0).foldl max 0
    (s.tellRanks die q (.pauseAt x.tag x.rank p)).setSeq die q { x with target := some (max p (x.target.getD 0)), answers := [] }
  else s

/-- GANG_PAUSE_REQUEST: a rank answers a request, or the sequencer of a pre-empted partition makes one (R322). -/
def pauseRequest (s : State) (die q : Nat) : State :=
  let x := s.seq die q
  if x.st = .free then s
  else match takeMail s die q fun b => match b with
      | .pauseReq t r => if t = x.tag then some r else none
      | _ => none with
    | some (s, r) =>
      s.post (flowId (seqSource die q) (x.map.getD r 0) x.cls) x.owner (.pauseAns x.tag x.rank x.chunks)
    | none =>
      if mustPause s die x && !x.pausing && x.target.isNone && x.ending.isNone then
        pauseAgreed ((s.tellRanks die q (.pauseReq x.tag x.rank)).setSeq die q
          { x with pausing := true, answers := mset none [] x.rank (some x.chunks) }) die q
      else s

/-- GANG_PAUSE_ANSWER of rank n (R322). -/
def pauseAnswer (s : State) (die q n : Nat) : State :=
  let x := s.seq die q
  if !x.pausing || x.st ≠ .run then s
  else match takeMail s die q fun b => match b with
      | .pauseAns t r c => if t = x.tag && r = n then some c else none
      | _ => none with
    | some (s, c) =>
      let y := s.seq die q
      pauseAgreed (s.setSeq die q { y with answers := mset none y.answers n (some c) }) die q
    | none => s

/-- GANG_PAUSE_TARGET n (R322). -/
def pauseTarget (s : State) (die q n : Nat) : State :=
  let x := s.seq die q
  if x.st ≠ .run then s
  else match takeMail s die q fun b => match b with
      | .pauseAt t r c => if t = x.tag && c = n then some (r, c) else none
      | _ => none with
    | some (s, (r, c)) =>
      let y := s.seq die q
      s.setSeq die q { y with target := some (max c (y.target.getD 0)), pausers := y.pausers ++ [r] }
    | none => s

/-- The hart and the partition of a paused sequencer run again (R322). -/
def mayResume (s : State) (die : Nat) (x : Sequencer) : Bool :=
  (s.die die).pState != 2 && (s.die die).pState != 3 &&
  (match x.hart with
   | some h => (s.hart h).st != .idle && (s.hart h).colls.any (fun hd => hd.toNat / 2 ^ 16 == x.seq) && !(s.hart h).c.preq &&
       (s.hart h).saving.isNone
   | none => true)

/-- GANG_RESUME: the pausing rank resumes and tells the others, or a notice lets another rank continue (R322). Where several ranks
have paused the gang at once, a rank continues when each of them has resumed (DESIGN CHOICE, log 33). -/
def gangResume (s : State) (die q : Nat) : State :=
  let x := s.seq die q
  let run (s : State) : State :=
    let y := s.seq die q
    if y.pausing || y.pausers ≠ [] then s else s.setSeq die q { y with st := .run, target := none, answers := [] }
  if x.st ≠ .run && x.st ≠ .paused then s
  else if x.st = .paused && x.pausing && mayResume s die x then
    run ((s.tellRanks die q (.resume x.tag x.rank)).setSeqWith die q fun y => { y with pausing := false })
  else match takeMail s die q fun b => match b with
      | .resume t r => if t = x.tag && x.pausers.contains r then some r else none
      | _ => none with
    | some (s, r) =>
      let s := s.setSeqWith die q fun y => { y with pausers := y.pausers.erase r }
      if x.st = .run || mayResume s die x then run s else s
    | none => if x.st = .paused && mayResume s die x then run s else s

end Sys2Proof.Machine
end

