-- ==== Sys2Proof/Machine/Fetch.lean ====
section
/-! DEFINITION. Fetching the parcels of an instruction (R39 to R41, R227) and of a convoy (R25, R26). -/

namespace Sys2Proof.Machine

open Sys2Proof

/-- What a fetch comes to. -/
inductive Fetch (α : Type)
  | ok (s : State) (a : α)
  | trap (s : State) (c : Cause) (va : Word)
  | stall (s : State) (w : Why)

/-- Go on with the value. -/
def Fetch.bind {α β : Type} (r : Fetch α) (f : State → α → Fetch β) : Fetch β :=
  match r with
  | .ok s a => f s a
  | .trap s c va => .trap s c va
  | .stall s w => .stall s w

/-- The hart keeps the parcel that it has fetched from a storage address (R227, log 8). -/
def State.keepParcel (s : State) (h key : Nat) (p : BitVec 16) : State :=
  s.modHart h fun x => { x with ic := mset none x.ic key (some p) }

/-- The parcel at a storage address: where it has been written since the hart fetched it, a fetch returns the old or the new one,
until a FENCE drops the old one (R227). Reads of class 15 do not go back from the new one (R225). -/
def chooseParcel (s : State) (h key : Nat) (new : BitVec 16) : State × BitVec 16 :=
  match mget none (s.hart h).ic key with
  | none => (s.keepParcel h key new, new)
  | some old =>
    if old = new then (s, new)
    else if Config.freeBool s.fresh then (s.draw, old)
    else (s.draw.keepParcel h key new, new)

/-- One parcel of hart h at a VA (R41). A fetch from a fixed space does not fail for an uncorrectable error or a die that cannot be
reached: R41 says so and gives no value, and it returns the bytes that storage holds (DESIGN CHOICE, log 52). One whose home module
the peer table closes to the owner is refused with PROTECTION_FAULT, as R211 refuses a blocking access (DEDUCED, log 52). -/
def fetchParcel (s : State) (h : Nat) (va : Word) : Fetch (BitVec 16) :=
  let a := s.agent h
  match xlateVa s a va.toNat needX with
  | .error c => .trap s c va
  | .ok ipa =>
    if !check4 s a (s.hart h).c.prv ipa 2 needX false then .trap s .protectionFault va
    else match translate s a ipa needX with
      | (s, .refuse c) =>
        if pagedSpace (ipaSpace ipa) || c != .dataError then .trap s c va
        else .ok s (BitVec.ofNat 16 (s.rdNat (spaceKey s (ipaHome ipa) (ipaSpace ipa) (ipaOff ipa)) 2))
      | (s, .miss) => (match (missStall s a ipa needX : Res Unit) with
        | .ok s _ => .stall s .order
        | .fault s c => .trap s c va
        | .stall s w => .stall s w)
      | (s, .ok key _) =>
        match serveRead s { a with who := some (h, 15) } ipa key 2 with
        | .ok s bs =>
          let r := chooseParcel (s.noteSeen h 15 (keyLine key) false) h key (BitVec.ofNat 16 (leBytes bs))
          .ok r.1 r.2
        | .fault s c =>
          if pagedSpace (ipaSpace ipa) || c != .dataError then .trap s c va
          else .ok s (BitVec.ofNat 16 (s.rdNat key 2))
        | .stall s w => .stall s w

/-- A parcel is fetched ahead, if it can be at once (R227). -/
def prefetch (s : State) (h : Nat) (va : Word) : State :=
  if (s.hart h).st ≠ .run then s
  else match fetchParcel s h va with
    | .ok s _ => s
    | _ => s

/-- n more parcels from a VA on, the low one first, on top of those already fetched below bit 16 b. -/
def fetchMore (h : Nat) : Nat → Nat → Word → Nat → State → Fetch Nat
  | 0, _, _, got, s => .ok s got
  | n + 1, b, va, got, s =>
    (fetchParcel s h va).bind fun s p => fetchMore h n (b + 1) (va + 2) (got + p.toNat * 2 ^ (16 * b)) s

/-- The rest of the instruction at a VA whose first parcel is p0: its parcels and length (R39 to R41). -/
def fetchRest (s : State) (h : Nat) (va : Word) (p0 : BitVec 16) : Fetch (Word × Nat) :=
  let n := parcelLen p0
  if 4 ≤ n && va.toNat % 4 ≠ 0 then .trap s .misaligned va
  else (fetchMore h (n / 2 - 1) 1 (va + 2) p0.toNat s).bind fun s w => .ok s (BitVec.ofNat 64 w, n)

/-- The instruction at a VA: its parcels and length. -/
def fetchInsn (s : State) (h : Nat) (va : Word) : Fetch (Word × Nat) :=
  (fetchParcel s h va).bind fun s p0 => fetchRest s h va p0

/-- The instruction that parcels hold; none for an illegal one (R68, check 2). -/
def insnOf (w : Word) : Option Instr :=
  match decodeWord w with
  | .ok i => some i
  | .error _ => none

/-- The slot of parcels fetched at a VA. -/
def slotAt (va : Word) (p : Word × Nat) : Slot := ⟨va, BitVec.ofNat 64 p.2, p.1, insnOf p.1⟩

/-- A parcel begins a convoy instruction, legal or not (R24). -/
def convoyParcel (p0 : BitVec 16) : Bool :=
  match parcelLen p0 with
  | 8 => true
  | 4 => 0x42 ≤ (p0.extractLsb' 2 7).toNat && (p0.extractLsb' 2 7).toNat ≤ 0x7C
  | _ => (p0.extractLsb' 2 4).toNat == 14 || (p0.extractLsb' 2 4).toNat == 15

/-- The convoy-start bit that a first parcel carries (R26, R42, R64). -/
def parcelC (p0 : BitVec 16) : Bool :=
  match parcelLen p0 with
  | 8 => p0.getLsbD 2
  | 4 => p0.getLsbD 1
  | _ => false

/-- The instructions of a convoy that follow those already fetched, and the parcel that ends it (R25). -/
def fetchConvoy (h : Nat) : Nat → Word → List Slot → State → Fetch (List Slot)
  | 0, _, got, s => .ok s got
  | f + 1, va, got, s =>
    (fetchParcel s h va).bind fun s p0 =>
      if convoyParcel p0 && !parcelC p0 then
        (fetchRest s h va p0).bind fun s p => fetchConvoy h f (va + BitVec.ofNat 64 p.2) (got ++ [slotAt va p]) s
      else .ok s got

end Sys2Proof.Machine
end

