-- ==== Sys2Proof/Machine/Lantern.lean ====
section
/-! DEFINITION. The Lantern: snapshots (R375), the teardown of a killed context (R340), errors, spares and shrinking capacity (R215
to R218, R382), bring-up (R380), die reset (R219, R381), the clock (R384). -/

namespace Sys2Proof.Machine

open Sys2Proof

/-! Snapshots. -/

/-- A snapshot record as sixteen words (R375). -/
def snapWords (c : Ctx) (n : Nat) (final : Bool) : List Word :=
  let w0 := c.ctx.toNat * 2 ^ 48 + final.toNat * 2 ^ 42 + c.gen.toNat * 2 ^ 38 + n % 64 * 2 ^ 32 + (c.snapSeq + 1) % 2 ^ 32
  let err := ([0, 1, 2, 3].map fun f => mget 0 c.errs f).sum
  ([w0] ++ ([0, 1, 2, 3, 4, 5, 6, 7].map fun m => mget 0 c.meters m) ++ [err, 0, 0, 0, 0, 0, 0]).map (BitVec.ofNat 64)

/-- A request for a snapshot: a free record answers with its final one, another waits for a fold of each stack (R375). -/
def snapRequest (s : State) (m n : Nat) : State :=
  let c := s.ctx m n
  if c.st = .free then s.say (.snapshot m n (mget noSnap (s.md m).finals n))
  else if c.forming.isSome then s
  else s.setCtx m n { c with forming := some (partsDies m c.parts) }

/-- The snapshot of an owner whose stacks have folded (R375); that of a killed one is completed by the kill (R376). -/
def snapForm (s : State) (m n : Nat) : State :=
  let c := s.ctx m n
  if c.forming = some [] && c.st != .dying then
    let w := snapWords c n false
    (s.setCtx m n { c with forming := none, snapSeq := c.snapSeq + 1, snap := w }).say (.snapshot m n w)
  else s

/-- The final snapshot of a kill; it completes one that is forming (R375, R376). -/
def snapFinal (s : State) (m n : Nat) : State :=
  let c := s.ctx m n
  let w := snapWords c n true
  let md := s.md m
  let s := s.setMd m { md with finals := mset noSnap md.finals n w }
  if c.forming.isSome then s.say (.snapshot m n w) else s

/-! Errors and spares. -/

/-- Retire the 2 MiB granule of a DPA (R218, R362). -/
def retireGranule (s : State) (die dpa : Nat) : State :=
  let x := s.die die
  let g := dpa / 2 ^ 21
  if x.retired.contains g then s
  else if x.retired.length < 1024 then
    (s.setDie die { x with retired := x.retired ++ [g] }).countDie die 7
  else (s.setDie die { x with clOff := List.range 12 }).countDie die 7

/-- Lines leave an L2 slice until it fits its ways, dirty ones written back (R217). -/
def l2Trim (die : Nat) : Nat → State → State
  | 0, s => s
  | n + 1, s => if l2Count s die + (s.die die).l2Off ≤ 786432 then s else l2Trim die n (s.l2Evict die)

/-- A way of an L2 slice-bank or of an L1 data cache is retired; how many lines a way holds is open (R196, R217; log 15). -/
def retireWay (s : State) (die row p : Nat) : State :=
  let n := Config.wayLines row
  if p < 2 ^ 39 + 2 ^ 33 then
    let x := s.die die
    let s := s.setDie die { x with l2Off := min 786432 (x.l2Off + n) }
    l2Trim die (l2Count s die) s
  else
    let c := die * 64 + (p - (2 ^ 39 + 2 ^ 33)) / 2 ^ 16 % 64
    let k := s.core c
    let off := min 512 (k.l1Off + n)
    s.setCore c { k with l1Off := off, l1 := k.l1.drop (k.l1.length - (512 - off)) }

/-- A row with a lasting error and no spare row left (R216 to R218). A scratchpad bank that takes a failed one's place is counted
with the spare rows that the failed one had used: the spec gives it no count of its own (DESIGN CHOICE, log 54). -/
def noSpare (s : State) (die row key : Nat) : State :=
  let x := s.die die
  let words := rowPlaces die row key
  match keySpc key with
  | .hbm => retireGranule s die row
  | .sram =>
    let bank := (key % 2 ^ 40 - 2 ^ 37) / 2 ^ 20
    s.setDie die { x with
      shrink := if x.shrink.contains bank then x.shrink else x.shrink ++ [bank]
      badWords := x.badWords ++ words.map (· % 2 ^ 40) }
  | .scratch =>
    let cl := (key % 2 ^ 40 - 2 ^ 39) / 2 ^ 21
    let n := mget 0 x.subs cl
    if n < 4 then
      words.foldl (fun s w => s.clearUnit w 4 0) (s.setDie die { x with subs := mset 0 x.subs cl (n + 1) })
    else s.setDie die { x with clOff := if x.clOff.contains cl then x.clOff else x.clOff ++ [cl] }
  | .tcm =>
    let c := die * 64 + (key % 2 ^ 40 - (2 ^ 39 + 2 ^ 30)) / 2 ^ 18
    s.setCore c { s.core c with offline := true }
  | .ctl => if 2 ^ 39 + 2 ^ 32 ≤ key % 2 ^ 40 then retireWay s die row (key % 2 ^ 40) else s
  | .sync => s

/-- A failing row is remapped while its bank has a spare row (R215 to R218). -/
def rowRemap (s : State) (die row : Nat) : State :=
  let key := rowKey s die row
  let b := spareBank key
  let x := s.die die
  let used := mget 0 x.spares b
  if used < Config.spareRows b then s.setDie die { x with spares := mset 0 x.spares b (used + 1) }
  else noSpare s die row key

/-- A row is classed lasting, and counts (R369, R382). -/
def rowLasting (s : State) (die row : Nat) : State := rowRemap (s.countDie die 3) die row

/-- A test of a row ends (R382). -/
def testDone (s : State) (die row : Nat) (passed : Bool) : State :=
  let x := s.die die
  if !x.tests.contains row then s
  else
    let s := s.setDie die { x with tests := x.tests.filter (· ≠ row) }
    let recent := match x.transient.find? fun p => p.1 == row with
      | some p => x.clk ≤ p.2 + 2 ^ 30
      | none => false
    if passed && !recent then
      let s := s.countDie die 2
      s.setDie die { s.die die with transient := mput (s.die die).transient row x.clk }
    else rowLasting s die row

/-- Tests that a kill or reset abandons class their rows lasting (R382). -/
def abandonTests (s : State) (die : Nat) : State :=
  (s.die die).tests.foldl (fun s r => testDone s die r false) s

/-- A poisoned granule goes through its row's test as zero with empty tags, and keeps its mark (R382). Of a line that L2 holds dirty
these are the bytes in HBM alone. -/
def State.testedGranule (s : State) (u : Nat) : State :=
  let ws := unitsOf 4 u (eccUnit u)
  match if keySpc u = .hbm then mget none s.dirty (keyLine u) else none with
  | some (tag, _) => { s with dirty := mset none s.dirty (keyLine u) (some (tag, List.replicate 128 0)) }
  | none => { s.zero u (eccUnit u) with
      full := ws.foldl (fun m w => mset false m w false) s.full
      stirred := s.stirred ++ ws.filter fun w => (s.die (keyDie u)).recs.any fun r => r.key == w }

/-- A row's contents go through its test (R382). The granule that names the row is one of its own. -/
def testedRow (s : State) (die row : Nat) : State :=
  if s.poison = [] then s
  else
    let key := rowKey s die row
    (((key :: rowPlaces die row key).map granule).filter fun u => mget false s.poison u).foldl State.testedGranule s

/-- The errors of a row that no test has met yet start one, together (R215, R382). -/
def testStart (s : State) (die row : Nat) : State :=
  let x := s.die die
  if x.tests.contains row || !x.faulty.any (inRow s die row) then s
  else testedRow (s.setDie die { x with tests := x.tests ++ [row], faulty := x.faulty.filter fun u => !inRow s die row u }) die row

/-- A leaf of a table maps shared SRAM at or above a DPA. -/
def mapsAbove (s : State) (die lo : Nat) : Nat → Nat → Bool
  | 0, _ => false
  | n + 1, dpa => (List.range 512).any fun i =>
    let e := pte s die dpa i
    e.getLsbD 0 && !pteBad (3 - n) e &&
      (if e.getLsbD 8 then 2 ^ 37 ≤ pteDpa e && lo < pteDpa e + pageSize (3 - n) (pteSpan e) else mapsAbove s die lo n (pteDpa e))

/-- Some context maps shared SRAM of the die at or above a DPA (R217). -/
def sramMapped (s : State) (die lo : Nat) : Bool :=
  (List.range 64).any fun o =>
    let root := BitVec.ofNat 64 (s.rdNat (ctlKey die (0x200 + 8 * o)) 8)
    o != 0 && root.getLsbD 0 && mapsAbove s die lo 4 (root.toNat / 2 ^ 12 % 2 ^ 26 * 2 ^ 12)

/-- The top bank of shared SRAM takes the place of a failed one, whose reads meet no error of the failed row any more (R217). The
addresses of the failed bank keep their contents and poison marks: the spec does not say what they hold (DESIGN CHOICE, log 53). -/
def sramShrink (s : State) (die : Nat) : State :=
  let x := s.die die
  match x.shrink with
  | [] => s
  | b :: r =>
    if sramMapped s die (2 ^ 37 + (x.sram - 1) * 2 ^ 20) then s
    else s.setDie die { x with
      sram := x.sram - 1, shrink := r, badWords := x.badWords.filter fun w => (w - 2 ^ 37) / 2 ^ 20 != b }

/-! Teardown (R340, steps 5 to 7). -/

/-- An access of an owner of module m is still on its way: a store that has been sent, a request at its home, or a packet of one of
the module's dies (R340, step 5). -/
def inTransit (s : State) (m n : Nat) : Bool :=
  (s.harts.any fun p => hartDie p.1 / 4 == m && p.2.pend.any fun e => e.owner == n && e.place == .sent) ||
  (s.arrived.any fun q => q.owner == n && q.src / 4 == m) ||
  ((s.outbox ++ s.chans.flatMap fun c => c.2.queue ++ c.2.retry).any fun p => p.owner == n && flowSrc p.flow / 4 == m)

/-- Stores of an owner that have not been sent are dropped (R340, step 5). -/
def dropUnsent (s : State) (m n : Nat) : State :=
  (s.harts.map (·.1)).foldl (fun s h =>
    if hartDie h / 4 == m then let x := s.hart h; s.setHart h { x with pend := x.pend.filter fun e => e.owner != n } else s) s

/-- Words and lines of the module that carry an owner's tag are scrubbed (R340, step 6). -/
def scrubOwner (s : State) (m n : Nat) : State :=
  (s.owners.filter fun p => p.2 == n && keyDie p.1 / 4 == m).foldl (fun s p => s.clearUnit p.1 (tagUnit p.1) 0) s

/-- The owner's windows on a die close, and its lines are dropped (R360). -/
def closeWindows (s : State) (die n : Nat) : State :=
  let x := s.die die
  let s := s.setDie die { x with windows := x.windows.map fun p =>
    if p.2.isOpen && p.2.owner == n then (p.1, { p.2 with isOpen := false, closing := none }) else p }
  { s with winLines := s.winLines.filter fun p => match p.2 with
      | some c => !(p.1 / 2 ^ 57 == die && c.owner == n)
      | none => true }

/-- The owner's key is destroyed and its cached lines go without write-back (R214, R340). -/
def destroyKey (s : State) (m n : Nat) : State :=
  let s := (s.dirty.filter fun p => keyDie (p.1 * 128) / 4 == m && (mget (0, 0, 0) s.keyTag p.1).1 == n).foldl
    (fun s p => s.lostLine p.1) s
  let s := { s with
    replicas := s.replicas.filter fun p => match p.2 with
      | some c => !(c.owner == n && keyDie (p.1 / 4 * 128) / 4 == m)
      | none => true
    tlb := s.tlb.filter fun t => !(t.die / 4 == m && t.owner == n)
    frames := s.frames.filter fun p => !(p.1 / 96 % 64 == n && p.1 / 96 / 64 / 4 == m) }
  (moduleDies m).foldl (fun s d =>
    let s := closeWindows s d n
    let x := s.die d
    s.setDie d { x with
      keyGen := mset 0 x.keyGen n (mget 0 x.keyGen n + 1), mail := x.mail.filter (fun p => p.1 ≠ n) }) s

/-- Steps 5 to 7 of a kill (R340). -/
def teardown (s : State) (m n : Nat) : State :=
  let c := s.ctx m n
  if c.st ≠ .dying || inTransit s m n then s
  else
    let dies := (partsDies m c.parts).filter fun d => (s.die d).pOwner == n
    let s := dies.foldl abandonTests s
    let s := scrubOwner (destroyKey (dropUnsent s m n) m n) m n
    let s := (moduleDies m).foldl (fun s d => (s.fold d (Config.freeCount s.fresh)).draw) s
    let s := snapFinal s m n
    let s := dies.foldl (fun s d => s.setDie d { s.die d with pOwner := 0, pState := 0 }) s
    let c := s.ctx m n
    s.setCtx m n { c with st := .free, parts := 0, forming := none, needClear := true }

/-! Bring-up (R380). -/

/-- A die's control harts are released at level M (R380, R381). -/
def releaseControl (s : State) (die : Nat) : State :=
  let x : Hart := { Hart.idle with st := .run, pc := evenPc (s.md (die / 4)).entryVa, c := { Csrs.zero with prv := 3 } }
  (s.setHart (die * 128 + 96) x).setHart (die * 128 + 97) x

/-- The die's channels are UP and empty (R305). -/
def channelsUp (s : State) (die : Nat) : State :=
  { s with chans := s.chans.filter fun p => !(p.1 / 512 == die || p.1 / 2 % 256 == die) }

/-- The storage of a die is zero-filled: all of it at bring-up, its SRAMs at a die reset (R380, R381). -/
def zeroDie (s : State) (die : Nat) (hbm : Bool) : State :=
  s.scrub fun k => keyDie k == die && k % 2 ^ 40 < 2 ^ 39 + 2 ^ 31 && (hbm || keySpc k != .hbm)

/-- Failure code of a bring-up step (R380); step 6 has two. -/
def stepCode (step code : Nat) : Nat :=
  match step with
  | 1 => 0x01 | 2 => 0x11 | 3 => 0x21 | 4 => 0x31 | 5 => 0x41 | _ => if code = 0x52 then 0x52 else 0x51

/-- Bound of a step in cycles at 2.0 GHz (R2, R380); none for step 7. -/
def stepBound (step : Nat) : Option Nat :=
  match step with
  | 1 => some 40000000 | 2 => some 400000000 | 3 => some 1000000000 | 4 => some 3000000000 | 5 => some 2000000000
  | 6 => some 100000000 | _ => none

/-- A step that began at a cycle is past its bound at another. -/
def stepLate (step since now : Nat) : Bool :=
  match stepBound step with
  | some n => since + n < now
  | none => false

/-- No cluster of the stack is left for dispatch (R380, step 5). -/
def noCluster (x : Die) : Bool := (List.range 12).all x.clOff.contains

/-- The self-test of step 5 finds a failing row, which is remapped, or its bank substituted or retired (R215 to R218, R380). It is
no error that the targeted self-test classes, and does not count (R369). -/
def failingRow (s : State) (die row : Nat) : State :=
  let testing := ((s.md (die / 4)).step == some 5 && !(s.md (die / 4)).doff.getLsbD (die % 4)) || (s.die die).resetting == some 5
  if testing then rowRemap s die row else s

/-! Die reset (R219, R381). -/

/-- A hart that waits at another die loses its access there. -/
def loseWait (s : State) (die h : Nat) : State :=
  let x := s.hart h
  match x.hold with
  | some ⟨.remote d _, i⟩ => if d = die then s.setHart h { x with hold := some ⟨.remoteFailed die, i⟩ } else s
  | some ⟨_, i⟩ => s.setHart h { x with hold := some ⟨.remoteFailed die, i⟩, st := .run }
  | none => s

/-- The wait records of a die are lost: a hart that waits for one meets an error, a VLDF.NB element ends as dropped (R219). -/
def loseRecords (s : State) (die : Nat) : State :=
  let x := s.die die
  let recs := x.recs ++ x.retries
  let s := s.setDie die { x with recs := [], retries := [], chRecs := [], chRetry := [] }
  let s := (recs.filter fun r => r.elt = 0).foldl (fun s r => loseWait s die r.hart) s
  let s := (x.chRecs ++ x.chRetry).foldl (fun s r => loseWait s die r.hart) s
  (recs.filter fun r => r.elt ≠ 0).foldl (fun s r =>
    match (s.hart r.hart).pend.find? fun e => e.id == r.elt with
    | some el => s.refuseElt r.hart el
    | none => s) s

/-- Harts of a die. -/
def dieHarts (s : State) (die : Nat) : List Nat := (s.harts.filter fun p => hartDie p.1 == die).map (·.1)

/-- A store element that is dropped counts, and counts as performed (R311). -/
def dropElts (s : State) (h : Nat) (ids : List Nat) : State :=
  ids.foldl (fun s id => match (s.hart h).pend.find? fun e => e.id == id with
    | some el => s.refuseElt h el
    | none => s) s

/-- The sequencers of a die that hold a tag for an owner. -/
def seqsOf (s : State) (die owner tag : Nat) : List Nat :=
  ((s.die die).seqs.filter fun q => q.2.tag == tag && q.2.owner == owner).map (·.1)

/-- A message that a peer table refuses loses its sender's rank, which the sender's own die detects (R211, R321). -/
def refusedMessage (s : State) (src owner : Nat) (b : Body) : State :=
  match bodyTag b with
  | none => s
  | some t => (seqsOf s src owner t).foldl (fun s q => seqLost s src q (s.seq src q).rank) s

/-- A hart that waits at a die is told that its access there is lost. -/
def tellLost (s : State) (h die : Nat) (p : Why → Bool) : State :=
  let x := s.hart h
  match x.hold with
  | some ⟨w, i⟩ => if p w then s.setHart h { x with hold := some ⟨.remoteFailed die, i⟩, st := .run } else s
  | none => s

/-- The request of an access is dropped (R311). -/
def requestLost (s : State) (source elt ipa : Nat) : State :=
  let mine (f : Far) : Bool := f.source == source && f.elt == elt && f.ipa == ipa
  let d := ipaHome ipa
  if source < 65536 && elt = 0 then
    tellLost { s with far := s.far.filter fun f => !mine f } source d fun w => match w with | .remote e _ => e == d | _ => false
  else { s with far := s.far.map fun (f : Far) => if mine f then { f with state := .dropped } else f }

/-- The response to an access is lost: what it asked has been done at its home, and stays done (R311). -/
def responseLost (s : State) (source elt ipa : Nat) : State :=
  let mine (f : Far) : Bool := f.source == source && f.elt == elt && f.ipa == ipa && f.state == .sent
  let s := (s.far.filter mine).foldl farAlone s
  { s with far := s.far.map fun (f : Far) => if mine f then { f with state := .lost } else f }

/-- The request of a core for a page is dropped: its accesses that wait for the page are (R311). -/
def askLost (s : State) (core owner : Nat) (gen : BitVec 4) (page : Nat) : State :=
  let m := core / 256
  [2 * core, 2 * core + 1].foldl (fun s h =>
    let s := tellLost s h (m * 4) fun w => match w with | .page a o p => a == m && o == owner && p == page | _ => false
    let on (e : Elt) : Bool := e.owner == owner && e.gen == gen.toNat && e.key.isNone && e.pages.any fun p => p.1 / 4096 == page
    ((s.hart h).pend.filter on).foldl (fun s e => s.refuseElt h e) s) s

/-- What a packet carries is lost (R311, R321): stores complete as refused, an access or its response is lost, and a collective
loses the rank at the destination. -/
def loseBody (s : State) (src dst : Nat) (p : Packet) : State :=
  match p.body with
  | .stores h ids => dropElts s h ids
  | .ack h n => s.modHart h fun x => { x with
      unacked := x.unacked.map fun (u : Unacked) => if u.id = n then { u with lost := true } else u }
  | .request n e ipa _ _ => requestLost s n e ipa
  | .response n e ipa _ => responseLost s n e ipa
  | .notice h e _ =>
    if e = 0 then tellLost s h src Why.served
    else match (s.hart h).pend.find? fun x => x.id == e with
      | some el => s.refuseElt h el
      | none => s
  | .pageAsk c o g q _ => askLost s c o g q
  | b => match bodyTag b with
    | none => s
    | some t => (seqsOf s src p.owner t).foldl (fun s q => seqLost s src q ((s.seq src q).map.findIdx (· == dst))) s

/-- A packet that is dropped counts, with the outcome of what it carries (R311). dst is its destination. -/
def dropPacket (s : State) (src dst : Nat) (p : Packet) : State := loseBody (s.countDie src 0) src dst p

/-- Stores that meet the reset of their home are dropped (R219). -/
def resetElts (s : State) (h : Nat) (ids : List Nat) : State :=
  ids.foldl (fun s id => match (s.hart h).pend.find? fun e => e.id == id with
    | some el => s.resetElt h el
    | none => s) s

/-- A write of a hart that has arrived at another die's home is applied there (R219, R222). -/
def applyArrived (s : State) (h id : Nat) : State :=
  match (s.hart h).pend.find? fun e => e.id == id with
  | none => s
  | some el =>
    let s := (s.collapses.filter fun c => some c.line == el.key.map keyLine).foldl State.hurryCollapse s
    match el.key with
    | some key => s.pastTests (keyDie key) fun s => match eltHome s h el key none with
      | .ok s c => s.finishElt h id c
      | r => r.st.refuseElt h el
    | none => s

/-- A request that has arrived at the die is lost (R219). -/
def arrivedLost (s : State) (q : Req) : State :=
  match q.far with
  | some (e, ipa, _) => requestLost s q.hart e ipa
  | none => resetElts s q.hart q.elts

/-- Requests that have arrived from a die at the homes of others are applied; those that have arrived at it are lost (R219). -/
def resetArrived (s : State) (die : Nat) : State :=
  let s := (s.arrived.filter fun q => q.src == die && q.dst != die).foldl (fun s q => match q.far with
    | none => q.elts.foldl (fun s id => applyArrived s q.hart id) s
    | some (e, ipa, _) =>
      (s.far.filter fun f => f.source == q.hart && f.elt == e && f.ipa == ipa && f.state == .sent).foldl farAlone s) s
  let s := (s.arrived.filter fun q => q.dst == die && q.src != die).foldl arrivedLost s
  { s with arrived := s.arrived.filter fun q => q.src != die && q.dst != die }

/-- A packet on its way to a die that is reset. -/
def inwardLost (s : State) (die : Nat) (p : Packet) : State :=
  match p.body with
  | .stores h ids => resetElts s h ids
  | _ => loseBody s (flowSrc p.flow) die p

/-- A packet of a die that is reset: what the die answered is lost, what it asked goes with it. -/
def outwardLost (s : State) (die : Nat) (p : Packet) : State :=
  match p.body with
  | .response .. | .ack .. | .notice .. => loseBody s die (flowDst p.flow) p
  | _ => s

/-- The packets to and from a die that is reset are lost (R219). -/
def resetPackets (s : State) (die : Nat) : State :=
  let ps := s.packets
  let s := { s with outbox := s.outbox.filter fun p => flowSrc p.flow != die && flowDst p.flow != die }
  let s := channelsUp s die
  let s := (ps.filter fun p => flowDst p.flow == die && flowSrc p.flow != die).foldl (fun s p => inwardLost s die p) s
  let s := (ps.filter fun p => flowSrc p.flow == die && flowDst p.flow != die).foldl (fun s p => outwardLost s die p) s
  let at_ (f : Far) : Bool := ipaHome f.ipa == die && f.state == .sent
  (s.far.filter at_).foldl (fun s f => requestLost s f.source f.elt f.ipa) { s with
    far := s.far.filter fun (f : Far) => sourceDie f.source != die }

/-- Every running collective with a rank on a die that is reset loses that rank: the lowest die that takes part detects it first and
tells the others (R321; log 33). -/
def resetPeers (s : State) (die : Nat) : State :=
  let all := ((List.range 256).filter (· ≠ die)).flatMap fun d =>
    ((s.die d).seqs.filter fun q => q.2.map.contains die && (q.2.st == .run || q.2.st == .paused)).map fun q => (d, q)
  let first := all.zipIdx.filter fun p => !(all.take p.2).any fun r => r.2.2.tag == p.1.2.2.tag && r.2.2.owner == p.1.2.2.owner
  first.foldl (fun s p => seqLost s p.1.1 p.1.2.1 (p.1.2.2.map.findIdx (· == die))) s

/-- What a die reset loses (R219). -/
def resetLosses (s : State) (die : Nat) : State :=
  let s := resetArrived s die
  let s := (s.dirty.filter fun p => keyDie (p.1 * 128) == die).foldl (fun s p => s.lostLine p.1) s
  let s := loseRecords s die
  let s := resetPackets s die
  let gone := s.collapses.filter fun c => keyDie (c.line * 128) == die
  let s := gone.foldl (fun s c => s.hurryCollapse c) s
  let s := { s with
    collapses := s.collapses.map fun (c : Collapse) => { c with dies := c.dies.filter (fun d => d.1 != die) }
    replicas := s.replicas.filter fun p => keyDie (p.1 / 4 * 128) != die &&
      !(keyDie (p.1 / 4 * 128) / 4 * 4 + p.1 % 4 == die)
    winLines := s.winLines.filter fun p => p.1 / 2 ^ 57 != die
    tlb := s.tlb.filter fun t => t.die != die }
  let s := (s.collapses.filter fun c => c.dies.isEmpty).foldl (fun s c => s.endCollapse c.id) s
  resetPeers s die

/-- A die reset begins (R381): its contexts are killed, its meters folded, the losses of R219 take effect, and step 2 runs for
it. Its control harts and cores stop; peers of its sequencers are told (R321). -/
def resetBegin (s : State) (die : Nat) : State :=
  let o := (s.die die).pOwner
  let s := if o = 0 then s else s.kill (die / 4) o
  let s := (s.fold die (Config.freeCount s.fresh)).draw
  let s := abandonTests s die
  let s := resetLosses s die
  let s := (dieHarts s die).foldl (fun s h => s.setHart h Hart.idle) s
  let s : State := { s with cores := s.cores.filterMap fun (p : Nat × CoreSt) =>
    if p.1 / 64 ≠ die then some p
    else
      let k : CoreSt := { CoreSt.reset with offline := p.2.offline, l1Off := p.2.l1Off }
      if k = CoreSt.reset then none else some (p.1, k) }
  let x := s.die die
  let s := s.setDie die { x with
    freq := 20, windows := [], flows := [], unreach := [], mail := [], copies := [], queue := [], reserved := [], claims := []
    l2 := [], foldDue := false, resetting := some 2, stepAt := x.clk, resetDue := false }
  (s.die die).seqs.foldl (fun s p => s.setSeq die p.1 { Sequencer.reset with seq := p.2.seq }) s

/-- A die reset (R381). One that meets a bring-up of the module waits until READY; a second one is merged into the first. -/
def dieReset (s : State) (die : Nat) : State :=
  if (s.die die).resetting.isSome then s
  else if (s.md (die / 4)).ready then resetBegin s die
  else s.setDie die { s.die die with resetDue := true }

/-- A die reset is over (R381): the control harts restart and the DOFF bit clears. -/
def resetEnd (s : State) (die : Nat) : State :=
  let m := die / 4
  let s := s.setDie die { s.die die with resetting := none }
  let md := s.md m
  releaseControl (s.setMd m { md with
    doff := md.doff &&& ~~~ (1#4 <<< (die % 4)), chalt := md.chalt &&& ~~~ (3#8 <<< (2 * (die % 4))) }) die

/-- A stack failure (R380). -/
def stackFails (md : Module) (step : Nat) (failed : BitVec 4) : Module :=
  if failed = 0 then md
  else { md with fcode := if md.fcode = 0 then stepCode step 0 else md.fcode, doff := md.doff ||| failed }

/-- A failure of a die reset's step: a stack failure, of die stack 0 a module failure, since the steps of R380 run again (R380, R381). -/
def resetFails (md : Module) (die step : Nat) : Module :=
  let md := stackFails md step (1#4 <<< (die % 4))
  if die % 4 = 0 then { md with fail := true, ready := false } else md

/-- Step k fails on a stack that the event names; step 5 only when no cluster is left there, or past its bound (R380). -/
def stepFailed (x : Die) (k : Nat) (named timeout : Bool) : Bool := if k = 5 && !timeout then noCluster x else named

/-- A step of a die's reset ends: 2, then 4, which rewrites only the SRAMs, then 5 (R381). A failure leaves the stack offline. -/
def resetStep (s : State) (die : Nat) (failed : Bool) : State :=
  let x := s.die die
  match x.resetting with
  | none => s
  | some k =>
    if failed then
      (s.setDie die { x with resetting := none }).setMd (die / 4) (resetFails (s.md (die / 4)) die k)
    else
      let s := if k = 2 then channelsUp s die else if k = 4 then zeroDie s die false else s
      if k = 5 then resetEnd s die
      else s.setDie die { s.die die with resetting := some (if k = 2 then 4 else 5), stepAt := x.clk }

/-- The action of a bring-up step on the stacks that have not failed. READY lets the resets that wait begin (R381). -/
def stepAction (s : State) (m step : Nat) (entry : Word) : State :=
  let dies := (moduleDies m).filter fun d => !(s.md m).doff.getLsbD (d % 4)
  match step with
  | 2 => dies.foldl channelsUp s
  | 4 => dies.foldl (fun s d => zeroDie s d true) s
  | 6 => dies.foldl releaseControl (s.setMd m { s.md m with entryVa := entry })
  | 7 => ((moduleDies m).filter fun d => (s.die d).resetDue).foldl resetBegin (s.setMd m { s.md m with ready := true })
  | _ => s

/-- The stacks of a module on which step k fails. -/
def failedStacks (s : State) (m k : Nat) (named : BitVec 4) (timeout : Bool) : BitVec 4 :=
  ((moduleDies m).filter fun d => stepFailed (s.die d) k (named.getLsbD (d % 4)) timeout).foldl (fun b d => b ||| (1#4 <<< (d % 4))) 0

/-- The code with which step 6 refuses the image: its signature does not verify, or its version is below the fused minimum; none where
it is accepted (R380, R385). -/
def imageRefused (md : Module) : Option Nat := if !md.imgOk then some 0x51 else if md.imgVer < md.minVer then some 0x52 else none

/-- A bring-up step ends, having failed on the stacks of a mask (R380). -/
def stepEnds (s : State) (m k : Nat) (entry : Word) (named : BitVec 4) (timeout : Bool) : State :=
  let md := s.md m
  let refused := if k ≠ 6 then none else if timeout then some 0x51 else imageRefused md
  let failed := if 6 ≤ k then 0 else failedStacks s m k named timeout &&& ~~~ md.doff
  let md := match refused with
    | some code => { md with fcode := if md.fcode = 0 then stepCode k code else md.fcode }
    | none => stackFails md k failed
  if refused.isSome || failed.getLsbD 0 then s.setMd m { md with fail := true, step := none }
  else
    let s := stepAction (s.setMd m md) m k entry
    s.setMd m { s.md m with stage := k, step := if k = 7 then none else some (k + 1), stepAt := (s.die (4 * m)).clk }

/-- The die of a module, among those of, whose reset has been in its step for longest, the lowest of several (log 37). -/
def resettingDie (s : State) (m : Nat) (of : Nat → Bool) : Option Nat :=
  let ds := (moduleDies m).filter fun d => (s.die d).resetting.isSome && of (d % 4)
  ds.find? fun d => ds.all fun e => (s.die e).clk - (s.die e).stepAt ≤ (s.die d).clk - (s.die d).stepAt

/-- A running step ends within its bound, or is found past it, which is a failure of the stacks that failed names (R2, R380).
Without a bring-up it is that of a die reset of the module, of a die among those of (R381). -/
def stepDone (s : State) (m : Nat) (entry : Word) (failed : BitVec 4) (of : Nat → Bool) (timeout : Bool) : State :=
  match (s.md m).step with
  | some k =>
    if stepLate k (s.md m).stepAt (s.die (4 * m)).clk ≠ timeout || (timeout && failed = 0) then s
    else stepEnds s m k entry failed timeout
  | none => match resettingDie s m of with
    | none => s
    | some d =>
      let k := (s.die d).resetting.getD 0
      let named := failed.getLsbD (d % 4)
      if stepLate k (s.die d).stepAt (s.die d).clk ≠ timeout || (timeout && !named) then s
      else resetStep s d (stepFailed (s.die d) k named timeout)

/-- Power is applied (R380). -/
def powerOn (s : State) (m : Nat) : State :=
  let md := s.md m
  if md.on then s else s.setMd m { md with on := true, step := some 1, stepAt := (s.die (4 * m)).clk }

/-- The hottest die of a module, the lowest of several. -/
def hottest (s : State) (m : Nat) : Nat :=
  let ds := moduleDies m
  (ds.find? fun d => ds.all fun e => (s.die e).temp ≤ (s.die d).temp).getD (4 * m)

/-- A thermal event: a die has been found at a temperature. Above 115 degrees it is reset; above 105, or with the module above its
cap, the hottest die's clock is lowered (R384). -/
def thermal (s : State) (die temp : Nat) : State :=
  let md := s.md (die / 4)
  let s := s.setDie die { s.die die with temp }
  if 115 < temp then dieReset s die
  else if 105 < temp || md.cap < md.power then
    let d := hottest s (die / 4)
    let hots := if md.cap < md.power then moduleDies (die / 4) else [die]
    let s := hots.foldl (fun s d => s.setDie d { s.die d with hotAt := (s.die d).clk }) s
    s.setDie d { s.die d with freq := max 12 ((s.die d).freq - 1), hotAt := (s.die d).clk }
  else s

/-- The clock of a die that has been below the limits for 10 ms, counted at 2.0 GHz, is raised again (R2, R384). -/
def clockRaise (s : State) (die : Nat) : State :=
  let x := s.die die
  let md := s.md (die / 4)
  if x.temp ≤ 105 && md.power ≤ md.cap && x.hotAt + 20000000 ≤ x.clk && x.freq < 20 then s.setDie die { x with freq := x.freq + 1 } else s

/-- The operator's cap is at most 3.0 kW (R384). -/
def setCap (s : State) (m w : Nat) : State := s.setMd m { s.md m with cap := min 3000 w }

/-- The operator sets a weight: 16 bits, that of meter 6 at least 1 (R373). -/
def setWeight (s : State) (m i w : Nat) : State :=
  let x := s.md m
  let w := if i = 6 then max 1 (w % 2 ^ 16) else w % 2 ^ 16
  if 7 ≤ i then s else s.setMd m { x with weights := mset (if i = 6 then 1 else 0) x.weights i w }

end Sys2Proof.Machine
end

