-- ==== Sys2Proof/Machine/Preempt.lean ====
section
/-! DEFINITION. Pre-emption and restore: the save frame (R330 to R336), the binding slots (R258), resumption entries and their
placement (R337 to R339), placement of new nodes (R300, R414). -/

namespace Sys2Proof.Machine

open Sys2Proof

/-! The save (R331, R332, R334). -/

/-- What must complete before a save begins (R332); posted stores leave the hart too. -/
def saveQuiet (s : State) (h : Nat) (x : Hart) : Bool :=
  x.pend.isEmpty && x.unacked.isEmpty && x.tokens.isEmpty && (x.nb.all fun o => o.colls.isEmpty) &&
    (x.seen.all fun y => !y.logged) && x.colls.all fun hd => match handleSeq s (hartDie h / 4) hd with
    | some (_, _, y) => y.st != .run
    | none => true

/-- A binding slot as pre-emption writes it (R258). -/
def bindSlot (x : Hart) (n : Nat) : List Byte :=
  match mget none x.bind n with
  | some (_, r) => toBytes 32 (r ||| 1#256 <<< 127).toNat
  | none => List.replicate 32 0

/-- Write the binding slots from v_n on (R258); a slot whose write is refused is passed over. -/
def bindWrites (h : Nat) : Nat → Nat → State → Res Unit
  | 0, _, s => .ok s ()
  | f + 1, n, s =>
    let va := (s.hart h).c.bindbase.toNat + 32 * n
    match hartCheck s h va 32 32 needW false with
    | .error _ => bindWrites h f (n + 1) s
    | .ok ipa =>
      match writeAt s (s.agent h) ipa (bindSlot (s.hart h) n) with
      | .ok s _ => bindWrites h f (n + 1) s
      | .fault s _ => bindWrites h f (n + 1) s
      | .stall s w => .stall s w

/-- The hart's frame has been written: its rank is SAVED and the hart IDLE (R16, R334). -/
def saveFrame (s : State) (h kind idx : Nat) (lm : BitVec 256) : State :=
  let m := hartDie h / 4
  let x := s.hart h
  let o := ctxOwner x.c.ctxid
  let s := s.writeFrame m o x kind idx lm (s.core (hartCore h)).q (isMClass h)
  let s := match nodeAt s h with
    | some nd => s.setNode m
        { nd with ranks := nd.ranks.map fun (r : Nat × RankAt) => if r.2 = RankAt.hart h then (r.1, RankAt.saved) else r }
    | none => s
  let s := { s with frames := mset none s.frames (frameKey m o x.slot) (some ⟨x.colls, x.bind, x.seen, x.next, x.entering⟩) }
  ((s.dropFar h).setHart h x.atRest).suspendDone (hartDie h)

/-- A save that has been decided goes on: it waits, writes the binding slots, and ends with the frame. -/
def trySave (s : State) (h : Nat) : State :=
  let x := s.hart h
  match x.saving with
  | none => s
  | some (kind, idx, lm) =>
    if !saveQuiet s h x then s
    else match (if x.rebind then Res.ok s () else bindWrites h 64 0 s) with
      | .stall s' w => (keepRequests s' s).modHart h fun x => { x with hold := some ⟨w, none⟩ }
      | r => saveFrame r.st h kind idx lm

/-- A forced save is decided, at a resumable position (R330, R333). -/
def forceSave (s : State) (h : Nat) (pc : Word) (epos : BitVec 9) : State :=
  let s := ((s.takeKept h).withdrawOwn h).savePoint (hartDie h)
  let x := s.hart h
  s.setHart h { x with
    pc, saving := some (2, 0, BitVec.allOnes 256), saveDue := false, hold := none, convoy := none, opq := []
    ready := none, served := none, st := .run, c := { x.c with epos } }

/-- A convoy that waits at an element is abandoned there: the elements below it have committed, unless it is widened (R30, R31,
R333). -/
def abandonConvoy (s : State) (h : Nat) (cv : Conv) : State × BitVec 9 :=
  let lost := keptLost (s.hart h) cv.kept
  let s := s.takeKept h
  match nextUnit s h cv lost with
  | (sh, _, s', cv', some (.hold e _, _)) => if sh.wide then (s, 0) else (s', BitVec.ofNat 9 (min e cv'.lo))
  | (sh, _, _, _, _) => (s, if sh.wide then 0 else BitVec.ofNat 9 cv.lo)

/-- The convoy is widened (R31). -/
def convoyWide (x : Hart) (cv : Conv) : Bool := (shapeOf x cv (convOps x cv (8 * 2 ^ (x.c.vtype.toNat % 4)))).wide

/-- A wait at which a pre-empted hart is saved at once (R333). -/
def Why.preempts : Why → Bool
  | .page _ _ _ | .tag _ _ | .tagRetry _ _ | .chamber _ _ | .chRetry _ _ | .token | .coll => true
  | _ => false

/-- NEND waits for a token or for a collective that may be PAUSED: a pre-empted hart is saved there, with NEND to execute again, as at
the FENW or COLLW that would wait for it (R302, R322, R330, R333; DEDUCED, log 62). -/
def nendWaits (s : State) (h : Nat) (x : Hart) : Bool :=
  x.hold == some ⟨.order, some .nend⟩ && (!x.tokens.isEmpty || x.colls.any (collRunning s (hartDie h / 4)))

/-- A wait after which a pre-empted hart is saved: CCWAIT (R333); and a wait of a convoy in which an element has been served that the
save would have served again: a full/empty wait or a page miss of a widened convoy, or a page miss at the served element (R31, R330;
DEDUCED, log 9). -/
def waitsFirst (x : Hart) (w : Why) : Bool :=
  match w, x.convoy with
  | .counter _, _ => true
  | .tag _ _, some cv | .tagRetry _ _, some cv => convoyWide x cv
  | .page _ _ _, some cv => x.served.isSome || (convoyWide x cv && cv.vals != [])
  | _, _ => false

/-- The forced save of a hart that waits with PREQ = 1, if it is one that R333 names. -/
def preemptHeld (s : State) (h : Nat) : State :=
  let x := s.hart h
  if !x.c.preq || x.saving.isSome || x.node.isNone then s
  else match x.hold with
    | none => s
    | some ⟨w, i⟩ =>
      if waitsFirst x w then s.setHart h { x with saveDue := true }
      else if !(w.preempts || nendWaits s h x) || x.served.isSome || noticeFlies s h 0 then s
      else match x.convoy with
        | some cv =>
          let r := match w with
            | .page _ _ _ => abandonConvoy s h cv
            | _ => (s, BitVec.ofNat 9 cv.lo)
          forceSave r.1 h cv.start r.2
        | none => forceSave s h x.pc (if i.isSome then 0 else x.c.epos)

/-- The hart waits for nothing that its next instruction has begun: at most for its pipes (R18). -/
def atStart (x : Hart) : Bool :=
  match x.hold with
  | none => true
  | some h => h == ⟨.order, none⟩

/-- The hart is at a convoy boundary and is saved there: safelim cycles have passed since PREQ was set, or its save has waited for
an instruction that is over (R330, R333). -/
def limitPassed (s : State) (h : Nat) : Bool :=
  let x := s.hart h
  x.c.preq && x.saving.isNone && x.node.isSome && x.convoy.isNone && atStart x && x.st == .run &&
    (x.saveDue || (x.c.safelim != 0 && x.preqAt + x.c.safelim.toNat ≤ (s.die (hartDie h)).clk))

/-- SAFELIM_EXPIRY (R330). -/
def safelimSave (s : State) (h : Nat) : State :=
  if limitPassed s h then forceSave s h (s.hart h).pc (s.hart h).c.epos else s

/-! Restore. -/

/-- Read the binding slots back (R258). The class of a VBIND is kept beside the frame (log 9); a register that was not bound at the
save and whose slot has B = 1 is bound in class 15 (DESIGN CHOICE, log 55). -/
def bindReads (h : Nat) : Nat → Nat → Map (Option (Nat × BitVec 256)) → State → Res (Map (Option (Nat × BitVec 256)))
  | 0, _, got, s => .ok s got
  | f + 1, n, got, s =>
    let va := (s.hart h).c.bindbase.toNat + 32 * n
    match hartCheck s h va 32 32 needR false with
    | .error _ => bindReads h f (n + 1) got s
    | .ok ipa =>
      match readAt s (s.agent h) ipa 32 with
      | .ok s bs =>
        let r := BitVec.ofNat 256 (leBytes bs)
        let cls := match mget none (s.hart h).bind n with | some (c, _) => c | none => 15
        bindReads h f (n + 1) (if r.getLsbD 127 then mset none got n (some (cls, r &&& ~~~ (1#256 <<< 127))) else got) s
      | .fault s _ => bindReads h f (n + 1) got s
      | .stall s w => .stall s w

/-- A restored hart reads its binding slots before it fetches (R337, step 3). -/
def rebindHart (s : State) (h : Nat) : State :=
  match bindReads h 64 0 [] s with
  | .ok s b => s.setHart h { s.hart h with bind := b, rebind := false, hold := none }
  | .fault s _ => s
  | .stall s' w => (keepRequests s' s).modHart h fun x => { x with hold := some ⟨w, none⟩ }

/-- A saved rank is restored onto a hart (R337 to R339). -/
def restoreRank (s : State) (m owner node : Nat) (p : (Nat × Nat) × Nat) : State :=
  let rank := p.1.1
  let slot := p.1.2
  let h := p.2
  match mget none s.frames (frameKey m owner slot) with
  | none => s
  | some f =>
    let q := frameQ s m owner slot
    let s := if (s.core (hartCore h)).q = q then s else s.setQ (hartCore h) q
    let (s, x) := s.readFrame m owner slot f
    let s := s.setHart h { x with node := some node, rank, slot, rebind := true }
    let s := { s with frames := mset none s.frames (frameKey m owner slot) none }
    x.colls.foldl (fun s hd => match handleSeq s m hd with
      | some (d, q, y) => s.setSeq d q { y with hart := some h }
      | none => s) s

/-- Place a resumption entry (R337). -/
def placeSaved (s : State) (m : Nat) (nd : Node) (hs : List Nat) : State :=
  let rs := savedRanks nd
  let s := (rs.zip hs).foldl (fun s p => restoreRank s m nd.owner nd.id p) s
  s.setNode m { nd with ranks := nd.ranks.zipIdx.map fun r =>
    match (rs.zip hs).find? fun p => p.1.1 == r.2 with
    | some p => (r.1.1, RankAt.hart p.2)
    | none => r.1 }

/-- The hart slot of a hart's physical position (R414). -/
def ownSlot (h : Nat) : Nat := 96 * (hartDie h % 4) + h % 128

/-- The hart slots that harts placed together take, in their order: each its own, or else the lowest that is free when every hart has
taken its own (R414). taken are those not free. -/
def takeSlots (all taken : List Nat) : List Nat → List Nat → List Nat
  | [], _ => []
  | h :: r, given =>
    let own := ownSlot h
    let d := 96 * (hartDie h % 4)
    let used := taken ++ (all.map ownSlot).filter (!taken.contains ·) ++ given
    let slot := if taken.contains own then ((List.range 96).map (d + ·)).find? (!used.contains ·) else some own
    slot.getD own :: takeSlots all taken r (given ++ slot.toList)

/-- g registers at dispatch (R20, R300). -/
def dispatchG (c : Ctx) (d : Desc) (rank slot : Nat) : Map Word :=
  let sp := c.sbase + BitVec.ofNat 64 ((slot + 1) * c.ssize.toNat)
  [(2, sp), (3, d.args.getD 0 0), (4, d.args.getD 1 0), (5, d.args.getD 2 0), (6, d.args.getD 3 0),
   (7, BitVec.ofNat 64 rank), (8, BitVec.ofNat 64 d.width), (9, d.va)].foldl (fun g p => mset 0 g p.1 p.2) []

/-- A hart as placement sets it (R20, R89, R300). -/
def placedHart (c : Ctx) (owner node : Nat) (d : Desc) (rank slot : Nat) : Hart :=
  { Hart.idle with
    st := .run, pc := evenPc d.entry, f := { Files.zero with g := dispatchG c d rank slot }, node := some node, rank, slot
    c := { Csrs.zero with
      ctxid := BitVec.ofNat 6 owner ++ c.gen ++ c.ctx
      lmbase := vaField 6 c.lmbase, tvec := vaField 1 c.tvec, waitlim := c.waitlim, safelim := c.safelim
      bindbase := vaField 11 (c.bbase + BitVec.ofNat 64 (slot * 2048)) } }

/-- Place one rank of a new node: hart, slot and rank. -/
def placeRank (m : Nat) (e : Entry) (node : Nat) (s : State) (p : (Nat × Nat) × Nat) : State :=
  let c := s.ctx m e.owner
  (s.setCtx m e.owner { c with slots := c.slots ++ [p.1.2] }).setHart p.1.1 (placedHart c e.owner node e.d p.2 p.1.2)

/-- Place a new node on its harts (R300). -/
def placeNew (s : State) (m cl : Nat) (e : Entry) (hs : List Nat) : State :=
  let id := s.serial
  let s := (hs.zip (takeSlots hs (s.ctx m e.owner).slots hs [])).zipIdx.foldl (placeRank m e id) s.number
  let nd : Node :=
    { id, owner := e.owner, launch := e.launch, d := e.d, cls := if cl < 8 then 0 else 1, aff := e.aff
      ranks := hs.map fun h => ((s.hart h).slot, RankAt.hart h), rel := none, due := none }
  s.setMd m { s.md m with nodes := (s.md m).nodes ++ [nd] }

/-- NODE_PLACEMENT: the head of a die's dispatch queue takes its harts (R300, R337). -/
def nodePlacement (s : State) (die : Nat) : State :=
  let m := die / 4
  let x := s.die die
  match x.queue, x.claims with
  | id :: q, (id', cl) :: cs =>
    match (s.md m).basin.find? fun e => e.id == id with
    | none => s.setDie die { x with queue := q, claims := cs }
    | some e =>
      if id ≠ id' || x.pState ≠ 1 then s
      else
        let free := freeHarts s die cl
        let nd := nodeOf s m e.node
        let hs := match nd with
          | some nd => matchHarts s free (savedQs s m nd) free []
          | none => if e.need ≤ free.length then some (free.take e.need) else none
        match hs with
        | none => s
        | some hs =>
          let s := s.setDie die { x with queue := q, claims := cs }
          let s := s.setMd m { s.md m with basin := (s.md m).basin.filter fun e => e.id != id }
          match nd with
          | some nd => placeSaved s m nd hs
          | none => placeNew s m cl e hs
  | _, _ => s

/-- SAVE_COMPLETE: when every hart of a node that has not ended is saved, its resumption entry enters the Basin or the spill
(R303, R337). -/
def saveComplete (s : State) (m node : Nat) : State :=
  match nodeOf s m (some node) with
  | none => s
  | some nd =>
    let k := (savedRanks nd).length
    let waits := ((s.md m).basin ++ (s.md m).spilled).any fun e => e.node == some node
    if k = 0 || waits || nd.ranks.any (fun r => match r.2 with | .hart _ => true | _ => false) then s
    else
      let e : Entry :=
        { id := s.serial, owner := nd.owner, launch := nd.launch, d := { nd.d with width := k, cls := nd.cls }, aff := nd.aff
          node := some node, at_ := [], order := 0 }
      s.number.enter m e

end Sys2Proof.Machine
end

