-- ==== Sys2Proof/Machine/HartEvents.lean ====
section
/-! DEFINITION. Steps that act for a hart without being its own turn: commit units (R30, R193), lane changes (R86), returned
data and retries (R243, R277, R291), outstanding elements (R235 to R245), timeouts (R278, R283, R311, R330), tokens (R287). -/

namespace Sys2Proof.Machine

open Sys2Proof

/-! Agents that exist (R1, R8 to R12, R292). -/

/-- A step of a hart, if it exists. -/
def needHart (h : Nat) (k : State) : Out := if hartExists h then .next k else .fault .noSuchAgent
/-- A step of a core, if it exists. -/
def needCore (c : Nat) (k : State) : Out := if hartExists (2 * c) then .next k else .fault .noSuchAgent
/-- A step of a die, if it exists. -/
def needDie (d : Nat) (k : State) : Out := if d < 256 then .next k else .fault .noSuchAgent
/-- A step of a module, if it exists. -/
def needModule (m : Nat) (k : State) : Out := if m < 64 then .next k else .fault .noSuchAgent
/-- A step about a context of a module, if both exist. -/
def needOwner (m n : Nat) (k : State) : Out := if m < 64 && 1 ≤ n && n < 64 then .next k else .fault .noSuchAgent

/-! Going on. -/

/-- The hart waits for the host's answer about a page: it leaves the wait only through the answer, pre-emption or kill (R353). -/
def pageHeld (s : State) (x : Hart) : Bool :=
  match x.hold with
  | some ⟨.page m o p, _⟩ => pageAsked s m o (ctxGen x.c.ctxid) p
  | _ => false

/-- The hart may go on with what it has begun: its lanes are not stalled, no element of it waits outside a full queue, no save
or restore is in progress, and no wait that another must end holds it (R86, R244, R245, R276, R332, R337). -/
def mayMove (s : State) (h : Nat) : Bool :=
  let x := s.hart h
  (x.st == .run || x.st == .park) && (s.core (hartCore h)).stall == 0 && x.saving.isNone && !x.rebind &&
    (x.pend.all fun e => e.place != .full) && !pageHeld s x &&
    (match x.hold with | some w => !w.why.served || x.served.isSome | none => true)

/-- A step of hart h as the acting hart. -/
def State.asHart (s : State) (h : Nat) (f : State → State) : State := { f { s with cur := h } with cur := s.cur }

/-- The state of an outcome; the state before where there is none. -/
def outState (s : State) : Out → State
  | .next s => s
  | _ => s

/-- The next commit unit of a convoy in progress (R30). -/
def unitStep (s : State) (h : Nat) (cv : Conv) : State :=
  if unitsLeft s h cv false then
    match commitUnit s h cv with
    | .stop s => s
    | .next s cv =>
      if unitsLeft s h cv true then s.modHart h fun x => { x with convoy := some cv } else finishConvoy s h cv
  else finishConvoy s h cv

/-- COMMIT_UNIT (R30). -/
def execCommitUnit (h : Nat) (s : State) : Out :=
  needHart h
    (match (s.hart h).convoy with
     | some cv => if mayMove s h then s.asHart h fun s => convoyOn s h cv fun s cv => unitStep s h cv else s
     | none => s)

/-- The convoy holds an instruction of the M pipe (R193). -/
def hasTile (cv : Conv) : Bool := cv.insns.any fun p => match convoyOp p.2 with | some (.tile _) => true | _ => false

/-- MPIPE_ACCEPT (R193): the unit of a convoy with an M instruction commits once that instruction is accepted. -/
def execMpipeAccept (h : Nat) (s : State) : Out :=
  needHart h
    (match (s.hart h).convoy with
     | some cv =>
       if hasTile cv && mayMove s h then s.asHart h fun s => convoyOn s h cv fun s cv => unitStep s h cv else s
     | none => s)

/-! Lanes. -/

/-- A hart that holds at a write of maxvl tries it again (R86). -/
def retryMaxvl (s : State) (h : Nat) : State :=
  match (s.hart h).hold with
  | some ⟨.order, some (.csrw rd n rs)⟩ => if n = 0x200 then outState s (execCsrw rd n rs s) else s
  | some ⟨.order, some (.csrs rd n rs)⟩ => if n = 0x200 then outState s (execCsrs rd n rs s) else s
  | some ⟨.order, some (.csrc rd n rs)⟩ => if n = 0x200 then outState s (execCsrc rd n rs s) else s
  | _ => s

/-- MAXVL_CHANGE (R86): a write of maxvl that waits for the other hart of its core. -/
def execMaxvlChange (core : Nat) (s : State) : Out :=
  let go (s : State) (h : Nat) : State := if mayMove s h then s.asHart h fun s => retryMaxvl s h else s
  needCore core (go (go s (2 * core)) (2 * core + 1))

/-- LANE_STALL_END (R86): the stall has run down. -/
def execLaneStallEnd (core : Nat) (s : State) : Out :=
  let k := s.core core
  needCore core (if k.stall = 1 then s.setCore core { k with stall := 0 } else s)

/-! Held accesses. -/

/-- Execute a held scalar access of memory again; none for another instruction. -/
def redo (i : Instr) (s : State) : Option Out :=
  match i with
  | .lb r b c o => some (execLb r b c o s)
  | .lh r b c o => some (execLh r b c o s)
  | .lw r b c o => some (execLw r b c o s)
  | .ld r b c o => some (execLd r b c o s)
  | .lbu r b c o => some (execLbu r b c o s)
  | .lhu r b c o => some (execLhu r b c o s)
  | .lwu r b c o => some (execLwu r b c o s)
  | .sb r b c o => some (execSb r b c o s)
  | .sh r b c o => some (execSh r b c o s)
  | .sw r b c o => some (execSw r b c o s)
  | .sd r b c o => some (execSd r b c o s)
  | .cLd r o => some (execCLd r o s)
  | .cSd r o => some (execCSd r o s)
  | .amoW d a b op c => some (execAmoW d a b op c s)
  | .amoD d a b op c => some (execAmoD d a b op c s)
  | .ldf r b c o => some (execLdf r b c o s)
  | .ldfk r b c o => some (execLdfk r b c o s)
  | .ste r b c o => some (execSte r b c o s)
  | .stf r b c o => some (execStf r b c o s)
  | .chinit a b c => some (execChinit a b c s)
  | .charr d a b c => some (execCharr d a b c s)
  | .chwait a b c => some (execChwait a b c s)
  | .charm a b c => some (execCharm a b c s)
  | .nspawn d a => some (execNspawn d a s)
  | .coll d a b => some (execColl d a b s)
  | _ => none

/-- The fetch of a hart that waits at its pc is tried again. The hart stays as it has been told until its next turn, which goes on
or takes the trap (R41). -/
def retryFetch (s : State) (h : Nat) : State :=
  match fetchInsn s h (s.hart h).pc with
  | .stall s' w => (keepRequests s' s).modHart h fun x => { x with hold := some ⟨w, none⟩ }
  | .ok s _ => s
  | .trap _ _ _ => s

/-- What a hart holds at is tried again: its scalar access, its convoy, or its fetch. -/
def retryHeld (s : State) (h : Nat) : State :=
  let x := s.hart h
  if !mayMove s h then s
  else match x.hold, x.convoy with
    | some _, some cv => s.asHart h fun s => convoyOn s h cv fun s cv => runConvoy s h cv
    | some ⟨_, some i⟩, none => s.asHart h fun s => (redo i s).elim s (outState s)
    | some ⟨_, none⟩, none => retryFetch s h
    | none, _ => s

/-- A blocking access of the hart waits for data (R243, R310). -/
def awaitsData (x : Hart) : Bool :=
  match x.hold with
  | some ⟨.page _ _ _, _⟩ | some ⟨.home _ _, _⟩ | some ⟨.remote _ _, _⟩ | some ⟨.pageFailed _, _⟩ | some ⟨.remoteFailed _, _⟩ => true
  | _ => false

/-- LOAD_DATA_RETURN (R243): the held access binds, and the hart continues. -/
def execLoadDataReturn (h : Nat) (s : State) : Out :=
  needHart h (if awaitsData (s.hart h) then retryHeld s h else s)

/-- An element that has not been translated: its miss may have found the page-request queue full. -/
def untranslated (e : Elt) : Bool := e.key.isNone && e.place != .tagWait

/-- PAGE_REQUEST_RETRY (R291) of hart n of a module: its held access and its elements that missed try their requests again. -/
def execPageRequestRetry (md n : Nat) (s : State) : Out :=
  if md < 64 && hartExists n && hartDie n / 4 == md then
    let s := (((s.hart n).pend.filter untranslated).map (·.id)).foldl (fun s id => s.performElt n id) s
    .next (if (match (s.hart n).hold with | some ⟨.order, _⟩ => true | _ => false) then retryHeld s n else s)
  else .fault .noSuchAgent

/-! Outstanding elements. -/

/-- NB_ELEMENT_COMPLETE (R235): element e of non-blocking instruction op is performed. -/
def execNbElementComplete (h op e : Nat) (s : State) : Out :=
  needHart h
    (match (s.hart h).pend.find? fun el => el.op == op && el.e == e && op != 0 with
     | some el => s.performElt h el.id
     | none => s)

/-- An entry of a side log may replay: its page's request has been answered and its turn has come (R244, R353). -/
def replayable (s : State) (p : Nat × Nat) : Bool :=
  match (s.hart p.1).pend.find? fun e => e.id == p.2 with
  | none => false
  | some el => !el.asked s p.1 && eltReady s p.1 el

/-- SIDE_LOG_REPLAY (R244): the oldest entry of a core's side log that may replay. -/
def execSideLogReplay (core : Nat) (s : State) : Out :=
  needCore core (match (s.core core).log.find? (replayable s) with | some p => s.performElt p.1 p.2 | none => s)

/-- REPLAY_QUEUE_READ (R245): element n of a core's replay queue. -/
def execReplayQueueRead (core n : Nat) (s : State) : Out :=
  needCore core (match (s.core core).replay[n]? with | some p => s.performElt p.1 p.2 | none => s)

/-- Stores that the combining buffer holds. -/
def buffered (x : Hart) : List Elt := x.pend.filter fun e => e.op == 0 && e.kind == .write && e.place == .issued && e.key.isSome

/-- What the store is ordered behind has left in the same flow (R224, R308). -/
def sendable (s : State) (x : Hart) (e : Elt) : Bool :=
  (x.before e.id).all (fun d => !related d.cls e.cls ||
    (d.place == .sent && d.cls == e.cls && ipaHome d.ipa == ipaHome e.ipa)) && !unreached s x e.cls

/-- As many stores as a payload has room for (R307). -/
def fitting : Nat → List Elt → List Elt
  | _, [] => []
  | room, e :: r => if e.data.length ≤ room then e :: fitting (room - e.data.length) r else []

/-- The stores sent with one: up to n of its class and line, and at most 128 bytes (R237, R307). -/
def combined (x : Hart) (e : Elt) (n : Nat) : List Elt :=
  fitting 128 ((((buffered x).dropWhile fun d => d.id != e.id).takeWhile fun d =>
    d.cls == e.cls && d.key.map keyLine == e.key.map keyLine).take (max 1 n))

/-- Send the first store that may go, with up to n of its line (R222, R237). One of the hart's own die is applied. -/
def sendBuffer (s : State) (h n : Nat) : State :=
  let x := s.hart h
  match (buffered x).find? (sendable s x) with
  | none => s
  | some e =>
    if ipaHome e.ipa = hartDie h then s.performElt h e.id
    else
      let f := flowId h (ipaHome e.ipa) e.cls
      if !flowRoom s f then s
      else
        let ids := (combined x e n).map (·.id)
        let s := s.enqueue f e.owner (.stores h ids)
        s.modHart h fun x => { x with pend := x.pend.map fun d => if ids.contains d.id then { d with place := .sent } else d }

/-- COMBINING_BUFFER_SEND (R237). -/
def execCombiningBufferSend (h n : Nat) (s : State) : Out := needHart h (sendBuffer s h n)

/-- FENCE_TOKEN_COMPLETE (R287): the oldest token, once nothing it covers is outstanding. -/
def execFenceTokenComplete (h : Nat) (s : State) : Out :=
  needHart h
    (match (s.hart h).tokens with
     | (_, []) :: r => s.modHart h fun x => { x with tokens := r }
     | _ => s)

/-! Wait records. -/

/-- The hart takes the place it has waited for: it parks with its deadline (R276, R277). -/
def Hart.parkNow (x : Hart) : Hart :=
  match x.hold with
  | some ⟨.tagRetry va d, i⟩ => { x with hold := some ⟨.tag va d, i⟩, st := .park }
  | some ⟨.chRetry va d, i⟩ => { x with hold := some ⟨.chamber va d, i⟩, st := .park }
  | _ => x

/-- A retried access takes a freed record of its bank, when it has retried longest (R277). -/
def tagRerecord (s : State) (die : Nat) (r : TagRec) : State :=
  let x := s.die die
  let oldest := (x.retries.find? fun q => q.bank == r.bank) == some r
  if oldest && (x.recs.filter fun q => q.bank == r.bank).length < 16 then
    let s := s.setDie die { x with recs := x.recs ++ [r], retries := x.retries.erase r }
    if r.elt = 0 then s.modHart r.hart Hart.parkNow else s
  else s

/-- A tagged access retries: it acts if its condition holds, or takes a record (R277). -/
def tagRetryStep (s : State) (die : Nat) (r : TagRec) : State :=
  let gone (s : State) : State := s.setDie die { s.die die with retries := (s.die die).retries.erase r }
  match tagArrive s r.kind r.key r.owner r.data with
  | .ok s none => tagRerecord s die r
  | .ok s (some v) =>
    (gone s).serveFrom die r.hart r.elt v
  | .fault s _ =>
    let s := gone s
    if r.elt = 0 then s.modHart r.hart fun x => { x with hold := x.hold.map fun w => { w with why := .order } }
    else match (s.hart r.hart).pend.find? fun e => e.id == r.elt with
      | some el => s.refuseElt r.hart el
      | none => s
  | .stall s _ => s

/-- A CHWAIT retries its access, and for a place in its Lockkeeper's wait list (R277, R283). One that meets an error is tried again
by its hart, which takes the trap. -/
def chRetryStep (s : State) (die : Nat) (r : ChRec) : State :=
  let gone (s : State) : State := s.setDie die { s.die die with chRetry := (s.die die).chRetry.erase r }
  match chContents s r.key r.owner with
  | .fault s _ => (gone s).modHart r.hart fun x => { x with hold := x.hold.map fun w => { w with why := .order } }
  | .stall s _ => s
  | .ok s w =>
    let x := s.die die
    if chPhase w ≠ r.phase then (gone s).serveFrom die r.hart 0 0
    else if x.chRetry.head? = some r && x.chRecs.length < 1024 then
      (s.setDie die { x with chRecs := x.chRecs ++ [r], chRetry := x.chRetry.erase r }).modHart r.hart Hart.parkNow
    else s

/-- The accesses of a hart that were refused a record, by die. -/
def refusedTags (s : State) (h : Nat) : List (Nat × TagRec) :=
  s.dies.flatMap fun p => (p.2.retries.filter fun r => r.hart == h).map fun r => (p.1, r)
/-- Its CHWAITs that were refused a place. -/
def refusedWaits (s : State) (h : Nat) : List (Nat × ChRec) :=
  s.dies.flatMap fun p => (p.2.chRetry.filter fun r => r.hart == h).map fun r => (p.1, r)

/-- TAG_RECORD_RETRY (R277, R283): the hart's accesses that were refused a record try again. -/
def execTagRecordRetry (h : Nat) (s : State) : Out :=
  needHart h
    (let s := (refusedTags s h).foldl (fun s p => tagRetryStep s p.1 p.2) s
     (refusedWaits s h).foldl (fun s p => chRetryStep s p.1 p.2) s)

/-- The wait of a hart times out: its record is withdrawn and it traps at its resumable position (R278, R279). -/
def waitExpired (s : State) (h va deadline : Nat) : State :=
  let x := s.hart h
  if deadline = 0 || (s.die (hartDie h)).clk < deadline || x.served.isSome || noticeFlies s h 0 then s
  else
    let s := (s.takeKept h).withdrawOwn h
    let t : Trap := ⟨.tagWaitTimeout, BitVec.ofNat 64 va⟩
    match x.convoy with
    | none => s.trapAt h t x.pc 0
    | some cv =>
      let sh := shapeOf x cv (convOps x cv (8 * 2 ^ (x.c.vtype.toNat % 4)))
      s.trapAt h t cv.start (if sh.wide then 0 else BitVec.ofNat 9 cv.lo)

/-- An element of a VLDF.NB times out: it completes with 0, is counted and marked (R279). -/
def eltExpired (s : State) (h : Nat) (el : Elt) : State :=
  if el.place ≠ .tagWait || el.srcVa = 0 || (s.die (hartDie h)).clk < el.srcVa || noticeFlies s h el.id then s
  else
    let mine (r : TagRec) : Bool := r.hart == h && r.elt == el.id
    let s : State := { s with dies := s.dies.map fun p => (p.1, { p.2 with
      recs := p.2.recs.filter (fun r => !mine r), retries := p.2.retries.filter (fun r => !mine r) }) }
    let s := (s.finishLoad h el 0).countCtx (hartDie h / 4) el.owner 1
    s.modHart h fun x =>
      if (mget none x.timedOut el.cls).isSome then x else { x with timedOut := mset none x.timedOut el.cls (some el.va) }

/-- TAG_WAIT_TIMEOUT (R278, R279): of the hart itself with op 0, else of element e of its VLDF.NB op. -/
def execTagWaitTimeout (h op e : Nat) (s : State) : Out :=
  needHart h
    (if op ≠ 0 then
      match (s.hart h).pend.find? fun el => el.op == op && el.e == e with
      | some el => eltExpired s h el
      | none => s
    else match (s.hart h).hold with
      | some ⟨.tag va d, _⟩ => waitExpired s h va d
      | some ⟨.tagRetry va d, _⟩ => waitExpired s h va d
      | _ => s)

/-- CHAMBER_WAIT_TIMEOUT (R283). -/
def execChamberWaitTimeout (h : Nat) (s : State) : Out :=
  needHart h
    (match (s.hart h).hold with
     | some ⟨.chamber va d, _⟩ => waitExpired s h va d
     | some ⟨.chRetry va d, _⟩ => waitExpired s h va d
     | _ => s)

/-- SAFELIM_EXPIRY (R330). -/
def execSafelimExpiry (h : Nat) (s : State) : Out := needHart h (safelimSave s h)

/-- The response to the access of the hart at a die is lost. -/
def respLost (s : State) (h die : Nat) : Bool :=
  s.far.any fun f => f.source == h && f.elt == 0 && ipaHome f.ipa == die && f.state == .lost

/-- A hart has waited 2^16 cycles for a response that is lost (R311). -/
def waitLost (s : State) (h : Nat) : State :=
  match (s.hart h).hold with
  | some ⟨.remote d t, i⟩ =>
    if respLost s h d && t + 2 ^ 16 ≤ (s.die (hartDie h)).clk then
      s.modHart h fun x => { x with hold := some ⟨.remoteFailed d, i⟩ }
    else s
  | _ => s

/-- The response to stores of the hart has come, or their outcome without it (R306, R311). -/
def Hart.acked (x : Hart) (id : Nat) : Hart :=
  { x with unacked := x.unacked.filter fun u => u.id != id }.collapsed id

/-- Stores whose response has been lost for 2^16 cycles count as performed, and in the error counter (R311). -/
def acksLost (s : State) (h : Nat) : State :=
  ((s.hart h).unacked.filter fun u => u.lost && u.since + 2 ^ 16 ≤ (s.die (hartDie h)).clk).foldl
    (fun s u => (List.range u.n).foldl (fun s _ => s.countCtx (hartDie h / 4) (s.owner h) 0)
      (s.modHart h fun x => x.acked u.id)) s

/-- RESPONSE_TIMEOUT (R311): the next try of the access meets DATA_ERROR. -/
def execResponseTimeout (h : Nat) (s : State) : Out := needHart h (acksLost (waitLost s h) h)

end Sys2Proof.Machine
end

