-- ==== Sys2Proof/Machine/ContextEvents.lean ====
section
/-! DEFINITION. Steps of the line monitor, the dispatch units, the partition runtime, the host and the Lantern (R201, R217, R292
to R304, R329 to R340, R362, R372 to R385). -/

namespace Sys2Proof.Machine

open Sys2Proof

/-! Launches (R290, R295). -/

/-- LAUNCH_WINDOW_WRITE (R295): up to 64 bytes within a context's window. -/
def execLaunchWindowWrite (md owner off size : Nat) (data : BitVec 512) (s : State) : Out :=
  needOwner md owner
    (if size = 0 || 64 < size || 4096 < off + size then s else windowWrite s md owner off (toBytes size data.toNat))

/-- A launch record breaks R295: a must-be-zero bit, or COUNT out of range. -/
def recordBad (w : Nat) : Bool :=
  field w 99 29 ≠ 0 || field w 272 232 ≠ 0 || field w 64 32 = 0 || 4096 < field w 64 32

/-- The launch that a record begins (R294, R295). -/
def newLaunch (id owner slot w : Nat) : Launch :=
  { id, owner, slot, seq := BitVec.ofNat 8 (field w 504 8), cap := field w 96 3, nva := BitVec.ofNat 64 (field w 128 64)
    nval := BitVec.ofNat 64 (field w 192 64), live := 0, status := 0, roots := BitVec.ofNat 64 (field w 0 64)
    count := field w 64 32, next := 0, parsing := true, told := none, rng := none }

/-- The line monitor for a launch. -/
def Launch.agent (s : State) (m : Nat) (l : Launch) : Agent := { lineMonitor s m l.owner l.told with rng := l.rng }

/-- The descriptor of a root: its VA and bytes, none where it cannot be read (R295). -/
def rootAt (s : State) (a : Agent) (l : Launch) : Res (Option (Nat × List Byte)) :=
  match agentRead s a (l.roots + BitVec.ofNat 64 (8 * l.next)).toNat 8 8 with
  | .stall s w => .stall s w
  | .fault s _ => .ok s none
  | .ok s bs =>
    let va := leBytes bs
    if va % 128 ≠ 0 then .ok s none
    else match agentRead s a va 80 128 with
      | .stall s w => .stall s w
      | .fault s _ => .ok s none
      | .ok s d => .ok s (some (va, d))

/-- Make the roots of a launch ready, at most f of them; a wait keeps the parse where it is (R295). -/
def parseRoots (m id : Nat) : Nat → State → State
  | 0, s => s
  | f + 1, s =>
    match launchOf s m id with
    | none => s
    | some l =>
      if l.count ≤ l.next then s
      else
        let a := l.agent s m
        let on (s : State) : State := s.modLaunch m id fun l => { l with next := l.next + 1, told := none, rng := none }
        match rootAt s a l with
        | .stall s' w => (keepRequests s' s).modLaunch m id fun l => { l with told := some w }
        | .fault s _ => s
        | .ok s none => parseRoots m id f (on (s.launchStatus m id 5))
        | .ok s (some (va, d)) => parseRoots m id f (on (makeReady s a m l.owner id va d))

/-- Go on with a launch's parse; a launch without live nodes completes (R295, R302). -/
def parseOn (s : State) (m : Nat) (l : Launch) : State :=
  if toldPage s l.told l.owner then s else
  let s := parseRoots m l.id (l.count - l.next) s
  match launchOf s m l.id with
  | none => s
  | some l =>
    if l.next < l.count then s
    else
      let done (s : State) : State := s.modLaunch m l.id fun l => { l with parsing := false, told := none, rng := none }
      if l.live ≠ 0 then done s
      else match complete s (l.agent s m) m l.id with
        | .ok s _ => s
        | .fault s _ => s
        | .stall s w => s.modLaunch m l.id fun l => { l with told := some w }

/-- Begin the parse of a snapshot (R295). -/
def parseNew (s : State) (m owner slot w : Nat) : State :=
  let c := s.ctx m owner
  let seq := BitVec.ofNat 8 (field w 504 8)
  if c.st ≠ .run || field w 256 16 ≠ c.ctx.toNat then s.report m owner slot seq 2
  else if recordBad w then s.report m owner slot seq 1
  else if (s.md m).launches.any fun l => l.owner == owner && l.slot == slot then s.report m owner slot seq 3
  else
    let l := newLaunch s.serial owner slot w
    parseOn (s.number.setMd m { s.md m with launches := (s.md m).launches ++ [l] }) m l

/-- LAUNCH_PARSE (R295): of a slot, the parse in progress, or the oldest snapshot that waits. -/
def execLaunchParse (md owner slot : Nat) (s : State) : Out :=
  needOwner md owner
    (match (s.md md).launches.find? fun l => l.owner == owner && l.slot == slot && l.parsing with
     | some l => parseOn s md l
     | none => match (s.md md).parses.find? fun p => p.1 == owner && p.2.1 == slot with
       | some p => parseNew (s.setMd md { s.md md with parses := (s.md md).parses.erase p }) md owner slot (leBytes p.2.2)
       | none => s)

/-! Dispatch. -/

/-- SPILL_ADMISSION (R298). -/
def execSpillAdmission (md : Nat) (s : State) : Out := needModule md (admitPass s md)

/-- DISPATCH_DECISION (R299). -/
def execDispatchDecision (die : Nat) (s : State) : Out := needDie die (dispatchDecision s die)

/-- NODE_PLACEMENT (R300, R337). -/
def execNodePlacement (die : Nat) (s : State) : Out := needDie die (nodePlacement s die)

/-- SAVE_COMPLETE (R337). -/
def execSaveComplete (md node : Nat) (s : State) : Out := needModule md (saveComplete s md node)

/-! Partitions and contexts. -/

/-- PARTITION_SUSPEND (R329). -/
def execPartitionSuspend (die : Nat) (s : State) : Out := needDie die (s.suspend die)

/-- PARTITION_RESUME (R329). -/
def execPartitionResume (die : Nat) (s : State) : Out := needDie die (s.resume die)

/-- PARTITION_KILL (R340). -/
def execPartitionKill (die : Nat) (s : State) : Out :=
  needDie die (if (s.die die).pOwner = 0 then s else s.kill (die / 4) (s.die die).pOwner)

/-- HOST_KILL (R340). -/
def execHostKill (md owner : Nat) (s : State) : Out := needOwner md owner (s.kill md owner)

/-- KILL_TEARDOWN (R340). -/
def execKillTeardown (md owner : Nat) (s : State) : Out := needOwner md owner (teardown s md owner)

/-- CONTEXT_OPEN (R292): level M writes PARTS. -/
def execContextOpen (md owner : Nat) (parts : BitVec 4) (s : State) : Out :=
  let c := s.ctx md owner
  needOwner md owner
    (if c.st = .free then s.openCtx md owner parts
     else if c.st = .opened then s.setCtx md owner { c with parts := parts }
     else s)

/-- CONTEXT_START (R293). -/
def execContextStart (md owner : Nat) (s : State) : Out := needOwner md owner (s.startCtx md owner)

/-! Control space. -/

/-- OVERFLOW_SIZE_WRITE (R201). -/
def execOverflowSizeWrite (die : Nat) (val : BitVec 64) (s : State) : Out := needDie die (osizeWrite s die val.toNat)

/-- CONTROL_HART_RESTART (R379). -/
def execControlHartRestart (die : Nat) (val : BitVec 64) (s : State) : Out :=
  let s' := if val.getLsbD 0 then s.restart die 0 else s
  needDie die (if val.getLsbD 1 then s'.restart die 1 else s')

/-- CONTROL_REGISTER_WRITE (R377): a naturally aligned write of 1 to 8 bytes by level M; one that R377 refuses changes nothing. -/
def execControlRegisterWrite (die off size : Nat) (val : BitVec 64) (s : State) : Out :=
  let ok := (size == 1 || size == 2 || size == 4 || size == 8) && off % size == 0
  needDie die (if ok then (ctlWrite s die 3 off (toBytes size val.toNat)).st else s)

/-! The Lantern. -/

/-- METER_FOLD (R372): once at the end of a period of 2^16 cycles. -/
def execMeterFold (die energy : Nat) (s : State) : Out :=
  needDie die (if (s.die die).foldDue then (s.setDie die { s.die die with foldDue := false }).fold die energy else s)

/-- SNAPSHOT_REQUEST (R375). -/
def execSnapshotRequest (md owner : Nat) (s : State) : Out := needOwner md owner (snapRequest s md owner)

/-- SNAPSHOT_FORM (R375). -/
def execSnapshotForm (md owner : Nat) (s : State) : Out := needOwner md owner (snapForm s md owner)

/-- Identity word of a die (R377). -/
def identityWord (die : Nat) : Word := BitVec.ofNat 64 (die / 4 % 64 + die % 4 * 2 ^ 6 + (Config.serial die).toNat * 2 ^ 8)

/-- The words of a report before its signature (R385). -/
def reportWords (s : State) (md : Nat) (nonce : BitVec 512) : List Word :=
  (List.range 8).map (fun i => nonce.extractLsb' (64 * i) 64) ++ (moduleDies md).map identityWord ++ Config.imageWords md ++
    (List.range 2).map fun i => (s.md md).foff.extractLsb' (64 * i) 64

/-- ATTESTATION_REQUEST (R385). The module's identity key signs the report's digest, with a fresh draw (log 15). -/
def execAttestationRequest (md : Nat) (nonce : BitVec 512) (s : State) : Out :=
  needModule md ((s.draw).say
    (.attestation md nonce ((moduleDies md).map identityWord) (Config.imageWords md) (s.md md).foff
      (Config.signature md s.fresh (Config.digest (reportWords s md nonce)))))

/-- POWER_ON (R380). -/
def execPowerOn (md : Nat) (s : State) : Out := needModule md (powerOn s md)

/-- BRINGUP_STEP_DONE (R380): failed names stacks on which the step failed; what step 5 comes to lies in the clusters left, and step 6
in the image. Without a bring-up it is the step of die's reset, by its number in the module (R381). -/
def execBringupStepDone (md : Nat) (entry : BitVec 64) (failed : BitVec 4) (die : Nat) (s : State) : Out :=
  needModule md (stepDone s md entry failed (· == die) false)

/-- BRINGUP_STEP_TIMEOUT (R380): the step is past its bound on the stacks of a mask; step 7 has no bound. -/
def execBringupStepTimeout (md : Nat) (failed : BitVec 4) (s : State) : Out :=
  needModule md (stepDone s md 0 failed failed.getLsbD true)

/-- DIE_RESET (R381). -/
def execDieReset (die : Nat) (s : State) : Out := needDie die (dieReset s die)

/-- THERMAL_EVENT (R384). -/
def execThermalEvent (die temp : Nat) (s : State) : Out := needDie die (thermal s die temp)

/-- CLOCK_RAISE (R384). -/
def execClockRaise (die : Nat) (s : State) : Out := needDie die (clockRaise s die)

/-- FIELD_SERVICE_COMMAND (R362): the retirement list and the die error counters are cleared. -/
def execFieldServiceCommand (die : Nat) (s : State) : Out :=
  needDie die (s.setDie die { s.die die with retired := [], errs := [] })

/-- TARGETED_SELF_TEST (R382). -/
def execTargetedSelfTest (die row : Nat) (s : State) : Out := needDie die (testStart s die row)

/-- SELF_TEST_COMPLETE (R382). -/
def execSelfTestComplete (die row : Nat) (passed : Bool) (s : State) : Out := needDie die (testDone s die row passed)

/-- SHARED_SRAM_SHRINK (R217). -/
def execSharedSramShrink (die : Nat) (s : State) : Out := needDie die (sramShrink s die)

/-! Sequencers (R315 to R322). -/

/-- A step of a sequencer, if it exists. -/
def needSeq (die q : Nat) (k : State) : Out := if die < 256 && q < 16 then .next k else .fault .noSuchAgent

/-- SEQUENCER_STEP (R317). -/
def execSequencerStep (die q : Nat) (s : State) : Out := needSeq die q (seqStep s die q)

/-- SEQ_CHUNK_ARRIVAL (R317). -/
def execSeqChunkArrival (die q : Nat) (s : State) : Out := needSeq die q (seqArrival s die q)

/-- SEQ_CREDIT (R317). -/
def execSeqCredit (die q : Nat) (s : State) : Out := needSeq die q (seqCredit s die q)

/-- SEQ_DATA_STEP_COMPLETE (R317). -/
def execSeqDataStepComplete (die q : Nat) (s : State) : Out := needSeq die q (seqCount s die q)

/-- LOSS_NOTICE (R321): rank n is lost. -/
def execLossNotice (die q n : Nat) (s : State) : Out := needSeq die q (seqNotice s die q n)

/-- GANG_PAUSE_REQUEST (R322). -/
def execGangPauseRequest (die q : Nat) (s : State) : Out := needSeq die q (pauseRequest s die q)

/-- GANG_PAUSE_ANSWER (R322): of rank n. -/
def execGangPauseAnswer (die q n : Nat) (s : State) : Out := needSeq die q (pauseAnswer s die q n)

/-- GANG_PAUSE_TARGET (R322): the chunk number n. -/
def execGangPauseTarget (die q n : Nat) (s : State) : Out := needSeq die q (pauseTarget s die q n)

/-- GANG_RESUME (R322). -/
def execGangResume (die q : Nat) (s : State) : Out := needSeq die q (gangResume s die q)

end Sys2Proof.Machine
end

