-- ==== Sys2Proof/Machine/ConvertInsns.lean ====
section
/-! DEFINITION. Pipe-X instructions, each as a convoy of its own (R157 to R169). -/

namespace Sys2Proof.Machine

open Sys2Proof

/-- VCVT (R160). -/
def execVcvt (c : Bool) (sat : BitVec 1) (sfmt dfmt : BitVec 4) (vs vd : BitVec 7) (s : State) : Out :=
  convoyAlone (.vcvt c sat sfmt dfmt vs vd) s

/-- VQUANT (R163). -/
def execVquant (c : Bool) (sfmt qfmt : BitVec 4) (vs vd : BitVec 7) (s : State) : Out :=
  convoyAlone (.vquant c sfmt qfmt vs vd) s

/-- VQSC (R164). -/
def execVqsc (c : Bool) (sfmt qfmt : BitVec 4) (vs vd : BitVec 7) (s : State) : Out :=
  convoyAlone (.vqsc c sfmt qfmt vs vd) s

/-- VDEQ (R166). -/
def execVdeq (c : Bool) (qfmt dfmt : BitVec 4) (vs vd : BitVec 7) (s : State) : Out :=
  convoyAlone (.vdeq c qfmt dfmt vs vd) s

/-- VHAD (R168). -/
def execVhad (c : Bool) (j : BitVec 4) (vs vd : BitVec 7) (s : State) : Out :=
  convoyAlone (.vhad c j vs vd) s

/-- VPACK (R167). -/
def execVpack (c : Bool) (pfmt : BitVec 4) (vs vd : BitVec 7) (s : State) : Out :=
  convoyAlone (.vpack c pfmt vs vd) s

/-- VUNPACK (R167). -/
def execVunpack (c : Bool) (pfmt : BitVec 4) (vs vd : BitVec 7) (s : State) : Out :=
  convoyAlone (.vunpack c pfmt vs vd) s

end Sys2Proof.Machine
end

