-- ==== Sys2Proof/Machine/HomeEvents.lean ====
section
/-! DEFINITION. Steps at the homes of memory: requests that arrive (R222), collapses (R207), bounces (R358), windows (R209), page
answers (R246, R353), translation invalidation (R352), the host (R288) and trigger copies (R285). -/

namespace Sys2Proof.Machine

open Sys2Proof

/-! Requests. -/

/-- Nothing that a store is ordered behind is outstanding, but for the collapse of a store that it was sent with (R224, R237). -/
def sentReady (s : State) (h : Nat) (el : Elt) (c : Option Nat) : Bool :=
  ((s.hart h).before el.id).all (fun e => !related e.cls el.cls) &&
    (s.hart h).seen.all fun y => some y.collapse == c || !y.own || !related y.cls el.cls ||
      s.collapses.all fun x => x.id != y.collapse

/-- A store of the hart has been applied for a request; its response is still to come (R306, R311). -/
def Hart.waitAck (x : Hart) (req : Nat) (el : Elt) (now : Nat) : Hart :=
  let others := (el.seenBy.map (·.1)).eraseDups
  if x.unacked.any fun u => u.id == req then
    { x with unacked := x.unacked.map fun (u : Unacked) =>
        if u.id = req then { u with n := u.n + 1, others := (u.others ++ others).eraseDups } else u }
  else { x with unacked := x.unacked ++ [⟨req, el.cls, others, 1, now, false⟩] }

/-- Apply the elements of a request in order; answers those that still wait, and how many have been applied. Stores sent together
reach harts at one moment: they are one collapse, c once it has begun (R237). A row of the peer table that has been cleared refuses
them (R211, R222). -/
def applyAll (q : Req) : List Nat → Nat → Option Nat → State → State × List Nat × Nat
  | [], n, _, s => (s, [], n)
  | id :: r, n, c, s =>
    let h := q.hart
    match (s.hart h).pend.find? fun e => e.id == id with
    | none => applyAll q r n c s
    | some el =>
      let a := el.agent h false
      let key := el.key.getD 0
      if !sentReady s h el c then (s, id :: r, n)
      else if inReset s (ipaHome el.ipa) then applyAll q r n c (s.resetElt h el)
      else if !peerOk s a el.ipa then applyAll q r n c (s.refuseElt h el)
      else match metered s a el.ipa key el.need (eltHome s h el key c) with
        | .ok s c =>
          let s := s.modHart h fun x => x.waitAck q.id el (s.die q.src).clk
          applyAll q r (n + 1) c (s.completeElt h id c (some q.id))
        | .fault s _ => applyAll q r n c (s.refuseElt h el)
        | .stall s _ => (s, id :: r, n)

/-- A request leaves its home's arbiter, answered by a response; it stays while the queue of that is full (R306, R309). -/
def State.respond (s : State) (q : Req) (b : Body) : State :=
  let f := flowId (unitSource q.dst 0) q.src q.cls
  if flowRoom s f then { s.enqueue f q.owner b with arrived := s.arrived.filter fun x => x.id != q.id } else s

/-- A read that was steered under another GEN of its region than the present one is bounced, which the region counts; its source
steers it afresh (R358). -/
def bounceRead (s : State) (q : Req) (f : Far) : State :=
  let s := { s with far := s.far.erase f, arrived := s.arrived.filter fun x => x.id != q.id }
  match regionOf s (ipaHome f.ipa / 4) f.ipa with
  | none => s
  | some (k, r) =>
    s.setRegion (ipaHome f.ipa / 4) k { r with bounces := if r.bounces + 1 < 2 ^ 64 then r.bounces + 1 else r.bounces }

/-- The turn of an access of a source at its home (R306): it acts there, and is answered unless it waits. -/
def farReq (s : State) (q : Req) (e ipa back : Nat) : State :=
  let answer (s : State) : State := s.respond q (.response q.hart e ipa back)
  match s.far.find? fun f => f.source == q.hart && f.elt == e && f.ipa == ipa && f.state == .sent with
  | none => answer s
  | some f =>
    match f.op with
    | .read g => if g.any fun g => g != steerGen s ipa then bounceRead s q f else answer s
    | _ =>
      if f.val.isSome || !f.acts s then answer s
      else match farTurn s f with
        | (s, true) => answer s
        | (t, false) =>
          if t.far.contains f then s else { t with arrived := t.arrived.filter fun x => x.id != q.id }

/-- A request has its turn at its home: an access acts and is answered, stores are applied and then answered (R222, R306). -/
def applyReq (s : State) (q : Req) : State :=
  match q.far with
  | some (e, ipa, back) => farReq s q e ipa back
  | none =>
    let (s, elts, n) := applyAll q q.elts q.done none s
    let s := { s with arrived := s.arrived.map fun (x : Req) => if x.id = q.id then { x with elts := elts, done := n } else x }
    if elts ≠ [] then s
    else if n = 0 then { s with arrived := s.arrived.filter fun x => x.id != q.id }
    else s.respond q (.ack q.hart q.id)

/-- A request wins over another at an arbiter: the older, among equals that of the lower input (R309). -/
def Req.beats (a b : Req) : Bool :=
  b.age < a.age || (a.age == b.age && chanId a.src a.dst a.plane < chanId b.src b.dst b.plane)

/-- The request that the input arbiter of a die takes next: of the first of each input, and of each flow (R309). -/
def arbiter (s : State) (dst : Nat) : Option Req :=
  let qs := s.arrived.filter fun q => q.dst == dst
  let before (a b : Req) : Bool := (a.src == b.src && a.plane == b.plane) || (a.hart == b.hart && a.cls == b.cls)
  let hs := (qs.zipIdx.filter fun p => (qs.take p.2).all fun r => !before r p.1).map (·.1)
  hs.foldl (fun w q => match w with
    | none => some q
    | some v => if q.beats v then some q else some v) none

/-- REMOTE_REQUEST_APPLY (R222): a request of number req that has arrived at its home, when the arbiter there takes it (R309). -/
def execRemoteRequestApply (req : Nat) (s : State) : Out :=
  .next (match s.arrived.find? fun q => q.id == req with
    | none => s
    | some q => if (arbiter s q.dst).any fun w => w.id == req then applyReq s q else s)

/-! Collapses (R207). -/

/-- The first collapse of a line that a die stands in with a mark. -/
def collapseOf (s : State) (line die : Nat) (gone : Bool) : Option Collapse :=
  s.collapses.find? fun c => c.line == line && c.dies.contains (die, gone)

/-- Replace the collapse of a number. -/
def State.setCollapse (s : State) (c : Collapse) : State :=
  { s with collapses := s.collapses.map fun (x : Collapse) => if x.id = c.id then c else x }

/-- REPLICA_INVALIDATE (R207): a die drops its copies of the line and acknowledges. -/
def execReplicaInvalidate (line die : Nat) (s : State) : Out :=
  needDie die
    (match collapseOf s line die false with
     | none => s
     | some c =>
       (s.dropFor c die).setCollapse { c with dies := c.dies.map fun (p : Nat × Bool) => if p.1 = die then (die, true) else p })

/-- COLLAPSE_ACK (R207): the home collects a die's acknowledgement; the last one ends the collapse. -/
def execCollapseAck (line die : Nat) (s : State) : Out :=
  needDie die
    (match collapseOf s line die true with
     | none => s
     | some c =>
       let c' : Collapse := { c with dies := c.dies.filter fun p => p.1 != die }
       if c'.dies = [] then s.endCollapse c.id else s.setCollapse c')

/-- A read of the hart that waits at its home was steered under another GEN of the region than the present one: it is bounced, which
the region counts, and steered afresh (R358). -/
def bounced (s : State) (h : Nat) : State :=
  let x := s.hart h
  match x.hold with
  | some ⟨.home ipa g, i⟩ =>
    if steerGen s ipa = g then s
    else
      let s := s.setHart h { x with hold := some ⟨.home ipa (steerGen s ipa), i⟩ }
      (match regionOf s (ipaHome ipa / 4) ipa with
       | none => s
       | some (k, r) =>
         s.setRegion (ipaHome ipa / 4) k { r with bounces := if r.bounces + 1 < 2 ^ 64 then r.bounces + 1 else r.bounces })
  | _ => s

/-- GENERATION_BOUNCE (R358): the request of hart req. -/
def execGenerationBounce (req : Nat) (s : State) : Out := needHart req (bounced s req)

/-- The lines of a revoked window go, and its entry is closed (R209, R360). -/
def closeLines (s : State) (die entry : Nat) : State :=
  let w := mget Window.closed (s.die die).windows entry
  if w.closing.isSome then
    let s := dropWinLines s die w
    s.setDie die { s.die die with windows := mset Window.closed (s.die die).windows entry { w with closing := none } }
  else s

/-- WINDOW_LINE_INVALIDATE (R209). -/
def execWindowLineInvalidate (die entry : Nat) (s : State) : Out := needDie die (closeLines s die entry)

/-! Page answers (R246, R353). -/

/-- What is said to a waiter for a page that the host fails. -/
def failTold (w : Option Why) (m : Nat) (q : PageReq) : Option Why :=
  if w = some (.page m q.owner q.page) then some (.pageFailed (q.page * 4096)) else w

/-- An element that waits for the page: in the side log, in the replay queue, or for a place in one that is full, which then ends like
an entry of it (R246; DEDUCED, log 26). -/
def onPage (q : PageReq) (e : Elt) : Bool :=
  e.owner == q.owner && e.gen == q.gen.toNat && (e.place == .sideLog || e.place == .replay || e.place == .full) &&
    (if e.kind == .copy then e.src.any fun p => p.1 / 4096 == q.page else e.ipa / 4096 == q.page)

/-- The elements of a hart that wait for a failed page are discarded or complete with 0, and their classes are marked. -/
def failElts (s : State) (q : PageReq) (h : Nat) : State :=
  ((s.hart h).pend.filter (onPage q)).foldl (fun s e => s.discardElt h e) s

/-- The host answers that a page fails: held accesses are told, queued elements end (R246). -/
def pageFails (s : State) (m : Nat) (q : PageReq) : State :=
  let hs := (s.harts.filter fun p => hartDie p.1 / 4 == m).map (·.1)
  let s := hs.foldl (fun s h => s.modHart h fun x =>
    { x with hold := x.hold.map fun w => { w with why := (failTold (some w.why) m q).getD w.why } }) s
  let s := (moduleDies m).foldl (fun s d =>
    let x := s.die d
    s.setDie d { x with
      seqs := x.seqs.map fun p => (p.1, { p.2 with told := failTold p.2.told m q })
      copies := x.copies.map fun (j : CopyJob) => { j with told := failTold j.told m q } }) s
  let md := s.md m
  let s := s.setMd m { md with launches := md.launches.map fun (l : Launch) => { l with told := failTold l.told m q } }
  hs.foldl (fun s h => failElts s q h) s

/-- Send a request again for a page that is still missing, and count the stale answer (R353, R368). -/
def askAgain (s : State) (m : Nat) (q : PageReq) : State :=
  let q' : PageReq := { q with num := s.serial }
  let s := s.number
  ((s.setMd m { s.md m with preqs := (s.md m).preqs ++ [q'] }).say
    (.pageRequest m q'.num q.owner q.gen (q.page * 4096) q.kind)).countCtx m q.owner 3

/-- HOST_PAGE_ANSWER (R353): 0 is mapped, another status failure. -/
def execHostPageAnswer (md req gen status : Nat) (s : State) : Out :=
  needModule md
    (match (s.md md).preqs.find? fun q => q.num == req with
     | none => s
     | some q =>
       if gen ≠ q.gen.toNat then s
       else if (s.ctx md q.owner).gen ≠ q.gen then s.setMd md { s.md md with preqs := (s.md md).preqs.erase q }
       else
         let s := s.setMd md { s.md md with preqs := (s.md md).preqs.erase q }
         if status ≠ 0 then pageFails s md q
         else match walk s q.owner (q.page * 4096) with
           | (s, .miss) => askAgain s md q
           | (s, _) => s)

/-! Translation invalidation (R352). -/

/-- A die holds cache entries of an owner in an interval, or accesses that used one. -/
def holdsTlb (s : State) (owner lo n d : Nat) : Bool :=
  usesTlb s d owner lo n || s.tlb.any fun t => t.die == d && t.owner == owner && t.base < lo + n && lo < t.base + t.size

/-- TRANSLATION_INVALIDATION_MESSAGE (R352): checked and executed as PTINV on V-die 0. -/
def execTranslationInvalidationMessage (md : Nat) (ipa val : BitVec 64) (s : State) : Out :=
  let v := val.toNat
  let o := field v 8 6
  let p := invalSpan ipa.toNat v
  let dies := (List.range 256).filter (holdsTlb s o p.1 p.2)
  needModule md
    (if !invalOk v || o = 0 then s.say (.invalDone md false)
     else if dies = [] then s.say (.invalDone md true)
     else { s.number with invals := s.invals ++ [⟨s.serial, md, o, p.1, p.2, dies⟩] })

/-- TLB_INVALIDATE (R352): a die drops its entries, and acknowledges when no access that used one is left. -/
def execTlbInvalidate (inv die : Nat) (s : State) : Out :=
  needDie die
    (match s.invals.find? fun v => v.id == inv && v.dies.contains die with
     | none => s
     | some v =>
       let s := dropTlb s die v.owner v.lo v.size
       if usesTlb s die v.owner v.lo v.size then s
       else
         let v' : Inval := { v with dies := v.dies.filter (· ≠ die) }
         if v'.dies = [] then
           { s with invals := s.invals.filter fun (x : Inval) => x.id != inv }.say (.invalDone v.md true)
         else { s with invals := s.invals.map fun (x : Inval) => if x.id = inv then v' else x })

/-! The host (R288, R345). -/

/-- Leaves of a table of a die that map a DPA. -/
def tableLeaves (s : State) (die target : Nat) : Nat → Nat → List Word
  | 0, _ => []
  | n + 1, dpa => (List.range 512).flatMap fun i =>
    let e := pte s die dpa i
    if !e.getLsbD 0 || pteBad (3 - n) e then []
    else if e.getLsbD 8 then
      (if pteDpa e ≤ target && target < pteDpa e + pageSize (3 - n) (pteSpan e) then [e] else [])
    else tableLeaves s die target n (pteDpa e)

/-- Leaves of every context of a die that map a DPA. -/
def leavesOf (s : State) (die dpa : Nat) : List Word :=
  (List.range 64).flatMap fun o =>
    let root := BitVec.ofNat 64 (s.rdNat (ctlKey die (0x200 + 8 * o)) 8)
    if o ≠ 0 && root.getLsbD 0 then tableLeaves s die dpa 4 (root.toNat / 2 ^ 12 % 2 ^ 26 * 2 ^ 12) else []

/-- Where a host access goes: its storage address and the leaves that map it; none where it completes with an error. Owner 0
names a place by the owner-0 rule, another owner a page of that context (log 16). -/
def hostTarget (s : State) (md owner ipa size : Nat) (need : Need) : State × Option (Nat × List Word) :=
  let die := ipaHome ipa
  if 2 ^ 56 ≤ ipa || die / 4 ≠ md || ipa % size ≠ 0 || !spaceOk s ipa then (s, none)
  else if owner = 0 then
    match translate s (unitAgent (md * 4) 0 0 0 0 none) ipa need with
    | (s, .ok key _) =>
      let dpa := if ipaSpace ipa = 8 then 2 ^ 37 + ipaOff ipa else ipaSpace ipa * 2 ^ 34 + ipaOff ipa
      let ls := if pagedSpace (ipaSpace ipa) then leavesOf s die dpa else []
      (s, if ls.all fun e => e.getLsbD 7 then some (key, ls) else none)
    | (s, _) => (s, none)
  else if !pagedSpace (ipaSpace ipa) then (s, none)
  else match walk s owner ipa with
    | (s, .leaf base _ e) =>
      (s, match leafOutcome s ipa base e need with
       | .ok key e => if e.getLsbD 7 then some (key, [e]) else none
       | _ => none)
    | (s, _) => (s, none)

/-- An access whose operands the host can send: 1, 2, 4 or 8 bytes. -/
def hostSize (size : Nat) : Bool := size == 1 || size == 2 || size == 4 || size == 8

/-- The answer to a host access; one that must wait for a collapse happens later. -/
def hostAnswer (s : State) (md : Nat) (r : Res Nat) : State :=
  match r with
  | .ok s v => s.say (.hostDone md (BitVec.ofNat 64 v) true)
  | .fault s _ => s.say (.hostDone md 0 false)
  | .stall _ _ => s

/-- A plain access of the host, under the owner that it names (log 16). A write to a page without SA may be lost to a device atomic that had begun (R288, log 16). -/
def hostPlain (s : State) (owner : Nat) (write sa : Bool) (ipa key size : Nat) (data : Word) : Res Nat :=
  if ipaSpace ipa = 13 then
    (if write then (ctlWrite s (ipaHome ipa) 0 (ipaOff ipa) (toBytes size data.toNat)).bind fun s _ => .ok s 0
     else (ctlRead s (ipaHome ipa) (ipaOff ipa) size).bind fun s bs => .ok s (leBytes bs))
  else if write then
    let old := s.rd key size
    (applyWrite s owner 0 ipa key (toBytes size data.toNat) none).bind fun s _ =>
      .ok (if sa then s else { s.draw with raced := some (s.fresh, key, old) }) 0
  else if s.collapsing (keyLine key) then .stall s .order
  else (heldByTest s key size (homeRead (s.noteHome ipa) owner ipa key size)).bind fun s bs => .ok s (leBytes bs)

/-- HOST_ACCESS (R288). -/
def execHostAccess (md owner : Nat) (write : Bool) (ipa size : Nat) (data : BitVec 64) (s : State) : Out :=
  if 64 ≤ md || 64 ≤ owner then .fault .noSuchAgent
  else if !hostSize size then .next (s.say (.hostDone md 0 false))
  else match hostTarget s md owner ipa size (if write then needW else needR) with
    | (s, none) => .next (s.say (.hostDone md 0 false))
    | (s, some (key, ls)) => .next (hostAnswer s md (hostPlain s owner write (ls.all fun e => e.getLsbD 6) ipa key size data))

/-- HOST_ATOMIC (R288): an operation of R264 but FADD, of 32 or 64 bits, on a page with SA set. -/
def execHostAtomic (md owner op ipa size : Nat) (a cmp : BitVec 64) (s : State) : Out :=
  if 64 ≤ md || 64 ≤ owner then .fault .noSuchAgent
  else if !(size == 4 || size == 8) || 10 < op then .next (s.say (.hostDone md 0 false))
  else match hostTarget s md owner ipa size needRW with
    | (s, none) => .next (s.say (.hostDone md 0 false))
    | (s, some (key, ls)) =>
      if ls = [] || ls.any (fun e => !e.getLsbD 6) then .next (s.say (.hostDone md 0 false))
      else
        let w := 8 * size
        .next (hostAnswer s md ((homeAtomic { s with raced := none } owner ipa key size fun old =>
          (amoNew (BitVec.ofNat 4 op) w old (a.toNat % 2 ^ w) (cmp.toNat % 2 ^ w)).map (toBytes size)).bind
            fun s r => .ok s r.1))

/-! Triggers (R285). -/

/-- A trigger as an agent. -/
def CopyJob.agent (s : State) (die : Nat) (j : CopyJob) : Agent :=
  let gen := if j.owner = 0 then 0 else (s.ctx (die / 4) j.owner).gen.toNat
  { unitAgent die j.owner gen (unitSource die 1) j.cls j.told with elt := j.id }

/-- Put a trigger's progress back. -/
def State.setJob (s : State) (die : Nat) (j : CopyJob) : State :=
  s.setDie die { s.die die with copies := (s.die die).copies.map fun (x : CopyJob) => if x.id = j.id then j else x }
/-- A trigger ends. -/
def State.endJob (s : State) (die : Nat) (j : CopyJob) : State :=
  s.setDie die { s.die die with copies := (s.die die).copies.filter fun (x : CopyJob) => x.id != j.id }

/-- TERR of the source chamber is set (R280, R285). -/
def State.setTerr (s : State) (j : CopyJob) : State :=
  let key := spaceKey s (ipaHome j.chamber) 9 (ipaOff j.chamber)
  if s.tagOf key = j.owner then s.wrAs key j.owner (toBytes 16 (setField (s.rdNat key 16) 37 1 1)) else s

/-- An access of a trigger to a 56-bit IPA passes check 4 and reads. -/
def jobRead (s : State) (a : Agent) (ipa n : Nat) : Res (List Byte) :=
  if 2 ^ 56 ≤ ipa || !check4 s a 0 ipa n needR false then .fault s .protectionFault else readAt s a ipa n

/-- Read the pieces of a segment. -/
def jobPieces (a : Agent) : List (Nat × Nat) → List Byte → State → Res (List Byte)
  | [], got, s => .ok s got
  | p :: r, got, s => (jobRead s a p.1 p.2).bind fun s bs => jobPieces a r (got ++ bs) s

/-- One segment: the read of its source, in space 0xD one access within an item (R377), then its write, whose collapse is collected at
once. -/
def jobSegment (s : State) (a : Agent) (src : Nat) (p : Nat × Nat) : Res Unit :=
  if ipaSpace src = 13 && !check4 s a 0 src p.2 needR false then .fault s .protectionFault else
  (jobPieces a (linePieces 3 src p.2) [] s).bind fun s bs =>
    if 2 ^ 56 ≤ p.1 || !check4 s a 0 p.1 p.2 needW false then .fault s .protectionFault
    else (writeAt s a p.1 bs).bind fun s c => .ok ((s.collapses.filter fun x => some x.id == c).foldl State.hurryCollapse s) ()

/-- A trigger waits: nothing of its step has happened but page requests. -/
def jobStall (s s' : State) (die : Nat) (j : CopyJob) (w : Why) : State := (keepRequests s' s).setJob die { j with told := some w }

/-- The descriptor of a copy: the trigger with its fields, none where it performs no segment. -/
def jobDesc (j : CopyJob) (bs : List Byte) : Option CopyJob :=
  let w := leBytes bs
  let c := field w 128 17
  if field w 145 15 ≠ 0 || field w 164 28 ≠ 0 || c = 0 || 65536 < c then none
  else some { j with
    dst := field w 0 64, src := field w 64 64, count := c, cls := field w 160 4, notify := field w 192 64, loaded := true
    told := none }

/-- Read the descriptor. -/
def jobLoad (s : State) (die : Nat) (j : CopyJob) : State :=
  let bad (s : State) : State := ((s.setTerr j).countCtx (die / 4) j.owner 2).endJob die j
  match jobRead s (j.agent s die) j.src 32 with
  | .stall s' w => jobStall s s' die j w
  | .fault s _ => bad s
  | .ok s bs => match jobDesc j bs with
    | none => bad s
    | some j => s.setJob die j

/-- The arrival on the chamber to notify. -/
def jobNotify (s : State) (die : Nat) (j : CopyJob) : State :=
  let a := j.agent s die
  if j.notify = 0 then s.endJob die j
  else if 2 ^ 56 ≤ j.notify || j.notify % 16 ≠ 0 || ipaSpace j.notify ≠ 9 || !check4 s a 0 j.notify 16 needRW true then
    (s.setTerr j).endJob die j
  else match chReachAt s a j.notify 0 needRW (.arrive 1) with
    | .stall s' w => jobStall s s' die j w
    | .fault s _ => (s.setTerr j).endJob die j
    | .ok s _ => s.endJob die j

/-- The next segment of a copy, or its end. The chamber is notified at the end even where a segment has been skipped (R285; DEDUCED,
log 35). -/
def jobCopy (s : State) (die : Nat) (j : CopyJob) : State :=
  match (linePieces 514 j.dst j.count)[j.e]? with
  | none => jobNotify s die j
  | some p =>
    let on : CopyJob := { j with e := j.e + 1, told := none }
    match jobSegment s (j.agent s die) ((j.src + (p.1 + 2 ^ 64 - j.dst)) % 2 ^ 64) p with
    | .stall s' w => jobStall s s' die j w
    | .fault s _ => ((s.setTerr j).countCtx (die / 4) j.owner 2).setJob die on
    | .ok s _ => s.setJob die on

/-- The start of a collective program by a trigger. -/
def jobProgram (s : State) (die : Nat) (j : CopyJob) : State :=
  let a := j.agent s die
  let bad (s : State) : State := (s.setTerr j).endJob die j
  if j.src % 64 ≠ 0 then bad s
  else match jobRead s a j.src 64 with
    | .stall s' w => jobStall s s' die j w
    | .fault s _ => bad s
    | .ok s' bs => match seqStart s' a { seqFresh s a j.src 0 none with byIpa := true } bs with
      | .stall s' w => jobStall s s' die j w
      | .fault s _ => bad s
      | .ok s (.ok _) => s.endJob die j
      | .ok s _ => bad s

/-- TRIGGER_COPY_SEGMENT (R285): the n-th trigger of a die's Lockkeeper moves on. -/
def execTriggerCopySegment (die n : Nat) (s : State) : Out :=
  needDie die
    (match (s.die die).copies[n]? with
     | none => s
     | some j => if toldPage s j.told j.owner then s else if j.kind = 1 then jobProgram s die j else if j.loaded then jobCopy s die j else jobLoad s die j)

end Sys2Proof.Machine
end

