-- ==== Sys2Proof/Machine/PacketEvents.lean ====
section
/-! DEFINITION. Steps of the link layer and the fabric manager: keys (R312, R313), packets (R307 to R311), routes (R361). -/

namespace Sys2Proof.Machine

open Sys2Proof

/-- A step of the link between two dies, if both exist. -/
def needLink (src dst : Nat) (k : State) : Out := if src < 256 && dst < 256 then .next k else .fault .noSuchAgent

/-- Keep the cycle since which a destination has been unreachable (R311). -/
def noteReach (s : State) (src dst : Nat) : State :=
  let x := s.die src
  if unreachable s src dst then
    if (mget none x.unreach dst).isSome then s else s.setDie src { x with unreach := mset none x.unreach dst (some x.clk) }
  else s.setDie src { x with unreach := mset none x.unreach dst none }

/-- The flows of a plane that is not UP move to the other plane when that is UP: packets not accepted first, in order, then
those still queued, all before newer ones; what finds no room there waits at its source (R308, R309). -/
def moveFlows (s : State) (src dst : Nat) (plane : Bool) : State :=
  let c := s.chan src dst plane
  if (s.chan src dst !plane).st ≠ .up then s
  else
    let ps := c.retry.drop c.arrived ++ c.queue
    let s := s.setChan src dst plane { c with queue := [], retry := [], resend := 0, arrived := 0, fails := 0, discard := false }
    let x := s.die src
    let flows := x.flows.map fun (f : Nat × Option Flow) => match f.2 with
      | some w => if flowDst f.1 = dst && w.plane == plane then (f.1, some { w with plane := !plane }) else f
      | none => f
    let s := ps.foldl (fun s p => if (mget none (s.die src).flows p.flow).isSome then s else s.setFlow p.flow ⟨!plane, 0⟩)
      (s.setDie src { x with flows := flows })
    { s with outbox := ps ++ s.outbox }.feed

/-- A channel leaves UP: it is counted, and its flows move (R308, R310, R369). -/
def channelLeaves (s : State) (src dst : Nat) (plane : Bool) (st : ChanState) : State :=
  let s := (s.setChan src dst plane { s.chan src dst plane with st := st }).countDie src 6
  noteReach (moveFlows s src dst plane) src dst

/-- A channel becomes UP; what waits on the other plane, if that is not UP, moves to it. -/
def channelReturns (s : State) (src dst : Nat) (plane : Bool) : State :=
  let s := s.setChan src dst plane { s.chan src dst plane with st := .up, fails := 0 }
  noteReach (if (s.chan src dst !plane).st = .up then s else moveFlows s src dst !plane) src dst

/-- A channel in HALT becomes UP. -/
def unhalt (s : State) (src dst : Nat) (plane : Bool) : State :=
  if (s.chan src dst plane).st = .halt then channelReturns s src dst plane else s

/-- Stage a key: in the next slot, or as the current one when there is none or a channel has halted (R312, R313). -/
def stageKey (s : State) (src dst : Nat) (key : BitVec 256) (salt : BitVec 32) : State :=
  let p := s.keyPair src dst
  let new : KeySlot := ⟨key, salt, 0⟩
  let halted := (s.chan src dst false).st == .halt || (s.chan src dst true).st == .halt
  if p.cur.isNone then s.setKeys src dst { p with cur := some new, event := false }
  else if halted then
    unhalt (unhalt (s.setKeys src dst ⟨!p.k, some new, none, false⟩) src dst false) src dst true
  else s.setKeys src dst { p with next := some new, event := false }

/-- KEY_STAGE (R312, R313). -/
def execKeyStage (src dst : Nat) (key : BitVec 256) (salt : BitVec 32) (s : State) : Out :=
  needLink src dst (stageKey s src dst key salt)

/-- CHANNEL_CLEAR (R310): the fabric manager returns a DOWN channel to UP. -/
def execChannelClear (src dst : Nat) (plane : Bool) (s : State) : Out :=
  needLink src dst (if (s.chan src dst plane).st = .down then channelReturns s src dst plane else s)

/-- The packets of a queue that no earlier packet of their own flow precedes (R309). -/
def heads (q : List Packet) : List Packet :=
  (q.zipIdx.filter fun p => (q.take p.2).all fun r => r.flow != p.1.flow).map (·.1)

/-- The packet that is sent next from a queue: the oldest, the first among equals (R309). -/
def oldest : List Packet → Option Packet
  | [] => none
  | p :: r => match oldest r with
    | some q => if p.age < q.age then some q else some p
    | none => some p

/-- Bytes of the stores of a packet. -/
def storeBytes (s : State) (h : Nat) (ids : List Nat) : Nat :=
  (((s.hart h).pend.filter fun e => ids.contains e.id).map fun e => e.data.length).sum

/-- Channel bytes of a packet: header, payload flits and trailer (R307, R323, R371). -/
def packetBytes (s : State) (p : Packet) : Nat :=
  flitBytes (match p.body with
    | .stores h ids => storeBytes s h ids
    | .chunk _ _ _ bs => bs.length
    | .request _ _ _ n _ | .response _ _ _ n => n
    | .ack _ _ => 0
    | _ => 32)

/-- The packet answers a request (R371). -/
def Packet.answers (p : Packet) : Bool :=
  match p.body with
  | .response .. | .ack .. | .notice .. => true
  | _ => false

/-- A packet sealed under a key. -/
def Packet.sealWith (p : Packet) (k : Bool) (ctr : Nat) : Packet := { p with k, ctr, sealed := true, wait := 0 }

/-- Send a packet: first sends are metered; one that is resent after a negative acknowledgement is counted (R307, R369, R371). -/
def sendPacket (s : State) (src dst : Nat) (plane : Bool) (c : Channel) (p : Packet) (resent : Bool) : State :=
  let s := useKey (s.setChan src dst plane c) src dst
  let s := s.setFlow p.flow ⟨plane, (s.die src).clk⟩
  let s := if resent then s.countDie src 5 else s
  (if p.sealed then s else s.charge src (sendOwner src dst p.owner p.answers) 4 (packetBytes s p)).feed

/-- Transmit the next packet of a channel: one to resend first, else the oldest of the queue (R307, R309, R313). -/
def transmit (s : State) (src dst : Nat) (plane : Bool) : State :=
  let c := s.chan src dst plane
  if c.st ≠ .up || unreachable s src dst then s
  else
    let n := c.retry.length - c.resend
    let p := if c.resend = 0 then (if c.retry.length < 64 then oldest (heads c.queue) else none) else c.retry[n]?
    match p with
    | none => s
    | some p =>
      match sealKey s src dst with
      | (s, none) => if (s.keyPair src dst).cur.isNone then s else channelLeaves s src dst plane .halt
      | (s, some k) =>
        let q := p.sealWith (s.keyPair src dst).k k.ctr
        sendPacket s src dst plane
          (if c.resend = 0 then { c with queue := c.queue.erase p, retry := c.retry ++ [q] }
           else { c with retry := c.retry.set n q, resend := c.resend - 1 }) p (c.resend != 0)

/-- PACKET_TRANSMIT (R307). -/
def execPacketTransmit (src dst : Nat) (plane : Bool) (s : State) : Out := needLink src dst (transmit s src dst plane)

/-- A packet's tag checks: its slot's key is held, and its counter is above every one accepted under that slot (R313). -/
def tagChecks (s : State) (src dst : Nat) (c : Channel) (p : Packet) : Bool :=
  let k := (s.keyPair src dst).k
  (p.k == k || (c.last k).isNone) && (match c.last p.k with | some n => n < p.ctr | none => true)

/-- A packet accepted: it leaves the flight, and its counter is kept (R307, R313). -/
def accepted (s : State) (src dst : Nat) (plane : Bool) (p : Packet) : State :=
  let c := s.chan src dst plane
  noteCounter (s.setChan src dst plane { c with arrived := c.arrived + 1, fails := 0 }) src dst p.k p.ctr

/-- A request takes its place at the input arbiter of the die (R309). -/
def State.arrive (s : State) (src dst : Nat) (plane : Bool) (p : Packet) (h : Nat) (elts : List Nat)
    (far : Option (Nat × Nat × Nat)) : State :=
  let q : Req := ⟨s.serial, src, dst, h, elts, 0, far, p.owner, p.flow % 16, plane, p.age, 0⟩
  { s.number with arrived := s.arrived ++ [q] }

/-- The response to an access reaches its source (R306). -/
def farBack (s : State) (source elt ipa : Nat) : State :=
  { s with far := s.far.map fun (f : Far) =>
      if f.source = source && f.elt = elt && f.ipa = ipa then { f with state := .back } else f }

/-- A sequencer of the die that has not ended takes messages of the tag (R317). -/
def tagTaken (s : State) (die owner tag : Nat) : Bool :=
  (s.die die).seqs.any fun p =>
    (p.2.st == .run || p.2.st == .paused) && p.2.ending.isNone && p.2.owner == owner && p.2.tag == tag

/-- A message reaches its die, where its sequencer takes it. One that only a collective in progress could use goes when none has
its tag; a credit may be for a program that is still to start, and one that has ended still answers a pause request (R317, R321,
R322). -/
def State.mailed (s : State) (dst owner : Nat) (b : Body) : State :=
  let keep : Bool := match b with
    | .credit .. => true
    | .pauseReq t _ => (s.die dst).seqs.any fun p => p.2.st != .free && p.2.owner == owner && p.2.tag == t
    | b => (bodyTag b).any fun t => tagTaken s dst owner t
  if keep then s.setDie dst { s.die dst with mail := (s.die dst).mail ++ [(owner, b)] } else s

/-- The receiving die delivers what a packet carries; a message that its peer table refuses loses its sender's rank (R211,
R307). -/
def deliver (s : State) (src dst : Nat) (plane : Bool) (p : Packet) : State :=
  let s := s.charge dst (recvOwner src dst p.owner p.answers) 5 (packetBytes s p)
  match p.body with
  | .stores h ids => s.arrive src dst plane p h ids none
  | .request n e ipa _ back => s.arrive src dst plane p n [] (some (e, ipa, back))
  | .ack h n => s.modHart h fun x => x.acked n
  | .response n e ipa _ => farBack s n e ipa
  | .notice h e v =>
    if e ≠ 0 || (s.owner h == p.owner && (s.hart h).hold.any fun w => w.why.served) then s.served h e v.toNat else s
  | .pageAsk c o g q k => if (s.ctx (c / 256) o).st = .run && (s.ctx (c / 256) o).gen = g then (pageEnters s c o g q k).1 else s
  | b =>
    if peerOk s (unitAgent src p.owner 0 0 0 none) (dst * 2 ^ 48) then s.mailed dst p.owner b
    else refusedMessage s src p.owner b

/-- The next packet in flight reaches the receiver, whole or not (R307). -/
def accept (s : State) (src dst : Nat) (plane good : Bool) : State :=
  let c := s.chan src dst plane
  if c.discard || c.retry.length - c.resend ≤ c.arrived then s
  else match c.retry[c.arrived]? with
    | none => s
    | some p =>
      if good && tagChecks s src dst c p then deliver (accepted s src dst plane p) src dst plane p
      else s.setChan src dst plane { c with discard := true }

/-- PACKET_ACCEPT (R307). -/
def execPacketAccept (src dst : Nat) (plane good : Bool) (s : State) : Out := needLink src dst (accept s src dst plane good)

/-- A negative acknowledgement reaches the sender (R307, R310). -/
def nak (s : State) (src dst : Nat) (plane : Bool) : State :=
  let c := s.chan src dst plane
  if !c.discard then s
  else
    let s := s.setChan src dst plane
      { c with resend := c.retry.length - c.arrived, discard := false, fails := c.fails + 1 }
    if 16 < c.fails + 1 then channelLeaves s src dst plane .down else s

/-- PACKET_NAK (R307). -/
def execPacketNak (src dst : Nat) (plane : Bool) (s : State) : Out := needLink src dst (nak s src dst plane)

/-- PACKET_ACKNOWLEDGEMENT (R307): the oldest accepted packet leaves the retry buffer. -/
def execPacketAcknowledgement (src dst : Nat) (plane : Bool) (s : State) : Out :=
  let c := s.chan src dst plane
  needLink src dst
    (if c.arrived = 0 then s else s.setChan src dst plane { c with retry := c.retry.tail, arrived := c.arrived - 1 })

/-- A flow that has been idle moves to the other plane (R308). -/
def moveFlow (s : State) (flow : Nat) : State :=
  let src := flowSrc flow
  let dst := flowDst flow
  let pl := flowPlane s flow
  let c := s.chan src dst pl
  let last := match mget none (s.die src).flows flow with | some f => f.last | none => 0
  if (s.chan src dst !pl).st = .up && last + 96 < (s.die src).clk && (s.outbox ++ c.queue ++ c.retry).all fun p => p.flow != flow
  then s.setFlow flow ⟨!pl, last⟩ else s

/-- FLOW_PLANE_MOVE (R308). -/
def execFlowPlaneMove (flow : Nat) (s : State) : Out := needDie (flowSrc flow) (moveFlow s flow)

/-- A waiting packet's age rises once for every 64 cycles (R309). -/
def Packet.grow (p : Packet) : Packet := if 64 ≤ p.wait then { p with age := min 255 (p.age + 1), wait := p.wait - 64 } else p

/-- So does that of one that waits at an input arbiter (R309). -/
def Req.grow (q : Req) : Req := if 64 ≤ q.wait then { q with age := min 255 (q.age + 1), wait := q.wait - 64 } else q

/-- PACKET_AGE_TICK (R309). -/
def execPacketAgeTick (die : Nat) (s : State) : Out :=
  needDie die { s with
    chans := s.chans.map fun (c : Nat × Channel) =>
      if c.1 / 512 = die then (c.1, { c.2 with queue := c.2.queue.map Packet.grow }) else c
    arrived := s.arrived.map fun (q : Req) => if q.dst = die then q.grow else q }

/-- Every packet for a die unreachable for 2^16 cycles is dropped (R311). -/
def dropAll (s : State) (src dst : Nat) : State :=
  let drop (s : State) (pl : Bool) : State :=
    let c := s.chan src dst pl
    (c.retry.drop c.arrived ++ c.queue).foldl (fun s p => dropPacket s src dst p)
      (s.setChan src dst pl { c with queue := [], retry := [], resend := 0, arrived := 0, discard := false })
  let s := drop (drop s false) true
  let mine (p : Packet) : Bool := flowSrc p.flow == src && flowDst p.flow == dst
  (s.outbox.filter mine).foldl (fun s p => dropPacket s src dst p) { s with outbox := s.outbox.filter fun p => !mine p }

/-- UNREACHABLE_DROP (R311). -/
def execUnreachableDrop (src dst : Nat) (s : State) : Out :=
  needLink src dst
    (if unreachable s src dst && (mget none (s.die src).unreach dst).getD 0 + 2 ^ 16 ≤ (s.die src).clk then dropAll s src dst
     else s)

/-- Flows with packets on their way keep the plane that they have (R308). -/
def keepPlanes (s : State) (src dst : Nat) : State :=
  let on (s : State) (pl : Bool) : State :=
    let c := s.chan src dst pl
    (c.queue ++ c.retry).foldl
      (fun s p => if (mget none (s.die src).flows p.flow).isSome then s else s.setFlow p.flow ⟨pl, 0⟩) s
  on (on s false) true

/-- ROUTE_TABLE_WRITE (R361). -/
def execRouteTableWrite (die dest : Nat) (val : BitVec 32) (s : State) : Out :=
  let s' := keepPlanes s die dest
  let x := s'.die die
  needLink die dest (noteReach (s'.setDie die { x with routes := mset 0 x.routes dest (val &&& 0xFFF3) }) die dest)

/-- PEER_TABLE_WRITE (R211): one of the 64 rows. -/
def execPeerTableWrite (md owner : Nat) (val : BitVec 64) (s : State) : Out :=
  let x := s.md md
  if md < 64 && owner < 64 then .next (s.setMd md { x with peers := mset 0 x.peers owner val }) else .fault .noSuchAgent

end Sys2Proof.Machine
end

