-- ==== Sys2Proof/Machine/TileInsns.lean ====
section
/-! DEFINITION. Tile and matrix instructions, each as a convoy of its own (R171 to R192). -/

namespace Sys2Proof.Machine

open Sys2Proof

/-- TZERO (R182). -/
def execTzero (c : Bool) (t : BitVec 3) (s : State) : Out :=
  convoyAlone (.tzero c t) s

/-- TLD (R182). -/
def execTld (c : Bool) (k : BitVec 3) (dir : BitVec 2) (t : BitVec 3) (gi gb : BitVec 5) (cls : BitVec 4) (s : State) : Out :=
  convoyAlone (.tld c k dir t gi gb cls) s

/-- TST (R182). -/
def execTst (c : Bool) (k : BitVec 3) (dir : BitVec 2) (t : BitVec 3) (gi gb : BitVec 5) (cls : BitVec 4) (s : State) : Out :=
  convoyAlone (.tst c k dir t gi gb cls) s

/-- TRD (R182). -/
def execTrd (c : Bool) (k : BitVec 3) (dir : BitVec 2) (t : BitVec 3) (gi : BitVec 5) (spec : BitVec 7) (s : State) : Out :=
  convoyAlone (.trd c k dir t gi spec) s

/-- TWR (R182). -/
def execTwr (c : Bool) (k : BitVec 3) (dir : BitVec 2) (t : BitVec 3) (gi : BitVec 5) (spec : BitVec 7) (s : State) : Out :=
  convoyAlone (.twr c k dir t gi spec) s

/-- TDRAIN (R183). -/
def execTdrain (c : Bool) (k : BitVec 3) (clamp : BitVec 2) (scale : BitVec 4) (dir : BitVec 2) (t : BitVec 3) (gi : BitVec 5) (spec : BitVec 7) (fmt : BitVec 4) (s : State) : Out :=
  convoyAlone (.tdrain c k clamp scale dir t gi spec fmt) s

/-- TDRAIN.BP (R183). -/
def execTdrainBp (c : Bool) (k : BitVec 3) (clamp : BitVec 2) (scale : BitVec 4) (dir : BitVec 2) (t : BitVec 3) (gi : BitVec 5) (spec : BitVec 7) (fmt : BitVec 4) (s : State) : Out :=
  convoyAlone (.tdrainBp c k clamp scale dir t gi spec fmt) s

/-- BLD (R178). -/
def execBld (c : Bool) (gb gi : BitVec 5) (cls : BitVec 4) (s : State) : Out :=
  convoyAlone (.bld c gb gi cls) s

/-- BLD.W (R178). -/
def execBldW (c : Bool) (gb gi : BitVec 5) (cls : BitVec 4) (s : State) : Out :=
  convoyAlone (.bldW c gb gi cls) s

/-- BINV (R180). -/
def execBinv (c : Bool) (gb gi : BitVec 5) (s : State) : Out :=
  convoyAlone (.binv c gb gi) s

/-- MCFG (R174). -/
def execMcfg (c : Bool) (gi : BitVec 5) (s : State) : Out :=
  convoyAlone (.mcfg c gi) s

/-- MOPA (R187). -/
def execMopa (c : Bool) (k om t : BitVec 3) (spec : BitVec 7) (gb : BitVec 5) (s : State) : Out :=
  convoyAlone (.mopa c k om t spec gb) s

/-- MIPA (R189). -/
def execMipa (c : Bool) (k om t : BitVec 3) (gi : BitVec 5) (spec : BitVec 7) (gb : BitVec 5) (s : State) : Out :=
  convoyAlone (.mipa c k om t gi spec gb) s

/-- MRWA (R190). -/
def execMrwa (c : Bool) (k om t : BitVec 3) (gi : BitVec 5) (spec : BitVec 7) (gb : BitVec 5) (s : State) : Out :=
  convoyAlone (.mrwa c k om t gi spec gb) s

/-- MRWS (R191). -/
def execMrws (c : Bool) (k om t : BitVec 3) (gi : BitVec 5) (spec : BitVec 7) (gb : BitVec 5) (s : State) : Out :=
  convoyAlone (.mrws c k om t gi spec gb) s

end Sys2Proof.Machine
end

