-- ==== Sys2Proof/Machine/VecInsns.lean ====
section
/-! DEFINITION. Pipe-A instructions and the prefixed form, each as a convoy of its own (R136 to R156, R65, R67). -/

namespace Sys2Proof.Machine

open Sys2Proof

/-- VADD (R140). -/
def execVadd (c : Bool) (k : BitVec 2) (vs2 vs1 vd : BitVec 7) (s : State) : Out :=
  convoyAlone (.vadd c k vs2 vs1 vd) s

/-- VSUB (R140). -/
def execVsub (c : Bool) (k : BitVec 2) (vs2 vs1 vd : BitVec 7) (s : State) : Out :=
  convoyAlone (.vsub c k vs2 vs1 vd) s

/-- VMUL (R140). -/
def execVmul (c : Bool) (k : BitVec 2) (vs2 vs1 vd : BitVec 7) (s : State) : Out :=
  convoyAlone (.vmul c k vs2 vs1 vd) s

/-- VMULH (R140). -/
def execVmulh (c : Bool) (k : BitVec 2) (vs2 vs1 vd : BitVec 7) (s : State) : Out :=
  convoyAlone (.vmulh c k vs2 vs1 vd) s

/-- VMULHU (R140). -/
def execVmulhu (c : Bool) (k : BitVec 2) (vs2 vs1 vd : BitVec 7) (s : State) : Out :=
  convoyAlone (.vmulhu c k vs2 vs1 vd) s

/-- VMAC (R140). -/
def execVmac (c : Bool) (k : BitVec 2) (vs2 vs1 vd : BitVec 7) (s : State) : Out :=
  convoyAlone (.vmac c k vs2 vs1 vd) s

/-- VMIN (R140). -/
def execVmin (c : Bool) (k : BitVec 2) (vs2 vs1 vd : BitVec 7) (s : State) : Out :=
  convoyAlone (.vmin c k vs2 vs1 vd) s

/-- VMAX (R140). -/
def execVmax (c : Bool) (k : BitVec 2) (vs2 vs1 vd : BitVec 7) (s : State) : Out :=
  convoyAlone (.vmax c k vs2 vs1 vd) s

/-- VMINU (R140). -/
def execVminu (c : Bool) (k : BitVec 2) (vs2 vs1 vd : BitVec 7) (s : State) : Out :=
  convoyAlone (.vminu c k vs2 vs1 vd) s

/-- VMAXU (R140). -/
def execVmaxu (c : Bool) (k : BitVec 2) (vs2 vs1 vd : BitVec 7) (s : State) : Out :=
  convoyAlone (.vmaxu c k vs2 vs1 vd) s

/-- VAND (R140). -/
def execVand (c : Bool) (k : BitVec 2) (vs2 vs1 vd : BitVec 7) (s : State) : Out :=
  convoyAlone (.vand c k vs2 vs1 vd) s

/-- VOR (R140). -/
def execVor (c : Bool) (k : BitVec 2) (vs2 vs1 vd : BitVec 7) (s : State) : Out :=
  convoyAlone (.vor c k vs2 vs1 vd) s

/-- VXOR (R140). -/
def execVxor (c : Bool) (k : BitVec 2) (vs2 vs1 vd : BitVec 7) (s : State) : Out :=
  convoyAlone (.vxor c k vs2 vs1 vd) s

/-- VSLL (R140). -/
def execVsll (c : Bool) (k : BitVec 2) (vs2 vs1 vd : BitVec 7) (s : State) : Out :=
  convoyAlone (.vsll c k vs2 vs1 vd) s

/-- VSRL (R140). -/
def execVsrl (c : Bool) (k : BitVec 2) (vs2 vs1 vd : BitVec 7) (s : State) : Out :=
  convoyAlone (.vsrl c k vs2 vs1 vd) s

/-- VSRA (R140). -/
def execVsra (c : Bool) (k : BitVec 2) (vs2 vs1 vd : BitVec 7) (s : State) : Out :=
  convoyAlone (.vsra c k vs2 vs1 vd) s

/-- VSADD (R140). -/
def execVsadd (c : Bool) (k : BitVec 2) (vs2 vs1 vd : BitVec 7) (s : State) : Out :=
  convoyAlone (.vsadd c k vs2 vs1 vd) s

/-- VSADDU (R140). -/
def execVsaddu (c : Bool) (k : BitVec 2) (vs2 vs1 vd : BitVec 7) (s : State) : Out :=
  convoyAlone (.vsaddu c k vs2 vs1 vd) s

/-- VSSUB (R140). -/
def execVssub (c : Bool) (k : BitVec 2) (vs2 vs1 vd : BitVec 7) (s : State) : Out :=
  convoyAlone (.vssub c k vs2 vs1 vd) s

/-- VSSUBU (R140). -/
def execVssubu (c : Bool) (k : BitVec 2) (vs2 vs1 vd : BitVec 7) (s : State) : Out :=
  convoyAlone (.vssubu c k vs2 vs1 vd) s

/-- VFADD (R141). -/
def execVfadd (c : Bool) (k : BitVec 2) (vs2 vs1 vd : BitVec 7) (s : State) : Out :=
  convoyAlone (.vfadd c k vs2 vs1 vd) s

/-- VFSUB (R141). -/
def execVfsub (c : Bool) (k : BitVec 2) (vs2 vs1 vd : BitVec 7) (s : State) : Out :=
  convoyAlone (.vfsub c k vs2 vs1 vd) s

/-- VFMUL (R141). -/
def execVfmul (c : Bool) (k : BitVec 2) (vs2 vs1 vd : BitVec 7) (s : State) : Out :=
  convoyAlone (.vfmul c k vs2 vs1 vd) s

/-- VFDIV (R141). -/
def execVfdiv (c : Bool) (k : BitVec 2) (vs2 vs1 vd : BitVec 7) (s : State) : Out :=
  convoyAlone (.vfdiv c k vs2 vs1 vd) s

/-- VFMIN (R142). -/
def execVfmin (c : Bool) (k : BitVec 2) (vs2 vs1 vd : BitVec 7) (s : State) : Out :=
  convoyAlone (.vfmin c k vs2 vs1 vd) s

/-- VFMAX (R142). -/
def execVfmax (c : Bool) (k : BitVec 2) (vs2 vs1 vd : BitVec 7) (s : State) : Out :=
  convoyAlone (.vfmax c k vs2 vs1 vd) s

/-- VFMA (R141). -/
def execVfma (c : Bool) (k : BitVec 2) (vs2 vs1 vd : BitVec 7) (s : State) : Out :=
  convoyAlone (.vfma c k vs2 vs1 vd) s

/-- VFMS (R141). -/
def execVfms (c : Bool) (k : BitVec 2) (vs2 vs1 vd : BitVec 7) (s : State) : Out :=
  convoyAlone (.vfms c k vs2 vs1 vd) s

/-- VFNMA (R141). -/
def execVfnma (c : Bool) (k : BitVec 2) (vs2 vs1 vd : BitVec 7) (s : State) : Out :=
  convoyAlone (.vfnma c k vs2 vs1 vd) s

/-- VFSQRT (R143). -/
def execVfsqrt (c : Bool) (k : BitVec 2) (vs vd : BitVec 7) (s : State) : Out :=
  convoyAlone (.vfsqrt c k vs vd) s

/-- VFRCP (R143). -/
def execVfrcp (c : Bool) (k : BitVec 2) (vs vd : BitVec 7) (s : State) : Out :=
  convoyAlone (.vfrcp c k vs vd) s

/-- VFRSQ (R143). -/
def execVfrsq (c : Bool) (k : BitVec 2) (vs vd : BitVec 7) (s : State) : Out :=
  convoyAlone (.vfrsq c k vs vd) s

/-- VFEXP2 (R143). -/
def execVfexp2 (c : Bool) (k : BitVec 2) (vs vd : BitVec 7) (s : State) : Out :=
  convoyAlone (.vfexp2 c k vs vd) s

/-- VFCLASS (R144). -/
def execVfclass (c : Bool) (k : BitVec 2) (vs vd : BitVec 7) (s : State) : Out :=
  convoyAlone (.vfclass c k vs vd) s

/-- VCMP (R145). -/
def execVcmp (c : Bool) (k : BitVec 2) (vs2 vs1 : BitVec 7) (cond : BitVec 4) (kd : BitVec 3) (s : State) : Out :=
  convoyAlone (.vcmp c k vs2 vs1 cond kd) s

/-- VFCMP (R145). -/
def execVfcmp (c : Bool) (k : BitVec 2) (vs2 vs1 : BitVec 7) (cond : BitVec 4) (kd : BitVec 3) (s : State) : Out :=
  convoyAlone (.vfcmp c k vs2 vs1 cond kd) s

/-- KAND (R146). -/
def execKand (c : Bool) (kd ks1 ks2 : BitVec 3) (s : State) : Out :=
  convoyAlone (.kand c kd ks1 ks2) s

/-- KOR (R146). -/
def execKor (c : Bool) (kd ks1 ks2 : BitVec 3) (s : State) : Out :=
  convoyAlone (.kor c kd ks1 ks2) s

/-- KXOR (R146). -/
def execKxor (c : Bool) (kd ks1 ks2 : BitVec 3) (s : State) : Out :=
  convoyAlone (.kxor c kd ks1 ks2) s

/-- KANDN (R146). -/
def execKandn (c : Bool) (kd ks1 ks2 : BitVec 3) (s : State) : Out :=
  convoyAlone (.kandn c kd ks1 ks2) s

/-- KNOT (R146). -/
def execKnot (c : Bool) (kd ks1 : BitVec 3) (s : State) : Out :=
  convoyAlone (.knot c kd ks1) s

/-- KMOV (R146). -/
def execKmov (c : Bool) (kd ks1 : BitVec 3) (s : State) : Out :=
  convoyAlone (.kmov c kd ks1) s

/-- KPOP (R147). -/
def execKpop (c : Bool) (rd : BitVec 5) (ks : BitVec 3) (s : State) : Out :=
  convoyAlone (.kpop c rd ks) s

/-- KFIRST (R147). -/
def execKfirst (c : Bool) (rd : BitVec 5) (ks : BitVec 3) (s : State) : Out :=
  convoyAlone (.kfirst c rd ks) s

/-- VMV (R148). -/
def execVmv (c : Bool) (k : BitVec 2) (vs vd : BitVec 7) (s : State) : Out :=
  convoyAlone (.vmv c k vs vd) s

/-- VID (R148). -/
def execVid (c : Bool) (k : BitVec 2) (vd : BitVec 7) (s : State) : Out :=
  convoyAlone (.vid c k vd) s

/-- VBCAST (R148). -/
def execVbcast (c : Bool) (gs : BitVec 5) (vs vd : BitVec 7) (s : State) : Out :=
  convoyAlone (.vbcast c gs vs vd) s

/-- VEXT (R150). -/
def execVext (c : Bool) (gs : BitVec 5) (vs : BitVec 7) (rd : BitVec 5) (s : State) : Out :=
  convoyAlone (.vext c gs vs rd) s

/-- VINS (R150). -/
def execVins (c : Bool) (gs : BitVec 5) (vs vd : BitVec 7) (s : State) : Out :=
  convoyAlone (.vins c gs vs vd) s

/-- VSLUP (R151). -/
def execVslup (c : Bool) (gs : BitVec 5) (vs vd : BitVec 7) (s : State) : Out :=
  convoyAlone (.vslup c gs vs vd) s

/-- VSLDN (R151). -/
def execVsldn (c : Bool) (gs : BitVec 5) (vs vd : BitVec 7) (s : State) : Out :=
  convoyAlone (.vsldn c gs vs vd) s

/-- VPERM (R152). -/
def execVperm (c : Bool) (k : BitVec 2) (vs2 vs1 vd : BitVec 7) (s : State) : Out :=
  convoyAlone (.vperm c k vs2 vs1 vd) s

/-- VCOMPRESS (R153). -/
def execVcompress (c : Bool) (k : BitVec 2) (vs vd : BitVec 7) (s : State) : Out :=
  convoyAlone (.vcompress c k vs vd) s

/-- VEXPAND (R153). -/
def execVexpand (c : Bool) (k : BitVec 2) (vs vd : BitVec 7) (s : State) : Out :=
  convoyAlone (.vexpand c k vs vd) s

/-- VMERGE (R154). -/
def execVmerge (c : Bool) (k : BitVec 2) (vs2 vs1 vd : BitVec 7) (s : State) : Out :=
  convoyAlone (.vmerge c k vs2 vs1 vd) s

/-- VREDSUM (R156). -/
def execVredsum (c : Bool) (k : BitVec 2) (vs vd : BitVec 7) (s : State) : Out :=
  convoyAlone (.vredsum c k vs vd) s

/-- VREDMIN (R156). -/
def execVredmin (c : Bool) (k : BitVec 2) (vs vd : BitVec 7) (s : State) : Out :=
  convoyAlone (.vredmin c k vs vd) s

/-- VREDMAX (R156). -/
def execVredmax (c : Bool) (k : BitVec 2) (vs vd : BitVec 7) (s : State) : Out :=
  convoyAlone (.vredmax c k vs vd) s

/-- VREDMINU (R156). -/
def execVredminu (c : Bool) (k : BitVec 2) (vs vd : BitVec 7) (s : State) : Out :=
  convoyAlone (.vredminu c k vs vd) s

/-- VREDMAXU (R156). -/
def execVredmaxu (c : Bool) (k : BitVec 2) (vs vd : BitVec 7) (s : State) : Out :=
  convoyAlone (.vredmaxu c k vs vd) s

/-- VFREDSUM (R107). -/
def execVfredsum (c : Bool) (k : BitVec 2) (vs vd : BitVec 7) (s : State) : Out :=
  convoyAlone (.vfredsum c k vs vd) s

/-- VFREDMIN (R156). -/
def execVfredmin (c : Bool) (k : BitVec 2) (vs vd : BitVec 7) (s : State) : Out :=
  convoyAlone (.vfredmin c k vs vd) s

/-- VFREDMAX (R156). -/
def execVfredmax (c : Bool) (k : BitVec 2) (vs vd : BitVec 7) (s : State) : Out :=
  convoyAlone (.vfredmax c k vs vd) s

/-- VSCAN (R156). -/
def execVscan (c : Bool) (k : BitVec 2) (vs vd : BitVec 7) (s : State) : Out :=
  convoyAlone (.vscan c k vs vd) s

/-- VFSCAN (R108). -/
def execVfscan (c : Bool) (k : BitVec 2) (vs vd : BitVec 7) (s : State) : Out :=
  convoyAlone (.vfscan c k vs vd) s

/-- The 64-bit form with T = 0 of a vector instruction (R65). -/
def execPrefixed64BitForm (c : Bool) (p : Pfx) (b : VBase) (s : State) : Out :=
  convoyAlone (.prefixed64BitForm c p b) s

/-- C.VADD (R67). -/
def execCVadd (os2 os1 od : BitVec 3) (s : State) : Out :=
  convoyAlone (.cVadd os2 os1 od) s

/-- C.VMV (R67). -/
def execCVmv (vs : BitVec 6) (od : BitVec 3) (s : State) : Out :=
  convoyAlone (.cVmv vs od) s

end Sys2Proof.Machine
end

