-- ==== Sys2Proof/Machine/VecMemInsns.lean ====
section
/-! DEFINITION. Vector memory instructions, vector atomics and mutexes, each as a convoy of its own (R247 to R260, R267 to R279). -/

namespace Sys2Proof.Machine

open Sys2Proof

/-- VACQ (R272). -/
def execVacq (c : Bool) (k : BitVec 3) (cls : BitVec 4) (va : BitVec 5) (kd : BitVec 3) (s : State) : Out :=
  convoyAlone (.vacq c k cls va kd) s

/-- VREL (R273). -/
def execVrel (c : Bool) (k : BitVec 3) (cls : BitVec 4) (va : BitVec 5) (s : State) : Out :=
  convoyAlone (.vrel c k cls va) s

/-- VLD (R248). -/
def execVld (c : Bool) (m nb : BitVec 1) (cls : BitVec 4) (aux base : BitVec 5) (spec : BitVec 7) (s : State) : Out :=
  convoyAlone (.vld c m nb cls aux base spec) s

/-- VLDS (R249). -/
def execVlds (c : Bool) (m nb : BitVec 1) (cls : BitVec 4) (aux base : BitVec 5) (spec : BitVec 7) (s : State) : Out :=
  convoyAlone (.vlds c m nb cls aux base spec) s

/-- VLDX (R249). -/
def execVldx (c : Bool) (m nb : BitVec 1) (cls : BitVec 4) (aux base : BitVec 5) (spec : BitVec 7) (s : State) : Out :=
  convoyAlone (.vldx c m nb cls aux base spec) s

/-- VLDFF (R252). -/
def execVldff (c : Bool) (m : BitVec 1) (cls : BitVec 4) (aux base : BitVec 5) (spec : BitVec 7) (s : State) : Out :=
  convoyAlone (.vldff c m cls aux base spec) s

/-- VST (R248). -/
def execVst (c : Bool) (m nb : BitVec 1) (cls : BitVec 4) (aux base : BitVec 5) (spec : BitVec 7) (s : State) : Out :=
  convoyAlone (.vst c m nb cls aux base spec) s

/-- VSTS (R249). -/
def execVsts (c : Bool) (m nb : BitVec 1) (cls : BitVec 4) (aux base : BitVec 5) (spec : BitVec 7) (s : State) : Out :=
  convoyAlone (.vsts c m nb cls aux base spec) s

/-- VSTX (R249). -/
def execVstx (c : Bool) (m nb : BitVec 1) (cls : BitVec 4) (aux base : BitVec 5) (spec : BitVec 7) (s : State) : Out :=
  convoyAlone (.vstx c m nb cls aux base spec) s

/-- VBIND (R254). -/
def execVbind (c : Bool) (cls : BitVec 4) (base : BitVec 5) (spec : BitVec 7) (s : State) : Out :=
  convoyAlone (.vbind c cls base spec) s

/-- VUNBIND (R254). -/
def execVunbind (c : Bool) (cls : BitVec 4) (spec : BitVec 7) (s : State) : Out :=
  convoyAlone (.vunbind c cls spec) s

/-- XCOPY (R259). -/
def execXcopy (c : Bool) (nb : BitVec 1) (cls : BitVec 4) (aux base gn : BitVec 5) (s : State) : Out :=
  convoyAlone (.xcopy c nb cls aux base gn) s

/-- VLDF (R279). -/
def execVldf (c : Bool) (m nb : BitVec 1) (cls : BitVec 4) (aux base : BitVec 5) (spec : BitVec 7) (s : State) : Out :=
  convoyAlone (.vldf c m nb cls aux base spec) s

/-- VSTE (R279). -/
def execVste (c : Bool) (m : BitVec 1) (cls : BitVec 4) (aux base : BitVec 5) (spec : BitVec 7) (s : State) : Out :=
  convoyAlone (.vste c m cls aux base spec) s

/-- VAMO (R268). -/
def execVamo (c : Bool) (op cls : BitVec 4) (va vd vv : BitVec 5) (s : State) : Out :=
  convoyAlone (.vamo c op cls va vd vv) s

/-- VAMO.NB (R270). -/
def execVamoNb (c : Bool) (op cls : BitVec 4) (va vv : BitVec 5) (s : State) : Out :=
  convoyAlone (.vamoNb c op cls va vv) s

end Sys2Proof.Machine
end

