-- ==== Sys2Proof/Machine/Dispatch.lean ====
section
/-! DEFINITION. The dispatch of every instruction and step of the opcode table to its meaning. -/

namespace Sys2Proof.Machine

open Sys2Proof (Instr)

def exec (i : Instr) (s : State) : Host.Outcome State Fault Refusal :=
  match i with
  | .add rd rs1 rs2 => Sys2Proof.Machine.execAdd rd rs1 rs2 s
  | .sub rd rs1 rs2 => Sys2Proof.Machine.execSub rd rs1 rs2 s
  | .and rd rs1 rs2 => Sys2Proof.Machine.execAnd rd rs1 rs2 s
  | .or rd rs1 rs2 => Sys2Proof.Machine.execOr rd rs1 rs2 s
  | .xor rd rs1 rs2 => Sys2Proof.Machine.execXor rd rs1 rs2 s
  | .sll rd rs1 rs2 => Sys2Proof.Machine.execSll rd rs1 rs2 s
  | .srl rd rs1 rs2 => Sys2Proof.Machine.execSrl rd rs1 rs2 s
  | .sra rd rs1 rs2 => Sys2Proof.Machine.execSra rd rs1 rs2 s
  | .slt rd rs1 rs2 => Sys2Proof.Machine.execSlt rd rs1 rs2 s
  | .sltu rd rs1 rs2 => Sys2Proof.Machine.execSltu rd rs1 rs2 s
  | .mul rd rs1 rs2 => Sys2Proof.Machine.execMul rd rs1 rs2 s
  | .mulh rd rs1 rs2 => Sys2Proof.Machine.execMulh rd rs1 rs2 s
  | .mulhu rd rs1 rs2 => Sys2Proof.Machine.execMulhu rd rs1 rs2 s
  | .div rd rs1 rs2 => Sys2Proof.Machine.execDiv rd rs1 rs2 s
  | .divu rd rs1 rs2 => Sys2Proof.Machine.execDivu rd rs1 rs2 s
  | .rem rd rs1 rs2 => Sys2Proof.Machine.execRem rd rs1 rs2 s
  | .remu rd rs1 rs2 => Sys2Proof.Machine.execRemu rd rs1 rs2 s
  | .min rd rs1 rs2 => Sys2Proof.Machine.execMin rd rs1 rs2 s
  | .max rd rs1 rs2 => Sys2Proof.Machine.execMax rd rs1 rs2 s
  | .minu rd rs1 rs2 => Sys2Proof.Machine.execMinu rd rs1 rs2 s
  | .maxu rd rs1 rs2 => Sys2Proof.Machine.execMaxu rd rs1 rs2 s
  | .clz rd rs1 => Sys2Proof.Machine.execClz rd rs1 s
  | .ctz rd rs1 => Sys2Proof.Machine.execCtz rd rs1 s
  | .popc rd rs1 => Sys2Proof.Machine.execPopc rd rs1 s
  | .addi rd rs1 imm => Sys2Proof.Machine.execAddi rd rs1 imm s
  | .andi rd rs1 imm => Sys2Proof.Machine.execAndi rd rs1 imm s
  | .ori rd rs1 imm => Sys2Proof.Machine.execOri rd rs1 imm s
  | .xori rd rs1 imm => Sys2Proof.Machine.execXori rd rs1 imm s
  | .slti rd rs1 imm => Sys2Proof.Machine.execSlti rd rs1 imm s
  | .sltiu rd rs1 imm => Sys2Proof.Machine.execSltiu rd rs1 imm s
  | .slli rd rs1 sh => Sys2Proof.Machine.execSlli rd rs1 sh s
  | .srli rd rs1 sh => Sys2Proof.Machine.execSrli rd rs1 sh s
  | .srai rd rs1 sh => Sys2Proof.Machine.execSrai rd rs1 sh s
  | .lui rd imm => Sys2Proof.Machine.execLui rd imm s
  | .auipc rd imm => Sys2Proof.Machine.execAuipc rd imm s
  | .jal rd imm => Sys2Proof.Machine.execJal rd imm s
  | .jalr rd rs1 imm => Sys2Proof.Machine.execJalr rd rs1 imm s
  | .beq rs1 rs2 imm => Sys2Proof.Machine.execBeq rs1 rs2 imm s
  | .bne rs1 rs2 imm => Sys2Proof.Machine.execBne rs1 rs2 imm s
  | .blt rs1 rs2 imm => Sys2Proof.Machine.execBlt rs1 rs2 imm s
  | .bge rs1 rs2 imm => Sys2Proof.Machine.execBge rs1 rs2 imm s
  | .bltu rs1 rs2 imm => Sys2Proof.Machine.execBltu rs1 rs2 imm s
  | .bgeu rs1 rs2 imm => Sys2Proof.Machine.execBgeu rs1 rs2 imm s
  | .trap code => Sys2Proof.Machine.execTrap code s
  | .sret => Sys2Proof.Machine.execSret s
  | .mret => Sys2Proof.Machine.execMret s
  | .halt => Sys2Proof.Machine.execHalt s
  | .safe idx => Sys2Proof.Machine.execSafe idx s
  | .csrr rd csr => Sys2Proof.Machine.execCsrr rd csr s
  | .csrw rd csr rs1 => Sys2Proof.Machine.execCsrw rd csr rs1 s
  | .csrs rd csr rs1 => Sys2Proof.Machine.execCsrs rd csr rs1 s
  | .csrc rd csr rs1 => Sys2Proof.Machine.execCsrc rd csr rs1 s
  | .lb r base cls imm => Sys2Proof.Machine.execLb r base cls imm s
  | .lh r base cls imm => Sys2Proof.Machine.execLh r base cls imm s
  | .lw r base cls imm => Sys2Proof.Machine.execLw r base cls imm s
  | .ld r base cls imm => Sys2Proof.Machine.execLd r base cls imm s
  | .lbu r base cls imm => Sys2Proof.Machine.execLbu r base cls imm s
  | .lhu r base cls imm => Sys2Proof.Machine.execLhu r base cls imm s
  | .lwu r base cls imm => Sys2Proof.Machine.execLwu r base cls imm s
  | .sb r base cls imm => Sys2Proof.Machine.execSb r base cls imm s
  | .sh r base cls imm => Sys2Proof.Machine.execSh r base cls imm s
  | .sw r base cls imm => Sys2Proof.Machine.execSw r base cls imm s
  | .sd r base cls imm => Sys2Proof.Machine.execSd r base cls imm s
  | .ldf r base cls imm => Sys2Proof.Machine.execLdf r base cls imm s
  | .ldfk r base cls imm => Sys2Proof.Machine.execLdfk r base cls imm s
  | .ste r base cls imm => Sys2Proof.Machine.execSte r base cls imm s
  | .stf r base cls imm => Sys2Proof.Machine.execStf r base cls imm s
  | .amoW rd rs1 rs2 op cls => Sys2Proof.Machine.execAmoW rd rs1 rs2 op cls s
  | .amoD rd rs1 rs2 op cls => Sys2Proof.Machine.execAmoD rd rs1 rs2 op cls s
  | .fence msk scope => Sys2Proof.Machine.execFence msk scope s
  | .feni rd msk => Sys2Proof.Machine.execFeni rd msk s
  | .fenw rs1 => Sys2Proof.Machine.execFenw rs1 s
  | .ccrd rd n => Sys2Proof.Machine.execCcrd rd n s
  | .ccwaitAll n => Sys2Proof.Machine.execCcwaitAll n s
  | .ccwaitGe n rs1 => Sys2Proof.Machine.execCcwaitGe n rs1 s
  | .ccset n rs1 => Sys2Proof.Machine.execCcset n rs1 s
  | .nspawn rd rs1 => Sys2Proof.Machine.execNspawn rd rs1 s
  | .nend => Sys2Proof.Machine.execNend s
  | .nyield => Sys2Proof.Machine.execNyield s
  | .chinit rs1 rs2 cls => Sys2Proof.Machine.execChinit rs1 rs2 cls s
  | .charr rd rs1 rs2 cls => Sys2Proof.Machine.execCharr rd rs1 rs2 cls s
  | .chwait rs1 rs2 cls => Sys2Proof.Machine.execChwait rs1 rs2 cls s
  | .charm rs1 rs2 cls => Sys2Proof.Machine.execCharm rs1 rs2 cls s
  | .vacq c k cls va kd => Sys2Proof.Machine.execVacq c k cls va kd s
  | .vrel c k cls va => Sys2Proof.Machine.execVrel c k cls va s
  | .coll rd rs1 rs2 => Sys2Proof.Machine.execColl rd rs1 rs2 s
  | .collw rd rs1 => Sys2Proof.Machine.execCollw rd rs1 s
  | .rngw rs1 rs2 w => Sys2Proof.Machine.execRngw rs1 rs2 w s
  | .rngr rd rs1 w => Sys2Proof.Machine.execRngr rd rs1 w s
  | .ptinv rs1 rs2 => Sys2Proof.Machine.execPtinv rs1 rs2 s
  | .rrtw rs1 rs2 w => Sys2Proof.Machine.execRrtw rs1 rs2 w s
  | .iltw rs1 rs2 w => Sys2Proof.Machine.execIltw rs1 rs2 w s
  | .winOpen rd rs1 rs2 => Sys2Proof.Machine.execWinOpen rd rs1 rs2 s
  | .winRev rs1 => Sys2Proof.Machine.execWinRev rs1 s
  | .winSync rs1 => Sys2Proof.Machine.execWinSync rs1 s
  | .mtrrd rd meter => Sys2Proof.Machine.execMtrrd rd meter s
  | .vsetvl rd rs1 rs2 => Sys2Proof.Machine.execVsetvl rd rs1 rs2 s
  | .vsetvli rd rs1 imm => Sys2Proof.Machine.execVsetvli rd rs1 imm s
  | .vadd c k vs2 vs1 vd => Sys2Proof.Machine.execVadd c k vs2 vs1 vd s
  | .vsub c k vs2 vs1 vd => Sys2Proof.Machine.execVsub c k vs2 vs1 vd s
  | .vmul c k vs2 vs1 vd => Sys2Proof.Machine.execVmul c k vs2 vs1 vd s
  | .vmulh c k vs2 vs1 vd => Sys2Proof.Machine.execVmulh c k vs2 vs1 vd s
  | .vmulhu c k vs2 vs1 vd => Sys2Proof.Machine.execVmulhu c k vs2 vs1 vd s
  | .vmac c k vs2 vs1 vd => Sys2Proof.Machine.execVmac c k vs2 vs1 vd s
  | .vmin c k vs2 vs1 vd => Sys2Proof.Machine.execVmin c k vs2 vs1 vd s
  | .vmax c k vs2 vs1 vd => Sys2Proof.Machine.execVmax c k vs2 vs1 vd s
  | .vminu c k vs2 vs1 vd => Sys2Proof.Machine.execVminu c k vs2 vs1 vd s
  | .vmaxu c k vs2 vs1 vd => Sys2Proof.Machine.execVmaxu c k vs2 vs1 vd s
  | .vand c k vs2 vs1 vd => Sys2Proof.Machine.execVand c k vs2 vs1 vd s
  | .vor c k vs2 vs1 vd => Sys2Proof.Machine.execVor c k vs2 vs1 vd s
  | .vxor c k vs2 vs1 vd => Sys2Proof.Machine.execVxor c k vs2 vs1 vd s
  | .vsll c k vs2 vs1 vd => Sys2Proof.Machine.execVsll c k vs2 vs1 vd s
  | .vsrl c k vs2 vs1 vd => Sys2Proof.Machine.execVsrl c k vs2 vs1 vd s
  | .vsra c k vs2 vs1 vd => Sys2Proof.Machine.execVsra c k vs2 vs1 vd s
  | .vsadd c k vs2 vs1 vd => Sys2Proof.Machine.execVsadd c k vs2 vs1 vd s
  | .vsaddu c k vs2 vs1 vd => Sys2Proof.Machine.execVsaddu c k vs2 vs1 vd s
  | .vssub c k vs2 vs1 vd => Sys2Proof.Machine.execVssub c k vs2 vs1 vd s
  | .vssubu c k vs2 vs1 vd => Sys2Proof.Machine.execVssubu c k vs2 vs1 vd s
  | .vfadd c k vs2 vs1 vd => Sys2Proof.Machine.execVfadd c k vs2 vs1 vd s
  | .vfsub c k vs2 vs1 vd => Sys2Proof.Machine.execVfsub c k vs2 vs1 vd s
  | .vfmul c k vs2 vs1 vd => Sys2Proof.Machine.execVfmul c k vs2 vs1 vd s
  | .vfdiv c k vs2 vs1 vd => Sys2Proof.Machine.execVfdiv c k vs2 vs1 vd s
  | .vfmin c k vs2 vs1 vd => Sys2Proof.Machine.execVfmin c k vs2 vs1 vd s
  | .vfmax c k vs2 vs1 vd => Sys2Proof.Machine.execVfmax c k vs2 vs1 vd s
  | .vfma c k vs2 vs1 vd => Sys2Proof.Machine.execVfma c k vs2 vs1 vd s
  | .vfms c k vs2 vs1 vd => Sys2Proof.Machine.execVfms c k vs2 vs1 vd s
  | .vfnma c k vs2 vs1 vd => Sys2Proof.Machine.execVfnma c k vs2 vs1 vd s
  | .vfsqrt c k vs vd => Sys2Proof.Machine.execVfsqrt c k vs vd s
  | .vfrcp c k vs vd => Sys2Proof.Machine.execVfrcp c k vs vd s
  | .vfrsq c k vs vd => Sys2Proof.Machine.execVfrsq c k vs vd s
  | .vfexp2 c k vs vd => Sys2Proof.Machine.execVfexp2 c k vs vd s
  | .vfclass c k vs vd => Sys2Proof.Machine.execVfclass c k vs vd s
  | .vcmp c k vs2 vs1 cond kd => Sys2Proof.Machine.execVcmp c k vs2 vs1 cond kd s
  | .vfcmp c k vs2 vs1 cond kd => Sys2Proof.Machine.execVfcmp c k vs2 vs1 cond kd s
  | .kand c kd ks1 ks2 => Sys2Proof.Machine.execKand c kd ks1 ks2 s
  | .kor c kd ks1 ks2 => Sys2Proof.Machine.execKor c kd ks1 ks2 s
  | .kxor c kd ks1 ks2 => Sys2Proof.Machine.execKxor c kd ks1 ks2 s
  | .kandn c kd ks1 ks2 => Sys2Proof.Machine.execKandn c kd ks1 ks2 s
  | .knot c kd ks1 => Sys2Proof.Machine.execKnot c kd ks1 s
  | .kmov c kd ks1 => Sys2Proof.Machine.execKmov c kd ks1 s
  | .kpop c rd ks => Sys2Proof.Machine.execKpop c rd ks s
  | .kfirst c rd ks => Sys2Proof.Machine.execKfirst c rd ks s
  | .vmv c k vs vd => Sys2Proof.Machine.execVmv c k vs vd s
  | .vid c k vd => Sys2Proof.Machine.execVid c k vd s
  | .vbcast c gs vs vd => Sys2Proof.Machine.execVbcast c gs vs vd s
  | .vext c gs vs rd => Sys2Proof.Machine.execVext c gs vs rd s
  | .vins c gs vs vd => Sys2Proof.Machine.execVins c gs vs vd s
  | .vslup c gs vs vd => Sys2Proof.Machine.execVslup c gs vs vd s
  | .vsldn c gs vs vd => Sys2Proof.Machine.execVsldn c gs vs vd s
  | .vperm c k vs2 vs1 vd => Sys2Proof.Machine.execVperm c k vs2 vs1 vd s
  | .vcompress c k vs vd => Sys2Proof.Machine.execVcompress c k vs vd s
  | .vexpand c k vs vd => Sys2Proof.Machine.execVexpand c k vs vd s
  | .vmerge c k vs2 vs1 vd => Sys2Proof.Machine.execVmerge c k vs2 vs1 vd s
  | .vredsum c k vs vd => Sys2Proof.Machine.execVredsum c k vs vd s
  | .vredmin c k vs vd => Sys2Proof.Machine.execVredmin c k vs vd s
  | .vredmax c k vs vd => Sys2Proof.Machine.execVredmax c k vs vd s
  | .vredminu c k vs vd => Sys2Proof.Machine.execVredminu c k vs vd s
  | .vredmaxu c k vs vd => Sys2Proof.Machine.execVredmaxu c k vs vd s
  | .vfredsum c k vs vd => Sys2Proof.Machine.execVfredsum c k vs vd s
  | .vfredmin c k vs vd => Sys2Proof.Machine.execVfredmin c k vs vd s
  | .vfredmax c k vs vd => Sys2Proof.Machine.execVfredmax c k vs vd s
  | .vscan c k vs vd => Sys2Proof.Machine.execVscan c k vs vd s
  | .vfscan c k vs vd => Sys2Proof.Machine.execVfscan c k vs vd s
  | .vcvt c sat sfmt dfmt vs vd => Sys2Proof.Machine.execVcvt c sat sfmt dfmt vs vd s
  | .vquant c sfmt qfmt vs vd => Sys2Proof.Machine.execVquant c sfmt qfmt vs vd s
  | .vqsc c sfmt qfmt vs vd => Sys2Proof.Machine.execVqsc c sfmt qfmt vs vd s
  | .vdeq c qfmt dfmt vs vd => Sys2Proof.Machine.execVdeq c qfmt dfmt vs vd s
  | .vhad c j vs vd => Sys2Proof.Machine.execVhad c j vs vd s
  | .vpack c pfmt vs vd => Sys2Proof.Machine.execVpack c pfmt vs vd s
  | .vunpack c pfmt vs vd => Sys2Proof.Machine.execVunpack c pfmt vs vd s
  | .vld c m nb cls aux base spec => Sys2Proof.Machine.execVld c m nb cls aux base spec s
  | .vlds c m nb cls aux base spec => Sys2Proof.Machine.execVlds c m nb cls aux base spec s
  | .vldx c m nb cls aux base spec => Sys2Proof.Machine.execVldx c m nb cls aux base spec s
  | .vldff c m cls aux base spec => Sys2Proof.Machine.execVldff c m cls aux base spec s
  | .vst c m nb cls aux base spec => Sys2Proof.Machine.execVst c m nb cls aux base spec s
  | .vsts c m nb cls aux base spec => Sys2Proof.Machine.execVsts c m nb cls aux base spec s
  | .vstx c m nb cls aux base spec => Sys2Proof.Machine.execVstx c m nb cls aux base spec s
  | .vbind c cls base spec => Sys2Proof.Machine.execVbind c cls base spec s
  | .vunbind c cls spec => Sys2Proof.Machine.execVunbind c cls spec s
  | .xcopy c nb cls aux base gn => Sys2Proof.Machine.execXcopy c nb cls aux base gn s
  | .vldf c m nb cls aux base spec => Sys2Proof.Machine.execVldf c m nb cls aux base spec s
  | .vste c m cls aux base spec => Sys2Proof.Machine.execVste c m cls aux base spec s
  | .vamo c op cls va vd vv => Sys2Proof.Machine.execVamo c op cls va vd vv s
  | .vamoNb c op cls va vv => Sys2Proof.Machine.execVamoNb c op cls va vv s
  | .prefixed64BitForm c p b => Sys2Proof.Machine.execPrefixed64BitForm c p b s
  | .tzero c t => Sys2Proof.Machine.execTzero c t s
  | .tld c k dir t gi gb cls => Sys2Proof.Machine.execTld c k dir t gi gb cls s
  | .tst c k dir t gi gb cls => Sys2Proof.Machine.execTst c k dir t gi gb cls s
  | .trd c k dir t gi spec => Sys2Proof.Machine.execTrd c k dir t gi spec s
  | .twr c k dir t gi spec => Sys2Proof.Machine.execTwr c k dir t gi spec s
  | .tdrain c k clamp scale dir t gi spec fmt => Sys2Proof.Machine.execTdrain c k clamp scale dir t gi spec fmt s
  | .tdrainBp c k clamp scale dir t gi spec fmt => Sys2Proof.Machine.execTdrainBp c k clamp scale dir t gi spec fmt s
  | .bld c gb gi cls => Sys2Proof.Machine.execBld c gb gi cls s
  | .bldW c gb gi cls => Sys2Proof.Machine.execBldW c gb gi cls s
  | .binv c gb gi => Sys2Proof.Machine.execBinv c gb gi s
  | .mcfg c gi => Sys2Proof.Machine.execMcfg c gi s
  | .mopa c k om t spec gb => Sys2Proof.Machine.execMopa c k om t spec gb s
  | .mipa c k om t gi spec gb => Sys2Proof.Machine.execMipa c k om t gi spec gb s
  | .mrwa c k om t gi spec gb => Sys2Proof.Machine.execMrwa c k om t gi spec gb s
  | .mrws c k om t gi spec gb => Sys2Proof.Machine.execMrws c k om t gi spec gb s
  | .cAddi rd imm => Sys2Proof.Machine.execCAddi rd imm s
  | .cLi rd imm => Sys2Proof.Machine.execCLi rd imm s
  | .cMv rd rs => Sys2Proof.Machine.execCMv rd rs s
  | .cAdd rd rs => Sys2Proof.Machine.execCAdd rd rs s
  | .cSlli rd sh => Sys2Proof.Machine.execCSlli rd sh s
  | .cLd rd off => Sys2Proof.Machine.execCLd rd off s
  | .cSd rs off => Sys2Proof.Machine.execCSd rs off s
  | .cJ imm => Sys2Proof.Machine.execCJ imm s
  | .cJr rs => Sys2Proof.Machine.execCJr rs s
  | .cBeqz rs imm => Sys2Proof.Machine.execCBeqz rs imm s
  | .cBnez rs imm => Sys2Proof.Machine.execCBnez rs imm s
  | .cNop => Sys2Proof.Machine.execCNop s
  | .cSafe idx => Sys2Proof.Machine.execCSafe idx s
  | .cCcwait n => Sys2Proof.Machine.execCCcwait n s
  | .cVadd os2 os1 od => Sys2Proof.Machine.execCVadd os2 os1 od s
  | .cVmv vs od => Sys2Proof.Machine.execCVmv vs od s
  | .commitUnit h => Sys2Proof.Machine.execCommitUnit h s
  | .mpipeAccept h => Sys2Proof.Machine.execMpipeAccept h s
  | .maxvlChange core => Sys2Proof.Machine.execMaxvlChange core s
  | .laneStallEnd core => Sys2Proof.Machine.execLaneStallEnd core s
  | .nbElementComplete h op e => Sys2Proof.Machine.execNbElementComplete h op e s
  | .loadDataReturn h => Sys2Proof.Machine.execLoadDataReturn h s
  | .remoteRequestApply req => Sys2Proof.Machine.execRemoteRequestApply req s
  | .replicaInvalidate line die => Sys2Proof.Machine.execReplicaInvalidate line die s
  | .collapseAck line die => Sys2Proof.Machine.execCollapseAck line die s
  | .generationBounce req => Sys2Proof.Machine.execGenerationBounce req s
  | .windowLineInvalidate die entry => Sys2Proof.Machine.execWindowLineInvalidate die entry s
  | .combiningBufferSend h n => Sys2Proof.Machine.execCombiningBufferSend h n s
  | .fenceTokenComplete h => Sys2Proof.Machine.execFenceTokenComplete h s
  | .pageRequestRetry md n => Sys2Proof.Machine.execPageRequestRetry md n s
  | .hostPageAnswer md req gen status => Sys2Proof.Machine.execHostPageAnswer md req gen status s
  | .sideLogReplay core => Sys2Proof.Machine.execSideLogReplay core s
  | .replayQueueRead core n => Sys2Proof.Machine.execReplayQueueRead core n s
  | .translationInvalidationMessage md ipa val => Sys2Proof.Machine.execTranslationInvalidationMessage md ipa val s
  | .tlbInvalidate inv die => Sys2Proof.Machine.execTlbInvalidate inv die s
  | .hostAccess md owner write ipa size data => Sys2Proof.Machine.execHostAccess md owner write ipa size data s
  | .hostAtomic md owner op ipa size a cmp => Sys2Proof.Machine.execHostAtomic md owner op ipa size a cmp s
  | .tagRecordRetry h => Sys2Proof.Machine.execTagRecordRetry h s
  | .tagWaitTimeout h op e => Sys2Proof.Machine.execTagWaitTimeout h op e s
  | .chamberWaitTimeout h => Sys2Proof.Machine.execChamberWaitTimeout h s
  | .triggerCopySegment die n => Sys2Proof.Machine.execTriggerCopySegment die n s
  | .launchWindowWrite md owner off size data => Sys2Proof.Machine.execLaunchWindowWrite md owner off size data s
  | .launchParse md owner slot => Sys2Proof.Machine.execLaunchParse md owner slot s
  | .spillAdmission md => Sys2Proof.Machine.execSpillAdmission md s
  | .dispatchDecision die => Sys2Proof.Machine.execDispatchDecision die s
  | .nodePlacement die => Sys2Proof.Machine.execNodePlacement die s
  | .safelimExpiry h => Sys2Proof.Machine.execSafelimExpiry h s
  | .saveComplete md node => Sys2Proof.Machine.execSaveComplete md node s
  | .partitionSuspend die => Sys2Proof.Machine.execPartitionSuspend die s
  | .partitionResume die => Sys2Proof.Machine.execPartitionResume die s
  | .partitionKill die => Sys2Proof.Machine.execPartitionKill die s
  | .hostKill md owner => Sys2Proof.Machine.execHostKill md owner s
  | .killTeardown md owner => Sys2Proof.Machine.execKillTeardown md owner s
  | .contextOpen md owner parts => Sys2Proof.Machine.execContextOpen md owner parts s
  | .contextStart md owner => Sys2Proof.Machine.execContextStart md owner s
  | .overflowSizeWrite die val => Sys2Proof.Machine.execOverflowSizeWrite die val s
  | .controlHartRestart die val => Sys2Proof.Machine.execControlHartRestart die val s
  | .controlRegisterWrite die off size val => Sys2Proof.Machine.execControlRegisterWrite die off size val s
  | .peerTableWrite md owner val => Sys2Proof.Machine.execPeerTableWrite md owner val s
  | .routeTableWrite die dest val => Sys2Proof.Machine.execRouteTableWrite die dest val s
  | .keyStage src dst key salt => Sys2Proof.Machine.execKeyStage src dst key salt s
  | .channelClear src dst plane => Sys2Proof.Machine.execChannelClear src dst plane s
  | .packetTransmit src dst plane => Sys2Proof.Machine.execPacketTransmit src dst plane s
  | .packetAccept src dst plane good => Sys2Proof.Machine.execPacketAccept src dst plane good s
  | .packetNak src dst plane => Sys2Proof.Machine.execPacketNak src dst plane s
  | .flowPlaneMove flow => Sys2Proof.Machine.execFlowPlaneMove flow s
  | .packetAgeTick die => Sys2Proof.Machine.execPacketAgeTick die s
  | .unreachableDrop src dst => Sys2Proof.Machine.execUnreachableDrop src dst s
  | .responseTimeout h => Sys2Proof.Machine.execResponseTimeout h s
  | .sequencerStep die q => Sys2Proof.Machine.execSequencerStep die q s
  | .seqChunkArrival die q => Sys2Proof.Machine.execSeqChunkArrival die q s
  | .seqCredit die q => Sys2Proof.Machine.execSeqCredit die q s
  | .seqDataStepComplete die q => Sys2Proof.Machine.execSeqDataStepComplete die q s
  | .lossNotice die q n => Sys2Proof.Machine.execLossNotice die q n s
  | .gangPauseRequest die q => Sys2Proof.Machine.execGangPauseRequest die q s
  | .gangPauseAnswer die q n => Sys2Proof.Machine.execGangPauseAnswer die q n s
  | .gangPauseTarget die q n => Sys2Proof.Machine.execGangPauseTarget die q n s
  | .gangResume die q => Sys2Proof.Machine.execGangResume die q s
  | .targetedSelfTest die row => Sys2Proof.Machine.execTargetedSelfTest die row s
  | .selfTestComplete die row passed => Sys2Proof.Machine.execSelfTestComplete die row passed s
  | .sharedSramShrink die => Sys2Proof.Machine.execSharedSramShrink die s
  | .meterFold die energy => Sys2Proof.Machine.execMeterFold die energy s
  | .snapshotRequest md owner => Sys2Proof.Machine.execSnapshotRequest md owner s
  | .snapshotForm md owner => Sys2Proof.Machine.execSnapshotForm md owner s
  | .attestationRequest md nonce => Sys2Proof.Machine.execAttestationRequest md nonce s
  | .powerOn md => Sys2Proof.Machine.execPowerOn md s
  | .bringupStepDone md entry failed die => Sys2Proof.Machine.execBringupStepDone md entry failed die s
  | .bringupStepTimeout md failed => Sys2Proof.Machine.execBringupStepTimeout md failed s
  | .dieReset die => Sys2Proof.Machine.execDieReset die s
  | .thermalEvent die temp => Sys2Proof.Machine.execThermalEvent die temp s
  | .clockRaise die => Sys2Proof.Machine.execClockRaise die s
  | .fieldServiceCommand die => Sys2Proof.Machine.execFieldServiceCommand die s
  | .packetAcknowledgement src dst plane => Sys2Proof.Machine.execPacketAcknowledgement src dst plane s

end Sys2Proof.Machine
end

