-- ==== Sys2Proof/Machine/Turns.lean ====
section
/-! DEFINITION. The turns of a step: a hart's, a cycle of a die, and the happenings that no row of the opcode table names (log 1,
log 12). -/

namespace Sys2Proof.Machine

open Sys2Proof

/-- A fetch fault at a hart's pc: a double fault on the first handler instruction (R328), else a trap that keeps epos (R25,
R41). -/
def fetchTrap (s : State) (h : Nat) (c : Cause) (va : Word) : State :=
  let x := s.hart h
  if x.entering then s.doubleFault h else s.trapAt h ⟨c, va⟩ x.pc x.c.epos

/-- The hart waits at its pc, its convoy not started. -/
def waitAtPc (s : State) (h : Nat) (w : Why) : State := s.modHart h fun x => { x with hold := some ⟨w, none⟩, ready := none }

/-- The hart has been told that what it waited for at the start of its convoy is lost (log 32). -/
def toldLost (w : Hold) : Bool :=
  match w.why with
  | .pageFailed _ | .remoteFailed _ => true
  | _ => false

/-- Form and start the convoy whose first instruction has been fetched, when its pipes are free (R18); with go it runs, else its
units are left to COMMIT_UNIT steps. -/
def beginConvoy (s : State) (h : Nat) (first : Slot) (go : Bool) : Out :=
  match fetchConvoy h (2 ^ 57) (first.pc + first.len) [first] s with
  | .trap s c va => .next (s.trapAt h ⟨c, va⟩ (s.hart h).pc (s.hart h).c.epos)
  | .stall s' w => .next (waitAtPc (keepRequests s' s) h w)
  | .ok s ls =>
    let s := s.modHart h fun x => { x with hold := x.hold.filter toldLost, rng := none }
    match startConvoy s h ls with
    | .error (pc, t) => .next (s.trapAt h t pc 0)
    | .ok none => let p := startWait s h ls; .next (waitAtPc p.1 h p.2)
    | .ok (some (s', cv)) =>
      match pipeGate s h (cv.pipes (s.hart h)), pipeGate s' h (cv.pipes (s.hart h)) with
      | (s, true), (s', _) =>
        match ls, first.i, go with
        | [_], some i, true => exec i s
        | _, _, true => .next (runConvoy s' h cv)
        | _, _, false => .next (s'.modHart h fun x => { x with convoy := some cv, opq := queueOf x cv, hold := none })
      | (s, false), _ => .next (s.modHart h fun x => { x with hold := some ⟨.order, none⟩ })

/-- Fetch and execute at the acting hart's pc (R39 to R41). -/
def issue (s : State) (go : Bool) : Out :=
  let h := s.cur
  let pc := s.me.pc
  match fetchInsn s h pc with
  | .trap s c va => .next (fetchTrap s h c va)
  | .stall s' w => .next (waitAtPc (keepRequests s' s) h w)
  | .ok s p =>
    let s := s.modHart h fun x => { x with entering := false }
    let p0 := p.1.setWidth 16
    if convoyParcel p0 && parcelC p0 then beginConvoy s h (slotAt pc p) go
    else match insnOf p.1 with
      | some i => exec i (s.modHart h fun x => { x with hold := none, rng := none })
      | none => .next (s.trap ⟨.illegalInstruction, p.1⟩)

/-- One move of the acting hart. -/
def hartMove (s : State) : Out :=
  let x := s.me
  match x.convoy, x.hold with
  | some cv, _ => .next (convoyOn s s.cur cv fun s cv => runConvoy s s.cur cv)
  | none, some ⟨_, some i⟩ => exec i s
  | none, _ => issue s true

/-! A cycle of a die (R38). -/

/-- Owners with a node on a hart of a core (R371). -/
def coreOwners (s : State) (c : Nat) : List Nat :=
  ([2 * c, 2 * c + 1].filterMap fun h =>
    let x := s.hart h
    if x.node.isSome && (x.st == .run || x.st == .park) then some (ctxOwner x.c.ctxid) else none).eraseDups

/-- Meter 6 of a core for one cycle; a core without an owner counts for owner 0 (R371, R373). -/
def meterCore (d : Nat) (s : State) (i : Nat) : State :=
  match coreOwners s (d * 64 + i) with
  | [] => s.setDie d { s.die d with idleC := (s.die d).idleC + 1 }
  | os => os.foldl (fun s o => s.charge d o 6 1) s

/-- Meter 0 of an owner for one cycle: a free count, at most five pipes of 48 cores (R371; log 14). -/
def meterFree (d : Nat) (s : State) (o : Nat) : State := (s.charge d o 0 (Config.freeCount s.fresh % 241)).draw

/-- Owners with a node on a die. -/
def dieOwners (s : State) (d : Nat) : List Nat := ((List.range 48).flatMap fun i => coreOwners s (d * 64 + i)).eraseDups

/-- A hart's cycle register counts (R90). -/
def cycleHart (d : Nat) (p : Nat × Hart) : Nat × Hart :=
  if hartDie p.1 = d && (p.2.st == .run || p.2.st == .park) then (p.1, { p.2 with c := { p.2.c with cycle := p.2.c.cycle + 1 } })
  else p

/-- A lane stall runs down to its last cycle (R86). -/
def stallCore (d : Nat) (p : Nat × CoreSt) : Nat × CoreSt :=
  if p.1 / 64 = d && 1 < p.2.stall then (p.1, { p.2 with stall := p.2.stall - 1 }) else p

/-- A packet in a queue of the die waits (R309). -/
def waitChan (d : Nat) (c : Nat × Channel) : Nat × Channel :=
  if c.1 / 512 = d then (c.1, { c.2 with queue := c.2.queue.map fun (p : Packet) => { p with wait := p.wait + 1 } }) else c

/-- A request at the input arbiter of the die waits (R309). -/
def waitReq (d : Nat) (q : Req) : Req := if q.dst = d then { q with wait := q.wait + 1 } else q

/-- A revoked window comes nearer its bound (R209). -/
def closingWin (p : Nat × Window) : Nat × Window := (p.1, { p.2 with closing := p.2.closing.map (· + 1) })

/-- Windows whose bound of 4096 cycles has come. -/
def windowsDue (x : Die) : List Nat := (x.windows.filter fun p => match p.2.closing with | some n => 4096 ≤ n | none => false).map (·.1)

/-- A fold that the end of the last period made due is made before the next cycle counts (R372). -/
def foldNow (s : State) (d : Nat) : State :=
  if (s.die d).foldDue then
    ((s.setDie d { s.die d with foldDue := false }).fold d (Config.freeCount s.fresh)).draw
  else s

/-- One cycle of a die's clock (log 12). -/
def tickDie (s : State) (d : Nat) : State :=
  let s := (List.range 48).foldl (meterCore d) (foldNow s d)
  let s := (dieOwners s d).foldl (meterFree d) s
  let s := { s with
    harts := s.harts.map (cycleHart d), cores := s.cores.map (stallCore d), chans := s.chans.map (waitChan d)
    arrived := s.arrived.map (waitReq d) }
  let x := s.die d
  let s := s.setDie d { x with
    clk := x.clk + 1, decided := false, windows := x.windows.map closingWin, foldDue := (x.clk + 1) % 2 ^ 16 == 0 }
  (windowsDue (s.die d)).foldl (fun s e => closeLines s d e) s

/-! Turns. -/

/-- The turn of a hart that exists: what it is doing goes on (log 1, log 11). -/
def hartTurn (s : State) (h : Nat) : Out :=
  let s := { s with cur := h }
  let x := s.hart h
  let k := s.core (hartCore h)
  if !(x.st == .run || x.st == .park) then .next s
  else if 1 < k.stall then .next (tickDie s (hartDie h))
  else
    let s := if k.stall = 1 then s.setCore (hartCore h) { k with stall := 0 } else s
    if x.pend.any fun e => e.place == .full then .next s
    else if x.saving.isSome then .next (trySave s h)
    else if x.rebind then .next (rebindHart s h)
    else if limitPassed s h then .next (safelimSave s h)
    else if pageHeld s x || (match x.hold with | some w => w.why.served && x.served.isNone | none => false) then
      .next (preemptHeld s h)
    else match hartMove s with
      | .next s => .next (preemptHeld s h)
      | o => o

/-- The hart starts the convoy at its pc and commits no unit yet; with another instruction there it has its turn (log 1). -/
def startTurn (s : State) (h : Nat) : Out :=
  let s := { s with cur := h }
  if mayMove s h && (s.hart h).hold.isNone && (s.hart h).convoy.isNone && !limitPassed s h then issue s false else hartTurn s h

/-- An error in an ECC granule: corrected and counted, or a lasting mark (R215). -/
def bitError (s : State) (key : Nat) (bad : Bool) : State :=
  let u := key / eccUnit key * eccUnit key
  if 256 ≤ keyDie key then s
  else if bad then { s with poison := mset false s.poison u true }
  else s.eccError u 1

/-- Drop the n-th replica, with the L1 copies of it, or, counting on, window line (R204, R206, R209). -/
def evictCopy (s : State) (n : Nat) : State :=
  match s.replicas[n]? with
  | some p => s.dropReplica (p.1 / 4) (p.1 % 4)
  | none => { s with winLines := s.winLines.eraseIdx (n - s.replicas.length) }

/-- A step of the opcode table that is not an instruction of a hart. -/
def isStep (i : Instr) : Bool := (encode i).isNone

/-- Take a turn. -/
def takeTurn (s : State) (t : Turn) : Out :=
  match t with
  | .hart h => if hartExists h then hartTurn s h else .fault .noSuchAgent
  | .startConvoy h => if hartExists h then startTurn s h else .fault .noSuchAgent
  | .event i => if isStep i then exec i s else .next s
  | .tick d => if d < 256 then .next (tickDie s d) else .fault .noSuchAgent
  | .evictTlb n => .next { s with tlb := s.tlb.eraseIdx n }
  | .evictLine n => .next (evictCopy s n)
  | .writeBack line => .next (s.wroteBack line)
  | .posting h on => .next { s with posting := mset false s.posting h on }
  | .evictHome line => .next (s.l2Drop line)
  | .prefetch h va => if hartExists h then .next (prefetch s h va) else .fault .noSuchAgent
  | .bindEarly h cls va n => if hartExists h then .next (bindEarly s h cls va n) else .fault .noSuchAgent
  | .bitError key bad => .next (bitError s key bad)
  | .failingRow die row => if die < 256 then .next (failingRow s die row) else .fault .noSuchAgent
  | .setCap md w => if md < 64 then .next (setCap s md w) else .fault .noSuchAgent
  | .power md w => if md < 64 then .next (s.setMd md { s.md md with power := w }) else .fault .noSuchAgent
  | .image md ok v => if md < 64 then .next (s.setMd md { s.md md with imgOk := ok, imgVer := v }) else .fault .noSuchAgent
  | .setWeight md m w => if md < 64 then .next (setWeight s md m w) else .fault .noSuchAgent

/-- The end of a step: banks serve the words that the owner rule has changed (R276), a host write of an earlier step is over
(R288), and a hart that no access holds has the range registers as they stand (R347). -/
def endTurn (before s : State) : State :=
  let s := s.serveStirred
  let s := if s.raced = before.raced then { s with raced := none } else s
  if s.harts.any fun p => p.2.rng.isSome && p.2.hold.isNone then
    { s with harts := s.harts.map fun p => if p.2.hold.isNone then (p.1, { p.2 with rng := none }) else p }
  else s

/-- A turn with the end of its step. -/
def closeTurn (before : State) : Out → Out
  | .next s => .next (endTurn before s)
  | o => o

/-- The next turn: the agenda's first, or the acting hart's; a hart that is IDLE or halted lets the step pass (log 1). -/
def nextTurn (s : State) : Out :=
  match s.agenda with
  | [] => closeTurn s (hartTurn s s.cur)
  | t :: r => closeTurn s (takeTurn { s with agenda := r } t)

/-! Placing an instruction to run next (log 2). -/

/-- Where the acting control hart fetches at pc 0: IPA 0, owner 0. -/
def fetchKey (s : State) : Nat := dpaKey s 0 0

/-- A control hart that fetches afresh at pc 0 at level M. -/
def Hart.fresh (x : Hart) : Hart :=
  { x with
    st := .run, pc := 0, hold := none, served := none, convoy := none, saving := none, saveDue := false, opq := [], ready := none
    rebind := false, node := none, ic := [], early := [], rng := none, pend := x.pend.filter fun e => e.place != .full
    c := { x.c with prv := 3, epos := 0 } }

/-- Control hart 0 fetches next the instruction that stands at the low end of 8 bytes, and 0 after it. -/
def placeWord (s : State) (bs : List Byte) : State :=
  let key := fetchKey s
  let s := { (s.wr key (bs ++ List.replicate 8 0)).healed (keyLine key * 128) 128 with
    agenda := [], cur := controlHart0, keyTag := mset (0, 0, 0) s.keyTag (keyLine key) (s.keyOf 0 0 0) }
  let s := s.setDie 0 { s.die 0 with retired := (s.die 0).retired.filter (· ≠ 0), resetting := none }
  let s := s.setCore (hartCore controlHart0) { s.core (hartCore controlHart0) with stall := 0 }
  s.setHart controlHart0 (s.hart controlHart0).fresh

end Sys2Proof.Machine
end

