-- ==== Sys2Proof/Machine/Step.lean ====
section
/-! DEFINITION. One step of the pod (log 1), and the placing of an instruction where the next step fetches (log 2). -/

namespace Sys2Proof.Machine

open Sys2Proof

/-- One step: the next turn. -/
def step (s : State) : Host.Outcome State Fault Refusal := nextTurn s

/-- s with the instruction of the low nbits bits of w placed where control hart 0 of die 0, which the next step moves, fetches
(log 2). -/
def State.withFetchWord (s : State) (nbits w : Nat) : State := placeWord s (toBytes 8 (w % 2 ^ nbits))

end Sys2Proof.Machine
end

