-- ==== Sys2Proof/Safety.lean ====
section
/-! DEFINITION. The terms in which claims speak of a run: what stays as it was, and what the scalar instructions compute, said in
integers and naturals apart from the meanings. -/

namespace Sys2Proof.Machine

open Sys2Proof

/-- A field with value v and lowest bit lo, as a part of its word. -/
def fieldAt (v lo : Nat) : Nat := v * 2 ^ lo

/-! What stays as it was. -/

/-- Memory is in its canonical form: addresses strictly rise, and no entry is the 0 of an unlisted address. -/
def MemOk (s : State) : Prop := Memory.wf s.mem = true

/-- Every byte of memory reads as before. -/
def SameMem (s t : State) : Prop := ∀ a, t.mem.byte a = s.mem.byte a

/-- Every byte of memory but n from key on reads as before. -/
def SameMemBut (s t : State) (key n : Nat) : Prop := ∀ a, a < key ∨ key + n ≤ a → t.mem.byte a = s.mem.byte a

/-- Nothing but hart h's record has changed: memory, tables, queues, cores, dies, modules and every other hart are as before. -/
def OnlyHart (s t : State) (h : Nat) : Prop :=
  t = { s with harts := t.harts } ∧ SameMem s t ∧ ∀ j, j ≠ h → t.hart j = s.hart j

/-- y is x after it has retired an instruction that goes on at pc and writes no register but g[rd], which reads w, or 0 if it
is g0 (R73, R90, R114): every other register, flag, CSR, counter and outstanding access is as before. -/
def Hart.Wrote (x y : Hart) (rd : BitVec 5) (w pc : Word) : Prop :=
  y.g rd = (if rd = 0 then 0 else w) ∧ (∀ r, r ≠ rd → y.g r = x.g r) ∧
  y = { x with
    st := .run, pc := pc, hold := none, served := none
    f := { x.f with g := y.f.g }, c := { x.c with instret := x.c.instret + 1 } }

/-- y is x after it has retired an instruction that goes on at pc and writes no register. -/
def Hart.Passed (x y : Hart) (pc : Word) : Prop :=
  y = { x with st := .run, pc := pc, hold := none, served := none, c := { x.c with instret := x.c.instret + 1 } }

/-- t is s after its acting hart has retired such an instruction, with nothing else changed. -/
def State.Wrote (s t : State) (rd : BitVec 5) (w pc : Word) : Prop := OnlyHart s t s.cur ∧ s.me.Wrote t.me rd w pc

/-- t is s after its acting hart has retired an instruction that writes no register, with nothing else changed. -/
def State.Passed (s t : State) (pc : Word) : Prop := OnlyHart s t s.cur ∧ s.me.Passed t.me pc

/-! The step. -/

/-- The acting hart is next to move, runs, and nothing keeps it from issuing the instruction at its pc. -/
def State.Issues (s : State) : Prop :=
  s.agenda = [] ∧ s.me.st = .run ∧ (s.core (hartCore s.cur)).stall = 0 ∧ (∀ e ∈ s.me.pend, e.place ≠ .full) ∧
  s.me.saving = none ∧ s.me.rebind = false ∧ s.me.c.preq = false ∧ s.me.hold = none ∧ s.me.convoy = none

/-- The first parcel of w begins a convoy: a convoy instruction with C = 1 (R24, R26). -/
def startsConvoy (w : Word) : Bool := convoyParcel (w.setWidth 16) && parcelC (w.setWidth 16)

/-- The first instruction after a trap has been fetched (R328). -/
def State.leftEntry (s : State) (h : Nat) : State := s.modHart h fun x => { x with entering := false }

/-- The hart has its instruction, and no access of it is held (R347). -/
def State.fetched (s : State) (h : Nat) : State := s.modHart h fun x => { x with hold := none, rng := none }

/-- The hart's convoy has its pipes (R18). -/
def State.hasPipes (s : State) (h : Nat) : State := s.modHart h fun x => { x with ready := none }

/-- What a turn adds after an instruction: a pending pre-emption of a hart that now waits (R330, R333). -/
def afterTurn (h : Nat) (o : Out) : Out :=
  match o with
  | .next t => .next (preemptHeld t h)
  | o => o

/-! What scalar instructions compute. -/

/-- Number of bits, from the top, that are 0 before the first 1. -/
def zerosAbove (a : Word) : Nat := (((List.range 64).map fun i => a.getLsbD (63 - i)).takeWhile (! ·)).length
/-- Number of bits, from the bottom, that are 0 before the first 1. -/
def zerosBelow (a : Word) : Nat := (((List.range 64).map fun i => a.getLsbD i).takeWhile (! ·)).length
/-- Number of bits that are 1. -/
def onesIn (a : Word) : Nat := ((List.range 64).filter fun i => a.getLsbD i).length

/-- The result of a two-operand row of R116 and R117, on integers. -/
def oprValue (i : Instr) (a b : Word) : Option Word :=
  match i with
  | .add .. => some (BitVec.ofInt 64 (a.toInt + b.toInt))
  | .sub .. => some (BitVec.ofInt 64 (a.toInt - b.toInt))
  | .and .. => some (BitVec.ofNat 64 (a.toNat &&& b.toNat))
  | .or .. => some (BitVec.ofNat 64 (a.toNat ||| b.toNat))
  | .xor .. => some (BitVec.ofNat 64 (a.toNat ^^^ b.toNat))
  | .sll .. => some (BitVec.ofNat 64 (a.toNat * 2 ^ (b.toNat % 64)))
  | .srl .. => some (BitVec.ofNat 64 (a.toNat / 2 ^ (b.toNat % 64)))
  | .sra .. => some (BitVec.ofInt 64 (a.toInt / 2 ^ (b.toNat % 64)))
  | .slt .. => some (if a.toInt < b.toInt then 1 else 0)
  | .sltu .. => some (if a.toNat < b.toNat then 1 else 0)
  | .mul .. => some (BitVec.ofInt 64 (a.toInt * b.toInt))
  | .mulh .. => some ((a.signExtend 128 * b.signExtend 128).extractLsb' 64 64)
  | .mulhu .. => some ((a.setWidth 128 * b.setWidth 128).extractLsb' 64 64)
  | .div .. => some (if b = 0 then -1 else if a.toInt = -2 ^ 63 ∧ b.toInt = -1 then a else BitVec.ofInt 64 (a.toInt.tdiv b.toInt))
  | .divu .. => some (if b = 0 then -1 else BitVec.ofNat 64 (a.toNat / b.toNat))
  | .rem .. => some (if b = 0 then a else BitVec.ofInt 64 (a.toInt - b.toInt * a.toInt.tdiv b.toInt))
  | .remu .. => some (if b = 0 then a else BitVec.ofNat 64 (a.toNat - b.toNat * (a.toNat / b.toNat)))
  | .min .. => some (BitVec.ofInt 64 (min a.toInt b.toInt))
  | .max .. => some (BitVec.ofInt 64 (max a.toInt b.toInt))
  | .minu .. => some (BitVec.ofNat 64 (min a.toNat b.toNat))
  | .maxu .. => some (BitVec.ofNat 64 (max a.toNat b.toNat))
  | .clz .. => some (BitVec.ofNat 64 (zerosAbove a))
  | .ctz .. => some (BitVec.ofNat 64 (zerosBelow a))
  | .popc .. => some (BitVec.ofNat 64 (onesIn a))
  | _ => none

/-- rd, rs1 and rs2 of format R; CLZ, CTZ and POPC have g0 for rs2. -/
def oprRegs (i : Instr) : BitVec 5 × BitVec 5 × BitVec 5 :=
  match i with
  | .add d a b | .sub d a b | .and d a b | .or d a b | .xor d a b | .sll d a b | .srl d a b | .sra d a b | .slt d a b
  | .sltu d a b | .mul d a b | .mulh d a b | .mulhu d a b | .div d a b | .divu d a b | .rem d a b | .remu d a b
  | .min d a b | .max d a b | .minu d a b | .maxu d a b => (d, a, b)
  | .clz d a | .ctz d a | .popc d a => (d, a, 0)
  | _ => (0, 0, 0)

/-- rd, value and length of the rows of R118 to R120 and of their compressed forms (R67), on integers. -/
def immValue (i : Instr) (s : State) : Option (BitVec 5 × Word × Word) :=
  match i with
  | .addi d a n => some (d, BitVec.ofInt 64 ((s.g a).toInt + n.toInt), 4)
  | .andi d a n => some (d, s.g a &&& BitVec.ofInt 64 n.toInt, 4)
  | .ori d a n => some (d, s.g a ||| BitVec.ofInt 64 n.toInt, 4)
  | .xori d a n => some (d, s.g a ^^^ BitVec.ofInt 64 n.toInt, 4)
  | .slti d a n => some (d, if (s.g a).toInt < n.toInt then 1 else 0, 4)
  | .sltiu d a n => some (d, if (s.g a).toNat < (BitVec.ofInt 64 n.toInt).toNat then 1 else 0, 4)
  | .slli d a n => some (d, BitVec.ofNat 64 ((s.g a).toNat * 2 ^ n.toNat), 4)
  | .srli d a n => some (d, BitVec.ofNat 64 ((s.g a).toNat / 2 ^ n.toNat), 4)
  | .srai d a n => some (d, BitVec.ofInt 64 ((s.g a).toInt / 2 ^ n.toNat), 4)
  | .lui d n => some (d, BitVec.ofInt 64 (n.toInt * 2 ^ 13), 4)
  | .auipc d n => some (d, BitVec.ofInt 64 (s.me.pc.toInt + n.toInt * 2 ^ 13), 4)
  | .cAddi d n => some (d, BitVec.ofInt 64 ((s.g d).toInt + n.toInt), 2)
  | .cLi d n => some (d, BitVec.ofInt 64 n.toInt, 2)
  | .cMv d a => some (d, s.g a, 2)
  | .cAdd d a => some (d, BitVec.ofInt 64 ((s.g d).toInt + (s.g a).toInt), 2)
  | .cSlli d n => some (d, BitVec.ofNat 64 ((s.g d).toNat * 2 ^ n.toNat), 2)
  | _ => none

/-- Link register, target and length of a jump (R121, R67), on integers. -/
def jumpTarget (i : Instr) (s : State) : Option (BitVec 5 × Word × Word) :=
  match i with
  | .jal d n => some (d, BitVec.ofInt 64 (s.me.pc.toInt + n.toInt * 2), 4)
  | .jalr d a n =>
    let t := BitVec.ofInt 64 ((s.g a).toInt + n.toInt)
    some (d, BitVec.ofNat 64 (t.toNat - t.toNat % 2), 4)
  | .cJ n => some (0, BitVec.ofInt 64 (s.me.pc.toInt + n.toInt * 2), 2)
  | .cJr a => some (0, BitVec.ofNat 64 ((s.g a).toNat - (s.g a).toNat % 2), 2)
  | _ => none

/-- Condition, offset and length of a branch (R122, R67). -/
def branchTest (i : Instr) (s : State) : Option (Prop × Int × Word) :=
  match i with
  | .beq a b n => some (s.g a = s.g b, n.toInt * 2, 4)
  | .bne a b n => some (s.g a ≠ s.g b, n.toInt * 2, 4)
  | .blt a b n => some ((s.g a).toInt < (s.g b).toInt, n.toInt * 2, 4)
  | .bge a b n => some ((s.g a).toInt ≥ (s.g b).toInt, n.toInt * 2, 4)
  | .bltu a b n => some ((s.g a).toNat < (s.g b).toNat, n.toInt * 2, 4)
  | .bgeu a b n => some ((s.g a).toNat ≥ (s.g b).toNat, n.toInt * 2, 4)
  | .cBeqz a n => some (s.g (BitVec.ofNat 5 (a.toNat + 3)) = 0, n.toInt * 2, 2)
  | .cBnez a n => some (s.g (BitVec.ofNat 5 (a.toNat + 3)) ≠ 0, n.toInt * 2, 2)
  | _ => none

/-- A byte outside HBM of a unit that carries the tag of an owner other than 0, and that has been cleared: a walk of page tables, which
reads as owner 0, may do so (R212, R348). -/
def Swept (s t : State) (a : Nat) : Prop := s.spc a ≠ .hbm ∧ s.tagOf (a / tagUnit a * tagUnit a) ≠ 0 ∧ t.mem.byte a = 0

/-- Every byte of memory reads as before, or has been cleared by a walk. -/
def SameButWalks (s t : State) : Prop := ∀ a, t.mem.byte a = s.mem.byte a ∨ Swept s t a

/-- Every byte of memory outside the 128-byte lines that hold the n bytes from key on reads as before, or has been cleared by a
walk. -/
def SameOutsideLines (s t : State) (key n : Nat) : Prop :=
  ∀ a, a / 128 < key / 128 ∨ (key + n - 1) / 128 < a / 128 → t.mem.byte a = s.mem.byte a ∨ Swept s t a

/-! Traps, returns and CSRs. -/

/-- y is x after it has taken a trap, as R325 gives it: tvec.BASE * 2 is the new pc, nothing retires, and no register, flag or
counter but those named changes. -/
def Hart.Trapped (x y : Hart) (control : Bool) (code : BitVec 8) (tval epc : Word) (epos : BitVec 9) : Prop :=
  y.pc.toNat = x.c.tvec.toNat / 2 % 2 ^ 56 * 2 ∧
  y.c.epc.toNat = epc.toNat / 2 * 2 ∧ y.c.epos = epos ∧ y.c.cause = code ∧ y.c.tval = tval ∧ y.c.pp = x.c.prv ∧
  y.c.prv = (if control then 3 else 1) ∧ y.convoy = none ∧
  y = { x with
    st := .run, pc := y.pc, hold := none, served := none, convoy := none, opq := [], ready := none, entering := true, saveDue := false
    c := { x.c with
      epc := y.c.epc, epos := y.c.epos, cause := y.c.cause, tval := y.c.tval, pp := y.c.pp, prv := y.c.prv } }

/-- t is s after its acting hart's scalar instruction has trapped, with nothing else changed (R324, R325). -/
def State.Trapped (s t : State) (code : BitVec 8) (tval : Word) : Prop :=
  OnlyHart s t s.cur ∧ s.me.Trapped t.me (isControl s.cur) code tval s.me.pc 0

/-- t is s after its acting hart has begun to wait at its scalar instruction: it will execute it again, and nothing else has
changed. -/
def State.Waits (s t : State) (i : Instr) : Prop :=
  OnlyHart s t s.cur ∧ ∃ w st, t.me = { s.me with hold := some ⟨w, some i⟩, st := st }

/-- The lowest level that may execute an instruction, where it is not U (R48, R52). -/
def levelOf (i : Instr) : Option (BitVec 2) :=
  match i with
  | .sret | .rngw .. | .rngr .. | .ptinv .. | .winOpen .. | .winRev .. | .winSync .. => some 1
  | .mret | .halt | .rrtw .. | .iltw .. => some 3
  | .csrr _ n | .csrw _ n _ | .csrs _ n _ | .csrc _ n _ => some (BitVec.ofNat 2 (n.toNat / 2 ^ 9))
  | _ => none

/-- The feature bit that an instruction with a level needs (R360, R363). -/
def featureOf (i : Instr) : Option Nat :=
  match i with
  | .winOpen .. | .winRev .. | .winSync .. => some 7
  | _ => none

/-- A CSR as software reads it (R80 to R86), as a number; none for a number that is not assigned. -/
def csrWord (s : State) (n : Nat) : Option Nat :=
  let c := s.me.c
  match n with
  | 0x000 => some c.epos.toNat
  | 0x001 => some c.fflags.toNat
  | 0x002 => some c.mflags.toNat
  | 0x100 => some (c.vl % 2 ^ 64)
  | 0x101 => some c.vtype.toNat
  | 0x102 => some c.mtype.toNat
  | 0x103 => some c.cycle.toNat
  | 0x104 => some c.instret.toNat
  | 0x105 => some c.ctxid.toNat
  | 0x200 => some (s.core (s.cur / 2)).q.toNat
  | 0x201 => some (c.prv.toNat * 8 + (if c.preq then 4 else 0) + c.pp.toNat)
  | 0x202 => some c.cause.toNat
  | 0x203 => some c.epc.toNat
  | 0x204 => some c.tval.toNat
  | 0x205 => some c.tvec.toNat
  | 0x206 => some c.scratch.toNat
  | 0x207 => some c.bindbase.toNat
  | 0x208 => some c.lmbase.toNat
  | 0x209 => some c.waitlim.toNat
  | 0x600 => some c.safelim.toNat
  | _ => none

/-- The bits of a CSR that a write keeps and those it sets (R80 to R85); none for a read-only CSR and for maxvl, whose write does
more. The other bits are reserved and read 0 after it. -/
def csrMask (n : Nat) : Option (Nat × Nat) :=
  match n with
  | 0x000 => some (0, 2 ^ 9 - 1)
  | 0x001 => some (0, 2 ^ 5 - 1)
  | 0x002 => some (0, 2 ^ 4 - 1)
  | 0x201 => some (0x1C, 3)
  | 0x202 => some (0, 2 ^ 8 - 1)
  | 0x203 => some (0, 2 ^ 64 - 2)
  | 0x204 => some (0, 2 ^ 64 - 1)
  | 0x205 => some (0, 2 ^ 57 - 2)
  | 0x206 => some (0, 2 ^ 64 - 1)
  | 0x207 => some (0, 2 ^ 57 - 2 ^ 11)
  | 0x208 => some (0, 2 ^ 57 - 2 ^ 6)
  | 0x209 => some (0, 2 ^ 32 - 1)
  | 0x600 => some (0, 2 ^ 32 - 1)
  | _ => none

/-- The value that a CSR write brings (R130): rd, number, and the new word before the mask. -/
def csrNew (i : Instr) (s : State) : Option (BitVec 5 × BitVec 11 × Word) :=
  match i with
  | .csrw d n a => some (d, n, s.g a)
  | .csrs d n a => if a = 0 then none else (csrWord s n.toNat).map fun o => (d, n, BitVec.ofNat 64 (o ||| (s.g a).toNat))
  | .csrc d n a => if a = 0 then none else (csrWord s n.toNat).map fun o => (d, n, BitVec.ofNat 64 (o &&& (~~~ s.g a).toNat))
  | _ => none

/-- The hart has no access outstanding, none of its writes is being collected, and every store has its response. -/
def Hart.Quiet (x : Hart) : Prop := x.pend = [] ∧ x.seen = [] ∧ x.unacked = []

/-- The hart after its NEND has retired: IDLE, with no work, its registers, flags and counters as they stood. -/
def Hart.ended (x : Hart) : Hart :=
  { Hart.idle with
    pc := x.pc + 4, f := x.f, c := { x.c with instret := x.c.instret + 1 }, cc := x.cc, feni := x.feni, failed := x.failed
    timedOut := x.timedOut, bind := x.bind, next := x.next }

/-- The register maps that are kept, filtered or cleared as a whole are in canonical form. -/
def Files.Ok (f : Files) : Prop := mwf 0 0 f.v = true ∧ mwf 0 0 f.k = true ∧ mwf 0 0 f.t = true ∧ mwf 0 0 f.pdesc = true

/-- The maps of a hart that are kept, filtered or cleared as a whole are in canonical form. -/
def Hart.FilesOk (x : Hart) : Prop := x.f.Ok ∧ mwf none 0 x.failed = true

/-- Memory, the register maps of every hart and convoy, and the binding tables of every hart and save frame are in canonical
form. -/
def Canonical (s : State) : Prop :=
  MemOk s ∧
  (∀ p ∈ s.harts, p.2.FilesOk ∧ mwf none 0 p.2.bind = true ∧ ∀ cv b, p.2.convoy = some cv → cv.ahead = some b → b.1.Ok) ∧
  ∀ p ∈ s.frames, ∀ f, p.2 = some f → mwf none 0 f.bind = true

/-- Effective VLMAX (R87): maxvl * 32 / EW, where maxvl is 32 (Q + 1) and EW is 8 * 2 ^ code. -/
def vlLimit (q ew : Nat) : Nat := 32 * (q + 1) * 32 / (8 * 2 ^ ew)

/-- The acceptable vtype values (R81, R134), bit by bit. -/
def vtypeGood (nt : Nat) : Prop :=
  nt < 64 ∧ ¬ (nt / 4 % 2 = 1 ∧ (nt % 4 = 0 ∨ nt % 4 = 3)) ∧ ¬ (nt / 32 = 1 ∧ ¬ (nt / 4 % 2 = 1 ∧ nt % 4 = 1))

/-! Memory accesses. -/

/-- A scalar load: destination, address, size, sign extension, class and length (R247, R67). -/
def loadForm (i : Instr) (s : State) : Option (BitVec 5 × Word × Nat × Bool × Nat × Word) :=
  let at_ (b : BitVec 5) (o : BitVec 9) (n : Nat) : Word := BitVec.ofInt 64 ((s.g b).toInt + o.toInt * n)
  match i with
  | .lb r b c o => some (r, at_ b o 1, 1, true, c.toNat, 4)
  | .lh r b c o => some (r, at_ b o 2, 2, true, c.toNat, 4)
  | .lw r b c o => some (r, at_ b o 4, 4, true, c.toNat, 4)
  | .ld r b c o => some (r, at_ b o 8, 8, false, c.toNat, 4)
  | .lbu r b c o => some (r, at_ b o 1, 1, false, c.toNat, 4)
  | .lhu r b c o => some (r, at_ b o 2, 2, false, c.toNat, 4)
  | .lwu r b c o => some (r, at_ b o 4, 4, false, c.toNat, 4)
  | .cLd r o => some (r, BitVec.ofNat 64 ((s.g 2).toNat + o.toNat * 8), 8, false, 0, 2)
  | _ => none

/-- A scalar store: the word stored from, address, size, class and length (R247, R67). -/
def storeForm (i : Instr) (s : State) : Option (Word × Word × Nat × Nat × Word) :=
  let at_ (b : BitVec 5) (o : BitVec 9) (n : Nat) : Word := BitVec.ofInt 64 ((s.g b).toInt + o.toInt * n)
  match i with
  | .sb r b c o => some (s.g r, at_ b o 1, 1, c.toNat, 4)
  | .sh r b c o => some (s.g r, at_ b o 2, 2, c.toNat, 4)
  | .sw r b c o => some (s.g r, at_ b o 4, 4, c.toNat, 4)
  | .sd r b c o => some (s.g r, at_ b o 8, 8, c.toNat, 4)
  | .cSd r o => some (s.g r, BitVec.ofNat 64 ((s.g 2).toNat + o.toNat * 8), 8, 0, 2)
  | _ => none

/-- A scalar atomic: rd, address, operand and compare value of w bits, operation, w and class (R264, R265). -/
def amoForm (i : Instr) (s : State) : Option (BitVec 5 × Word × Nat × Nat × Nat × Nat × Nat) :=
  match i with
  | .amoW d a b op c => some (d, s.g a, (s.g b).toNat % 2 ^ 32, (s.g d).toNat % 2 ^ 32, op.toNat, 32, c.toNat)
  | .amoD d a b op c => some (d, s.g a, (s.g b).toNat, (s.g d).toNat, op.toNat, 64, c.toNat)
  | _ => none

/-- A scalar tagged access: its register, address, class and kind: 0 LDF, 1 LDFK, 2 STE, 3 STF (R275). -/
def taggedForm (i : Instr) (s : State) : Option (BitVec 5 × Word × Nat × Nat) :=
  let at_ (b : BitVec 5) (o : BitVec 9) : Word := BitVec.ofInt 64 ((s.g b).toInt + o.toInt * 4)
  match i with
  | .ldf r b c o => some (r, at_ b o, c.toNat, 0)
  | .ldfk r b c o => some (r, at_ b o, c.toNat, 1)
  | .ste r b c o => some (r, at_ b o, c.toNat, 2)
  | .stf r b c o => some (r, at_ b o, c.toNat, 3)
  | _ => none

/-- Address and size of any scalar access of memory (R241). -/
def accessOf (i : Instr) (s : State) : Option (Word × Nat) :=
  match loadForm i s, storeForm i s, amoForm i s, taggedForm i s, i with
  | some (_, va, n, _), _, _, _, _ => some (va, n)
  | _, some (_, va, n, _), _, _, _ => some (va, n)
  | _, _, some (_, va, _, _, _, w, _), _, _ => some (va, w / 8)
  | _, _, _, some (_, va, _), _ => some (va, 4)
  | _, _, _, _, .chinit a _ _ | _, _, _, _, .charr _ a _ _ | _, _, _, _, .chwait a _ _ => some (s.g a, 16)
  | _, _, _, _, _ => none

/-- An access of n bytes at va by the acting hart passes the checks of R241 with the IPA given, and its translation allows it and
gives a storage address. -/
def State.Reaches (s : State) (va : Word) (n : Nat) (need : Need) (atom : Bool) (ipa key : Nat) : Prop :=
  hartCheck s s.cur va.toNat n n need atom = .ok ipa ∧ ∃ leaf, (translate s (s.agent s.cur) ipa need).2 = .ok key leaf

/-- The same for a store of n bytes, which a failed page that the hart holds for does not stop (R243, R246). -/
def State.StoreReaches (s : State) (va : Word) (n : Nat) (ipa key : Nat) : Prop :=
  hartCheck s s.cur va.toNat n n needW false = .ok ipa ∧ ∃ leaf, (translate s (s.agent s.cur).untold ipa needW).2 = .ok key leaf

/-- n bytes at a storage address are the owner's and sound: no invalidation of the line is being collected, no row of theirs is under
test, no granule is poisoned, HBM was last written under the owner's key at the same IPA, and each unit elsewhere carries the owner's tag (R207,
R212 to R215, R382). -/
def State.Sound (s : State) (owner ipa key n : Nat) : Prop :=
  s.collapsing (keyLine key) = false ∧ s.testing key n = false ∧ s.poisoned key n = false ∧
  (if s.spc key = .hbm then s.foreign key owner ipa = false else ∀ u ∈ unitsOf (tagUnit key) key n, s.tagOf u = owner)

/-- The home of an IPA takes accesses at once: no reset of its die is under way, and no write of the host to a page without SA has
just been made (R219, R288). -/
def State.Open (s : State) (ipa : Nat) : Prop := inReset s (ipaHome ipa) = false ∧ s.raced = none

/-- A walk of page tables that the acting hart's access of an IPA makes clears no word of another owner (R212, R348). -/
def State.WalksClean (s : State) (ipa : Nat) : Prop :=
  ∀ need a, a = s.agent s.cur ∨ a = (s.agent s.cur).untold → SameMem s (translate s a ipa need).1

/-- The acting hart has no access outstanding or bound early and does not wait, its stores are not held back, and the IPA is memory of
its own die, or of its scratchpads and TCMs, a walk for which clears no word of another owner. -/
def State.AtHome (s : State) (ipa : Nat) : Prop :=
  s.me.Quiet ∧ s.me.early = [] ∧ s.me.hold = none ∧ mget false s.posting s.cur = false ∧ ipaHome ipa = hartDie s.cur ∧
  ipaSpace ipa ≠ 13 ∧ s.Open ipa ∧ s.WalksClean ipa

/-- A number of n bytes as a register holds it: sign-extended, or zero-extended (R247). -/
def extended (signed : Bool) (n v : Nat) : Word :=
  if signed && decide (2 ^ (8 * n - 1) ≤ v) then BitVec.ofInt 64 ((v : Int) - 2 ^ (8 * n)) else BitVec.ofNat 64 v

/-- A number of w bits read as two's complement. -/
def asSigned (w v : Nat) : Int := if 2 ^ (w - 1) ≤ v then (v : Int) - 2 ^ w else v

/-- The value that an atomic other than FADD stores, none for a CAS that fails (R265), on numbers of w bits. -/
def atomicValue (op w old a cmp : Nat) : Option Nat :=
  match op with
  | 0 => some ((old + a) % 2 ^ w)
  | 1 => some (old &&& a)
  | 2 => some (old ||| a)
  | 3 => some (old ^^^ a)
  | 4 => some (if asSigned w old ≤ asSigned w a then old else a)
  | 5 => some (if asSigned w old ≥ asSigned w a then old else a)
  | 6 => some (min old a)
  | 7 => some (max old a)
  | 8 => some a
  | 9 => if old = cmp then some a else none
  | _ => some (min (old + a) (2 ^ w - 1))

/-- The permissions that a tagged access needs: LDF reads the word and writes its bit, LDFK reads, STE and STF write (R275). -/
def taggedNeed (kind : Nat) : Need := match kind with | 0 => needRW | 1 => needR | _ => needW

/-- The acting hart's chamber or tagged access of n bytes at va reaches sound memory of its own die, in a space whose words carry a
full/empty bit, and no hart waits at the bank or the Lockkeeper (R275, R281). -/
def State.SyncReady (s : State) (va : Word) (n : Nat) (need : Need) (ipa key : Nat) : Prop :=
  s.Reaches va n need true ipa key ∧ s.AtHome ipa ∧ s.Sound (s.owner s.cur) ipa key n ∧ s.me.served = none ∧
  (s.die (keyDie key)).recs = [] ∧ (s.die (keyDie key)).retries = [] ∧
  (s.die (keyDie key)).chRecs = [] ∧ (s.die (keyDie key)).chRetry = []

/-- t is s after its acting hart has parked at its scalar instruction i: no register, byte of memory or other hart has changed. -/
def State.Parks (s t : State) (i : Instr) : Prop :=
  SameMem s t ∧ (∀ j, j ≠ s.cur → t.hart j = s.hart j) ∧ ∃ w, t.me = { s.me with hold := some ⟨w, some i⟩, st := .park }

/-- The 16 bytes of a chamber as one number (R280). -/
def chamberAt (s : State) (key : Nat) : Nat := leBytes (s.mem.bytes key 16)

/-- A chamber with COUNT replaced. -/
def withCount (w c : Nat) : Nat := w / 2 ^ 16 * 2 ^ 16 + c % 2 ^ 16

/-! Tables. -/

/-- The owner that an owner field names: the hart's own, by 0 or its number, on a dispatched hart; any of 1 to 63 on a control hart
(R346, R352). -/
def ownerNamed (s : State) (f o : Nat) : Prop :=
  if isControl s.cur then f = o ∧ 1 ≤ o else o = s.owner s.cur ∧ (f = 0 ∨ f = o)

/-- An RNGW or RNGR selector names range r of the context of owner o, which is not FREE (R346). -/
def rangeNamed (s : State) (sel r o : Nat) : Prop :=
  sel < 2 ^ 10 ∧ r = sel % 16 ∧ ownerNamed s (sel / 16) o ∧ (s.ctx (hartDie s.cur / 4) o).st ≠ .free

/-- RW bits of the words of a range register, from the highest to the lowest of each field (R343). -/
def rangeBits (w : Nat) : Nat :=
  match w with
  | 0 => (2 ^ 57 - 2 ^ 21) + 2 ^ 7 + 2 ^ 6 + 2 ^ 5 + 7
  | 1 => 2 ^ 57 - 2 ^ 21
  | _ => 2 ^ 56 - 2 ^ 21

/-- RRTW accepts word 0 or word 1 of a region (R357). -/
def regionGood (w v : Nat) : Prop :=
  if w = 0 then 21 ≤ v / 2 ^ 8 % 64 ∧ v / 2 ^ 8 % 64 ≤ 47 ∧ v / 2 ^ 21 % 2 ^ 35 * 2 ^ 21 % 2 ^ (v / 2 ^ 8 % 64) = 0
  else v / 2 ^ 16 % 2 ^ 16 ≠ 0 ∧ v / 2 ^ 8 % 4 ≠ 3 ∧ v / 2 ^ 6 % 4 ≠ 3 ∧ v / 2 ^ 6 % 4 ≤ v / 2 ^ 8 % 4

/-- ILTW accepts word 0, or word 1 beside the entry's MASK (R355). -/
def interleaveGood (x : Die) (c w v : Nat) : Prop :=
  let ones (m : Nat) : Nat := ((List.range 64).filter m.testBit).length
  if w = 0 then ones v = 8 ∨ ones v = 16 ∨ ones v = 32 ∨ ones v = 64
  else v / 2 ^ 8 % 16 * 2 ^ 28 + 2 ^ 34 / ones (x.mask c) ≤ 2 ^ 31

/-- The IPAs from lo on that a PTINV value covers: how many bytes (R350, R352). -/
def invalidated (ipa v lo n : Nat) : Prop :=
  if v.testBit 15 then lo = ipa % 2 ^ 56 / 2 ^ 48 * 2 ^ 48 ∧ n = 2 ^ 48
  else n = [2 ^ 12, 2 ^ 14, 2 ^ 16, 2 ^ 21, 2 ^ 23, 2 ^ 25, 2 ^ 30, 2 ^ 34].getD (v % 8) 0 ∧ lo = ipa % 2 ^ 56 / n * n

/-- A cached translation of an owner overlaps n bytes from lo on. -/
def TlbEnt.hits (t : TlbEnt) (owner lo n : Nat) : Prop := t.owner = owner ∧ t.base < lo + n ∧ lo < t.base + t.size

/-- The open window entry of the hart's die and owner that a handle names (R360). -/
def handleNames (s : State) (hd e : Nat) (w : Window) : Prop :=
  e = hd % 64 ∧ w = mget Window.closed (s.die (hartDie s.cur)).windows e ∧ w.isOpen = true ∧ w.seq.toNat = hd / 64 ∧
  w.owner = s.owner s.cur

/-- t is s after its acting hart has retired an instruction of 4 bytes that writes no register but has changed tables. -/
def State.Served (s t : State) : Prop :=
  s.me.Passed t.me (s.me.pc + 4) ∧ SameMem s t ∧ ∀ j, j ≠ s.cur → t.hart j = s.hart j

/-! Vectors: what each element becomes, on integers and on the exact numbers of the float formats. -/

/-- Element e at width w of a register (R75). -/
def laneOf (v : VReg) (w e : Nat) : Nat := (v.extractLsb' (w * e) w).toNat

/-- Element width, element kind, float format and rounding mode that vtype names (R81). -/
def State.vw (s : State) : Nat := 8 * 2 ^ (s.me.c.vtype.toNat % 4)
/-- vtype.KIND is float. -/
def State.vflt (s : State) : Bool := s.me.c.vtype.getLsbD 2
/-- The float format of vtype. -/
def State.vfmt (s : State) : FFmt :=
  if s.me.c.vtype.toNat % 4 = 2 then .f32 else if s.me.c.vtype.getLsbD 5 then .b16 else .f16
/-- The rounding mode of vtype. -/
def State.vrm (s : State) : RMode := [RMode.rne, .rtz, .rdn, .rup].getD (s.me.c.vtype.toNat / 8 % 4) .rne

/-- Element e, w bits wide, of a source: a register, a broadcast g register or a 5-bit immediate (R45, R46). -/
def State.src (s : State) (sp : BitVec 7) (w e : Nat) : Nat :=
  if sp.toNat < 72 then laneOf (s.me.v sp.toNat) w e
  else if sp.toNat < 96 then (s.g (BitVec.ofNat 5 (sp.toNat % 16))).toNat % 2 ^ w
  else ((sp.setWidth 5).toInt % 2 ^ w).toNat

/-- An element at any index: 0 beyond the register (R148). -/
def State.srcAny (s : State) (sp : BitVec 7) (w i : Nat) : Nat := if w * i < 4096 then s.src sp w i else 0

/-- Bit e of mask register k; k0 is all ones (R73, R78). -/
def State.on (s : State) (k : BitVec 3) (e : Nat) : Bool := (s.me.k k.toNat).getLsbD e

/-- The negate and the absolute-value bit of source j (R65). -/
def negBit (p : Pfx) (j : Nat) : Bool := [p.mods.getLsbD 5, p.mods.getLsbD 3, p.mods.getLsbD 1].getD (j - 1) false
/-- The absolute-value bit of source j. -/
def absBit (p : Pfx) (j : Nat) : Bool := [p.mods.getLsbD 4, p.mods.getLsbD 2, p.mods.getLsbD 0].getD (j - 1) false

/-- Source j after its modifiers, as integer data of w bits (R106). -/
def intData (p : Pfx) (j w : Nat) (uns : Bool) (v : Nat) : Nat :=
  let a : Int := if uns then v else if absBit p j then |asSigned w v| else asSigned w v
  ((if negBit p j then -a else a) % 2 ^ w).toNat

/-- Source j after its modifiers, as float data of w bits: its sign bit cleared, then flipped (R94). -/
def fltData (p : Pfx) (j w v : Nat) : Nat :=
  let sign := if absBit p j then 0 else v / 2 ^ (w - 1)
  v % 2 ^ (w - 1) + (if negBit p j then 1 - sign else sign) * 2 ^ (w - 1)

/-- Source j after its modifiers, as data of vtype's kind (R138). -/
def State.modded (s : State) (p : Pfx) (j v : Nat) : Nat :=
  if s.vflt then fltData p j s.vw v else intData p j s.vw false v

/-- An integer narrowed to w bits: saturated, or wrapped (R96, R106). -/
def narrowed (sat uns : Bool) (w : Nat) (x : Int) : Nat :=
  let lo : Int := if uns then 0 else -2 ^ (w - 1)
  let hi : Int := if uns then 2 ^ w - 1 else 2 ^ (w - 1) - 1
  ((if sat then max lo (min hi x) else x) % 2 ^ w).toNat

/-- The last step of an instruction that copies or combines bits (R138). -/
def State.copied (s : State) (p : Pfx) (v : Nat) : Nat × FFlags :=
  if p.mods = 0 ∧ p.scale = 0 ∧ p.clamp = 0 then (v, 0)
  else if s.vflt then s.vfmt.finish s.vrm p.scale p.clamp (s.vfmt.dec v, 0)
  else (narrowed (p.clamp == 3) false s.vw (asSigned s.vw v), 0)

/-- The exact result of a row of R140 on elements of w bits. -/
def intExact (op : VVOp) (w a b c : Nat) : Int :=
  let x := asSigned w a
  let y := asSigned w b
  match op with
  | .add | .sadd => x + y
  | .sub | .ssub => x - y
  | .mul => x * y
  | .mulh => x * y / 2 ^ w
  | .mulhu => ((a * b / 2 ^ w : Nat) : Int)
  | .mac => asSigned w c + x * y
  | .min => min x y
  | .max => max x y
  | .minu => (min a b : Nat)
  | .maxu => (max a b : Nat)
  | .sll => x * 2 ^ (b % w)
  | .srl => ((a / 2 ^ (b % w) : Nat) : Int)
  | .sra => x / 2 ^ (b % w)
  | .saddu => (a + b : Nat)
  | .ssubu => (a : Int) - b
  | _ => 0

/-- A row of R140 whose operands and result are unsigned. VSRL's second source is a count. -/
def intUns : VVOp → Bool
  | .mulhu | .minu | .maxu | .srl | .saddu | .ssubu => true
  | _ => false

/-- The exact result of a row of R141, with the flags of the operation itself. -/
def fltExact (op : VVOp) (down : Bool) (a b c : Num) : Num × FFlags :=
  let mulAdd (x y z : Num) : Num × FFlags := ((sumNums [(mulNum x y).1, z] down).1, (mulNum x y).2 ||| (sumNums [(mulNum x y).1, z] down).2)
  match op with
  | .fadd => sumNums [a, b] down
  | .fsub => sumNums [a, b.negate] down
  | .fmul => mulNum a b
  | .fdiv => divNum a b
  | .fmin => (fltPick false a b, 0)
  | .fmax => (fltPick true a b, 0)
  | .fms => mulAdd a b c.negate
  | .fnma => mulAdd a.negate b c
  | _ => mulAdd a b c

/-- Float source j at element e, after its modifiers. -/
def State.fsrc (s : State) (p : Pfx) (j : Nat) (sp : BitVec 7) (e : Nat) : Num :=
  s.vfmt.dec (fltData p j s.vw (s.src sp s.vw e))

/-- A float result (R105, steps 3 to 5). -/
def State.finished (s : State) (p : Pfx) (x : Num × FFlags) : Nat × FFlags := s.vfmt.finish s.vrm p.scale p.clamp x

/-- The elements that an unordered instruction takes: below vl, with their mask bit set, in rising order. -/
def State.actives (s : State) (k : BitVec 3) : List Nat := (List.range s.me.c.vl).filter fun e => s.on k e

/-- VV rows (R138, R140, R141, R152, R154): what element e gets, none where it stays. -/
def vvElem (s : State) (p : Pfx) (op : VVOp) (a2 a1 d : BitVec 7) (e : Nat) : Option (Nat × FFlags) :=
  let w := s.vw
  let on := s.on p.k e
  let bits1 := s.modded p 1 (s.src a1 w e)
  let bits2 := s.modded p 2 (s.src a2 w e)
  match op with
  | .and => if on then some (s.copied p (bits1 &&& bits2)) else none
  | .or => if on then some (s.copied p (bits1 ||| bits2)) else none
  | .xor => if on then some (s.copied p (bits1 ^^^ bits2)) else none
  | .perm => if on then some (s.copied p (s.modded p 1 (s.srcAny a1 w (s.src a2 w e)))) else none
  | .merge => some (s.copied p (if on then bits1 else bits2))
  | .fadd | .fsub | .fmul | .fdiv | .fmin | .fmax | .fma | .fms | .fnma =>
    if on then some (s.finished p (fltExact op (s.vrm == .rdn) (s.fsrc p 1 a1 e) (s.fsrc p 2 a2 e) (s.fsrc p 3 d e))) else none
  | _ =>
    let a := intData p 1 w (intUns op) (s.src a1 w e)
    let b := intData p 2 w (intUns op && op != .srl) (s.src a2 w e)
    let c := intData p 3 w false (s.src d w e)
    let sat := op == .sadd || op == .saddu || op == .ssub || op == .ssubu || p.clamp == 3
    if on then some (narrowed sat (intUns op) w (intExact op w a b c), 0) else none

/-- Level n of the tree of R107 over the leaves given, node i: its value, none for EMPTY, and the flags below it. -/
def treeNode (f : FFmt) (leaf : Nat → Option Nat) : Nat → Nat → Option Nat × FFlags
  | 0, i => (leaf i, 0)
  | n + 1, i =>
    let a := treeNode f leaf n (2 * i)
    let b := treeNode f leaf n (2 * i + 1)
    match a.1, b.1 with
    | none, y => (y, a.2 ||| b.2)
    | x, none => (x, a.2 ||| b.2)
    | some x, some y =>
      let r := sumNums [f.dec x, f.dec y] false
      ((f.rne r.1).1, a.2 ||| b.2 ||| r.2 ||| (f.rne r.1).2)

/-- A NaN made canonical (R94). -/
def canonical (f : FFmt) (v : Nat) : Nat := if (f.dec v).isNan then f.cnan else v

/-- The running sum of R108 over the codes of the active elements up to one: its code and the flags of its last step. -/
def runningSum (f : FFmt) : List Nat → Option (Nat × FFlags)
  | [] => none
  | v :: r => some (r.foldl (fun a x =>
      let t := sumNums [f.dec a.1, f.dec x] false
      ((f.rne t.1).1, t.2 ||| (f.rne t.1).2)) (canonical f v, 0))

/-- The reductions and scans (R107, R108, R156) over the active elements. -/
def reduced (s : State) (p : Pfx) (op : VFOp) (a : BitVec 7) (e : Nat) : Option (Nat × FFlags) :=
  let w := s.vw
  let es := s.actives p.k
  let ints (uns : Bool) (l : List Nat) : List Int := l.map fun j =>
    let v := intData p 1 w uns (s.src a w j)
    if uns then (v : Int) else asSigned w v
  let codes (l : List Nat) : List Nat := l.map fun j => fltData p 1 w (s.src a w j)
  let upTo := es.filter fun j => j ≤ e
  let first (r : Nat × FFlags) : Option (Nat × FFlags) := if e = 0 then some r else none
  let sat := p.clamp == 3
  match op with
  | .redsum => first (narrowed sat false w (ints false es).sum, 0)
  | .redmin => first (narrowed sat false w ((ints false es).foldl min (2 ^ (w - 1) - 1)), 0)
  | .redmax => first (narrowed sat false w ((ints false es).foldl max (-2 ^ (w - 1))), 0)
  | .redminu => first (narrowed sat true w ((ints true es).foldl min (2 ^ w - 1)), 0)
  | .redmaxu => first (narrowed sat true w ((ints true es).foldl max 0), 0)
  | .fredsum =>
    let t := treeNode s.vfmt (fun j => if j ∈ es then some (fltData p 1 w (s.src a w j)) else none) 9 0
    first (canonical s.vfmt (t.1.getD 0), t.2)
  | .fredmin | .fredmax =>
    let big := op == .fredmax
    let r := match codes es with
      | [] => Num.inf big
      | v :: l => l.foldl (fun x y => fltPick big x (s.vfmt.dec y)) (s.vfmt.dec v)
    first (s.finished p (r, 0))
  | .scan => if s.on p.k e then some (narrowed sat false w (ints false upTo).sum, 0) else none
  | _ => if s.on p.k e then runningSum s.vfmt (codes upTo) else none

/-- VF rows without a g field (R143, R144, R148, R153, R156). -/
def vfElem (s : State) (p : Pfx) (op : VFOp) (a : BitVec 7) (e : Nat) : Option (Nat × FFlags) :=
  let w := s.vw
  let on := s.on p.k e
  let x := s.fsrc p 1 a e
  let moved (j : Nat) : Nat × FFlags := s.copied p (s.modded p 1 (s.src a w j))
  match op with
  | .fsqrt => if on then some (s.finished p (sqrtNum x)) else none
  | .frcp => if on then some (s.finished p (divNum (.fin false 1 0 false) x)) else none
  | .frsq => if on then some (s.finished p (rsqrtNum x)) else none
  | .fexp2 => if on then some (s.finished p (exp2Num x)) else none
  | .fclass => if on then some (classOf s.vfmt (fltData p 1 w (s.src a w e)), 0) else none
  | .mv => if on then some (moved e) else none
  | .id => if on then some (narrowed (p.clamp == 3) false w e, 0) else none
  | .compress => ((s.actives p.k)[e]?).map moved
  | .expand => if on then some (moved ((s.actives p.k).filter fun j => j < e).length) else none
  | _ => reduced s p op a e

/-- VF rows with a g field (R148 to R151). -/
def vgElem (s : State) (p : Pfx) (op : VGOp) (gs : BitVec 5) (a : BitVec 7) (e : Nat) : Option (Nat × FFlags) :=
  let w := s.vw
  let n := (s.g gs).toNat
  let put (v : Nat) : Option (Nat × FFlags) := if s.on p.k e then some (s.copied p (s.modded p 1 v)) else none
  match op with
  | .bcast => put (s.srcAny a w n)
  | .ins => if e = n then put (s.src a w 0) else none
  | .slup => if n ≤ e then put (s.src a w (e - n)) else none
  | .sldn => put (s.srcAny a w (e + n))
  | .ext => none

/-- A number converted to a format code of R56: to a float format as R160 narrows it, to an integer format after rounding in the
mode. -/
def converted (s : State) (p : Pfx) (sat : Bool) (df : BitVec 4) (exact : Option Int) (x : Num) : Nat × FFlags :=
  match fltOfCode df, exact with
  | some f, _ => f.round s.vrm sat ((x.scale p.scale.toInt).clamp p.clamp)
  | none, some n => (narrowed sat (codeUns df) (codeWidth df) n, 0)
  | none, none => cvtInt (codeWidth df) (codeUns df) sat s.vrm x

/-- Records of VQUANT (R163): scale code and zero point of each group of G elements, from its active finite values. -/
def quantRecord (s : State) (p : Pfx) (sf qf : BitVec 4) (a : BitVec 7) (n : Nat) : Nat × Nat :=
  let f := (fltOfCode sf).getD .f32
  let vals := ((s.actives p.k).filter fun e => e / (32 * 2 ^ (s.me.c.mtype.toNat / 2 ^ 12 % 4)) = n).map fun e =>
    f.dec (fltData p 1 f.bits (s.src a f.bits e))
  quantScale (if qf = 9 then 15 else 255) (vals.filter Num.isFin)

/-- VF-X rows (R160 to R168). -/
def vxElem (s : State) (p : Pfx) (op : VXOp) (sat : BitVec 1) (f2 f1 : BitVec 4) (a : BitVec 7) (e : Nat) : Option (Nat × FFlags) :=
  let on := s.on p.k e
  let g := 32 * 2 ^ (s.me.c.mtype.toNat / 2 ^ 12 % 4)
  let word := laneOf (s.me.v (64 + p.om.toNat)) 32 (e / g)
  let zp (q : BitVec 4) : Nat := if q = 9 then word / 2 ^ 16 % 2 ^ 4 else word / 2 ^ 16 % 2 ^ 8
  match op with
  | .cvt =>
    let v := s.src a (codeWidth f2) e
    let sat := sat == 1 || p.clamp == 3
    if !on then none else
    match fltOfCode f2 with
    | some f => some (converted s p sat f1 none (f.dec (fltData p 1 f.bits v)))
    | none =>
      let u := codeUns f2
      let m := intData p 1 (codeWidth f2) u v
      let n : Int := if u then m else asSigned (codeWidth f2) m
      some (converted s p sat f1 (some n) (Num.ofInt n))
  | .quant | .qsc =>
    let r := if op = .quant then quantRecord s p f2 f1 a (e / g) else (word % 2 ^ 16, zp f1)
    let f := (fltOfCode f2).getD .f32
    let sc := FFmt.f16.dec r.1
    if !on then none
    else if sc.isNan || sc.isInf || sc.isZero then some (r.2, fNV)
    else some (quantElem (if f1 = 9 then 15 else 255) sc r.2 (f.dec (fltData p 1 f.bits (s.src a f.bits e))))
  | .deq =>
    let f := (fltOfCode f1).getD .f32
    let d : Int := (s.src a (codeWidth f2) e : Int) - zp f2
    if on then some (f.finish s.vrm p.scale p.clamp (mulNum (FFmt.f16.dec (word % 2 ^ 16)) (Num.ofInt d))) else none
  | .had =>
    let w := s.vw
    let d := 2 ^ f1.toNat
    let low := e / d % 2 = 0
    let i (j : Nat) : Int := if j < s.me.c.vl then asSigned w (intData p 1 w false (s.src a w j)) else 0
    let x (j : Nat) : Num := if j < s.me.c.vl then s.fsrc p 1 a j else .zero false
    if !on then none
    else if s.vflt then
      some (s.finished p (sumNums (if low then [x e, x (e + d)] else [x (e - d), (x e).negate]) (s.vrm == .rdn)))
    else some (narrowed (p.clamp == 3) false w (if low then i e + i (e + d) else i (e - d) - i e), 0)
  | .pack => some (s.src a (carrierWidth f2) e % 2 ^ codeWidth f2, 0)
  | .unpack =>
    let v := s.src a (codeWidth f2) e
    some (if f2 = 5 ∨ f2 = 6 then (asSigned (codeWidth f2) v % 2 ^ carrierWidth f2).toNat else v, 0)

/-- What a vector instruction gives element e of its destination, with the flags of that element; none where it stays. -/
def vecElem (s : State) (p : Pfx) (b : VBase) (e : Nat) : Option (Nat × FFlags) :=
  match b with
  | .vv op a2 a1 d => vvElem s p op a2 a1 d e
  | .vf op a _ => vfElem s p op a e
  | .vg op gs a _ => vgElem s p op gs a e
  | .vx op sat f2 f1 a _ => vxElem s p op sat f2 f1 a e
  | _ => none

/-- Destination and element width of a vector instruction that writes a vector register. -/
def vecDst (s : State) (b : VBase) : Option (BitVec 7 × Nat) :=
  match b with
  | .vv _ _ _ d | .vf _ _ d => some (d, s.vw)
  | .vg op _ _ d => if op = .ext then none else some (d, s.vw)
  | .vx op _ f2 f1 _ d =>
    some (d, match op with | .had => s.vw | .pack => codeWidth f2 | .unpack => carrierWidth f2 | _ => codeWidth f1)
  | _ => none

/-- The element that VCVT and VDEQ read for element e still stands when they come to it: their destination is no source of another
width, or e lies in the first commit unit (R30; log 9). -/
def readsFirst (s : State) (p : Pfx) (b : VBase) (e : Nat) : Prop :=
  match b with
  | .vx op _ f2 f1 a d =>
    (op ≠ .cvt ∧ op ≠ .deq) ∨ ((d ≠ a ∨ codeWidth f2 = codeWidth f1) ∧ (op = .cvt ∨ d.toNat ≠ 64 + p.om.toNat)) ∨
      e * max s.vw (max (codeWidth f2) (codeWidth f1)) < 1024
  | _ => True

/-- The convoy of instruction i alone, of n bytes, passes every check of R68 and R326, starts at element 0, and no non-blocking
instruction is outstanding. -/
def State.Starts (s : State) (i : Instr) (n : Nat) : Prop :=
  wellFormed i = true ∧ slotTrap s s.cur s.me (cxOf s s.cur s.me.f.g 0 0 0) [] [] (slotOf s.me.pc i) = none ∧ (∃ w, encode i = some (n, w)) ∧
  s.me.nb = [] ∧ s.me.c.epos = 0 ∧ s.me.served = none

/-- Each of the two instructions of a convoy passes its checks of R68 and R326. -/
def State.StartsPair (s : State) (a b : Slot) : Prop :=
  ∃ o o', a.op = some o ∧ b.op = some o' ∧
    slotTrap s s.cur s.me (cxOf s s.cur s.me.f.g 0 0 0) [] [o'] a = none ∧ slotTrap s s.cur s.me (cxOf s s.cur s.me.f.g 0 0 0) [o] [o] b = none

/-- y is x after a convoy of one instruction of n bytes has completed: it may have changed the register files, fflags, mflags, vl,
mtype and the binding table, and what the hart keeps of its reads, and nothing else. -/
def Hart.Drained (x y : Hart) (n : Nat) : Prop :=
  y = { x with
    st := .run, pc := x.pc + BitVec.ofNat 64 n, hold := none, served := none, convoy := none, opq := [], rng := none, f := y.f
    bind := y.bind, ic := y.ic, early := y.early
    c := { x.c with
      epos := 0, instret := x.c.instret + 1, fflags := y.c.fflags, mflags := y.c.mflags, vl := y.c.vl, mtype := y.c.mtype } }

/-- No CSR or binding that a convoy may change has changed. -/
def Hart.SameModes (x y : Hart) : Prop :=
  y.c.fflags = x.c.fflags ∧ y.c.mflags = x.c.mflags ∧ y.c.vl = x.c.vl ∧ y.c.mtype = x.c.mtype ∧ y.bind = x.bind

/-- The hart has made no access: the reads that it keeps are as before. -/
def Hart.NoAccess (x y : Hart) : Prop := y.ic = x.ic ∧ y.early = x.early

/-- Every g, mask and tile register and plane row is as before. -/
def Hart.OnlyVectors (x y : Hart) : Prop := y.f = { x.f with v := y.f.v }

/-! Masks. -/

/-- A compare of integers by the condition codes of R57. -/
def intTest (cond : BitVec 4) (w a b : Nat) : Bool :=
  let x := asSigned w a
  let y := asSigned w b
  match cond.toNat with
  | 0 => decide (a = b) | 1 => decide (a ≠ b) | 2 => decide (x < y) | 3 => decide (x ≤ y) | 4 => decide (a < b) | 5 => decide (a ≤ b)
  | 6 => decide (x > y) | 7 => decide (x ≥ y) | 8 => decide (a > b) | _ => decide (a ≥ b)

/-- A compare of floats by the condition codes of R57, with its flag (R145). -/
def fltTest (cond : BitVec 4) (a b : Num) : Bool × FFlags :=
  let nan := a.isNan || b.isNan
  let c := cmpNum a b
  match cond.toNat with
  | 0 => (!nan && c == 0, 0) | 1 => (nan || c != 0, 0) | 6 => (nan, 0) | 7 => (!nan, 0)
  | 2 => (!nan && decide (c < 0), if nan then fNV else 0) | 3 => (!nan && decide (c ≤ 0), if nan then fNV else 0)
  | 4 => (!nan && decide (c > 0), if nan then fNV else 0) | _ => (!nan && decide (c ≥ 0), if nan then fNV else 0)

/-- The mask register that an instruction writes, and what each bit below vl becomes, with its flag (R145, R146). -/
def maskElem (s : State) (o : COp) : Option (BitVec 3 × (Nat → Bool × FFlags)) :=
  match o with
  | .vec p (.cmp fl a2 a1 cond kd) => some (kd, fun e =>
      if !s.on p.k e then (false, 0)
      else if fl then fltTest cond (s.fsrc p 1 a1 e) (s.fsrc p 2 a2 e)
      else
        let uns := cond = 4 ∨ cond = 5 ∨ cond = 8 ∨ cond = 9
        (intTest cond s.vw (intData p 1 s.vw uns (s.src a1 s.vw e)) (intData p 2 s.vw uns (s.src a2 s.vw e)), 0))
  | .kop f kd a b => some (kd, fun e =>
      ((match f with
        | 0 => s.on a e && s.on b e | 1 => s.on a e || s.on b e | 2 => s.on a e ^^ s.on b e | 3 => s.on a e && !s.on b e
        | 4 => !s.on a e | _ => s.on a e), 0))
  | _ => none

/-- The g register that an instruction writes, and its value (R147, R150). -/
def scalarElem (s : State) (o : COp) : Option (BitVec 5 × Word) :=
  match o with
  | .ksc first rd k =>
    some (rd, if first then ((s.actives k).head?.map (BitVec.ofNat 64)).getD (BitVec.allOnes 64)
      else BitVec.ofNat 64 (s.actives k).length)
  | .vec _ (.vg .ext gs a d) =>
    let v := s.srcAny a s.vw (s.g gs).toNat
    some (d.setWidth 5, if s.vflt then BitVec.ofNat 64 v else BitVec.ofInt 64 (asSigned s.vw v))
  | _ => none

/-! Memory accesses of convoys. -/

/-- The translation of an IPA for the acting hart is cached, or needs no walk (R345, R351). -/
def State.Settled (s : State) (ipa : Nat) : Prop :=
  s.owner s.cur = 0 ∨ pagedSpace (ipaSpace ipa) = false ∨ (tlbHit s (s.agent s.cur) ipa).isSome = true

/-- An access of n bytes at va passes the checks of R241 and reaches, through a translation already cached or one that needs none,
sound memory of the hart's own die at the storage address given, in a line without replicas. -/
def State.Lane (s : State) (va : Word) (n : Nat) (need : Need) (atom : Bool) (key : Nat) (leaf : Word) : Prop :=
  ∃ ipa, hartCheck s s.cur va.toNat n n need atom = .ok ipa ∧ (translate s (s.agent s.cur) ipa need).2 = .ok key leaf ∧
    s.Settled ipa ∧ s.AtHome ipa ∧ s.Sound (s.owner s.cur) ipa key n ∧ s.holders (keyLine key) = []

/-- Ranges of n bytes from the storage addresses of different lanes do not meet. -/
def Apart (es : List Nat) (key : Nat → Nat) (n : Nat) : Prop :=
  ∀ e f, e ∈ es → f ∈ es → e ≠ f → key e + n ≤ key f ∨ key f + n ≤ key e

/-- VA of element e of size bytes (R249): flat, strided, or by index register. -/
def elementVa (s : State) (form : Nat) (base aux : BitVec 5) (size e : Nat) : Word :=
  let b := (s.g base).toInt
  match form with
  | 0 => BitVec.ofInt 64 (b + (s.g aux).toInt + e * size)
  | 1 => BitVec.ofInt 64 (b + e * (s.g aux).toInt)
  | _ => BitVec.ofInt 64 (b + asSigned (8 * size) (laneOf (s.me.v aux.toNat) (8 * size) e))

/-- A vector load: mask, whether non-blocking, class, destination and VAs (R248). -/
def vecLoad (i : Instr) (s : State) : Option (BitVec 3 × Bool × Nat × BitVec 7 × (Nat → Word)) :=
  match i with
  | .vld _ m nb c x b d => some (m.setWidth 3, nb == 1, c.toNat, d, elementVa s 0 b x (s.vw / 8))
  | .vlds _ m nb c x b d => some (m.setWidth 3, nb == 1, c.toNat, d, elementVa s 1 b x (s.vw / 8))
  | .vldx _ m nb c x b d => some (m.setWidth 3, nb == 1, c.toNat, d, elementVa s 2 b x (s.vw / 8))
  | .vldff _ m c x b d => some (m.setWidth 3, false, c.toNat, d, elementVa s 0 b x (s.vw / 8))
  | _ => none

/-- A vector store: mask, whether non-blocking, class, source and VAs (R248). -/
def vecStore (i : Instr) (s : State) : Option (BitVec 3 × Bool × Nat × BitVec 7 × (Nat → Word)) :=
  match i with
  | .vst _ m nb c x b d => some (m.setWidth 3, nb == 1, c.toNat, d, elementVa s 0 b x (s.vw / 8))
  | .vsts _ m nb c x b d => some (m.setWidth 3, nb == 1, c.toNat, d, elementVa s 1 b x (s.vw / 8))
  | .vstx _ m nb c x b d => some (m.setWidth 3, nb == 1, c.toNat, d, elementVa s 2 b x (s.vw / 8))
  | _ => none

/-- A vector atomic: prefix, operation, class, VA register, old-value register unless non-blocking, operand register (R267). -/
def vecAmo (i : Instr) : Option (Pfx × BitVec 4 × Nat × BitVec 5 × Option (BitVec 5) × BitVec 5) :=
  let plain : Pfx := ⟨0, 0, 0, 0, 0⟩
  let old (d : BitVec 5) : Option (BitVec 5) := if d = 31 then none else some d
  match i with
  | .vamo _ op c va d v => some (plain, op, c.toNat, va, old d, v)
  | .vamoNb _ op c va v => some (plain, op, c.toNat, va, none, v)
  | .prefixed64BitForm _ p (.amo op c va d v) => some (p, op, c.toNat, va, old d, v)
  | _ => none

/-- Operand of lane e of a vector atomic after its modifiers. -/
def amoData (s : State) (p : Pfx) (op : BitVec 4) (v : BitVec 5) (e : Nat) : Nat :=
  let x := laneOf (s.me.v v.toNat) s.vw e
  if op = 11 then fltData p 1 s.vw x else intData p 1 s.vw (op == 6 || op == 7 || op == 10) x

/-- What an atomic stores, FADD included (R265). -/
def atomicNew (op w old a cmp : Nat) : Option Nat :=
  if op = 11 then some (FFmt.f32.rne (sumNums [FFmt.f32.dec old, FFmt.f32.dec a] false).1).1 else atomicValue op w old a cmp

/-- The token of VACQ (R272). -/
def State.token (s : State) : Nat :=
  2 ^ 63 + s.me.c.ctxid.toNat * 2 ^ 32 + (s.cur / 512 * 384 + s.cur / 128 % 4 * 96 + s.cur % 128 / 2 * 2 + s.cur % 2)

/-- VA of lane e of VAMO, VACQ and VREL. -/
def laneVa (s : State) (va : BitVec 5) (e : Nat) : Word := (s.me.v va.toNat).extractLsb' (64 * e) 64

/-- The lane is the lowest of its VA among those given (R272). -/
def leads (s : State) (va : BitVec 5) (es : List Nat) (e : Nat) : Bool :=
  es.all fun f => !(f < e && laneVa s va f == laneVa s va e)

/-- An outstanding element as its instruction issues it. -/
def issuedAs (y : Elt) : Nat × EltKind × Nat × Nat × Nat × Nat × List Byte := (y.e, y.kind, y.va, y.ipa, y.size, y.cls, y.data)

/-- What a non-blocking instruction issues: its mask, class, the bytes of an element, its permissions, whether it is an atomic or
tagged access, the element's kind, its VA and its data (R251, R270, R279). -/
def nonBlocking (i : Instr) (s : State) :
    Option (BitVec 3 × Nat × Nat × Need × Bool × EltKind × (Nat → Word) × (Nat → List Byte)) :=
  let n := s.vw / 8
  match i, vecLoad i s, vecStore i s, vecAmo i with
  | .vldf _ m nb c x b _, _, _, _ =>
    if nb = 1 then some (m.setWidth 3, c.toNat, 4, needRW, true, .tagRead, elementVa s 0 b x 4, fun _ => []) else none
  | _, some (k, true, c, _, va), _, _ => some (k, c, n, needR, false, .read, va, fun _ => [])
  | _, _, some (k, true, c, d, va), _ => some (k, c, n, needW, false, .write, va, fun e => toBytes n (s.src d s.vw e))
  | _, _, _, some (p, op, c, va, none, v) =>
    some (p.k, c, n, needRW, true, .amo op, laneVa s va, fun e => toBytes n (amoData s p op v e))
  | _, _, _, _ => none

/-- The pairs of a stored and a decoded format that a binding may have, by their codes (R253). -/
def streamPair (sf df : Nat) : Prop :=
  (sf = df ∧ sf ≤ 11) ∨ (1 ≤ sf ∧ sf ≤ 4 ∧ df = 0) ∨ (3 ≤ sf ∧ sf ≤ 4 ∧ df = 1) ∨
  (6 ≤ sf ∧ sf ≤ 7 ∧ (df = 5 ∨ df = 10)) ∨ (sf = 5 ∧ df = 10) ∨ (8 ≤ sf ∧ sf ≤ 9 ∧ df = 0)

/-- VBIND refuses a record (R254): a nonzero bit that must be 0, an invalid GS, formats that do not go together or belong to a feature
that is not accepted (QFMT 1, F8 2), a BASE or a STRIDE that does not fit the stored width, a stride of Q4, or metadata at an address
that is not a multiple of 4. -/
def State.BindRefused (s : State) (r : BitVec 256) : Prop :=
  let at_ (b w : Nat) : Nat := r.toNat / 2 ^ b % 2 ^ w
  let sf := at_ 96 4
  let df := at_ 100 4
  let bytes := [4, 2, 2, 1, 1, 2, 1, 1, 1, 1, 4, 8].getD sf 1
  at_ 106 21 ≠ 0 ∨ at_ 104 2 = 3 ∨ ¬ streamPair sf df ∨
  ((sf = 8 ∨ sf = 9 ∨ df = 8 ∨ df = 9) ∧ hasFeature s s.cur 1 = false) ∨
  ((sf = 3 ∨ sf = 4 ∨ df = 3 ∨ df = 4) ∧ hasFeature s s.cur 2 = false) ∨
  at_ 0 64 % bytes ≠ 0 ∨ at_ 64 32 % bytes ≠ 0 ∨ (sf = 9 ∧ at_ 64 32 ≠ 0) ∨ ((sf = 8 ∨ sf = 9) ∧ at_ 128 64 % 4 ≠ 0)

/-! Tiles and plane rows. -/

/-- Word j of row i of a tile (R79). -/
def Hart.word (x : Hart) (t : BitVec 3) (i j : Nat) : Nat := laneOf (x.tile t.toNat i) 32 j

/-- Row and column of element e of line n of a tile: a row, a column or a diagonal (R182). -/
def lineCell (dir : BitVec 2) (n e : Nat) : Nat × Nat :=
  if dir = 0 then (n, e) else if dir = 1 then (e, n) else (e, (e + n) % 128)

/-- Line that a g register names. -/
def State.line (s : State) (r : BitVec 5) : Nat := (s.g r).toNat % 128

/-- Columns that hold power. -/
def State.powered (s : State) : Nat := 32 * ((s.core (s.cur / 2)).q.toNat + 1)

/-- No register of any kind but those of the v map is different. -/
def Hart.SameVectors (x y : Hart) : Prop := ∀ r, r < 72 → y.v r = x.v r

/-- Every word of every tile but tile t is as before. -/
def Hart.OtherTiles (x y : Hart) (t : BitVec 3) : Prop := ∀ u : BitVec 3, u ≠ t → ∀ i, i < 128 → y.tile u.toNat i = x.tile u.toNat i

/-- Products of the elements of two array words added to an accumulator word (R109 to R111). -/
def accumulated (mt : BitVec 22) (bf acc aw bw : Nat) : Nat × BitVec 4 :=
  mstep mt (mtAf mt).toNat bf acc ((wordElems (mtAf mt).toNat aw).zip (wordElems bf bw))

/-- The sum over the code pairs of two words of the products of the codes, each less the zero point of its record (R112). -/
def codeSum (af aw bw ra rb : Nat) : Int :=
  (((wordElems af aw).zip (wordElems af bw)).map fun e => ((e.1 : Int) - (recParts af ra).2) * ((e.2 : Int) - (recParts af rb).2)).sum

/-- An F32 accumulator word after a group: the product of the two scales and the group's integer has been added to it (R110, R112). -/
def grouped (af acc ra rb : Nat) (i : Int) : Nat :=
  (addProducts acc [[(recParts af ra).1, (recParts af rb).1, Num.ofInt i]]).1 % 2 ^ 32

/-- The entries of a compressed plane row: column and value, up to the first column of 0xFFFF (R191). -/
def compressed (x : Hart) (r : Nat) : List (Nat × Nat) :=
  (((List.range 128).map fun j => laneOf (mget 0 x.f.plane r) 32 j).takeWhile fun w => w / 2 ^ 16 != 0xFFFF).map fun w =>
    (w / 2 ^ 16, w % 2 ^ 16)

/-! Steps of other agents. -/

/-- Nothing but the record of die d has changed. -/
def OnlyDie (s t : State) (d : Nat) : Prop := t = { s with dies := t.dies } ∧ ∀ e, e ≠ d → t.die e = s.die e

/-- Nothing but the record of module m has changed. -/
def OnlyModule (s t : State) (m : Nat) : Prop := t = { s with modules := t.modules } ∧ ∀ e, e ≠ m → t.md e = s.md e

/-- Nothing but context record o of module m has changed. -/
def OnlyContext (s t : State) (m o : Nat) : Prop :=
  OnlyModule s t m ∧ t.md m = { s.md m with ctxs := (t.md m).ctxs } ∧ ∀ e, e ≠ o → t.ctx m e = s.ctx m e

/-- Nothing but the channels has changed. -/
def OnlyChannels (s t : State) : Prop := t = { s with chans := t.chans }

/-- Nothing but a message to the outside is new. -/
def Says (s t : State) (x : Msg) : Prop := t = { s with out := s.out ++ [x] }

/-- The state with hart h as the acting hart. -/
def State.acting (s : State) (h : Nat) : State := { s with cur := h }

/-- Hart h may go on: it runs, its core's lanes are not stalled, nothing is to be saved or restored, and it does not wait. -/
def State.Moves (s : State) (h : Nat) : Prop :=
  (s.hart h).st = .run ∧ (s.core (h / 2)).stall = 0 ∧ (s.hart h).saving = none ∧ (s.hart h).rebind = false ∧
  (∀ e ∈ (s.hart h).pend, e.place ≠ .full) ∧ (s.hart h).hold = none

/-- An agent's translation of an IPA needs no walk. -/
def State.SettledFor (s : State) (a : Agent) (ipa : Nat) : Prop :=
  a.owner = 0 ∨ pagedSpace (ipaSpace ipa) = false ∨ (tlbHit s a ipa).isSome = true

/-- An agent's access at an IPA, its checks passed, reaches n sound bytes of memory of its own die at a storage address, in a
line without replicas. -/
def State.AgentAt (s : State) (a : Agent) (ipa n : Nat) (need : Need) (key : Nat) : Prop :=
  (∃ leaf, (translate s a ipa need).2 = .ok key leaf) ∧ s.SettledFor a ipa ∧ ipaHome ipa = a.die ∧ ipaSpace ipa ≠ 13 ∧
  a.told = none ∧ s.Open ipa ∧ s.Sound a.owner ipa key n ∧ s.holders (keyLine key) = []

/-- The one outstanding element of hart h, not under way to another die and of no commit unit that still waits, reaches n sound bytes
at a storage address, no page of it has been asked for, and no older entry of its class stands in the side log of its core. -/
def State.Element (s : State) (h : Nat) (el : Elt) (n : Nat) (need : Need) (key : Nat) : Prop :=
  (s.hart h).pend = [el] ∧ (s.hart h).seen = [] ∧ el.asked s h = false ∧ behindLog s h el = false ∧ el.place ≠ .sent ∧
  (s.hart h).uncommitted el = false ∧
  s.AgentAt (el.agent h false) el.ipa n need key

/-- An agent's access at a VA of a collective program passes its checks and reaches n sound bytes at a storage address. -/
def State.ProgramAt (s : State) (x : Sequencer) (a : Agent) (va n align : Nat) (need : Need) (atom : Bool) (key : Nat) : Prop :=
  ∃ ipa, seqAddr s x a va n align need atom = .ok ipa ∧ s.AgentAt a ipa n need key

/-- An access at a VA of sequencer q of a die passes its checks and reaches n sound bytes at a storage address. -/
def State.SequencerAt (s : State) (die q : Nat) (x : Sequencer) (va n align : Nat) (need : Need) (atom : Bool) (key : Nat) : Prop :=
  s.ProgramAt x (x.agent die q) va n align need atom key

/-- The sequencer runs, has nothing left of a step or an end, and its next step word is w. -/
def State.AtStep (s : State) (die q w : Nat) : Prop :=
  let x := s.seq die q
  x.st = .run ∧ x.ending = none ∧ x.written = none ∧ x.target = none ∧ x.step < 4096 ∧ x.byIpa = false ∧
  s.stalled (seqSource die q) = false ∧ toldPage s x.told x.owner = false ∧
  ∃ key, s.SequencerAt die q x ((x.va + 64 + 8 * x.step) % 2 ^ 64) 8 8 needR false key ∧ w = leBytes (s.mem.bytes key 8)

/-- An agent reads n bytes at a VA, of sound memory of its own die. -/
def State.AgentReads (s : State) (a : Agent) (va n align : Nat) (bs : List Byte) : Prop :=
  ∃ ipa key, issueCheck s a 0 va n align needR false = .ok ipa ∧ s.AgentAt a ipa n needR key ∧ bs = s.mem.bytes key n

/-- The level-M control hart that a release leaves (R380, R381). -/
def Hart.Released (x : Hart) (entry : Word) : Prop :=
  x = { Hart.idle with st := .run, pc := x.pc, c := { Csrs.zero with prv := 3 } } ∧ x.pc.toNat = entry.toNat / 2 * 2

end Sys2Proof.Machine
end

