-- ==== Sys2Proof/Certificates/Slice0/Obligations.lean ====
section
/-! DEFINITION. The statements for the provers. -/

open Sys2Proof Sys2Proof.Machine

/-! Encoding and the step. -/

/-- R42 to R67: the decoder reads back every operand of every instruction from the bytes that its encoding gives, and leaves the
bytes after it. -/
def Obligations.DecodeOfEncode : Prop :=
  ∀ (i : Instr) (n : Nat) (w : BitVec 64) (rest : List Byte), wellFormed i = true → encode i = some (n, w) →
    decode (toBytes n w.toNat ++ rest) = .ok (i, rest)

/-- R69: no byte sequence means an instruction by a second encoding: what decodes is what the encoder writes. -/
def Obligations.EncodeOfDecode : Prop :=
  ∀ (bs rest : List Byte) (i : Instr), decode bs = .ok (i, rest) →
    wellFormed i = true ∧ ∃ n w, encode i = some (n, w) ∧ bs = toBytes n w.toNat ++ rest

/-- R42 to R67: words written out from the encodings decode to the instructions that they stand for: ADDI g5, g3, -4; ADD; BEQ; LD;
VADD and VLD; TZERO; VACQ; C.NOP; C.VADD o1, o2, o3; and the words all zero, with a reserved major and with C = 1 in a scalar word are
no instructions. -/
def Obligations.DecodeWords : Prop :=
  decodeTableWord 32 (fieldAt 0x02 2 + fieldAt 5 9 + fieldAt 3 14 + fieldAt 0x1FFC 19) = some (.addi 5 3 0x1FFC) ∧
  decodeTableWord 32 (fieldAt 0x01 2 + fieldAt 21 9 + fieldAt 14 14 + fieldAt 25 19) = some (.add 21 14 25) ∧
  decodeTableWord 32 (fieldAt 0x0D 2 + fieldAt 14 9 + fieldAt 25 14 + fieldAt 0x15A3 19) = some (.beq 14 25 0x15A3) ∧
  decodeTableWord 32 (fieldAt 0x19 2 + fieldAt 29 9 + fieldAt 18 14 + fieldAt 11 19 + fieldAt 0x1A6 23) = some (.ld 29 18 11 0x1A6) ∧
  decodeTableWord 32 (fieldAt 1 1 + fieldAt 0x42 2 + fieldAt 0x19 9 + fieldAt 0x23 16 + fieldAt 0x46 23 + fieldAt 2 30) =
    some (.vadd true 2 0x46 0x23 0x19) ∧
  decodeTableWord 32 (fieldAt 0x71 2 + fieldAt 0x2D 9 + fieldAt 18 16 + fieldAt 22 21 + fieldAt 11 26 + fieldAt 1 30) =
    some (.vld false 0 1 11 22 18 0x2D) ∧
  decodeTableWord 64 (3 + fieldAt 1 2 + fieldAt 1 3 + fieldAt (fieldAt 5 9) 32) = some (.tzero true 5) ∧
  decodeTableWord 64 (3 + fieldAt 5 16 + fieldAt (fieldAt 0x34 2 + fieldAt 3 9 + fieldAt 22 14 + fieldAt 11 19) 32) =
    some (.vacq false 5 11 22 3) ∧
  decodeTableWord 16 0x002D = some .cNop ∧ decodeTableWord 16 0x3479 = some (.cVadd 3 2 1) ∧
  decodeTableWord 32 0 = none ∧ decodeTableWord 32 (fieldAt 0x3F 2) = none ∧
  decodeTableWord 32 (fieldAt 1 1 + fieldAt 0x01 2) = none

/-- R18, R25, R26, R41, R324: when the parcels at the acting hart's pc hold a scalar instruction, the step is its meaning; when they
hold a convoy instruction with C = 1 and the next parcel ends the convoy, and the other hart of the core neither executes a convoy nor
waits for pipes, the step is the meaning of that instruction. afterTurn and closeTurn are what the model's step adds (log 1). -/
def Obligations.StepRunsFetched : Prop :=
  (∀ (s f : State) (w : Word) (n : Nat) (i : Instr), s.Issues → fetchInsn s s.cur s.me.pc = .ok f (w, n) →
      decodeWord w = .ok i → startsConvoy w = false →
      step s = closeTurn s (afterTurn s.cur (exec i ((f.leftEntry s.cur).fetched s.cur)))) ∧
  (∀ (s f f' : State) (w : Word) (n : Nat) (i : Instr), s.Issues → fetchInsn s s.cur s.me.pc = .ok f (w, n) →
      decodeWord w = .ok i → startsConvoy w = true → s.me.nb = [] → s.me.ready = none →
      (s.hart (sibling s.cur)).convoy = none → (s.hart (sibling s.cur)).ready = none →
      fetchConvoy s.cur (2 ^ 57) (s.me.pc + BitVec.ofNat 64 n) [slotAt s.me.pc (w, n)] (f.leftEntry s.cur) =
        .ok f' [slotAt s.me.pc (w, n)] →
      step s = closeTurn s (afterTurn s.cur (exec i ((f'.fetched s.cur).hasPipes s.cur))))

/-- R378, R380: State.reset is in canonical form, and is the pod in standby: no module has power, no bring-up step runs, READY is 0 and
every hart is IDLE. That every byte of memory and every register of an IDLE hart reads 0 there is the model's choice (log 2, log 3,
log 4). -/
def Obligations.ResetState : Prop :=
  Canonical State.reset ∧ State.reset.agenda = [] ∧ (∀ h, State.reset.hart h = Hart.idle) ∧ (∀ a, State.reset.mem.byte a = 0) ∧
  ∀ m, (State.reset.md m).on = false ∧ (State.reset.md m).ready = false ∧ (State.reset.md m).stage = 0 ∧
    (State.reset.md m).step = none

/-- In every state whose memory and register maps are in canonical form (addresses strictly rising, no default value listed), a step
leaves them so, whichever hart or other agent takes it. Model's choice of representation: log 1, log 4. -/
def Obligations.StepKeepsCanonicalForms : Prop :=
  ∀ s t : State, Canonical s → step s = .next t → Canonical t

/-! Scalar, control and system instructions. -/

/-- R116 to R120, R67: each two-operand row, and each row with an immediate and its compressed form, writes its result, as integers
give it, to rd and nothing else; a write to g0 is dropped. -/
def Obligations.ScalarArithmetic : Prop :=
  (∀ (i : Instr) (s : State) (v : Word), oprValue i (s.g (oprRegs i).2.1) (s.g (oprRegs i).2.2) = some v →
      ∃ t, exec i s = .next t ∧ s.Wrote t (oprRegs i).1 v (s.me.pc + 4)) ∧
  (∀ (i : Instr) (s : State) (d : BitVec 5) (v n : Word), immValue i s = some (d, v, n) →
      ∃ t, exec i s = .next t ∧ s.Wrote t d v (s.me.pc + n))

/-- R121, R122, R128, R129, R303: a jump writes the address after it to its link register and goes to its target, whatever stands
there; a branch goes to PC + o when its condition holds, past itself otherwise, and writes no register; C.NOP, and SAFE and C.SAFE
while no pre-emption is pending, retire and change nothing else. -/
def Obligations.ControlTransfers : Prop :=
  (∀ (i : Instr) (s : State) (d : BitVec 5) (tgt n : Word), jumpTarget i s = some (d, tgt, n) →
      ∃ t, exec i s = .next t ∧ s.Wrote t d (s.me.pc + n) tgt) ∧
  (∀ (i : Instr) (s : State) (p : Prop) (o : Int) (n : Word), branchTest i s = some (p, o, n) →
      ∃ t, exec i s = .next t ∧
        (p → s.Passed t (BitVec.ofInt 64 (s.me.pc.toInt + o))) ∧ (¬ p → s.Passed t (s.me.pc + n))) ∧
  (∀ s : State, (∃ t, exec .cNop s = .next t ∧ s.Passed t (s.me.pc + 2)) ∧
      (s.me.c.preq = false →
        (∀ idx, ∃ t, exec (.safe idx) s = .next t ∧ s.Passed t (s.me.pc + 4)) ∧
        (∀ idx, ∃ t, exec (.cSafe idx) s = .next t ∧ s.Passed t (s.me.pc + 2))))

/-- R125, R325: TRAP takes its trap, with its code in tval and its own address in epc, at every level, and does not retire. -/
def Obligations.TrapEnters : Prop :=
  ∀ (s : State) (code : BitVec 15), ∃ t, exec (.trap code) s = .next t ∧ s.Trapped t 15 (BitVec.ofNat 64 code.toNat)

/-- R48, R52, R69: below its level a privileged instruction traps with PRIVILEGE and its parcels, and has no other effect. -/
def Obligations.PrivilegeRefused : Prop :=
  ∀ (i : Instr) (s : State) (l : BitVec 2) (n : Nat) (w : Word), wellFormed i = true → levelOf i = some l →
    s.me.c.prv.toNat < l.toNat → (∀ b, featureOf i = some b → hasFeature s s.cur b = true) → encode i = some (n, w) →
    ∃ t, exec i s = .next t ∧ s.Trapped t 14 w

/-- R126: SRET at level S or above with PP not M, and MRET at level M, go to epc at level PP, set PP to U and keep epos and every
register; SRET with PP = M traps with PRIVILEGE. -/
def Obligations.TrapReturns : Prop :=
  (∀ (i : Instr) (s : State), (i = .sret ∧ 1 ≤ s.me.c.prv.toNat ∧ s.me.c.pp ≠ 3) ∨ (i = .mret ∧ s.me.c.prv = 3) →
      ∃ t, exec i s = .next t ∧ OnlyHart s t s.cur ∧
        t.me = { s.me with
          st := .run, pc := s.me.c.epc, hold := none, served := none
          c := { s.me.c with instret := s.me.c.instret + 1, prv := s.me.c.pp, pp := 0 } }) ∧
  (∀ s : State, 1 ≤ s.me.c.prv.toNat → s.me.c.pp = 3 → ∃ t, exec .sret s = .next t ∧ s.Trapped t 14 0x0100004C)

/-- R127: HALT at level M with no access outstanding retires and stops the hart, with epc after it and the hart's CHALT bit set;
with an access outstanding it waits. -/
def Obligations.HaltStops : Prop :=
  ∀ s : State, s.me.c.prv = 3 →
    (s.me.Quiet → ∃ t, exec .halt s = .next t ∧ t = { s with harts := t.harts, modules := t.modules } ∧
      t.me = { s.me with
        st := .halted, pc := s.me.pc + 4, hold := none, served := none
        c := { s.me.c with instret := s.me.c.instret + 1, epc := s.me.pc + 4 } } ∧
      (∀ j, j ≠ s.cur → t.hart j = s.hart j) ∧
      (∀ m, t.md m = { s.md m with chalt := (t.md m).chalt } ∧ (m ≠ s.cur / 512 → t.md m = s.md m)) ∧
      (t.md (s.cur / 512)).chalt.getLsbD (2 * (s.cur / 128 % 4) + s.cur % 2) = true) ∧
    (s.me.pend ≠ [] → (∀ e ∈ s.me.pend, e.cls < 16) → ∃ t, exec .halt s = .next t ∧ s.Waits t .halt)

/-- R130, R131: CSRR, and CSRS and CSRC with g0, write the CSR's value to rd and nothing else. CSRW, CSRS and CSRC give rd the old
value and write the RW bits of the CSR alone; a write of 0b10 to status.PP is ignored; no other CSR but instret, and no register but
rd, changes. -/
def Obligations.CsrAccess : Prop :=
  (∀ (i : Instr) (s : State) (d : BitVec 5) (n : BitVec 11) (v : Nat),
      i = .csrr d n ∨ i = .csrs d n 0 ∨ i = .csrc d n 0 → csrWord s n.toNat = some v → n.toNat / 2 ^ 9 ≤ s.me.c.prv.toNat →
      ∃ t, exec i s = .next t ∧ s.Wrote t d (BitVec.ofNat 64 v) (s.me.pc + 4)) ∧
  (∀ (i : Instr) (s : State) (d : BitVec 5) (n : BitVec 11) (w : Word) (old keep set : Nat),
      csrNew i s = some (d, n, w) → csrWord s n.toNat = some old → csrMask n.toNat = some (keep, set) →
      n.toNat / 2 ^ 9 ≤ s.me.c.prv.toNat →
      ∃ t, exec i s = .next t ∧ OnlyHart s t s.cur ∧
        t.g d = (if d = 0 then 0 else BitVec.ofNat 64 old) ∧ (∀ r, r ≠ d → t.g r = s.g r) ∧
        (n.toNat = 0x201 ∧ w.toNat % 4 = 2 → csrWord t n.toNat = some old) ∧
        (¬ (n.toNat = 0x201 ∧ w.toNat % 4 = 2) →
          csrWord t n.toNat = some ((old &&& keep) ||| (w.toNat &&& set))) ∧
        (∀ j, j ≠ n.toNat → j ≠ 0x104 → csrWord t j = csrWord s j) ∧
        t.me = { s.me with
          st := .run, pc := s.me.pc + 4, hold := none, served := none, f := { s.me.f with g := t.me.f.g }, c := t.me.c })

/-- R86 to R88: a write of maxvl, once the other hart's convoy has drained, sets Q, stalls the core, gives rd the old value, clamps vl
of both harts to the new effective VLMAX, and leaves zero in every slice of a quarter that had or has no power: of the vector, operand
and latch registers, of the mask registers, and the columns of the tiles; the powered slices keep their bits, and nothing else of
either hart changes but the pc and instret of the writer. That the stall counts the cycle of the write too is the model's choice
(log 12). -/
def Obligations.MaxvlWrite : Prop :=
  ∀ (i : Instr) (s : State) (d : BitVec 5) (w : Word), csrNew i s = some (d, 0x200, w) → 1 ≤ s.me.c.prv.toNat →
    (s.hart (sibling s.cur)).convoy = none → (∀ h, h / 2 = s.cur / 2 → (s.hart h).FilesOk) →
    ∃ t, exec i s = .next t ∧ t.mem = s.mem ∧
      (t.core (s.cur / 2)).q.toNat = w.toNat % 4 ∧ 64 < (t.core (s.cur / 2)).stall ∧
      t.g d = (if d = 0 then 0 else BitVec.ofNat 64 (s.core (s.cur / 2)).q.toNat) ∧ (∀ r, r ≠ d → t.g r = s.g r) ∧
      (∀ h, h / 2 ≠ s.cur / 2 → t.hart h = s.hart h) ∧
      (∀ h, h / 2 = s.cur / 2 →
        (let x := s.hart h
         let y := t.hart h
         let on (width b : Nat) : Bool := decide (b < width * (min (s.core (s.cur / 2)).q.toNat (w.toNat % 4) + 1))
         y.c.vl = min x.c.vl (vlLimit (w.toNat % 4) (x.c.vtype.toNat % 4)) ∧
         (∀ n b, (y.v n).getLsbD b = ((x.v n).getLsbD b && on 1024 b)) ∧
         (∀ n b, n ≠ 0 → (y.k n).getLsbD b = ((x.k n).getLsbD b && on 128 b)) ∧
         ∀ u r b, (y.tile u r).getLsbD b = ((x.tile u r).getLsbD b && on 1024 b))) ∧
      (∀ h, h / 2 = s.cur / 2 → h ≠ s.cur → t.hart h = { s.hart h with
        f := { (s.hart h).f with v := (t.hart h).f.v, k := (t.hart h).f.k, t := (t.hart h).f.t }
        c := { (s.hart h).c with vl := (t.hart h).c.vl } }) ∧
      t.me = { s.me with
        st := .run, pc := s.me.pc + 4, hold := none, served := none
        f := { s.me.f with g := t.me.f.g, v := t.me.f.v, k := t.me.f.k, t := t.me.f.t }
        c := { s.me.c with vl := t.me.c.vl, instret := s.me.c.instret + 1 } }

/-- R134: VSETVL and VSETVLI with a vtype that is not reserved set vtype, and set vl and rd to the lesser of the request and the
effective VLMAX; with a reserved one they trap with ILLEGAL_INSTRUCTION and change neither. -/
def Obligations.VectorLengthSet : Prop :=
  ∀ (i : Instr) (s : State) (d a : BitVec 5) (nt : Nat) (n : Nat) (w : Word), encode i = some (n, w) →
    (∃ b, i = .vsetvl d a b ∧ nt = (s.g b).toNat) ∨ (∃ m, i = .vsetvli d a m ∧ nt = m.toNat) →
    (vtypeGood nt → ∃ t, exec i s = .next t ∧ OnlyHart s t s.cur ∧
      (let vl := min (s.g a).toNat (vlLimit (s.core (s.cur / 2)).q.toNat (nt % 4))
       t.me.c.vl = vl ∧ t.g d = (if d = 0 then 0 else BitVec.ofNat 64 vl)) ∧
      t.me.c.vtype.toNat = nt ∧ (∀ r, r ≠ d → t.g r = s.g r) ∧
      t.me = { s.me with
        st := .run, pc := s.me.pc + 4, hold := none, served := none, f := { s.me.f with g := t.me.f.g }
        c := { s.me.c with vl := t.me.c.vl, vtype := t.me.c.vtype, instret := s.me.c.instret + 1 } }) ∧
    (¬ vtypeGood nt → ∃ t, exec i s = .next t ∧ s.Trapped t 1 w)

/-! Scalar accesses of memory. -/

/-- R241, R345: an address that is not a multiple of the access's size traps with MISALIGNED, whatever else is wrong with it; an aligned
address that no range register of the context covers, as they stood when the access issued (R347), or at or above 2^56 on a control
hart, traps with RANGE_FAULT; nothing is read or written. -/
def Obligations.AccessChecks : Prop :=
  (∀ (i : Instr) (s : State) (va : Word) (n : Nat), accessOf i s = some (va, n) → s.me.served = none → va.toNat % n ≠ 0 →
      ∃ t, exec i s = .next t ∧ s.Trapped t 4 va) ∧
  (∀ (i : Instr) (s : State) (va : Word) (n : Nat), accessOf i s = some (va, n) → s.me.served = none → va.toNat % n = 0 →
      (if s.owner s.cur = 0 then 2 ^ 56 ≤ va.toNat
       else 2 ^ 57 ≤ va.toNat ∨ ∀ j, j < 16 →
         rangeCovers (s.me.rng.getD (s.ctx (hartDie s.cur / 4) (s.owner s.cur)).ranges) j va.toNat = false) →
      ∃ t, exec i s = .next t ∧ s.Trapped t 5 va)

/-- R247: a load from sound memory of the hart's own die writes the bytes at its address, extended, to rd and changes no byte of
memory and no other hart. -/
def Obligations.LoadsRead : Prop :=
  ∀ (i : Instr) (s : State) (d : BitVec 5) (va : Word) (n cls ipa key : Nat) (sg : Bool) (len : Word),
    loadForm i s = some (d, va, n, sg, cls, len) → s.Reaches va n needR false ipa key → s.AtHome ipa →
    s.Sound (s.owner s.cur) ipa key n →
    ∃ t, exec i s = .next t ∧ Hart.Wrote { s.me with ic := t.me.ic } t.me d (extended sg n (leBytes (s.mem.bytes key n))) (s.me.pc + len) ∧
      SameMem s t ∧ ∀ j, j ≠ s.cur → t.hart j = s.hart j

/-- R207, R242, R247: a store to sound memory of the hart's own die replaces its bytes and no other byte of memory, and writes no
register. A store to another die retires at once, and memory keeps its bytes until the store is performed: it stands last among the
hart's outstanding accesses with its bytes and its storage address. -/
def Obligations.StoresWrite : Prop :=
  (∀ (i : Instr) (s : State) (w va : Word) (n cls ipa key : Nat) (len : Word),
      storeForm i s = some (w, va, n, cls, len) → s.StoreReaches va n ipa key → s.AtHome ipa →
      s.Sound (s.owner s.cur) ipa key n →
      ∃ t, exec i s = .next t ∧ t.mem.bytes key n = toBytes n w.toNat ∧ SameMemBut s t key n ∧
        Hart.Passed { s.me with seen := t.me.seen, ic := t.me.ic } t.me (s.me.pc + len) ∧
        ∀ j, j ≠ s.cur → t.hart j = s.hart j) ∧
  (∀ (i : Instr) (s : State) (w va : Word) (n cls ipa key : Nat) (len : Word),
      storeForm i s = some (w, va, n, cls, len) → s.StoreReaches va n ipa key → s.me.pend = [] → s.WalksClean ipa →
      ipaHome ipa ≠ hartDie s.cur → ipaSpace ipa ≠ 13 →
      ∃ t e, exec i s = .next t ∧ t.me.pend = [e] ∧ e.kind = .write ∧ e.key = some key ∧ e.data = toBytes n w.toNat ∧ e.cls = cls ∧
        SameMem s t ∧
        Hart.Passed { s.me with pend := t.me.pend, next := t.me.next, early := t.me.early } t.me (s.me.pc + len) ∧
        ∀ j, j ≠ s.cur → t.hart j = s.hart j)

/-- R265: an atomic on sound memory of the hart's own die writes the old value, sign-extended, to rd, and stores the value of its
operation, FADD's in F32 among them, or nothing for a CAS that fails; no other byte changes. -/
def Obligations.AtomicsExchange : Prop :=
  ∀ (i : Instr) (s : State) (d : BitVec 5) (va : Word) (a cmp op w cls ipa key : Nat),
    wellFormed i = true → amoForm i s = some (d, va, a, cmp, op, w, cls) → s.Reaches va (w / 8) needRW true ipa key →
    s.AtHome ipa → s.Sound (s.owner s.cur) ipa key (w / 8) →
    ∃ t, exec i s = .next t ∧
      (let old := leBytes (s.mem.bytes key (w / 8))
       Hart.Wrote { s.me with seen := t.me.seen, ic := t.me.ic } t.me d (extended true (w / 8) old) (s.me.pc + 4) ∧
       match atomicNew op w old a cmp with
        | some v => t.mem.bytes key (w / 8) = toBytes (w / 8) v
        | none => SameMem s t) ∧
      SameMemBut s t key (w / 8) ∧ ∀ j, j ≠ s.cur → t.hart j = s.hart j

/-- R247: in every outcome of a load, or of a store outside space 0xD (done, a trap, a wait), no register but a load's rd and no flag
changes, and no byte of memory outside the accessed lines does, but for words of other owners that a walk of page tables clears (R212,
R348); an access that passes no check changes none. -/
def Obligations.AccessFrame : Prop :=
  (∀ (i : Instr) (s t : State) (d : BitVec 5) (va : Word) (n cls : Nat) (sg : Bool) (len : Word),
      loadForm i s = some (d, va, n, sg, cls, len) → exec i s = .next t →
      (∀ r, r ≠ d → t.g r = s.g r) ∧ t.me.f.v = s.me.f.v ∧ t.me.f.k = s.me.f.k ∧ t.me.f.t = s.me.f.t ∧
      t.me.c.fflags = s.me.c.fflags ∧ t.me.c.mflags = s.me.c.mflags ∧ (∀ j, j ≠ s.cur → t.hart j = s.hart j) ∧
      ((¬ ∃ ipa key, s.Reaches va n needR false ipa key) → SameButWalks s t) ∧
      ∀ ipa key, s.Reaches va n needR false ipa key → SameOutsideLines s t key n) ∧
  (∀ (i : Instr) (s t : State) (w va : Word) (n cls : Nat) (len : Word),
      storeForm i s = some (w, va, n, cls, len) → exec i s = .next t →
      (∀ ipa key, s.StoreReaches va n ipa key → ipaSpace ipa ≠ 13) →
      t.me.f = s.me.f ∧ t.me.c.fflags = s.me.c.fflags ∧ t.me.c.mflags = s.me.c.mflags ∧ (∀ j, j ≠ s.cur → t.hart j = s.hart j) ∧
      ((¬ ∃ ipa key, s.StoreReaches va n ipa key) → SameButWalks s t) ∧
      ∀ ipa key, s.StoreReaches va n ipa key → SameOutsideLines s t key n)

/-! Synchronisation. -/

/-- R275, R276: on a word whose bit is as it must be (full for LDF and LDFK, empty for STE, either for STF) a tagged access completes:
LDF and LDFK give rd the word, sign-extended, and change no byte; STE and STF store the register's low 32 bits; the word is empty
after LDF and full after the others; no other word's bit changes. With the bit the other way LDF, LDFK and STE change neither the
word nor its bit, and their hart parks with a wait record at the bank. -/
def Obligations.TaggedAccess : Prop :=
  (∀ (i : Instr) (s : State) (r : BitVec 5) (va : Word) (cls kind ipa key : Nat), taggedForm i s = some (r, va, cls, kind) →
      s.SyncReady va 4 (taggedNeed kind) ipa key → ipaSpace ipa = 9 ∨ ipaSpace ipa = 10 →
      (kind ≤ 1 → s.isFull key = true) → (kind = 2 → s.isFull key = false) →
      ∃ t, exec i s = .next t ∧ (∀ j, j ≠ s.cur → t.hart j = s.hart j) ∧ (∀ w, w ≠ key → t.isFull w = s.isFull w) ∧
        t.isFull key = decide (kind ≠ 0) ∧
        (kind ≤ 1 → s.me.Wrote t.me r (extended true 4 (leBytes (s.mem.bytes key 4))) (s.me.pc + 4) ∧ SameMem s t) ∧
        (2 ≤ kind → s.me.Passed t.me (s.me.pc + 4) ∧ t.mem.bytes key 4 = toBytes 4 (s.g r).toNat ∧ SameMemBut s t key 4)) ∧
  (∀ (i : Instr) (s : State) (r : BitVec 5) (va : Word) (cls kind ipa key : Nat), taggedForm i s = some (r, va, cls, kind) →
      s.SyncReady va 4 (taggedNeed kind) ipa key → ipaSpace ipa = 9 ∨ ipaSpace ipa = 10 →
      (kind ≤ 1 ∧ s.isFull key = false) ∨ (kind = 2 ∧ s.isFull key = true) →
      ∃ t, exec i s = .next t ∧ s.Parks t i ∧ t.full = s.full ∧
        ∃ q, (t.die (keyDie key)).recs = [q] ∧ q.key = key ∧ q.hart = s.cur ∧ q.kind = kind)

/-- R281, R282: CHINIT with a count of 1 to 65,535 sets EXPECTED and zeroes every other field, and with another count traps with
ILLEGAL_OPERAND and changes nothing. CHARR gives rd the phase; it adds its count below EXPECTED, and at or above it zeroes COUNT and
flips PHASE. Neither changes a byte outside the chamber. -/
def Obligations.ChamberArrival : Prop :=
  (∀ (s : State) (rd a b : BitVec 5) (cls : BitVec 4) (ipa key : Nat), ipaSpace ipa = 9 →
      (s.SyncReady (s.g a) 16 needW ipa key → 1 ≤ (s.g b).toNat → (s.g b).toNat ≤ 65535 →
        ∃ t, exec (.chinit a b cls) s = .next t ∧ s.me.Passed t.me (s.me.pc + 4) ∧
          chamberAt t key = (s.g b).toNat * 2 ^ 16 ∧ SameMemBut s t key 16 ∧ ∀ j, j ≠ s.cur → t.hart j = s.hart j) ∧
      (s.SyncReady (s.g a) 16 needRW ipa key →
        ∃ t, exec (.charr rd a b cls) s = .next t ∧
          s.me.Wrote t.me rd (if (chamberAt s key).testBit 32 then 1 else 0) (s.me.pc + 4) ∧ SameMemBut s t key 16 ∧
          (let w := chamberAt s key
           let c := w % 2 ^ 16 + (s.g b).toNat % 2 ^ 16
           let goal := w / 2 ^ 16 % 2 ^ 16
           if goal ≠ 0 ∧ goal ≤ c then
             chamberAt t key % 2 ^ 16 = 0 ∧ (chamberAt t key).testBit 32 = !w.testBit 32 ∧ (chamberAt t key).testBit 36 = false ∧
               chamberAt t key / 2 ^ 16 % 2 ^ 16 = goal
           else chamberAt t key = withCount w c) ∧ ∀ j, j ≠ s.cur → t.hart j = s.hart j)) ∧
  (∀ (s : State) (a b : BitVec 5) (cls : BitVec 4) (ipa n : Nat) (w : Word),
      hartCheck s s.cur (s.g a).toNat 16 16 needW true = .ok ipa → ipaSpace ipa = 9 →
      (s.g b).toNat = 0 ∨ 65535 < (s.g b).toNat → encode (.chinit a b cls) = some (n, w) →
      ∃ t, exec (.chinit a b cls) s = .next t ∧ s.Trapped t 3 w)

/-- R281, R283, R284: CHWAIT of a chamber whose phase differs from bit 0 of its operand returns and changes nothing; otherwise its hart
parks with a record in the chamber wait list. CHARM of kind 0 clears ARMED alone; CHARM of kind 1 or 2, the feature being accepted and
the trigger VA readable, writes the trigger's IPA, its kind and ARMED in one step. -/
def Obligations.ChamberWaitAndArm : Prop :=
  (∀ (s : State) (a b : BitVec 5) (cls : BitVec 4) (ipa key : Nat), s.SyncReady (s.g a) 16 needR ipa key → ipaSpace ipa = 9 →
      (chamberAt s key).testBit 32 ≠ (s.g b).getLsbD 0 →
      ∃ t, exec (.chwait a b cls) s = .next t ∧ s.me.Passed t.me (s.me.pc + 4) ∧ SameMem s t ∧ ∀ j, j ≠ s.cur → t.hart j = s.hart j) ∧
  (∀ (s : State) (a b : BitVec 5) (cls : BitVec 4) (ipa key : Nat), s.SyncReady (s.g a) 16 needR ipa key → ipaSpace ipa = 9 →
      (chamberAt s key).testBit 32 = (s.g b).getLsbD 0 →
      ∃ t, exec (.chwait a b cls) s = .next t ∧ s.Parks t (.chwait a b cls) ∧
        ∃ q, (t.die (keyDie key)).chRecs = [q] ∧ q.key = key ∧ q.hart = s.cur ∧ q.phase = (s.g b).getLsbD 0) ∧
  (∀ (s : State) (a b : BitVec 5) (cls : BitVec 4) (ipa key : Nat), s.SyncReady (s.g a) 16 needW ipa key → ipaSpace ipa = 9 →
      (s.g b).toNat % 32 = 0 → (s.g b).toNat < 2 ^ 57 →
      ∃ t, exec (.charm a b cls) s = .next t ∧ s.me.Passed t.me (s.me.pc + 4) ∧ SameMemBut s t key 16 ∧
        (∀ j, j ≠ s.cur → t.hart j = s.hart j) ∧
        ∀ n, (chamberAt t key).testBit n = ((chamberAt s key).testBit n && decide (n ≠ 36))) ∧
  (∀ (s : State) (a b : BitVec 5) (cls : BitVec 4) (ipa key tipa kind : Nat), s.SyncReady (s.g a) 16 needW ipa key → ipaSpace ipa = 9 →
      (s.g b).toNat % 32 = kind → (s.g b).toNat < 2 ^ 57 →
      kind = 1 ∧ hasFeature s s.cur 6 = true ∨ kind = 2 ∧ hasFeature s s.cur 10 = true →
      hartCheck s s.cur ((s.g b).toNat / 32 * 32) 32 1 needR false = .ok tipa →
      ∃ t, exec (.charm a b cls) s = .next t ∧ s.me.Passed t.me (s.me.pc + 4) ∧ SameMemBut s t key 16 ∧
        (∀ j, j ≠ s.cur → t.hart j = s.hart j) ∧
        (∀ n, n < 34 ∨ (37 ≤ n ∧ n < 64) ∨ 120 ≤ n → (chamberAt t key).testBit n = (chamberAt s key).testBit n) ∧
        (chamberAt t key).testBit 36 = true ∧ chamberAt t key / 2 ^ 34 % 4 = kind ∧ chamberAt t key / 2 ^ 64 % 2 ^ 56 = tipa % 2 ^ 56)

/-- R223, R228, R237, R246, R286, R306: FENCE retires, changing no register, once no access of its classes is outstanding, without its
response or being collected, no outstanding store has been returned to a read of its classes, and no class of its mask is marked
failed; no read of its classes is then bound early, and with class 15 in its mask no parcel is kept. With an access of its classes outstanding it waits. -/
def Obligations.FenceHolds : Prop :=
  ∀ (s : State) (msk : BitVec 16) (scope : BitVec 3),
    ((∀ e ∈ s.me.pend, msk.getLsbD e.cls = false ∧ ∀ p ∈ e.seenBy, msk.getLsbD p.1 = false) →
      (∀ u ∈ s.me.unacked, msk.getLsbD u.cls = false ∧ ∀ c ∈ u.others, msk.getLsbD c = false) →
      (∀ y ∈ s.me.seen, msk.getLsbD y.cls = false) →
      (∀ c, c < 16 → msk.getLsbD c = true → mget none s.me.failed c = none) →
      ∃ t, exec (.fence msk scope) s = .next t ∧ OnlyHart s t s.cur ∧
        Hart.Passed { s.me with ic := t.me.ic, early := t.me.early } t.me (s.me.pc + 4) ∧
        (∀ r ∈ t.me.early, msk.getLsbD r.cls = false) ∧ t.me.ic = if msk.getLsbD 15 then [] else s.me.ic) ∧
    ((∃ e ∈ s.me.pend, msk.getLsbD e.cls = true) → ∃ t, exec (.fence msk scope) s = .next t ∧ s.Waits t (.fence msk scope))

/-- R246, R279, R366: a FENCE whose classes are quiet, and a FENI, that covers a class marked failed traps with PAGE_FAULT_FATAL and the
VA of the lowest such class, and clears the marks of the classes that it covers and of no other; a counter wait that is over traps on
a failed mark of its class, else on a timeout mark, with the VA that the mark records, and clears that mark. -/
def Obligations.FailedMarksTrap : Prop :=
  (∀ (i : Instr) (s : State) (msk : BitVec 16) (c va : Nat),
      (∃ scope, i = .fence msk scope ∧ s.me.Quiet) ∨ (∃ rd, i = .feni rd msk) →
      c < 16 → msk.getLsbD c = true → mget none s.me.failed c = some va →
      (∀ d, d < c → msk.getLsbD d = true → mget none s.me.failed d = none) → mwf none 0 s.me.failed = true →
      ∃ t, exec i s = .next t ∧ OnlyHart s t s.cur ∧
        Hart.Trapped { s.me with failed := t.me.failed } t.me (isControl s.cur) 7 (BitVec.ofNat 64 va) s.me.pc 0 ∧
        ∀ d, mget none t.me.failed d = if msk.getLsbD d then none else mget none s.me.failed d) ∧
  (∀ (i : Instr) (s : State) (n : BitVec 4) (va : Nat), i = .ccwaitAll n ∨ i = .cCcwait n ∨ (∃ a, i = .ccwaitGe n a) →
      (∀ e ∈ s.me.pend, e.cls ≠ n.toNat) → (∀ o ∈ s.me.nb, o.cls = n.toNat → o.colls = []) →
      (∀ y ∈ s.me.seen, y.cls = n.toNat → y.logged = false) →
      (mget none s.me.failed n.toNat = some va → ∃ t, exec i s = .next t ∧ mget none t.me.failed n.toNat = none ∧
        Hart.Trapped { s.me with failed := t.me.failed } t.me (isControl s.cur) 7 (BitVec.ofNat 64 va) s.me.pc 0) ∧
      (mget none s.me.failed n.toNat = none → mget none s.me.timedOut n.toNat = some va →
        ∃ t, exec i s = .next t ∧ mget none t.me.timedOut n.toNat = none ∧
          Hart.Trapped { s.me with timedOut := t.me.timedOut } t.me (isControl s.cur) 9 (BitVec.ofNat 64 va) s.me.pc 0))

/-- R223, R287: FENI gives rd the hart's next token number and counts it; the token waits for each outstanding write of its classes
that is a side-log entry or whose home is another die (2 * id), for each applied one that is still being collected and each store
sent and not answered (2 * id + 1), and for those alone; with none of them and no token before it it is complete at once. With 8
incomplete tokens FENI waits. FENW of a token above the hart's last traps with FENCE_TOKEN and the token; of a complete one, and of 0,
it retires; of an incomplete one its hart parks. -/
def Obligations.FenceTokens : Prop :=
  (∀ (s : State) (rd : BitVec 5) (msk : BitVec 16),
      (∀ c, c < 16 → msk.getLsbD c = true → mget none s.me.failed c = none) →
      (s.me.tokens.length < 8 → ∃ t, exec (.feni rd msk) s = .next t ∧ OnlyHart s t s.cur ∧
        Hart.Wrote { s.me with feni := s.me.feni + 1, tokens := t.me.tokens } t.me rd (BitVec.ofNat 64 (s.me.feni + 1)) (s.me.pc + 4) ∧
        ∃ l, t.me.tokens = (if l = [] ∧ s.me.tokens = [] then [] else s.me.tokens ++ [(s.me.feni + 1, l)]) ∧
          ∀ n, n ∈ l ↔
            (∃ e ∈ s.me.pend, n = 2 * e.id ∧ msk.getLsbD e.cls = true ∧
              (e.place = .sideLog ∨ (e.kind ≠ .read ∧ e.kind ≠ .tagRead ∧ ipaHome e.ipa ≠ s.cur / 128))) ∨
            (∃ c ∈ s.collapses, n = 2 * c.id + 1 ∧ keyDie (c.line * 128) ≠ s.cur / 128 ∧
              ∃ y ∈ s.me.seen, y.own = true ∧ msk.getLsbD y.cls = true ∧ y.collapse = c.id) ∨
            ∃ u ∈ s.me.unacked, n = 2 * u.id + 1 ∧ msk.getLsbD u.cls = true) ∧
      (8 ≤ s.me.tokens.length → ∃ t, exec (.feni rd msk) s = .next t ∧ s.Waits t (.feni rd msk))) ∧
  (∀ (s : State) (a : BitVec 5),
      (s.me.feni < (s.g a).toNat → ∃ t, exec (.fenw a) s = .next t ∧ s.Trapped t 13 (s.g a)) ∧
      ((s.g a).toNat ≤ s.me.feni → (∀ p ∈ s.me.tokens, (s.g a).toNat < p.1) →
        ∃ t, exec (.fenw a) s = .next t ∧ OnlyHart s t s.cur ∧ Hart.Passed { s.me with early := [] } t.me (s.me.pc + 4)) ∧
      ((s.g a).toNat ≤ s.me.feni → (∃ p ∈ s.me.tokens, p.1 ≤ (s.g a).toNat) → ∃ t, exec (.fenw a) s = .next t ∧ s.Parks t (.fenw a)))

/-! Counters and meters. -/

/-- R235, R366: CCRD gives rd the counter, zero-extended; CCSET writes the counter and no other. CCWAIT ALL, CCWAIT GE and C.CCWAIT park
while something of the class is outstanding, or applied and still being collected, and the target, if any, is not reached; else,
without a mark of the class, they retire and change no register. -/
def Obligations.Counters : Prop :=
  (∀ (s : State) (n : BitVec 4) (r : BitVec 5),
      (∃ t, exec (.ccrd r n) s = .next t ∧ s.Wrote t r (BitVec.ofNat 64 (s.me.ccv n.toNat).toNat) (s.me.pc + 4)) ∧
      ∃ t, exec (.ccset n r) s = .next t ∧ OnlyHart s t s.cur ∧ (t.me.ccv n.toNat).toNat = (s.g r).toNat % 2 ^ 32 ∧
        (∀ m, m ≠ n.toNat → t.me.ccv m = s.me.ccv m) ∧ Hart.Passed { s.me with cc := t.me.cc } t.me (s.me.pc + 4)) ∧
  (∀ (i : Instr) (s : State) (n : BitVec 4) (len : Word) (goal : Prop),
      (i = .ccwaitAll n ∧ len = 4 ∧ goal = False) ∨ (i = .cCcwait n ∧ len = 2 ∧ goal = False) ∨
        (∃ a, i = .ccwaitGe n a ∧ len = 4 ∧ goal = ((s.me.ccv n.toNat - (s.g a).setWidth 32).toNat < 2 ^ 31)) →
      ((goal ∨ ((∀ e ∈ s.me.pend, e.cls ≠ n.toNat) ∧ (∀ o ∈ s.me.nb, o.cls = n.toNat → o.colls = []) ∧
          ∀ y ∈ s.me.seen, y.cls = n.toNat → y.logged = false)) →
        mget none s.me.failed n.toNat = none → mget none s.me.timedOut n.toNat = none →
        ∃ t, exec i s = .next t ∧ OnlyHart s t s.cur ∧ Hart.Passed { s.me with early := [] } t.me (s.me.pc + len)) ∧
      (¬ goal → (∃ e ∈ s.me.pend, e.cls = n.toNat ∧ (e.op ≠ 0 ∨ e.logged = true)) ∨ (∃ o ∈ s.me.nb, o.cls = n.toNat ∧ o.colls ≠ []) ∨
          (∃ y ∈ s.me.seen, y.cls = n.toNat ∧ y.logged = true) →
        ∃ t, exec i s = .next t ∧ s.Parks t i))

/-- R374: MTRRD gives rd the meter of the hart's own context with the pending accumulators of its owner on the four dies of the
module, and changes nothing else; on a control hart it traps with ILLEGAL_INSTRUCTION. -/
def Obligations.MeterReads : Prop :=
  ∀ (s : State) (rd : BitVec 5) (k : BitVec 3) (n : Nat) (w : Word), encode (.mtrrd rd k) = some (n, w) →
    (isControl s.cur = false →
      (let m := s.cur / 512
       let o := s.owner s.cur
       let pend (d : Nat) : Nat := mget 0 (s.die (4 * m + d)).pendM (o * 8 + k.toNat)
       ∃ t, exec (.mtrrd rd k) s = .next t ∧
         s.Wrote t rd (BitVec.ofNat 64 (mget 0 (s.ctx m o).meters k.toNat + (pend 0 + pend 1 + pend 2 + pend 3))) (s.me.pc + 4))) ∧
    (isControl s.cur = true → ∃ t, exec (.mtrrd rd k) s = .next t ∧ s.Trapped t 1 w)

/-! Tables. -/

/-- R343, R346, R347: RNGW writes the RW bits of one word of one range register of the context that its selector names, and no other
word of any context; an access of that context that has issued and holds its hart, not for its turn, keeps the range registers of its issue. RNGR gives rd such
a word. -/
def Obligations.RangeRegisters : Prop :=
  ∀ (s : State) (a b : BitVec 5) (w : BitVec 8) (r o : Nat), w.toNat < 3 → 1 ≤ s.me.c.prv.toNat → s.me.Quiet →
    rangeNamed s (s.g a).toNat r o →
    (∃ t, exec (.rngr b a w) s = .next t ∧
      s.Wrote t b (rangeWord (s.ctx (s.cur / 512) o).ranges r w.toNat) (s.me.pc + 4)) ∧
    ∃ t, exec (.rngw a b w) s = .next t ∧ s.me.Passed t.me (s.me.pc + 4) ∧ SameMem s t ∧
      (∀ j, j ≠ s.cur →
        (let kept : Prop := j / 512 = s.cur / 512 ∧ s.owner j = o ∧ ∃ y, (s.hart j).hold = some y ∧ y.why ≠ .order ∧ y.why ≠ .token ∧
           y.why ≠ .coll ∧ ∀ n, y.why ≠ .counter n
         (kept → t.hart j = { s.hart j with rng := some ((s.hart j).rng.getD (s.ctx (s.cur / 512) o).ranges) }) ∧
         (¬ kept → t.hart j = s.hart j))) ∧
      (rangeWord (t.ctx (s.cur / 512) o).ranges r w.toNat).toNat = (s.g b).toNat &&& rangeBits w.toNat ∧
      (∀ r' w', w' < 3 → r' ≠ r ∨ w' ≠ w.toNat →
        rangeWord (t.ctx (s.cur / 512) o).ranges r' w' = rangeWord (s.ctx (s.cur / 512) o).ranges r' w') ∧
      t.ctx (s.cur / 512) o = { s.ctx (s.cur / 512) o with ranges := (t.ctx (s.cur / 512) o).ranges } ∧
      ∀ m o', m ≠ s.cur / 512 ∨ o' ≠ o → t.ctx m o' = s.ctx m o'

/-- R346, R352, R355, R357: a selector or a value that its table does not allow traps with ILLEGAL_OPERAND and changes nothing. -/
def Obligations.TableValuesChecked : Prop :=
  ∀ (i : Instr) (s : State) (a b : BitVec 5) (w : BitVec 8) (n : Nat) (p : Word), wellFormed i = true → encode i = some (n, p) →
    (1 ≤ s.me.c.prv.toNat ∧ (i = .rngw a b w ∨ i = .rngr b a w) ∧ ¬ (∃ r o, rangeNamed s (s.g a).toNat r o)) ∨
    (1 ≤ s.me.c.prv.toNat ∧ i = .ptinv a b ∧
      ((s.g b).toNat / 2 ^ 16 ≠ 0 ∨ (s.g b).getLsbD 14 = true ∨ (s.g b).toNat / 8 % 32 ≠ 0 ∨
        ¬ ∃ o, ownerNamed s ((s.g b).toNat / 2 ^ 8 % 64) o)) ∨
    (s.me.c.prv = 3 ∧ i = .rrtw a b w ∧ (256 ≤ (s.g a).toNat ∨ ¬ regionGood w.toNat (s.g b).toNat)) ∨
    (s.me.c.prv = 3 ∧ i = .iltw a b w ∧ (32 ≤ (s.g a).toNat ∨
      ¬ interleaveGood (s.die (s.cur / 512 * 4 + (s.g a).toNat / 8 % 4)) ((s.g a).toNat % 8) w.toNat (s.g b).toNat)) →
    ∃ t, exec i s = .next t ∧ s.Trapped t 3 p

/-- R354 to R358: RRTW writes the fields of its word, advances GEN modulo 16, sets DEG by the mode, clears the counts, changes no other
region, and leaves no replica of the module's lines. ILTW writes MASK or BASE of one interleave entry of a die of the module,
advances its GEN modulo 16, and moves no data; an outstanding element that it places is placed afresh. That RRTW leaves no replica of
any line of the module, where R357 ends those of the old and the new range, is the model's choice (log 29); that a MASK is not held
against the BASE that stands is log 28. -/
def Obligations.TablesWritten : Prop :=
  (∀ (s : State) (a b : BitVec 5) (w : BitVec 8) (r v : Nat), s.me.c.prv = 3 → s.me.Quiet → w.toNat < 2 → (s.g a).toNat = r →
      r < 256 → (s.g b).toNat = v → regionGood w.toNat v → s.cur < 32768 →
      (let old := mget Region.reset (s.md (s.cur / 512)).regions r
       ∃ t new, exec (.rrtw a b w) s = .next t ∧ s.Served t ∧ new = mget Region.reset (t.md (s.cur / 512)).regions r ∧
        new.gen.toNat = (old.gen.toNat + 1) % 16 ∧ new.rread = 0 ∧ new.window = 0 ∧
        new.deg = (if new.pinned then new.maxdeg else new.mindeg) ∧
        (if w = 0 then new.base = v / 2 ^ 21 % 2 ^ 35 * 2 ^ 21 ∧ new.lsize.toNat = v / 2 ^ 8 % 64 ∧ new.en = v.testBit 0 ∧
            (new.thresh, new.maxdeg, new.mindeg, new.pinned) = (old.thresh, old.maxdeg, old.mindeg, old.pinned)
         else new.thresh.toNat = v / 2 ^ 16 % 2 ^ 16 ∧ new.maxdeg.toNat = v / 2 ^ 8 % 4 ∧ new.mindeg.toNat = v / 2 ^ 6 % 4 ∧
            new.pinned = v.testBit 5 ∧ (new.base, new.lsize, new.en) = (old.base, old.lsize, old.en)) ∧
        (∀ m q, m ≠ s.cur / 512 ∨ q ≠ r → mget Region.reset (t.md m).regions q = mget Region.reset (s.md m).regions q) ∧
        ∀ line d, d < 4 → line * 128 / 2 ^ 42 = s.cur / 512 → mget none t.replicas (line * 4 + d) = none)) ∧
  (∀ (s : State) (a b : BitVec 5) (w : BitVec 8) (c d : Nat), s.me.c.prv = 3 → s.me.Quiet → w.toNat < 2 → (s.g a).toNat < 32 →
      c = (s.g a).toNat % 8 → d = s.cur / 512 * 4 + (s.g a).toNat / 8 → interleaveGood (s.die d) c w.toNat (s.g b).toNat →
      ∃ t, exec (.iltw a b w) s = .next t ∧ Hart.Passed { s.me with early := [] } t.me (s.me.pc + 4) ∧ SameMem s t ∧
        (let afresh (l : List Elt) : List Elt := l.map fun e => { e with key := none, dpa := none }
         ∀ j, j ≠ s.cur → t.hart j = { s.hart j with pend := (t.hart j).pend, early := [] } ∧
          afresh (t.hart j).pend = afresh (s.hart j).pend ∧
          ((∀ e ∈ (s.hart j).pend, e.dpa = none) → (t.hart j).pend = (s.hart j).pend)) ∧
        (mget 0 (t.die d).igen c).toNat = ((mget 0 (s.die d).igen c).toNat + 1) % 16 ∧
        (if w = 0 then (t.die d).mask c = (s.g b).toNat ∧ (t.die d).base c = (s.die d).base c
         else (t.die d).base c = (s.g b).toNat / 2 ^ 8 % 16 ∧ (t.die d).mask c = (s.die d).mask c) ∧
        (∀ c', c' ≠ c → (t.die d).mask c' = (s.die d).mask c' ∧ (t.die d).base c' = (s.die d).base c') ∧
        ∀ d', d' ≠ d → t.die d' = s.die d')

/-- R352: PTINV drops from every cache of the pod the translations of its owner that overlap its page, keeps every other, and
retires when no access of another hart that used one is still on its way. -/
def Obligations.TranslationsInvalidated : Prop :=
  ∀ (s : State) (a b : BitVec 5) (o lo n : Nat), 1 ≤ s.me.c.prv.toNat → s.me.Quiet →
    (∀ p ∈ s.harts, p.2.pend = []) →
    (s.g b).toNat < 2 ^ 16 → (s.g b).getLsbD 14 = false → (s.g b).toNat / 8 % 32 = 0 →
    ownerNamed s ((s.g b).toNat / 2 ^ 8 % 64) o → invalidated (s.g a).toNat (s.g b).toNat lo n →
    ∃ t, exec (.ptinv a b) s = .next t ∧ s.Served t ∧ ∀ e, e ∈ t.tlb ↔ e ∈ s.tlb ∧ ¬ e.hits o lo n

/-- R209, R360: WIN.OPEN of a readable 2 MiB-aligned interval of another module takes the lowest closed entry, advances its SEQ, and
gives rd SEQ * 64 + entry; with no closed entry rd is all ones and no entry changes. WIN.REV closes the entry that its handle names;
WIN.SYNC leaves it open and leaves no line of it on the die; with a handle that names no open entry of the hart's owner both retire
with no effect. -/
def Obligations.Windows : Prop :=
  (∀ (s : State) (rd a b : BitVec 5) (ipa : Nat), hasFeature s s.cur 7 = true → 1 ≤ s.me.c.prv.toNat →
      (s.g a).toNat % 2 ^ 21 = 0 → xlateVa s (s.agent s.cur) (s.g a).toNat needR = .ok ipa → ipaHome ipa / 4 ≠ s.cur / 512 →
      (s.g b).toNat ≠ 0 → (s.g b).toNat % 2 ^ 21 = 0 → (s.g a).toNat + (s.g b).toNat ≤ rangeEnd s (s.g a).toNat →
      (let ws (u : State) (e : Nat) : Window := mget Window.closed (u.die (s.cur / 128)).windows e
       let closed (e : Nat) : Prop := (ws s e).isOpen = false ∧ (ws s e).closing = none
       (∀ e, e < 64 → closed e → (∀ f, f < e → ¬ closed f) →
        ∃ t w, exec (.winOpen rd a b) s = .next t ∧ s.me.Wrote t.me rd (BitVec.ofNat 64 (w.seq.toNat * 64 + e)) (s.me.pc + 4) ∧
          w = ws t e ∧ w.isOpen = true ∧ w.seq = (ws s e).seq + 1 ∧ w.owner = s.owner s.cur ∧ w.base = ipa ∧
          w.len = (s.g b).toNat ∧ (∀ f, f ≠ e → ws t f = ws s f) ∧ SameMem s t) ∧
       ((∀ e, e < 64 → ¬ closed e) →
        ∃ t, exec (.winOpen rd a b) s = .next t ∧ s.Wrote t rd (BitVec.allOnes 64) (s.me.pc + 4)))) ∧
  (∀ (s : State) (a : BitVec 5), hasFeature s s.cur 7 = true → 1 ≤ s.me.c.prv.toNat →
      (∀ e w, handleNames s (s.g a).toNat e w →
        (∃ t, exec (.winRev a) s = .next t ∧ s.Served t ∧
          (mget Window.closed (t.die (s.cur / 128)).windows e).isOpen = false ∧
          ∀ f, f ≠ e → mget Window.closed (t.die (s.cur / 128)).windows f = mget Window.closed (s.die (s.cur / 128)).windows f) ∧
        ∃ t, exec (.winSync a) s = .next t ∧ s.Served t ∧ t.dies = s.dies ∧
          ∀ ipa c, ipa < 2 ^ 56 → w.base ≤ ipa / 128 * 128 → ipa / 128 * 128 < w.base + w.len →
            mget none t.winLines (winKey (s.cur / 128) ipa) = some c → c.owner ≠ w.owner) ∧
      ((∀ e w, ¬ handleNames s (s.g a).toNat e w) →
        (∃ t, exec (.winRev a) s = .next t ∧ s.Passed t (s.me.pc + 4)) ∧
        ∃ t, exec (.winSync a) s = .next t ∧ s.Passed t (s.me.pc + 4)))

/-! Nodes and collectives. -/

/-- R297, R301: NSPAWN of a descriptor in sound memory of the hart's own die gives rd 0 for one without predecessors, unless neither the
Basin nor the spill has room: then rd is 2. The launch then has one more live node and an entry of the hart's owner with that
descriptor waits in the Basin or in the spill; where spilled entries wait, a Basin entry is free and the spill is full, the entry is lost
and the launch's status is 6. A descriptor that still has predecessors gives 1, an invalid one 3, and nothing else changes. -/
def Obligations.SpawnAnswers : Prop :=
  ∀ (s : State) (rd a : BitVec 5) (ipa key : Nat), isControl s.cur = false → hasFeature s s.cur 9 = true →
    s.Reaches (s.g a) 128 needR false ipa key → s.AtHome ipa → s.Sound (s.owner s.cur) ipa key 80 →
    (let m := s.cur / 512
     let desc : Option (Desc × Option Nat) := descOf s (s.agent s.cur) (s.g a).toNat (s.mem.bytes key 80)
     let full : Prop := 4096 ≤ (inBasin s m).length ∧ spillRoom s m (s.owner s.cur) = false
     let room : Prop := basinOpen s m = true ∨ spillRoom s m (s.owner s.cur) = true
     let gives (t : State) (v : Word) : Prop := SameMem s t ∧ (∀ j, j ≠ s.cur → t.hart j = s.hart j) ∧
       Hart.Wrote { s.me with ic := t.me.ic } t.me rd v (s.me.pc + 4)
     let waiting (t : State) : Prop := (t.md m).basin = (s.md m).basin ∧ (t.md m).spilled = (s.md m).spilled
     let launched (t : State) (f : Launch → Launch) : Prop := ∀ nd l, nodeAt s s.cur = some nd → launchOf s m nd.launch = some l →
       launchOf t m nd.launch = some (f l)
     (∀ d aff, desc = some (d, aff) → d.preds = 0 → room →
       ∃ t, exec (.nspawn rd a) s = .next t ∧ gives t 0 ∧ (launched t fun l => { l with live := l.live + 1 }) ∧
         ∃ e, e ∈ (t.md m).basin ++ (t.md m).spilled ∧ e.owner = s.owner s.cur ∧ e.d = d ∧ e.aff = aff ∧ e.node = none ∧
           e.id = s.serial) ∧
     (∀ d aff, desc = some (d, aff) → d.preds = 0 → ¬ room → ¬ full →
       ∃ t, exec (.nspawn rd a) s = .next t ∧ gives t 0 ∧ waiting t ∧
         launched t fun l => { l with status := if l.status = 0 then 6 else l.status }) ∧
     (∀ d aff, desc = some (d, aff) → d.preds = 0 → full →
       ∃ t, exec (.nspawn rd a) s = .next t ∧ gives t 2 ∧ waiting t ∧ (t.md m).launches = (s.md m).launches) ∧
     (∀ d aff, desc = some (d, aff) → d.preds ≠ 0 →
       ∃ t, exec (.nspawn rd a) s = .next t ∧ gives t 1 ∧ waiting t ∧ (t.md m).launches = (s.md m).launches) ∧
     (desc = none → ∃ t, exec (.nspawn rd a) s = .next t ∧ gives t 3 ∧ waiting t ∧ (t.md m).launches = (s.md m).launches))

/-- R16, R73, R80, R301 to R303: NEND of a rank with nothing left to wait for frees its hart, which keeps its registers, and changes no byte of memory unless its stack is being
suspended (R329, R334: the sequencers are saved then); the last rank of a node without successors also ends the
node, and its launch has one live node less. On a control hart NSPAWN, NEND and NYIELD trap with ILLEGAL_INSTRUCTION. -/
def Obligations.NodeEnds : Prop :=
  (∀ (s : State) (nd : Node), isControl s.cur = false → nodeAt s s.cur = some nd → nd.rel = none → s.me.Quiet →
      failedMark s.me (BitVec.allOnes 16) = none → s.me.tokens = [] → s.me.colls = [] →
      (othersLeft nd s.cur = true ∨ (nd.d.nsucc = 0 ∧ ∃ l, launchOf s (s.cur / 512) nd.launch = some l ∧ 1 < l.live)) →
      ∃ t, exec .nend s = .next t ∧ t.hart s.cur = s.me.ended ∧ (∀ j, j ≠ s.cur → t.hart j = s.hart j) ∧
        ((s.die (s.cur / 128)).pState ≠ 2 → SameMem s t) ∧
        (othersLeft nd s.cur = false → nodeOf t (s.cur / 512) (some nd.id) = none ∧
          ∃ l l', launchOf s (s.cur / 512) nd.launch = some l ∧ launchOf t (s.cur / 512) nd.launch = some l' ∧ l'.live + 1 = l.live)) ∧
  (∀ (i : Instr) (s : State) (rd a : BitVec 5) (n : Nat) (w : Word), i = .nspawn rd a ∨ i = .nend ∨ i = .nyield →
      encode i = some (n, w) → isControl s.cur = true → ∃ t, exec i s = .next t ∧ s.Trapped t 1 w)

/-- R303: NYIELD retires; where an entry that the hart's die may run, of a class that the hart's cluster allows, has at least the
node's priority, the hart is also to be saved in full, at element 0 of the address after it, and every other hart of its gang has
PREQ := 1. -/
def Obligations.NodeYields : Prop :=
  ∀ s : State, isControl s.cur = false →
    (let better : Prop := ∃ nd e, nodeAt s s.cur = some nd ∧ e ∈ eligible s (s.cur / 128) ∧
       classAllows e.d.cls (s.cur % 128 / 8) = true ∧ nd.d.prio ≤ effPrio s (s.cur / 128) e
     (¬ better → ∃ t, exec .nyield s = .next t ∧ s.Passed t (s.me.pc + 4)) ∧
     (better → ∃ t, exec .nyield s = .next t ∧ SameMem s t ∧ t.me.saving = some (2, 0, BitVec.allOnes 256) ∧
       Hart.Passed { s.me with saving := t.me.saving, c := { s.me.c with epos := 0 } } t.me (s.me.pc + 4) ∧
       ∀ nd j, nodeAt s s.cur = some nd → j ≠ s.cur →
         (let gang : Prop := ∃ r, (r, RankAt.hart j) ∈ nd.ranks ∧ (s.hart j).st ≠ .idle ∧ isControl j = false
          (gang ∧ (s.hart j).c.preq = false →
            t.hart j = { s.hart j with c := { (s.hart j).c with preq := true }, preqAt := (s.die (j / 128)).clk }) ∧
          (¬ (gang ∧ (s.hart j).c.preq = false) → t.hart j = s.hart j))))

/-- R239, R314, R315, R319, R320: COLL of a valid program, with a rank of its own, a tag that no running sequencer of the die holds and a free
sequencer, starts the lowest free sequencer at step 0 with the header, the rank map and the owner of the hart, and gives rd its
handle; it does so where header and rank map lie in sound memory of the hart's own die, whose translations need no walk. COLLW of a
handle that the hart does not hold gives rd all ones; while its collective has not ended the hart parks; once it has, the sequencer is
freed and rd gets the status word, or, for STATE 2 or 3, COLLECTIVE_ABORT is taken with it, and no read that was bound and no
instruction that was fetched before it is kept. -/
def Obligations.Collectives : Prop :=
  (∀ (s s1 s2 : State) (rd a b : BitVec 5) (ipa rank q : Nat) (bs : List Byte) (map : List Nat),
      (let die := s.cur / 128
       let h := wordsOf bs 8
       hasFeature s s.cur 6 = true → s.me.Quiet → hartCheck s s.cur (s.g a).toNat 64 64 needR false = .ok ipa →
       hartReadIpa s s.cur 15 ipa 64 = .ok s1 bs → hdrOk h = true →
       readMap (seqFresh s1 (s1.agent s.cur) (s.g a).toNat (s1.g b) (some s.cur)) (s1.agent s.cur) (h.getD 1 0).toNat (hdrN h) 0 [] s1 =
         .ok s2 (some map) →
       rankOf h map die = some rank → tagHeld s2 die (field (h.getD 0 0).toNat 0 16) = false → freeSeq s2 die = some q →
       ∃ t, exec (.coll rd a b) s = .next t ∧
         (let x := t.seq die q
          x.st = .run ∧ x.step = 0 ∧ x.header = h ∧ x.map = map ∧ x.rank = rank ∧ x.owner = s.owner s.cur ∧ x.b3 = s.g b ∧ x.seq ≠ 0 ∧
          (let hd := BitVec.ofNat 64 (x.seq * 2 ^ 16 + die % 4 * 16 + q)
           Hart.Wrote { s2.me with colls := s2.me.colls ++ [hd] } t.me rd hd (s2.me.pc + 4))) ∧ SameMem s2 t)) ∧
  (∀ (s : State) (rd a b : BitVec 5) (key rank q : Nat) (leaf : Word) (place : Nat → Nat) (map : List Nat),
      (let die := s.cur / 128
       let h := wordsOf (s.mem.bytes key 64) 8
       let fresh := seqFresh s (s.agent s.cur) (s.g a).toNat (s.g b) (some s.cur)
       hasFeature s s.cur 6 = true → s.Lane (s.g a) 64 needR false key leaf → hdrOk h = true → map.length = hdrN h →
       (∀ i, i < hdrN h → s.ProgramAt fresh (s.agent s.cur) (((h.getD 1 0).toNat + 8 * i) % 2 ^ 64) 8 8 needR false (place i) ∧
         leBytes (s.mem.bytes (place i) 8) < 256 ∧
         map.getD i 0 = leBytes (s.mem.bytes (place i) 8) % 64 * 4 + leBytes (s.mem.bytes (place i) 8) / 64) →
       rankOf h map die = some rank → tagHeld s die (field (h.getD 0 0).toNat 0 16) = false → freeSeq s die = some q →
       ∃ t, exec (.coll rd a b) s = .next t ∧ SameMem s t ∧ (∀ j, j ≠ s.cur → t.hart j = s.hart j) ∧
         (let x := t.seq die q
          x.st = .run ∧ x.step = 0 ∧ x.header = h ∧ x.map = map ∧ x.rank = rank ∧ x.owner = s.owner s.cur ∧ x.b3 = s.g b ∧ x.seq ≠ 0 ∧
          (let hd := BitVec.ofNat 64 (x.seq * 2 ^ 16 + die % 4 * 16 + q)
           Hart.Wrote { s.me with colls := s.me.colls ++ [hd], ic := t.me.ic } t.me rd hd (s.me.pc + 4))))) ∧
  (∀ (s : State) (rd a : BitVec 5) (d q : Nat) (x : Sequencer), hasFeature s s.cur 6 = true → s.g a ∈ s.me.colls →
      handleSeq s (s.cur / 512) (s.g a) = some (d, q, x) → x.st = .done → x.status.getLsbD 63 = false →
      ∃ t, exec (.collw rd a) s = .next t ∧ SameMem s t ∧ (∀ j, j ≠ s.cur → t.hart j = s.hart j) ∧ (t.seq d q).collected = true ∧
        s.g a ∉ t.me.colls ∧
        Hart.Wrote { s.me with colls := t.me.colls, early := [], ic := [] } t.me rd x.status (s.me.pc + 4)) ∧
  (∀ (s : State) (rd a : BitVec 5), hasFeature s s.cur 6 = true →
      (s.g a ∉ s.me.colls → ∃ t, exec (.collw rd a) s = .next t ∧ s.Wrote t rd (BitVec.allOnes 64) (s.me.pc + 4)) ∧
      ∀ d q x, s.g a ∈ s.me.colls → handleSeq s (s.cur / 512) (s.g a) = some (d, q, x) →
        (x.st ≠ .done → ∃ t, exec (.collw rd a) s = .next t ∧ s.Parks t (.collw rd a)) ∧
        (x.st = .done → x.status.getLsbD 63 = true → ∃ t, exec (.collw rd a) s = .next t ∧ SameMem s t ∧
          (t.seq d q).collected = true ∧ s.g a ∉ t.me.colls ∧
          Hart.Trapped { s.me with colls := t.me.colls, early := [], ic := [] } t.me (isControl s.cur) 12 x.status s.me.pc 0))

/-! Vectors and convoys. -/

/-- R136 to R168, R88: a vector instruction whose convoy passes its checks writes the result of its row to every element of its
destination that its row names, below vl and in a powered quarter, changes no other element or register (VQUANT also writes its
records), and raises the flags of those elements; every other state is as before. Model's readings: log 9 (VCVT and VDEQ onto their
own source at another width), log 10 (VFEXP2), log 21 (the shift amount of VSRL, reductions and VID under modifiers and CLAMP), log 22
(the canonical NaN of a lone leaf of VFREDSUM and VFSCAN), log 49 and log 57 (the signs of zero sums). -/
def Obligations.VectorElements : Prop :=
  ∀ (i : Instr) (s : State) (n : Nat) (p : Pfx) (b : VBase) (d : BitVec 7) (w : Nat),
    convoyOp i = some (.vec p b) → vecDst s b = some (d, w) → s.Starts i n → s.me.bind = [] →
    (let vl := s.me.c.vl
     let q := (s.core (s.cur / 2)).q.toNat
     let om := 64 + p.om.toNat
     ∃ t, exec i s = .next t ∧ OnlyHart s t s.cur ∧ s.me.Drained t.me n ∧ s.me.NoAccess t.me ∧ s.me.OnlyVectors t.me ∧
      Hart.SameModes { s.me with c := { s.me.c with fflags := t.me.c.fflags } } t.me ∧
      ((∀ e, e < vl → readsFirst s p b e) →
        t.me.c.fflags = (List.range vl).foldl (fun f e => f ||| ((vecElem s p b e).map (·.2)).getD 0) s.me.c.fflags) ∧
      (∀ r, r < 72 → r ≠ d.toNat → (∀ sat f2 f1 a, b = .vx .quant sat f2 f1 a d → r ≠ om) → t.me.v r = s.me.v r) ∧
      (d.toNat < 72 → ∀ e, w * e < 4096 → readsFirst s p b e →
        laneOf (t.me.v d.toNat) w e =
          if e < vl ∧ w * e < 1024 * (q + 1) then ((vecElem s p b e).map fun r => r.1 % 2 ^ w).getD (laneOf (s.me.v d.toNat) w e)
          else laneOf (s.me.v d.toNat) w e) ∧
      ∀ sat f2 f1 a, b = .vx .quant sat f2 f1 a d → ∀ g, g < 128 →
        laneOf (t.me.v om) 32 g =
          if g * (32 * 2 ^ (s.me.c.mtype.toNat / 2 ^ 12 % 4)) < vl then
            (quantRecord s p f2 f1 a g).2 * 2 ^ 16 + (quantRecord s p f2 f1 a g).1
          else laneOf (s.me.v om) 32 g)

/-- R145, R146: VCMP, VFCMP and the mask operations write each bit below vl of their mask register, a write to k0 being dropped,
and no other bit or register; a compare raises the flags of its active elements. -/
def Obligations.MasksWritten : Prop :=
  ∀ (i : Instr) (s : State) (n : Nat) (o : COp) (kd : BitVec 3) (f : Nat → Bool × FFlags),
    convoyOp i = some o → maskElem s o = some (kd, f) → s.Starts i n → s.me.bind = [] →
    ∃ t, exec i s = .next t ∧ OnlyHart s t s.cur ∧ s.me.Drained t.me n ∧ s.me.NoAccess t.me ∧
      t.me.f = { s.me.f with v := t.me.f.v, k := t.me.f.k } ∧ s.me.SameVectors t.me ∧
      Hart.SameModes { s.me with c := { s.me.c with fflags := t.me.c.fflags } } t.me ∧
      t.me.c.fflags = (List.range s.me.c.vl).foldl (fun g e => g ||| (f e).2) s.me.c.fflags ∧
      (∀ k, k ≠ kd.toNat → t.me.k k = s.me.k k) ∧
      ∀ e, e < 512 → (t.me.k kd.toNat).getLsbD e = if kd ≠ 0 ∧ e < s.me.c.vl then (f e).1 else (s.me.k kd.toNat).getLsbD e

/-- R147, R150: KPOP, KFIRST and VEXT write their g register, and no other register or flag. -/
def Obligations.VectorsToScalars : Prop :=
  ∀ (i : Instr) (s : State) (n : Nat) (o : COp) (rd : BitVec 5) (v : Word),
    convoyOp i = some o → scalarElem s o = some (rd, v) → s.Starts i n → s.me.bind = [] →
    ∃ t, exec i s = .next t ∧ OnlyHart s t s.cur ∧ s.me.Drained t.me n ∧ s.me.NoAccess t.me ∧ s.me.SameModes t.me ∧
      t.me.f = { s.me.f with v := t.me.f.v, g := t.me.f.g } ∧ s.me.SameVectors t.me ∧
      t.g rd = (if rd = 0 then 0 else v) ∧ ∀ r, r ≠ rd → t.g r = s.g r

/-- R24 to R28, R67: where the parcels at the acting hart's pc hold a convoy of a widened pipe-X instruction and C.VADD or C.VMV, both
passing their checks, and the other hart of the core neither executes a convoy nor waits for pipes, the step runs both, the compressed
one with the meaning of VADD or VMV in its 32-bit form: it leaves the registers, flags and counts of running the two alone, one after
the other, with the pc after the convoy. -/
def Obligations.CompressedInConvoys : Prop :=
  ∀ (i j k : Instr) (s f f' : State) (w w2 : Word) (n : Nat) (p : Pfx) (op : VXOp) (sat : BitVec 1) (f2 f1 : BitVec 4) (a d : BitVec 7),
    convoyOp i = some (.vec p (.vx op sat f2 f1 a d)) → op ≠ .cvt → op ≠ .deq →
    (∃ x y z, j = .cVadd x y z ∧ k = .vadd true 0 (8#4 ++ x) (8#4 ++ y) (8#4 ++ z)) ∨
      (∃ x z, j = .cVmv x z ∧ k = .vmv true 0 (x.setWidth 7) (8#4 ++ z)) →
    s.Issues → fetchInsn s s.cur s.me.pc = .ok f (w, n) → decodeWord w = .ok i → decodeWord w2 = .ok j → startsConvoy w = true →
    s.me.nb = [] → s.me.ready = none → (s.hart (sibling s.cur)).convoy = none → (s.hart (sibling s.cur)).ready = none →
    (let first := slotAt s.me.pc (w, n)
     let second := slotAt (s.me.pc + BitVec.ofNat 64 n) (w2, 2)
     let u := (f'.fetched s.cur).hasPipes s.cur
     fetchConvoy s.cur (2 ^ 57) (s.me.pc + BitVec.ofNat 64 n) [first] (f.leftEntry s.cur) = .ok f' [first, second] →
     u.Starts i n → u.StartsPair first second → u.me.bind = [] →
     ∃ v v' t, exec i u = .next v ∧ exec k v = .next v' ∧ step s = closeTurn s (afterTurn s.cur (.next t)) ∧ OnlyHart u t s.cur ∧
       (∀ r, r < 72 → t.me.v r = v'.me.v r) ∧
       t.me = { v'.me with pc := s.me.pc + BitVec.ofNat 64 n + 2, f := { v'.me.f with v := t.me.f.v } })

/-- R26, R68, R69: the check that a convoy instruction fails gives the trap, before any element: an element kind that is not
vtype's; then a tile instruction on a core without an array; then no convoy start; then a destination that is not one. A legal
VADD of registers passes, and C.VADD and C.VMV, which start no convoy, do not. -/
def Obligations.ConvoyChecks : Prop :=
  ∀ (i : Instr) (s : State) (n : Nat) (w : Word), wellFormed i = true → encode i = some (n, w) →
    ((∃ c k a b d, i = .vadd c k a b d ∧ s.me.c.vtype.getLsbD 2 = true) ∨
        (∃ c k a b d, i = .vfadd c k a b d ∧ s.me.c.vtype.getLsbD 2 = false) →
      ∃ t, exec i s = .next t ∧ s.Trapped t 1 w) ∧
    (∀ c t, i = .tzero c t → hasFeature s s.cur 0 = true → 32 ≤ s.cur / 2 % 64 → ∃ t, exec i s = .next t ∧ s.Trapped t 10 w) ∧
    ((∃ k a b d, i = .vadd false k a b d ∧ s.me.c.vtype.getLsbD 2 = false) ∨ (∃ x y z, i = .cVadd x y z ∧ s.me.c.vtype.getLsbD 2 = false) ∨
        (∃ x z, i = .cVmv x z) →
      ∃ t, exec i s = .next t ∧ s.Trapped t 2 w) ∧
    (∀ k a b d, i = .vadd true k a b d → s.me.c.vtype.getLsbD 2 = false → s.me.bind = [] →
      ((72 ≤ d.toNat ∧ d ≠ 76) ∨ a = 76 ∨ b = 76 → ∃ t, exec i s = .next t ∧ s.Trapped t 3 w) ∧
      (a.toNat < 72 → b.toNat < 72 → d.toNat < 72 → s.me.nb = [] → s.me.c.epos = 0 → s.me.served = none → s.Starts i 4))

/-- R248, R249, R252: a vector load of sound memory of the hart's own die gives each active element the bytes at its address, and
changes no other element, register or byte of memory. VLDFF does so too while no element of it would stop, and shortens vl to the
first element above 0 that fails its checks. -/
def Obligations.VectorLoads : Prop :=
  ∀ (i : Instr) (s : State) (n cls : Nat) (k : BitVec 3) (d : BitVec 7) (va : Nat → Word) (key : Nat → Nat) (leaf : Nat → Word) (m : Nat),
    vecLoad i s = some (k, false, cls, d, va) → s.Starts i n → s.me.bind = [] →
    (∀ e, e ∈ s.actives k → e < m → s.Lane (va e) (s.vw / 8) needR false (key e) (leaf e)) →
    (∀ c a x y b p, i = .vldff c a x y b p → ∀ e, e ∈ s.actives k → e < m → (leaf e).getLsbD 5 = false) →
    (m = s.me.c.vl ∨ ((∃ c a x y b p, i = .vldff c a x y b p) ∧ 0 < m ∧ m ∈ s.actives k ∧
      ∃ c, hartCheck s s.cur (va m).toNat (s.vw / 8) (s.vw / 8) needR false = .error c)) →
    (let w := s.vw
     ∃ t, exec i s = .next t ∧ SameMem s t ∧ (∀ j, j ≠ s.cur → t.hart j = s.hart j) ∧ s.me.Drained t.me n ∧ s.me.OnlyVectors t.me ∧
      Hart.SameModes { s.me with c := { s.me.c with vl := m } } t.me ∧ (∀ r, r < 72 → r ≠ d.toNat → t.me.v r = s.me.v r) ∧
      (d.toNat < 72 → ∀ e, w * e < 4096 → laneOf (t.me.v d.toNat) w e =
        if e ∈ s.actives k ∧ e < m ∧ w * e < 1024 * ((s.core (s.cur / 2)).q.toNat + 1) then leBytes (s.mem.bytes (key e) (w / 8))
        else laneOf (s.me.v d.toNat) w e))

/-- R248, R249: a vector store to sound memory of the hart's own die stores each active element at its address, in element order,
and changes no other byte of memory and no register. -/
def Obligations.VectorStores : Prop :=
  ∀ (i : Instr) (s : State) (n cls : Nat) (k : BitVec 3) (d : BitVec 7) (va : Nat → Word) (key : Nat → Nat) (leaf : Nat → Word),
    vecStore i s = some (k, false, cls, d, va) → s.Starts i n → s.me.bind = [] →
    (∀ e, e ∈ s.actives k → s.Lane (va e) (s.vw / 8) needW false (key e) (leaf e)) →
    ∃ t, exec i s = .next t ∧ (∀ j, j ≠ s.cur → t.hart j = s.hart j) ∧ s.me.Drained t.me n ∧ s.me.OnlyVectors t.me ∧
      s.me.SameModes t.me ∧ s.me.SameVectors t.me ∧
      ∀ a, t.mem.byte a =
        ((s.actives k).foldl (fun m e => m.setBytes (key e) (toBytes (s.vw / 8) (s.src d s.vw e))) s.mem).byte a

/-- R251, R259, R270: a non-blocking load, store, tagged load or atomic whose active elements pass their checks, and a non-blocking
XCOPY within a line, complete at once and leave one outstanding element for each, in element order, after those outstanding before;
one that no missing page puts into a queue waits in its place; no byte of memory and no register changes. The operand of an atomic
under N1 and A1 is log 21. -/
def Obligations.NonBlockingIssues : Prop :=
  ∀ (i : Instr) (s : State) (n : Nat), s.Starts i n → s.me.bind = [] →
    (let left (t : State) (l : List (Nat × EltKind × Nat × Nat × Nat × Nat × List Byte)) : Prop :=
       SameMem s t ∧ (∀ j, j ≠ s.cur → t.hart j = s.hart j) ∧ t.me.pend.take s.me.pend.length = s.me.pend ∧
       (t.me.pend.drop s.me.pend.length).map issuedAs = l ∧
       (∀ y ∈ t.me.pend.drop s.me.pend.length,
         y.place = .issued ∨ ∃ p ∈ y.pages, (translate s (y.agent s.cur false) p.1 p.2).2 = .miss) ∧
       Hart.Drained { s.me with pend := t.me.pend, nb := t.me.nb, next := t.me.next, cc := t.me.cc } t.me n ∧
       s.me.OnlyVectors t.me ∧ s.me.SameModes t.me ∧ s.me.SameVectors t.me
     (∀ k cls size need atom kind va data (ipa : Nat → Nat), nonBlocking i s = some (k, cls, size, need, atom, kind, va, data) →
       (∀ e, e ∈ s.actives k → hartCheck s s.cur (va e).toNat size size need atom = .ok (ipa e) ∧
         (kind = .tagRead → ipaSpace (ipa e) = 9 ∨ ipaSpace (ipa e) = 10)) →
       ∃ t, exec i s = .next t ∧
         left t ((s.actives k).map fun e => (e, kind, (va e).toNat, ipa e, size, cls, data e))) ∧
     (∀ c (cls : BitVec 4) aux base gn src dst, i = .xcopy c 1 cls aux base gn → (s.g gn).toNat ≠ 0 →
       (s.g aux).toNat % 128 + (s.g gn).toNat ≤ 128 → (s.g base).toNat % 128 + (s.g gn).toNat ≤ 128 →
       hartCheck s s.cur (s.g aux).toNat (s.g gn).toNat 1 needR false = .ok src →
       hartCheck s s.cur (s.g base).toNat (s.g gn).toNat 1 needW false = .ok dst →
       ∃ t, exec i s = .next t ∧
         left t [(0, .copy, (s.g base).toNat, dst, (s.g gn).toNat, cls.toNat, [])] ∧
         (t.me.pend.drop s.me.pend.length).map (·.src) = [[(src, (s.g gn).toNat)]]))

/-- R279: VLDF of full words and VSTE of empty words of the hart's own die, each lane at a word of its own, complete: VLDF gives the
active elements their words and empties them, VSTE stores the active elements and fills the words; no other word's bit or byte
changes. -/
def Obligations.VectorTagged : Prop :=
  ∀ (i : Instr) (s : State) (n : Nat) (c : Bool) (m : BitVec 1) (cls : BitVec 4) (aux base : BitVec 5) (d : BitVec 7) (load : Bool)
    (key : Nat → Nat) (leaf : Nat → Word),
    i = (if load then .vldf c m 0 cls aux base d else .vste c m cls aux base d) → s.Starts i n → s.me.bind = [] →
    (let es := s.actives (m.setWidth 3)
     (∀ e, e ∈ es → s.Lane (elementVa s 0 base aux 4 e) 4 (if load then needRW else needW) true (key e) (leaf e) ∧
       (∀ ipa, hartCheck s s.cur (elementVa s 0 base aux 4 e).toNat 4 4 (if load then needRW else needW) true = .ok ipa →
         ipaSpace ipa = 9 ∨ ipaSpace ipa = 10) ∧ s.isFull (key e) = load ∧ (s.die (keyDie (key e))).recs = []) →
     Apart es key 4 →
     ∃ t, exec i s = .next t ∧ (∀ j, j ≠ s.cur → t.hart j = s.hart j) ∧ s.me.Drained t.me n ∧ s.me.OnlyVectors t.me ∧
       s.me.SameModes t.me ∧ (∀ r, r < 72 → ¬ (load = true ∧ r = d.toNat) → t.me.v r = s.me.v r) ∧
       (∀ e, e ∈ es → t.isFull (key e) = !load) ∧ (∀ w, (∀ e, e ∈ es → w ≠ key e) → t.isFull w = s.isFull w) ∧
       (∀ a, t.mem.byte a = ((if load then [] else es).foldl (fun m e => m.setBytes (key e) (toBytes 4 (s.src d 32 e))) s.mem).byte a) ∧
       (load = true → d.toNat < 72 → ∀ e, e < 128 → laneOf (t.me.v d.toNat) 32 e =
         if e ∈ es ∧ 32 * e < 1024 * ((s.core (s.cur / 2)).q.toNat + 1) then leBytes (s.mem.bytes (key e) 4)
         else laneOf (s.me.v d.toNat) 32 e))

/-- R267 to R269: a blocking VAMO on sound memory of the hart's own die, each lane at a place of its own, gives the active elements
of vd the old values, and stores what its operation gives; nothing else changes. The operand under N1 and A1 is log 21. -/
def Obligations.VectorAtomics : Prop :=
  ∀ (i : Instr) (s : State) (n : Nat) (p : Pfx) (op : BitVec 4) (cls : Nat) (va d v : BitVec 5) (key : Nat → Nat) (leaf : Nat → Word),
    vecAmo i = some (p, op, cls, va, some d, v) → s.Starts i n → s.me.bind = [] →
    (let es := s.actives p.k
     let w := s.vw
     let old (e : Nat) : Nat := leBytes (s.mem.bytes (key e) (w / 8))
     let new (e : Nat) : Option Nat := atomicNew op.toNat w (old e) (amoData s p op v e) (laneOf (s.me.v d.toNat) w e)
     (∀ e, e ∈ es → s.Lane (laneVa s va e) (w / 8) needRW true (key e) (leaf e)) → Apart es key (w / 8) →
     ∃ t, exec i s = .next t ∧ (∀ j, j ≠ s.cur → t.hart j = s.hart j) ∧ s.me.Drained t.me n ∧ s.me.OnlyVectors t.me ∧
       s.me.SameModes t.me ∧ (∀ r, r < 72 → r ≠ d.toNat → t.me.v r = s.me.v r) ∧
       (∀ e, w * e < 4096 → laneOf (t.me.v d.toNat) w e =
         if e ∈ es ∧ w * e < 1024 * ((s.core (s.cur / 2)).q.toNat + 1) then old e else laneOf (s.me.v d.toNat) w e) ∧
       ∀ a, t.mem.byte a = (es.foldl (fun m e => match new e with
         | some x => m.setBytes (key e) (toBytes (w / 8) x) | none => m) s.mem).byte a)

/-- R271 to R273: VACQ sets the bits of its mask register below vl whose lane is active, the lowest of its VA and finds 0 there, and
stores its token in the words of those lanes; VREL stores 0 in the words of its active lanes. Nothing else changes. -/
def Obligations.Mutexes : Prop :=
  ∀ (i : Instr) (s : State) (n : Nat) (c : Bool) (k kd : BitVec 3) (cls : BitVec 4) (va : BitVec 5) (acq : Bool)
    (key : Nat → Nat) (leaf : Nat → Word),
    i = (if acq then .vacq c k cls va kd else .vrel c k cls va) → s.Starts i n → s.me.bind = [] →
    (let es := s.actives k
     let heads := es.filter (leads s va es)
     let won := heads.filter fun e => leBytes (s.mem.bytes (key e) 8) == 0
     (∀ e, e ∈ es → s.Lane (laneVa s va e) 8 needRW true (key e) (leaf e)) → Apart heads key 8 →
     ∃ t, exec i s = .next t ∧ (∀ j, j ≠ s.cur → t.hart j = s.hart j) ∧ s.me.Drained t.me n ∧
       t.me.f = { s.me.f with v := t.me.f.v, k := t.me.f.k } ∧ s.me.SameModes t.me ∧ s.me.SameVectors t.me ∧
       (∀ r, acq = false ∨ r ≠ kd.toNat → t.me.k r = s.me.k r) ∧
       (acq = true → ∀ e, e < 512 → (t.me.k kd.toNat).getLsbD e =
         if kd ≠ 0 ∧ e < s.me.c.vl then decide (e ∈ won) else (s.me.k kd.toNat).getLsbD e) ∧
       ∀ a, t.mem.byte a =
         ((if acq then won else heads).foldl (fun m e => m.setBytes (key e) (toBytes 8 (if acq then s.token else 0))) s.mem).byte a)

/-- R253, R254, R256: VBIND of a record that it accepts binds its register, and of one that it refuses traps with BIND_FAULT and the VA
of the record, and binds nothing; VUNBIND stores a bound register's record in its slot and
unbinds it, and does nothing for one that is not bound. A VMV from a register bound with equal formats of at least 8 bits and no
stride gives the stored elements from POS on, and POS advances by vl; that a NaN is copied as it stands, between equal float formats
too, is log 63. -/
def Obligations.Streams : Prop :=
  ∀ (s : State) (n r : Nat) (cls : BitVec 4) (gb : BitVec 5) (p : BitVec 7) (key : Nat → Nat) (leaf : Nat → Word), p.toNat = r →
    (s.Starts (.vbind true cls gb p) n → s.me.bind = [] →
      (∀ e, e < 4 → s.Lane (s.g gb + BitVec.ofNat 64 (8 * e)) 8 needR false (key e) (leaf e)) → (s.g gb).toNat % 32 = 0 →
      (let rec_ : BitVec 256 := BitVec.ofNat 256 (leBytes ((List.range 4).flatMap fun e => s.mem.bytes (key e) 8))
       let kept := rec_ &&& ~~~ (1#256 <<< 127)
       (s.BindRefused kept → ∃ t, exec (.vbind true cls gb p) s = .next t ∧ SameMem s t ∧ (∀ j, j ≠ s.cur → t.hart j = s.hart j) ∧
         s.me.Trapped t.me (isControl s.cur) 11 (s.g gb) s.me.pc 0) ∧
       (¬ s.BindRefused kept →
        ∃ t, exec (.vbind true cls gb p) s = .next t ∧ SameMem s t ∧ (∀ j, j ≠ s.cur → t.hart j = s.hart j) ∧ s.me.Drained t.me n ∧
         Hart.SameModes { s.me with bind := t.me.bind } t.me ∧ s.me.OnlyVectors t.me ∧ s.me.SameVectors t.me ∧
         ∀ m, mget none t.me.bind m = if m = r then some (cls.toNat, kept) else none))) ∧
    (s.Starts (.vunbind true cls p) n →
      (mget none s.me.bind r = none → ∃ t, exec (.vunbind true cls p) s = .next t ∧ OnlyHart s t s.cur ∧ s.me.Drained t.me n ∧
        s.me.SameModes t.me ∧ s.me.OnlyVectors t.me ∧ s.me.SameVectors t.me) ∧
      ∀ c x, mget none s.me.bind r = some (c, x) →
        s.Lane (s.me.c.bindbase + BitVec.ofNat 64 (32 * r)) 32 needW false (key 0) (leaf 0) →
        ∃ t, exec (.vunbind true cls p) s = .next t ∧ t.mem.bytes (key 0) 32 = toBytes 32 x.toNat ∧ SameMemBut s t (key 0) 32 ∧
          (∀ j, j ≠ s.cur → t.hart j = s.hart j) ∧ s.me.Drained t.me n ∧ mget none t.me.bind r = none ∧
          (∀ m, m ≠ r → mget none t.me.bind m = mget none s.me.bind m) ∧ s.me.SameVectors t.me) ∧
    ∀ (k : BitVec 2) (d : BitVec 7) (c w pos : Nat) (x : BitVec 256),
      s.Starts (.vmv true k p d) n → s.me.bind = [(r, some (c, x))] → d.toNat < 72 → d ≠ p → recSfmt x = recDfmt x → 8 ≤ w →
      w = codeWidth (recDfmt x) → w = s.vw → recField x 64 32 = 0 → isQ (recSfmt x) = false → pos = recPos x → pos + s.me.c.vl < 2 ^ 32 →
      (∀ e, e < s.me.c.vl →
        s.Lane (BitVec.ofNat 64 (recField x 0 64 + (pos + e) * (w / 8))) (w / 8) needR false (key e) (leaf e)) →
      ∃ t y, exec (.vmv true k p d) s = .next t ∧ SameMem s t ∧ (∀ j, j ≠ s.cur → t.hart j = s.hart j) ∧ s.me.Drained t.me n ∧
        t.me.bind = [(r, some (c, y))] ∧ recPos y = pos + s.me.c.vl ∧ y.setWidth 192 = x.setWidth 192 ∧
        (∀ v, v < 72 → v ≠ d.toNat → t.me.v v = s.me.v v) ∧
        ∀ e, w * e < 4096 → laneOf (t.me.v d.toNat) w e =
          if e ∈ s.actives (k.setWidth 3) ∧ w * e < 1024 * ((s.core (s.cur / 2)).q.toNat + 1) then leBytes (s.mem.bytes (key e) (w / 8))
          else laneOf (s.me.v d.toNat) w e

/-- R259, R260: a blocking XCOPY of bytes that lie in one line at each side, in sound memory of the hart's own die, copies them and
changes no other byte and no register; one of no bytes does nothing. -/
def Obligations.CopiesBytes : Prop :=
  ∀ (s : State) (n : Nat) (cls : BitVec 4) (aux base gn : BitVec 5) (src dst sk dk : Nat) (sl dl : Word),
    s.Starts (.xcopy true 0 cls aux base gn) n → s.me.bind = [] →
    (let size := (s.g gn).toNat
     let done (t : State) : Prop := (∀ j, j ≠ s.cur → t.hart j = s.hart j) ∧ s.me.Drained t.me n ∧ s.me.SameModes t.me ∧
       s.me.OnlyVectors t.me ∧ s.me.SameVectors t.me
     (size = 0 → ∃ t, exec (.xcopy true 0 cls aux base gn) s = .next t ∧ SameMem s t ∧ done t) ∧
     (size ≠ 0 → (s.g aux).toNat % 128 + size ≤ 128 → (s.g base).toNat % 128 + size ≤ 128 →
       hartCheck s s.cur (s.g aux).toNat size 1 needR false = .ok src → hartCheck s s.cur (s.g base).toNat size 1 needW false = .ok dst →
       (translate s (s.agent s.cur) src needR).2 = .ok sk sl → (translate s (s.agent s.cur) dst needW).2 = .ok dk dl →
       s.Settled src → s.Settled dst → s.AtHome src → s.AtHome dst → s.Sound (s.owner s.cur) src sk size →
       s.Sound (s.owner s.cur) dst dk size →
       s.holders (keyLine dk) = [] →
       ∃ t, exec (.xcopy true 0 cls aux base gn) s = .next t ∧ t.mem.bytes dk size = s.mem.bytes sk size ∧
         SameMemBut s t dk size ∧ done t))

/-! Tiles and the array. -/

/-- R174, R180, R182, R183: each tile move, with its line, mask and format, changes the words that it names and no other tile word,
register or plane row: TZERO clears its tile; TRD gives its register the words of a line, TWR writes them from its source where
their column holds power; TDRAIN gives its register the words narrowed, and TDRAIN.BP, with discard for its register, keeps only
their flags; MCFG sets mtype; BINV marks its rows empty. -/
def Obligations.TileMoves : Prop :=
  ∀ (i : Instr) (s : State) (n : Nat) (c : Bool), s.Starts i n → s.me.bind = [] →
    (let vl := s.me.c.vl
     let mt := s.me.c.mtype
     let same (t : State) : Prop := OnlyHart s t s.cur ∧ s.me.Drained t.me n ∧ s.me.NoAccess t.me ∧ t.me.c.vl = vl ∧ t.me.c.fflags = s.me.c.fflags
     (∀ t, i = .tzero c t → ∃ u, exec i s = .next u ∧ same u ∧ u.me.f = { s.me.f with v := u.me.f.v, t := u.me.f.t } ∧
       s.me.SameVectors u.me ∧ s.me.SameModes u.me ∧ s.me.OtherTiles u.me t ∧ ∀ r, r < 128 → u.me.tile t.toNat r = 0) ∧
     (∀ k dir t gi p, i = .trd c k dir t gi p → ∃ u, exec i s = .next u ∧ same u ∧ s.me.OnlyVectors u.me ∧ s.me.SameModes u.me ∧
       (∀ r, r < 72 → r ≠ p.toNat → u.me.v r = s.me.v r) ∧
       (p.toNat < 72 → ∀ e, e < 128 → laneOf (u.me.v p.toNat) 32 e =
         if e ∈ s.actives k ∧ e < s.powered then
           s.me.word t (lineCell dir (s.line gi) e).1 (lineCell dir (s.line gi) e).2
         else laneOf (s.me.v p.toNat) 32 e)) ∧
     (∀ k dir t gi p, i = .twr c k dir t gi p → ∃ u, exec i s = .next u ∧ same u ∧
       u.me.f = { s.me.f with v := u.me.f.v, t := u.me.f.t } ∧ s.me.SameVectors u.me ∧ s.me.SameModes u.me ∧ s.me.OtherTiles u.me t ∧
       (∀ e, e ∈ s.actives k → (lineCell dir (s.line gi) e).2 < s.powered →
         u.me.word t (lineCell dir (s.line gi) e).1 (lineCell dir (s.line gi) e).2 = s.src p 32 e) ∧
       ∀ a b, a < 128 → b < 128 → (∀ e, e ∈ s.actives k → lineCell dir (s.line gi) e = (a, b) → s.powered ≤ b) →
         u.me.word t a b = s.me.word t a b) ∧
     (∀ k clamp scale dir t gi p f, i = .tdrain c k clamp scale dir t gi p f ∨ i = .tdrainBp c k clamp scale dir t gi p f →
       (let got (e : Nat) : Nat × BitVec 4 :=
          drainWord mt clamp scale f (s.me.word t (lineCell dir (s.line gi) e).1 (lineCell dir (s.line gi) e).2)
        ∃ u, exec i s = .next u ∧ same u ∧ s.me.OnlyVectors u.me ∧ u.me.c.mtype = mt ∧
          u.me.c.mflags = (s.actives k).foldl (fun m e => m ||| (got e).2) s.me.c.mflags ∧
          (∀ r, r < 72 → r ≠ p.toNat → u.me.v r = s.me.v r) ∧
          (p.toNat < 72 → ∀ e, codeWidth f * e < 4096 → laneOf (u.me.v p.toNat) (codeWidth f) e =
            if e ∈ s.actives k ∧ codeWidth f * e < 1024 * ((s.core (s.cur / 2)).q.toNat + 1) then (got e).1 % 2 ^ codeWidth f
            else laneOf (s.me.v p.toNat) (codeWidth f) e))) ∧
     (∀ gi, i = .mcfg c gi → ∃ u, exec i s = .next u ∧ same u ∧ s.me.OnlyVectors u.me ∧ s.me.SameVectors u.me ∧
       Hart.SameModes { s.me with c := { s.me.c with mtype := (s.g gi).setWidth 22 } } u.me) ∧
     ∀ gb gi, i = .binv c gb gi → mwf 0 0 s.me.f.pdesc = true → ∃ u, exec i s = .next u ∧ same u ∧
       u.me.f = { s.me.f with v := u.me.f.v, pdesc := u.me.f.pdesc } ∧ s.me.SameVectors u.me ∧ s.me.SameModes u.me ∧
       ∀ r, u.me.desc r =
         if (s.g gb).toNat ≤ r ∧ r < (s.g gb).toNat + (s.g gi).toNat then { s.me.desc r with valid := false, lazy := false }
         else s.me.desc r)

/-- R178, R182: TLD writes the words of a line from sound memory of the hart's own die, where their column holds power, and TST
stores them, at 4 bytes a word from its base on; nothing else changes. BLD and BLD.W fill plane rows from such memory. -/
def Obligations.TilesAndRowsInMemory : Prop :=
  ∀ (i : Instr) (s : State) (n : Nat) (c : Bool) (cls : BitVec 4) (key : Nat → Nat) (leaf : Nat → Word), s.Starts i n → s.me.bind = [] →
    (let done (u : State) : Prop := (∀ j, j ≠ s.cur → u.hart j = s.hart j) ∧ s.me.Drained u.me n ∧ s.me.SameModes u.me ∧
       s.me.SameVectors u.me
     (∀ k dir t gi gb, i = .tld c k dir t gi gb cls →
       (∀ e, e ∈ s.actives k → s.Lane (s.g gb + BitVec.ofNat 64 (4 * e)) 4 needR false (key e) (leaf e)) →
       ∃ u, exec i s = .next u ∧ SameMem s u ∧ done u ∧ u.me.f = { s.me.f with v := u.me.f.v, t := u.me.f.t } ∧ s.me.OtherTiles u.me t ∧
         (∀ e, e ∈ s.actives k → (lineCell dir (s.line gi) e).2 < s.powered →
           u.me.word t (lineCell dir (s.line gi) e).1 (lineCell dir (s.line gi) e).2 = leBytes (s.mem.bytes (key e) 4)) ∧
         ∀ a b, a < 128 → b < 128 → (∀ e, e ∈ s.actives k → lineCell dir (s.line gi) e = (a, b) → s.powered ≤ b) →
           u.me.word t a b = s.me.word t a b) ∧
     (∀ k dir t gi gb, i = .tst c k dir t gi gb cls →
       (∀ e, e ∈ s.actives k → s.Lane (s.g gb + BitVec.ofNat 64 (4 * e)) 4 needW false (key e) (leaf e)) →
       ∃ u, exec i s = .next u ∧ done u ∧ s.me.OnlyVectors u.me ∧
         ∀ a, u.mem.byte a = ((s.actives k).foldl (fun m e => m.setBytes (key e)
           (toBytes 4 (s.me.word t (lineCell dir (s.line gi) e).1 (lineCell dir (s.line gi) e).2))) s.mem).byte a) ∧
     ∀ wide gb gi, i = (if wide then .bldW c gb gi cls else .bld c gb gi cls) → s.me.c.mtype.toNat / 2 ^ 12 % 4 ≠ 3 →
       (let rows := bldRows (cxOf s s.cur s.me.f.g 0 0 0) s.me.c.mtype cls.toNat wide (s.g gb).toNat (s.g gi).toNat
        (∀ r d va, (r, d) ∈ rows → va ∈ rowPieces d → s.Lane (BitVec.ofNat 64 va) 128 needR false (key va) (leaf va) ∧ va < 2 ^ 64) →
        ∃ u, exec i s = .next u ∧ SameMem s u ∧ done u ∧
          u.me.f = { s.me.f with v := u.me.f.v, plane := u.me.f.plane, pdesc := u.me.f.pdesc } ∧
          (∀ r d, (r, d) ∈ rows → u.me.desc r = { d with va := d.va % 2 ^ 57 } ∧
            mget 0 u.me.f.plane r = rowOf d.w d.md ((rowPieces d).flatMap fun va => s.mem.bytes (key va) 128)) ∧
          ∀ r, (∀ d, (r, d) ∉ rows) → u.me.desc r = s.me.desc r ∧ mget 0 u.me.f.plane r = mget 0 s.me.f.plane r))

/-- R109 to R112, R185 to R191: an MMA that its checks pass, with no LAZY row among those it reads, changes only words of its tile, of
the next tile for a MOPA of a Q format, mflags and, for MRWS, its g register; no register or other tile, and no word of a column that
is not active or has no power. MOPA adds to row i the products of word i of its A source and of its plane row, for each selected i, and
MIPA and MRWA add to their one row the products of each selected step in turn. MOPA of a Q format adds the codes' products to the
partner tile, and at the last row of a group the scaled sum to its tile; MIPA of one adds the scaled sum of each group to its row. MRWS
writes the sums of the columns of its compressed rows, in rising order, and the columns' numbers beside them, as far as there is power,
and their count to its g register; with a count of 0 it does nothing. The sign of a group's product whose integer is 0 is log 57. -/
def Obligations.MatrixSteps : Prop :=
  ∀ (i : Instr) (s : State) (n : Nat) (a : MArgs), mmaOf i = some a → s.Starts i n → s.me.bind = [] →
    (let x := s.me
     let mt := x.c.mtype
     let cx := cxOf s s.cur s.me.f.g 0 0 0
     let af := (mtAf mt).toNat
     let q : Prop := af = 8 ∨ af = 9
     let cols := min ((mt.toNat / 2 ^ 14 % 2 ^ 7) + 1) s.powered
     let count := if a.form < 2 then x.c.vl * s.vw / 32 else x.c.vl
     let sel := (List.range count).filter fun e => s.on a.k e
     let row := s.line a.gi
     let p := (s.g a.gb).toNat
     let steps := 32 * 2 ^ (mt.toNat / 2 ^ 12 % 4) / kOf af
     let meta_ (e : Nat) : Nat := laneOf (x.v (64 + a.om.toNat)) 32 e
     let at_ (r b : Nat) : Nat := laneOf (mget 0 x.f.plane r) 32 b
     mmaBad x cx mt a = false → (∀ r ∈ mmaReads x cx mt a, (x.desc r).lazy = false) →
     ∃ u, exec i s = .next u ∧ SameMem s u ∧ (∀ j, j ≠ s.cur → u.hart j = s.hart j) ∧ x.Drained u.me n ∧ x.NoAccess u.me ∧
       u.me.c.fflags = x.c.fflags ∧ u.me.c.vl = x.c.vl ∧ u.me.c.mtype = mt ∧ x.SameVectors u.me ∧
       u.me.f = { x.f with v := u.me.f.v, t := u.me.f.t, g := u.me.f.g } ∧ (∀ r, a.form ≠ 3 ∨ r ≠ a.gi → u.g r = s.g r) ∧
       (∀ t : BitVec 3, t ≠ a.t → ¬ (a.form = 0 ∧ q ∧ t = a.t + 1) → ∀ r, r < 128 → u.me.tile t.toNat r = x.tile t.toNat r) ∧
       (∀ (t : BitVec 3) r b, a.form ≠ 3 → b < 128 → r < 128 → cols ≤ b → u.me.word t r b = x.word t r b) ∧
       (¬ q → a.form = 0 → ∀ r b, r < 128 → b < cols →
         u.me.word a.t r b = if r ∈ sel then
           (accumulated mt (x.desc p).fmt (x.word a.t r b) (s.src a.spec 32 r) (at_ p b)).1 % 2 ^ 32
         else x.word a.t r b) ∧
       (¬ q → a.form = 1 → ∀ r b, r < 128 → b < cols →
         u.me.word a.t r b = if r = row then sel.foldl (fun w e =>
           (accumulated mt (x.desc (p + e)).fmt w (s.src a.spec 32 e) (at_ (p + e) b)).1 % 2 ^ 32) (x.word a.t r b)
         else x.word a.t r b) ∧
       (a.form = 2 → ∀ r b, r < 128 → b < cols →
         u.me.word a.t r b = if r = row then sel.foldl (fun w e =>
           (mstep mt af (x.desc (p + meta_ e / kOf af)).fmt w
             [(aElem x cx mt a e, (wordElems (x.desc (p + meta_ e / kOf af)).fmt (at_ (p + meta_ e / kOf af) b)).getD
               (meta_ e % kOf af) 0)]).1 % 2 ^ 32) (x.word a.t r b)
         else x.word a.t r b) ∧
       (q → a.form = 0 → ∀ r b, r < 128 → b < cols →
         (let d := x.desc p
          let was := if d.gpos = 0 then 0 else x.word (a.t + 1) r b
          let sum := (((was : Int) + codeSum af (s.src a.spec 32 r) (at_ p b) (meta_ r) (at_ d.mrow b)) % 2 ^ 32).toNat
          let last : Bool := d.gpos == steps - 1
          (r ∈ sel → u.me.word (a.t + 1) r b = (if last then 0 else sum) ∧
            u.me.word a.t r b = if last then grouped af (x.word a.t r b) (meta_ r) (at_ d.mrow b) (asSigned 32 sum) else x.word a.t r b) ∧
          (r ∉ sel → u.me.word (a.t + 1) r b = x.word (a.t + 1) r b ∧ u.me.word a.t r b = x.word a.t r b))) ∧
       (q → a.form = 1 → ∀ r b, r < 128 → b < cols →
         u.me.word a.t r b = if r = row then (List.range (count / steps)).foldl (fun w g =>
           (let rb := at_ (x.desc (p + g * steps)).mrow b
            grouped af w (meta_ g) rb ((sel.filter fun e => e / steps == g).map fun e =>
              codeSum af (s.src a.spec 32 e) (at_ (p + e) b) (meta_ g) rb).sum)) (x.word a.t r b)
         else x.word a.t r b) ∧
       (a.form = 3 → count = 0 → u.me.f.t = x.f.t ∧ u.g a.gi = s.g a.gi) ∧
       (a.form = 3 → count ≠ 0 →
         (let entries (e : Nat) : List (Nat × Nat) := compressed x (p + meta_ e)
          let out (c : Nat) : Nat := sel.foldl (fun acc e => ((entries e).filter fun y => y.1 == c).foldl (fun acc y =>
            (addProducts acc [[fltElem af (aElem x cx mt a e), fltElem (x.desc (p + meta_ e)).fmt y.2]]).1) acc) 0
          ∃ cs : List Nat, cs.Pairwise (· < ·) ∧ (∀ c, c ∈ cs ↔ ∃ e ∈ sel, ∃ y ∈ entries e, y.1 = c) ∧
            u.g a.gi = (if a.gi = 0 then 0 else BitVec.ofNat 64 cs.length) ∧
            (s.powered < cs.length → u.me.c.mflags.getLsbD 0 = true) ∧
            ∀ r b, r < 128 → b < 128 → u.me.word a.t r b =
              if b < min cs.length s.powered ∧ r = row then out (cs.getD b 0) % 2 ^ 32
              else if b < min cs.length s.powered ∧ r = (row + 1) % 128 then cs.getD b 0
              else x.word a.t r b)))

/-! Steps of other agents. -/

/-- R30, R86, R193, R237, R243, R287, R291, R307, R311, R330: each step of a hart that is not its own turn, where it has something to do:
the next commit unit of a VADD, the acceptance of a TZERO, a held write of maxvl, the end of a lane stall, a held access executed
again once the host has answered for its page, a lost response, the end of safelim, a complete token, the sending of buffered stores of
one line, as many as fit in 128 bytes (R307). -/
def Obligations.HartSteps : Prop :=
  ∀ (s : State) (h : Nat), hartExists h = true →
    (let x := s.hart h
     let u := s.acting h
     let w := u.vw
     let hi (lo : Nat) : Nat := min x.c.vl ((lo / (1024 / w) + 1) * (1024 / w))
     let held (i : Instr) (o : Out) : Prop := ∃ y t, exec i u = .next y ∧ o = .next t ∧ t = { y with cur := s.cur }
     (∀ cv k a b d, x.convoy = some cv → cv.on = true → cv.insns = [(x.pc, .vadd true k a b d)] → cv.start = x.pc → cv.kept = [] → s.Moves h →
       x.bind = [] → x.nb = [] → x.c.vtype.getLsbD 2 = false → a.toNat < 72 → b.toNat < 72 → d.toNat < 72 → cv.lo < x.c.vl →
       ∃ t, exec (.commitUnit h) s = .next t ∧ OnlyHart s t h ∧
         (∀ r, r < 72 → r ≠ d.toNat → (t.hart h).v r = x.v r) ∧
         (∀ e, w * e < 4096 → laneOf ((t.hart h).v d.toNat) w e =
           if cv.lo ≤ e ∧ e < hi cv.lo ∧ u.on (k.setWidth 3) e = true ∧ w * e < 1024 * ((s.core (h / 2)).q.toNat + 1) then
             (laneOf (x.v a.toNat) w e + laneOf (x.v b.toNat) w e) % 2 ^ w
           else laneOf (x.v d.toNat) w e) ∧
         (hi cv.lo < x.c.vl → (t.hart h).convoy = some { cv with lo := hi cv.lo } ∧ (t.hart h).pc = x.pc) ∧
         (hi cv.lo = x.c.vl → x.Drained (t.hart h) 4 ∧ x.NoAccess (t.hart h))) ∧
     (∀ cv t, x.convoy = some cv → cv.on = true → cv.insns = [(x.pc, .tzero true t)] → cv.start = x.pc → cv.kept = [] → s.Moves h →
       x.bind = [] → x.nb = [] → ∃ y, exec (.mpipeAccept h) s = .next y ∧ OnlyHart s y h ∧ x.Drained (y.hart h) 8 ∧ x.OtherTiles (y.hart h) t ∧
         ∀ r, r < 128 → (y.hart h).tile t.toNat r = 0) ∧
     (∀ i d wd, x.hold = some ⟨.order, some i⟩ → csrNew i u = some (d, 0x200, wd) → 1 ≤ x.c.prv.toNat → x.convoy = none →
       ({ s with harts := mset Hart.idle s.harts h { x with hold := none } } : State).Moves h →
       s.hart (sibling h) = Hart.idle →
       ∃ t, exec (.maxvlChange (h / 2)) s = .next t ∧ t.cur = s.cur ∧ SameMem s t ∧ (t.core (h / 2)).q.toNat = wd.toNat % 4 ∧
         64 < (t.core (h / 2)).stall ∧ (t.hart h).hold = none ∧ (t.hart h).pc = x.pc + 4 ∧
         (t.hart h).g d = if d = 0 then 0 else BitVec.ofNat 64 (s.core (h / 2)).q.toNat) ∧
     ((s.core (h / 2)).stall = 1 → ∃ t, exec (.laneStallEnd (h / 2)) s = .next t ∧ t = { s with cores := t.cores } ∧
       t.core (h / 2) = { s.core (h / 2) with stall := 0 } ∧ ∀ c, c ≠ h / 2 → t.core c = s.core c) ∧
     (∀ i va n m o p, accessOf i u = some (va, n) → x.hold = some ⟨.page m o p, some i⟩ → x.convoy = none →
       pageAsked s m o (ctxGen x.c.ctxid) p = false →
       ({ s with harts := mset Hart.idle s.harts h { x with hold := none } } : State).Moves h →
       held i (exec (.loadDataReturn h) s)) ∧
     (∀ i va n, accessOf i u = some (va, n) → x.hold = some ⟨.order, some i⟩ → x.convoy = none → x.pend = [] →
       ({ s with harts := mset Hart.idle s.harts h { x with hold := none } } : State).Moves h →
       held i (exec (.pageRequestRetry (h / 512) h) s)) ∧
     (∀ d c i, x.hold = some ⟨.remote d c, i⟩ → c + 2 ^ 16 ≤ (s.die (h / 128)).clk → respLost s h d = true →
       (∀ w ∈ x.unacked, w.lost = false) →
       ∃ t, exec (.responseTimeout h) s = .next t ∧ OnlyHart s t h ∧ t.hart h = { x with hold := some ⟨.remoteFailed d, i⟩ }) ∧
     (x.c.preq = true → x.saving = none → x.node ≠ none → x.c.safelim ≠ 0 → x.convoy = none → x.hold = none → x.st = .run →
       x.preqAt + x.c.safelim.toNat ≤ (s.die (h / 128)).clk →
       ∃ t, exec (.safelimExpiry h) s = .next t ∧ SameMem s t ∧ (∀ j, j ≠ h → t.hart j = s.hart j) ∧
         t.hart h = { x with
           saving := some (2, 0, BitVec.allOnes 256), saveDue := false, opq := [], ready := none, served := none }) ∧
     (∀ n r, x.tokens = (n, []) :: r → ∃ t, exec (.fenceTokenComplete h) s = .next t ∧ OnlyHart s t h ∧
       t.hart h = { x with tokens := r }) ∧
     ∀ n e r line flow, x.pend = e :: r → x.seen = [] → e.cls < 16 → ipaHome e.ipa ≠ h / 128 → flow = flowId h (ipaHome e.ipa) e.cls →
       (∀ d, d ∈ x.pend → d.op = 0 ∧ d.kind = .write ∧ d.place = .issued ∧ d.key.map keyLine = some line ∧ d.cls = e.cls) →
       (x.pend.map (·.id)).Nodup → flowRoom s flow = true →
       (let bytes (m : Nat) : Nat := ((x.pend.take m).map fun d => d.data.length).sum
        ∃ t p m, exec (.combiningBufferSend h n) s = .next t ∧ SameMem s t ∧ (∀ j, j ≠ h → t.hart j = s.hart j) ∧
          (m ≤ max 1 n ∧ m ≤ x.pend.length ∧ bytes m ≤ 128 ∧ (m = max 1 n ∨ m = x.pend.length ∨ 128 < bytes (m + 1))) ∧
          t.hart h = { x with pend := (x.pend.take m).map (fun d => { d with place := .sent }) ++ x.pend.drop m } ∧
          (t.chan (h / 128) (ipaHome e.ipa) (flowPlane s flow)).queue =
            (s.chan (h / 128) (ipaHome e.ipa) (flowPlane s flow)).queue ++ [p] ∧
          p.body = .stores h ((x.pend.take m).map (·.id)) ∧ p.owner = e.owner ∧ p.flow = flow ∧ p.age = 0))

/-- R222, R235, R244, R245, R276 to R279, R283, R353: the completion of an outstanding store, load and atomic element, the replay
of a log and of a queue, a request applied at its home, a retry for a wait record that acts or takes one, the end of waitlim, and the
host's answer about a page. -/
def Obligations.ElementSteps : Prop :=
  ∀ (s : State) (h : Nat), hartExists h = true →
    (let x := s.hart h
     let others (t : State) : Prop := ∀ j, j ≠ h → t.hart j = s.hart j
     (∀ el op key, s.Element h el el.size (match el.kind with | .write => needW | .read => needR | _ => needRW) key →
       el.op = op → op ≠ 0 → el.key = none → (∃ o, x.nb = [o] ∧ o.id = op ∧ o.open_ = 1 ∧ o.issued = true ∧ o.cls = el.cls ∧ o.colls = []) →
       (el.kind = .write ∨ el.kind = .read ∨ ∃ a, el.kind = .amo a ∧ a.toNat < 11) → (el.kind ≠ .read → el.data.length = el.size) →
       el.size = 4 ∨ el.size = 8 →
       ∃ t, exec (.nbElementComplete h op el.e) s = .next t ∧ others t ∧ (t.hart h).pend = [] ∧ (t.hart h).nb = [] ∧
         (t.hart h).ccv el.cls = x.ccv el.cls + 1 ∧ SameMemBut s t key el.size ∧
         (match el.kind with
          | .write => t.mem.bytes key el.size = el.data
          | .amo a =>
            match atomicValue a.toNat (8 * el.size) (leBytes (s.mem.bytes key el.size)) (leBytes el.data) 0 with
            | some v => t.mem.bytes key el.size = toBytes el.size v
            | none => SameMem s t
          | _ => SameMem s t ∧ (el.dst < 72 → el.ew = 8 * el.size → el.ew * el.e < 1024 * ((s.core (h / 2)).q.toNat + 1) →
              laneOf ((t.hart h).v el.dst) el.ew el.e = leBytes (s.mem.bytes key el.size)))) ∧
     (∀ el key, s.Element h el el.data.length needW key → el.kind = .write → el.key = none → el.op = 0 → el.data ≠ [] →
       (s.core (h / 2)).log = [(h, el.id)] →
       ∃ t, exec (.sideLogReplay (h / 2)) s = .next t ∧ others t ∧ (t.hart h).pend = [] ∧ (t.core (h / 2)).log = [] ∧
         t.mem.bytes key el.data.length = el.data ∧ SameMemBut s t key el.data.length) ∧
     (∀ el key n, s.Element h el el.size needR key → el.kind = .read → (s.core (h / 2)).replay[n]? = some (h, el.id) →
       ∃ t, exec (.replayQueueRead (h / 2) n) s = .next t ∧ others t ∧ SameMem s t ∧ (t.hart h).pend = [] ∧
         (h, el.id) ∉ (t.core (h / 2)).replay ∧
         (el.dst < 72 → el.ew = 8 * el.size → el.ew * el.e < 1024 * ((s.core (h / 2)).q.toNat + 1) →
           laneOf ((t.hart h).v el.dst) el.ew el.e = leBytes (s.mem.bytes key el.size))) ∧
     (∀ q el key f, s.arrived = [q] → q.hart = h → q.elts = [el.id] → q.far = none → q.src < 256 → q.dst < 256 → x.pend = [el] →
       x.seen = [] → (∀ u ∈ x.unacked, u.id ≠ q.id) → el.key = some key → el.data ≠ [] → peerOk s (el.agent h false) el.ipa = true →
       ipaSpace el.ipa ≠ 13 → s.Open el.ipa → s.Sound el.owner el.ipa key el.data.length → s.holders (keyLine key) = [] →
       f = flowId (unitSource q.dst 0) q.src q.cls →
       ∃ t, exec (.remoteRequestApply q.id) s = .next t ∧ others t ∧ (t.hart h).pend = [] ∧
         (t.hart h).unacked = x.unacked ++ [⟨q.id, el.cls, (el.seenBy.map (·.1)).eraseDups, 1, (s.die q.src).clk, false⟩] ∧
         t.mem.bytes key el.data.length = el.data ∧ SameMemBut s t key el.data.length ∧
         (let ch (t : State) : List Packet := (t.chan q.dst q.src (flowPlane s f)).queue
          if flowRoom s f then t.arrived = [] ∧ ch t = ch s ++ [newPacket f q.owner (.ack h q.id)]
          else t.arrived = [{ q with elts := [], done := q.done + 1 }] ∧ ch t = ch s)) ∧
     (∀ d q va dl i, d < 256 → (s.die d).retries = [q] → (s.die d).recs = [] → refusedTags s h = [(d, q)] → refusedWaits s h = [] →
       q.hart = h → q.elt = 0 → q.kind = 0 → keyDie q.key = d → s.tagOf q.key = q.owner → keySpc q.key ≠ .sram → q.key % 4 = 0 →
       s.poisoned q.key 4 = false → s.testing q.key 4 = false → x.hold = some ⟨.tagRetry va dl, some i⟩ →
       (let v := BitVec.ofNat 64 (leBytes (s.mem.bytes q.key 4))
        ∃ t, exec (.tagRecordRetry h) s = .next t ∧ others t ∧ SameMem s t ∧ (t.die d).retries = [] ∧
         (if s.isFull q.key then
           t.isFull q.key = false ∧ (t.die d).recs = [] ∧
             (if h / 128 = d then t.hart h = { x with st := .run, served := some v }
              else t.hart h = x ∧ ∃ p ∈ t.packets, p.body = .notice h 0 v)
         else t.full = s.full ∧ (t.die d).recs = [q] ∧ t.hart h = { x with st := .park, hold := some ⟨.tag va dl, some i⟩ }))) ∧
     (∀ ev va dl i, (∃ e, ev = .tagWaitTimeout h 0 e ∧ x.hold = some ⟨.tag va dl, some i⟩) ∨
         (ev = .chamberWaitTimeout h ∧ x.hold = some ⟨.chamber va dl, some i⟩) →
       dl ≠ 0 → dl ≤ (s.die (h / 128)).clk → x.served = none → x.convoy = none → noticeFlies s h 0 = false →
       ∃ t, exec ev s = .next t ∧ others t ∧ SameMem s t ∧
         x.Trapped (t.hart h) (isControl h) 9 (BitVec.ofNat 64 va) x.pc 0 ∧
         ∀ d, (∀ y ∈ (t.die d).recs, y.hart ≠ h ∨ y.elt ≠ 0) ∧ ∀ y ∈ (t.die d).chRecs, y.hart ≠ h) ∧
     ∀ q status, (s.md (h / 512)).preqs = [q] → (s.ctx (h / 512) q.owner).gen = q.gen →
       (status = 0 →
         (walk (s.setMd (h / 512) { s.md (h / 512) with preqs := [] }) q.owner (q.page * 4096)).2 ≠ .miss →
         ∃ t, exec (.hostPageAnswer (h / 512) q.num q.gen.toNat status) s = .next t ∧ t.harts = s.harts ∧ t.out = s.out ∧
           SameButWalks s t ∧ t.md (h / 512) = { s.md (h / 512) with preqs := [] }) ∧
       (status ≠ 0 → ∀ i, x.hold = some ⟨.page (h / 512) q.owner q.page, i⟩ →
         ∃ t, exec (.hostPageAnswer (h / 512) q.num q.gen.toNat status) s = .next t ∧ SameMem s t ∧
           (t.md (h / 512)).preqs = [] ∧ (t.hart h).hold = some ⟨.pageFailed (q.page * 4096), i⟩))

/-- R207, R209, R285, R288, R352, R358: a die drops a replica and acknowledges, the last acknowledgement ends a collapse, a bounce is
counted, a revoked window's lines go, an invalidation message is answered or sent on and a die drops what it covers, the host reads,
writes and exchanges (log 16), and a trigger copies a segment and ends. -/
def Obligations.HomeSteps : Prop :=
  ∀ (s : State) (d : Nat), d < 256 →
    (∀ line c, collapseOf s line d false = some c →
      ∃ t, exec (.replicaInvalidate line d) s = .next t ∧ SameMem s t ∧ t.harts = s.harts ∧
        mget none t.replicas (line * 4 + d % 4) = none ∧
        (∀ k, k ≠ line * 4 + d % 4 → mget none t.replicas k = mget none s.replicas k) ∧
        (∀ k, k / 64 = keyDie (line * 128) / 4 * 4 + d % 4 → line ∉ (t.core k).l1) ∧
        t.collapses = s.collapses.map fun y =>
          if y.id = c.id then { c with dies := c.dies.map fun p => if p.1 = d then (d, true) else p } else y) ∧
    (∀ line c, collapseOf s line d true = some c →
      ∃ t, exec (.collapseAck line d) s = .next t ∧ SameMem s t ∧
        ((∀ p ∈ c.dies, p.1 = d) → (∀ y ∈ t.collapses, y.id ≠ c.id) ∧ (∀ y ∈ s.collapses, y.id ≠ c.id → y ∈ t.collapses) ∧
          ∀ h, (∀ y ∈ (t.hart h).seen, y.collapse ≠ c.id) ∧ ∀ o ∈ (t.hart h).nb, c.id ∉ o.colls) ∧
        ((∃ p ∈ c.dies, p.1 ≠ d) → t.harts = s.harts ∧ t.collapses = s.collapses.map fun y =>
          if y.id = c.id then { c with dies := c.dies.filter fun p => p.1 != d } else y)) ∧
    (∀ h ipa g i, hartExists h = true → (s.hart h).hold = some ⟨.home ipa g, i⟩ →
      (steerGen s ipa = g → exec (.generationBounce h) s = .next s) ∧
      (∀ k r, steerGen s ipa ≠ g → regionOf s (ipaHome ipa / 4) ipa = some (k, r) →
        ∃ t, exec (.generationBounce h) s = .next t ∧ SameMem s t ∧ (∀ j, j ≠ h → t.hart j = s.hart j) ∧
          t.hart h = { s.hart h with hold := some ⟨.home ipa (steerGen s ipa), i⟩ } ∧
          mget Region.reset (t.md (ipaHome ipa / 4)).regions k =
            { r with bounces := if r.bounces + 1 < 2 ^ 64 then r.bounces + 1 else r.bounces })) ∧
    (∀ e w, w = mget Window.closed (s.die d).windows e → w.closing ≠ none →
      ∃ t, exec (.windowLineInvalidate d e) s = .next t ∧ SameMem s t ∧
        mget Window.closed (t.die d).windows e = { w with closing := none } ∧
        ∀ ipa c, ipa < 2 ^ 56 → w.base ≤ ipa / 128 * 128 → ipa / 128 * 128 < w.base + w.len →
          mget none t.winLines (winKey d ipa) = some c → c.owner ≠ w.owner) ∧
    (∀ (m o lo n : Nat) (ipa v : Word), m < 64 → o = v.toNat / 2 ^ 8 % 64 →
      (let good : Prop := v.toNat < 2 ^ 16 ∧ v.getLsbD 14 = false ∧ v.toNat / 8 % 32 = 0 ∧ o ≠ 0
       let ev := exec (.translationInvalidationMessage m ipa v) s
       (¬ good → ∃ t, ev = .next t ∧ Says s t (.invalDone m false)) ∧
       (good → s.tlb = [] → (∀ p ∈ s.harts, p.2.pend = []) → ∃ t, ev = .next t ∧ Says s t (.invalDone m true)) ∧
       (good → invalidated ipa.toNat v.toNat lo n → ∀ e, e ∈ s.tlb → e.die = d → e.hits o lo n →
         ∃ t ds, ev = .next t ∧ d ∈ ds ∧ t.tlb = s.tlb ∧ SameMem s t ∧ t.out = s.out ∧
           t.invals = s.invals ++ [⟨s.serial, m, o, lo, n, ds⟩]))) ∧
    (∀ v, s.invals = [v] → d ∈ v.dies → (∀ p ∈ s.harts, p.2.pend = []) →
      ∃ t, exec (.tlbInvalidate v.id d) s = .next t ∧ SameMem s t ∧
        (∀ e, e ∈ t.tlb ↔ e ∈ s.tlb ∧ ¬ (e.die = d ∧ e.hits v.owner v.lo v.size)) ∧
        (if ∀ x ∈ v.dies, x = d then t.invals = [] ∧ t.out = s.out ++ [.invalDone v.md true]
         else t.invals = [{ v with dies := v.dies.filter (· ≠ d) }] ∧ t.out = s.out)) ∧
    (∀ m o ipa n (wr : Bool) (x : Word), m < 64 → o < 64 → n = 1 ∨ n = 2 ∨ n = 4 ∨ n = 8 →
      (let at_ := hostTarget s m o ipa n (if wr then needW else needR)
       (at_.2 = none → ∃ t, exec (.hostAccess m o wr ipa n x) s = .next t ∧ t.harts = s.harts ∧ SameButWalks s t ∧
          t.out = s.out ++ [.hostDone m 0 false]) ∧
       ∀ key ls, at_.2 = some (key, ls) → SameMem s at_.1 → ipaSpace ipa ≠ 13 → inReset s (ipaHome ipa) = false →
        s.Sound o ipa key n → s.holders (keyLine key) = [] →
        ∃ t, exec (.hostAccess m o wr ipa n x) s = .next t ∧ t.harts = s.harts ∧
          (wr = false → SameMem s t ∧ t.out = s.out ++ [.hostDone m (BitVec.ofNat 64 (leBytes (s.mem.bytes key n))) true]) ∧
          (wr = true → t.mem.bytes key n = toBytes n x.toNat ∧ SameMemBut s t key n ∧ t.out = s.out ++ [.hostDone m 0 true] ∧
            if ∀ e ∈ ls, e.getLsbD 6 = true then t.raced = s.raced else ∃ k, t.raced = some (k, key, s.mem.bytes key n)))) ∧
    (∀ m o op ipa n (x y : Word), m < 64 → o < 64 → op ≤ 10 → n = 4 ∨ n = 8 →
      (let at_ := hostTarget s m o ipa n needRW
       (at_.2 = none ∨ (∃ key ls, at_.2 = some (key, ls) ∧ (ls = [] ∨ ∃ e ∈ ls, e.getLsbD 6 = false)) →
        ∃ t, exec (.hostAtomic m o op ipa n x y) s = .next t ∧ t.harts = s.harts ∧ SameButWalks s t ∧
          t.out = s.out ++ [.hostDone m 0 false]) ∧
       ∀ key ls, at_.2 = some (key, ls) → SameMem s at_.1 → ls ≠ [] → (∀ e ∈ ls, e.getLsbD 6 = true) →
        s.Sound o ipa key n → s.holders (keyLine key) = [] →
        ∃ t, exec (.hostAtomic m o op ipa n x y) s = .next t ∧ t.harts = s.harts ∧ SameMemBut s t key n ∧
          t.out = s.out ++ [.hostDone m (BitVec.ofNat 64 (leBytes (s.mem.bytes key n))) true] ∧
          match atomicValue op (8 * n) (leBytes (s.mem.bytes key n)) (x.toNat % 2 ^ (8 * n)) (y.toNat % 2 ^ (8 * n)) with
          | some v => t.mem.bytes key n = toBytes n v
          | none => SameMem s t)) ∧
    ∀ j sk dk, (s.die d).copies = [j] → j.kind = 2 → j.loaded = true → toldPage s j.told j.owner = false →
      (j.e = 0 → 0 < j.count → j.src % 128 + j.count ≤ 128 → j.dst % 128 + j.count ≤ 128 → j.src < 2 ^ 56 → j.dst < 2 ^ 56 →
        check4 s (j.agent s d) 0 j.src j.count needR false = true → check4 s (j.agent s d) 0 j.dst j.count needW false = true →
        s.AgentAt (j.agent s d) j.src j.count needR sk → s.AgentAt (j.agent s d) j.dst j.count needW dk →
        ∃ t, exec (.triggerCopySegment d 0) s = .next t ∧ t.mem.bytes dk j.count = s.mem.bytes sk j.count ∧
          SameMemBut s t dk j.count ∧ t.harts = s.harts ∧ (t.die d).copies = [{ j with e := 1, told := none }]) ∧
      (j.count = 0 ∨ (j.e = 1 ∧ j.dst % 128 + j.count ≤ 128) → j.notify = 0 →
        ∃ t, exec (.triggerCopySegment d 0) s = .next t ∧ OnlyDie s t d ∧ t.die d = { s.die d with copies := [] })

/-- R290, R292, R293, R295, R297 to R300, R329, R337, R340: a write of a launch window, the parse of a launch record, the admission
of a spilled entry, the claim and the placement of a node on an idle die, the resumption entry of a saved node, and the opening,
starting, suspending, resuming and killing of contexts. Log 36 has the model's readings: how a decision is marked, which die would
claim an entry, and that ENTRY is made even before it becomes the pc. -/
def Obligations.ContextSteps : Prop :=
  ∀ (s : State) (m o : Nat), m < 64 → 1 ≤ o → o < 64 →
    (let c := s.ctx m o
     let win (off : Nat) : Nat := ctlKey (4 * m) (0x40000 + 4096 * o + off)
     (∀ off n x, 1 ≤ n → n ≤ 64 → off + n ≤ 4096 → (∀ k, k < 64 → 64 * k + 63 < off ∨ off + n ≤ 64 * k + 63) →
       ∃ t, exec (.launchWindowWrite m o off n x) s = .next t ∧ t = { s with mem := t.mem } ∧
         t.mem.bytes (win off) n = toBytes n x.toNat ∧ SameMemBut s t (win off) n) ∧
     (∀ k x, k < 64 → (s.md m).ready = true → (x.extractLsb' 504 8 : BitVec 8) ≠ mget 0 c.lastSeq k →
       ∃ t, exec (.launchWindowWrite m o (64 * k) 64 x) s = .next t ∧ t.mem.bytes (win (64 * k)) 64 = toBytes 64 x.toNat ∧
         SameMemBut s t (win (64 * k)) 64 ∧ (t.md m).parses = (s.md m).parses ++ [(o, k, toBytes 64 x.toNat)]) ∧
     (∀ k (x : BitVec 512) bs, (s.md m).parses = [(o, k, bs)] → bs = toBytes 64 x.toNat → (s.md m).launches = [] →
       (let seq : BitVec 8 := x.extractLsb' 504 8
        let bad : Prop := (x.extractLsb' 99 29 : BitVec 29) ≠ 0 ∨ (x.extractLsb' 272 232 : BitVec 232) ≠ 0 ∨
          (x.extractLsb' 64 32 : BitVec 32) = 0 ∨ 4096 < (x.extractLsb' 64 32 : BitVec 32).toNat
        let run : Prop := c.st = .run ∧ (x.extractLsb' 256 16 : BitVec 16) = c.ctx
        let ended (t : State) (st : Nat) : Prop := SameMem s t ∧ (t.md m).parses = [] ∧ (t.md m).launches = [] ∧
          t.out = s.out ++ [.report m o k seq st]
        (¬ run → ∃ t, exec (.launchParse m o k) s = .next t ∧ ended t 2) ∧
        (run → bad → ∃ t, exec (.launchParse m o k) s = .next t ∧ ended t 1) ∧
        ∀ rb db d aff, run → ¬ bad → (x.extractLsb' 64 32 : BitVec 32) = 1 → basinOpen s m = true →
          s.AgentReads (lineMonitor s m o none) (x.extractLsb' 0 64 : Word).toNat 8 8 rb →
          s.AgentReads (lineMonitor s m o none) (leBytes rb) 80 128 db →
          descOf s (lineMonitor s m o none) (leBytes rb) db = some (d, aff) →
          ∃ t l e, exec (.launchParse m o k) s = .next t ∧ SameMem s t ∧ (t.md m).parses = [] ∧ (t.md m).launches = [l] ∧
            l.owner = o ∧ l.slot = k ∧ l.seq = seq ∧ l.live = 1 ∧ l.status = 0 ∧ l.parsing = false ∧ t.out = s.out ∧
            (t.md m).basin = (s.md m).basin ++ [e] ∧ e.owner = o ∧ e.launch = l.id ∧ e.d = d ∧ e.aff = aff ∧ e.node = none)) ∧
     (∀ e, (s.md m).spilled = [e] → e.owner = o → c.spill = [e.id] → (∀ n, n ≠ o → (s.ctx m n).spill = []) →
       (inBasin s m).length < 4096 → e.need ≤ c.deficit + max 1 c.weight.toNat →
       ∃ t e', exec (.spillAdmission m) s = .next t ∧ OnlyModule { s with serial := t.serial } t m ∧ (t.md m).spilled = [] ∧
         (t.ctx m o).spill = [] ∧ (t.ctx m o).deficit = 0 ∧ (t.md m).basin = (s.md m).basin ++ [e'] ∧ e'.id = e.id ∧ e'.owner = o ∧
         e'.d = e.d ∧ e'.launch = e.launch) ∧
     (∀ die e cl, die / 4 = m → (s.md m).basin = [e] → e.owner = o → e.node = none → 1 ≤ e.d.width → e.d.width ≤ 8 →
       c.slots = [] → (s.die die).pOwner = o →
       (s.die die).pState = 1 → (s.die die).clOff = [] → (s.die die).reserved = [] →
       (∀ h, h / 128 = die → (s.hart h).st = .idle ∧ (s.hart h).pend = [] ∧ (s.hart h).unacked = []) →
       (∀ k, (s.core k).offline = false) → (s.md m).doff.getLsbD (die % 4) = false → (s.die die).resetting = none →
       (c.st = .run → e.d.strict = false → (∀ x, x / 4 = m → (s.die x).queue = []) → (s.die die).claims = [] →
         (s.die die).decided = false → (∀ x, x / 4 = m → x ≠ die → wouldClaim s x e = false) →
         cl = (if e.d.cls = 1 then 8 else 0) → e.d.cls < 3 →
         ∃ t, exec (.dispatchDecision die) s = .next t ∧ SameMem s t ∧ t.harts = s.harts ∧ t.modules = s.modules ∧
           (t.die die).queue = [e.id] ∧ (t.die die).claims = [(e.id, cl)] ∧ (t.die die).decided = true) ∧
       (cl < 12 → (s.die die).queue = [e.id] → (s.die die).claims = [(e.id, cl)] →
         ∃ t, exec (.nodePlacement die) s = .next t ∧ SameMem s t ∧ (t.md m).basin = [] ∧ (t.die die).queue = [] ∧
           (∀ j, (∀ r, r < e.d.width → j ≠ die * 128 + cl * 8 + r) → t.hart j = s.hart j) ∧
           ∀ r, r < e.d.width →
             (let y := t.hart (die * 128 + cl * 8 + r)
              let slot := 96 * (die % 4) + cl * 8 + r
              y.st = .run ∧ y.pc.toNat = e.d.entry.toNat / 2 * 2 ∧ y.rank = r ∧ y.slot = slot ∧ slot ∈ (t.ctx m o).slots ∧
              y.g 2 = c.sbase + BitVec.ofNat 64 ((slot + 1) * c.ssize.toNat) ∧
              y.g 3 = e.d.args.getD 0 0 ∧ y.g 4 = e.d.args.getD 1 0 ∧ y.g 5 = e.d.args.getD 2 0 ∧ y.g 6 = e.d.args.getD 3 0 ∧
              y.g 7 = BitVec.ofNat 64 r ∧ y.g 8 = BitVec.ofNat 64 e.d.width ∧ y.g 9 = e.d.va ∧ y.g 10 = 0 ∧
              y.f.v = [] ∧ y.f.k = [] ∧ y.f.t = [] ∧ y.f.pdesc = [] ∧ y.cc = [] ∧
              y.c.prv = 0 ∧ y.c.ctxid = BitVec.ofNat 6 o ++ c.gen ++ c.ctx ∧ y.c.vl = 0 ∧ y.c.waitlim = c.waitlim ∧
              y.c.safelim = c.safelim ∧ y.c.tvec.toNat = c.tvec.toNat % 2 ^ 57 / 2 * 2 ∧
              y.c.lmbase.toNat = c.lmbase.toNat % 2 ^ 57 / 2 ^ 6 * 2 ^ 6 ∧
              y.c.bindbase.toNat = (c.bbase.toNat + slot * 2048) % 2 ^ 57 / 2 ^ 11 * 2 ^ 11))) ∧
     (∀ id nd, nodeOf s m (some id) = some nd → (∃ r ∈ nd.ranks, r.2 = .saved) → (∀ r ∈ nd.ranks, r.2 = .saved ∨ r.2 = .ended) →
       (∀ e ∈ (s.md m).basin ++ (s.md m).spilled, e.node ≠ some id) → basinOpen s m = true →
       ∃ t e, exec (.saveComplete m id) s = .next t ∧ SameMem s t ∧ (t.md m).basin = (s.md m).basin ++ [e] ∧ e.node = some id ∧
         e.owner = nd.owner ∧ e.launch = nd.launch ∧ e.d.width = (nd.ranks.filter fun r => r.2 == .saved).length) ∧
     (∀ die, die / 4 = m →
       ((s.die die).pState = 1 → ∃ t, exec (.partitionSuspend die) s = .next t ∧
         (∀ h, h / 128 = die → isControl h = false → (s.hart h).st ≠ .idle →
           SameMem s t ∧ (t.die die).pState = 2 ∧ (t.hart h).c.preq = true ∧
             ((s.hart h).c.preq = false → (t.hart h).preqAt = (s.die die).clk)) ∧
         ((∀ p ∈ s.harts, p.1 / 128 = die → isControl p.1 = true ∨ p.2.st = .idle) → (∀ p ∈ (s.die die).seqs, p.2.st ≠ .run) →
           t.harts = s.harts ∧ (t.die die).pState = 3 ∧ (t.die die).lastSave = 0)) ∧
       ((s.die die).pState = 3 → ∃ t, exec (.partitionResume die) s = .next t ∧ OnlyDie s t die ∧
         t.die die = { s.die die with pState := 1 })) ∧
     (∀ i, i = .hostKill m o ∨ (∃ die, i = .partitionKill die ∧ die / 4 = m ∧ (s.die die).pOwner = o) → c.st = .opened ∨ c.st = .run →
       ∃ t, exec i s = .next t ∧ SameMem s t ∧ (t.ctx m o).st = .dying ∧ (t.ctx m o).ranges = [] ∧ mget 0 (t.md m).peers o = 0 ∧
         (∀ h, h / 512 = m → isControl h = false → (s.hart h).st ≠ .idle → ctxOwner (s.hart h).c.ctxid = o →
           (t.hart h).st = .idle ∧ (t.hart h).node = none ∧
           (t.hart h).f = { Files.zero with plane := (s.hart h).f.plane, pdesc := (s.hart h).f.pdesc }) ∧
         (∀ h, h / 512 ≠ m ∨ isControl h = true → t.hart h = s.hart h) ∧
         (∀ l ∈ (s.md m).launches, l.owner = o → .report m o l.slot l.seq 4 ∈ t.out) ∧
         (∀ l ∈ (t.md m).launches, l.owner ≠ o) ∧ ∀ e ∈ (t.md m).basin ++ (t.md m).spilled, e.owner ≠ o) ∧
     (c.st = .dying → inTransit s m o = false →
       ∃ t, exec (.killTeardown m o) s = .next t ∧ (t.ctx m o).st = .free ∧ (t.ctx m o).parts = 0 ∧
         (mget noSnap (t.md m).finals o).length = 16 ∧ (∀ u, keyDie u / 4 = m → t.tagOf u ≠ o) ∧
         ∀ e ∈ t.tlb, ¬ (e.die / 4 = m ∧ e.owner = o)) ∧
     (∀ parts,
       (c.st = .free → (s.md m).ready = true → c.needClear = false →
         ∃ t, exec (.contextOpen m o parts) s = .next t ∧ t.harts = s.harts ∧ (∀ e, e / 4 ≠ m → t.die e = s.die e) ∧
           (∀ e, e / 4 = m → t.die e = { s.die e with pendM := (t.die e).pendM } ∧
             ∀ k, mget 0 (t.die e).pendM k = if k / 8 = o then 0 else mget 0 (s.die e).pendM k) ∧
           t.ctx m o = { Ctx.reset with st := .opened, gen := c.gen + 1, parts := parts } ∧
           mget noSnap (t.md m).finals o = noSnap ∧ (∀ p ∈ (t.md m).parses, p.1 ≠ o) ∧
           (∀ k, k < 4096 → t.mem.byte (win k) = 0) ∧ SameMemBut s t (win 0) 4096) ∧
       (c.st = .opened → ∃ t, exec (.contextOpen m o parts) s = .next t ∧ OnlyContext s t m o ∧ t.ctx m o = { c with parts := parts })) ∧
     (c.st = .opened →
       (let good : Prop := c.facc &&& ~~~ (s.md m).foff = 0 ∧ c.ssize.toNat ≠ 0 ∧ c.ssize.toNat % 16 = 0 ∧ c.bbase.toNat % 2048 = 0 ∧
          c.parts ≠ 0 ∧ ∀ j, j < 4 → c.parts.getLsbD j = true → (s.die (4 * m + j)).pOwner = 0
        (good → ∃ t, exec (.contextStart m o) s = .next t ∧ SameMem s t ∧ t.harts = s.harts ∧
          t.ctx m o = { c with st := .run, serr := false } ∧
          ∀ j, j < 4 → t.die (4 * m + j) =
            if c.parts.getLsbD j then { s.die (4 * m + j) with pOwner := o, pState := 1 } else s.die (4 * m + j)) ∧
        (¬ good → ∃ t, exec (.contextStart m o) s = .next t ∧ OnlyContext s t m o ∧ t.ctx m o = { c with serr := true }))))

/-- R201, R211, R215, R217, R361, R362, R372, R373, R375, R377, R379 to R382, R384, R385: the registers and tables that the control
harts, the fabric manager and the Lantern write, meter folds, snapshots, attestation, bring-up, die reset, the clock, self-tests and
the shrinking of shared SRAM. Model's choices: what a die reset empties, its steps and their failures (log 37), FCODE 0x51 at the
timeout of step 6 and the acceptance of the image (log 38), the memory of a bank that shrinking gives up (log 53), and what a report's
digest and signature are made of (log 15). -/
def Obligations.ControlSteps : Prop :=
  ∀ (s : State) (d : Nat), d < 256 →
    (let m := d / 4
     let x := s.die d
     let y := s.md m
     let err (t : State) (f : Nat) : Nat := mget 0 (t.die d).errs f
     let halted (i : Nat) (v : Word) : Prop := v.getLsbD i = true ∧ (s.hart (d * 128 + 96 + i)).st = .halted
     (∀ v : Word, x.pState = 0 →
       (let n := min (v.toNat % 32) 16
        (n ≠ x.osize.toNat → ∃ t, exec (.overflowSizeWrite d v) s = .next t ∧ (t.die d).osize.toNat = n ∧ t.harts = s.harts ∧
          ∀ a, (let new : Prop := keyDie a = d ∧ inOverflow t (n * 2 ^ 26) a = true
            t.mem.byte a = (if new then 0 else s.mem.byte a) ∧ (new → t.tagOf a = 0 ∧ t.isFull a = false))) ∧
        (n = x.osize.toNat → exec (.overflowSizeWrite d v) s = .next s))) ∧
     (∀ v : Word, x.pState ≠ 0 → exec (.overflowSizeWrite d v) s = .next s) ∧
     (∀ v : Word, ∃ t, exec (.controlHartRestart d v) s = .next t ∧ SameMem s t ∧
       ∀ i, i < 2 →
         (halted i v → (let z := s.hart (d * 128 + 96 + i)
           t.hart (d * 128 + 96 + i) = { z with st := .run, pc := z.c.epc, hold := none, c := { z.c with prv := 3 } } ∧
             (t.md m).chalt.getLsbD (2 * (d % 4) + i) = false)) ∧
         (¬ halted i v → t.hart (d * 128 + 96 + i) = s.hart (d * 128 + 96 + i) ∧
           (t.md m).chalt.getLsbD (2 * (d % 4) + i) = y.chalt.getLsbD (2 * (d % 4) + i))) ∧
     (∀ (o : Nat) (v : Word), o < 64 → ∃ t, exec (.controlRegisterWrite d (0x200 + 8 * o) 8 v) s = .next t ∧
       t = { s with mem := t.mem, tlb := t.tlb } ∧ (∀ e, e ∈ t.tlb ↔ e ∈ s.tlb ∧ ¬ (ipaHome e.base = d ∧ e.owner = o)) ∧
       t.mem.bytes (ctlKey d (0x200 + 8 * o)) 8 = toBytes 8 (v.toNat &&& 0x3FFFFFF001) ∧ SameMemBut s t (ctlKey d (0x200 + 8 * o)) 8) ∧
     (∀ o (v : BitVec 64), o < 64 → ∃ t, exec (.peerTableWrite m o v) s = .next t ∧ OnlyModule s t m ∧
       t.md m = { y with peers := (t.md m).peers } ∧ mget 0 (t.md m).peers o = v ∧
       ∀ k, k ≠ o → mget 0 (t.md m).peers k = mget 0 y.peers k) ∧
     (∀ e (v : BitVec 32), e < 256 → (∀ pl, ∀ p ∈ (s.chan d e pl).queue ++ (s.chan d e pl).retry, flowSrc p.flow = d) →
       ∃ t, exec (.routeTableWrite d e v) s = .next t ∧ OnlyDie s t d ∧
       t.die d = { x with routes := (t.die d).routes, unreach := (t.die d).unreach, flows := (t.die d).flows } ∧
       (∀ pl, ∀ p ∈ (s.chan d e pl).queue ++ (s.chan d e pl).retry, mget none (t.die d).flows p.flow ≠ none) ∧
       (∀ f, mget none x.flows f ≠ none → mget none (t.die d).flows f = mget none x.flows f) ∧
       mget 0 (t.die d).routes e = v &&& 0xFFF3 ∧ ∀ k, k ≠ e → mget 0 (t.die d).routes k = mget 0 x.routes k) ∧
     (∀ e, x.foldDue = false → exec (.meterFold d e) s = .next s) ∧
     (∀ e, x.foldDue = true → ∃ t, exec (.meterFold d e) s = .next t ∧ SameMem s t ∧ t.harts = s.harts ∧ (t.die d).pendM = [] ∧
       (t.die d).foldDue = false ∧
       ∀ o, 1 ≤ o → o < 64 →
         (let c := s.ctx m o
          let z := t.ctx m o
          let a := activity y x o
          let w := c.residue + e * a / ((List.range 64).map (activity y x)).sum
          (∀ k, k < 7 → mget 0 z.meters k = (mget 0 c.meters k + mget 0 x.pendM (o * 8 + k)) % 2 ^ 64) ∧
          (a ≠ 0 → mget 0 z.meters 7 = (mget 0 c.meters 7 + w / 1000) % 2 ^ 64 ∧ z.residue = w % 1000) ∧
          (a = 0 → mget 0 z.meters 7 = mget 0 c.meters 7 ∧ z.residue = c.residue))) ∧
     (∀ o, 1 ≤ o → o < 64 →
       (let c := s.ctx m o
        (c.st = .free → ∃ t, exec (.snapshotRequest m o) s = .next t ∧ Says s t (.snapshot m o (mget noSnap y.finals o))) ∧
        (c.st ≠ .free → c.forming = none → ∃ t l, exec (.snapshotRequest m o) s = .next t ∧ OnlyContext s t m o ∧
          t.ctx m o = { c with forming := some l } ∧ ∀ e, e ∈ l ↔ e / 4 = m ∧ c.parts.getLsbD (e % 4) = true) ∧
        (c.forming = some [] → c.st ≠ .dying → ∃ t w, exec (.snapshotForm m o) s = .next t ∧ t.out = s.out ++ [.snapshot m o w] ∧ w.length = 16 ∧
          (∀ k, k < 8 → w.getD (k + 1) 0 = BitVec.ofNat 64 (mget 0 c.meters k)) ∧
          t.ctx m o = { c with forming := none, snapSeq := c.snapSeq + 1, snap := w }))) ∧
     (∀ nonce, ∃ t ids imgs sig, exec (.attestationRequest m nonce) s = .next t ∧
       Says { s with fresh := t.fresh } t (.attestation m nonce ids imgs y.foff sig) ∧
       (ids = [0, 1, 2, 3].map fun k => BitVec.ofNat 64 (m + k * 2 ^ 6 + (Config.serial (4 * m + k)).toNat * 2 ^ 8)) ∧
       (let words {n : Nat} (k : Nat) (v : BitVec n) : List Word := (List.range k).map fun i => BitVec.ofNat 64 (v.toNat / 2 ^ (64 * i))
        sig = Config.signature m s.fresh (Config.digest (words 8 nonce ++ ids ++ imgs ++ words 2 y.foff)))) ∧
     (∃ t, exec (.fieldServiceCommand d) s = .next t ∧ OnlyDie s t d ∧ t.die d = { x with retired := [], errs := [] }) ∧
     (∀ temp,
       (let heat (e : Nat) : Nat := if e = d then temp else (s.die e).temp
        let hottest (e : Nat) : Prop := e / 4 = m ∧ ∀ j, j / 4 = m → j ≠ e → heat j < heat e
        (temp ≤ 105 → y.power ≤ y.cap → ∃ t, exec (.thermalEvent d temp) s = .next t ∧ OnlyDie s t d ∧ t.die d = { x with temp := temp }) ∧
        (105 < temp → temp ≤ 115 → y.power ≤ y.cap → hottest d → ∃ t, exec (.thermalEvent d temp) s = .next t ∧ OnlyDie s t d ∧
          t.die d = { x with temp := temp, freq := max 12 (x.freq - 1), hotAt := x.clk }) ∧
        (temp ≤ 115 → 105 < temp ∨ y.cap < y.power → ∀ e, hottest e → ∃ t, exec (.thermalEvent d temp) s = .next t ∧
          (t.die e).freq = max 12 ((s.die e).freq - 1) ∧ (∀ j, j ≠ e → (t.die j).freq = (s.die j).freq) ∧ SameMem s t ∧ t.harts = s.harts) ∧
        (115 < temp → ∃ u, OnlyDie s u d ∧ u.die d = { x with temp := temp } ∧
          exec (.thermalEvent d temp) s = exec (.dieReset d) u))) ∧
     (x.temp ≤ 105 → y.power ≤ y.cap → x.hotAt + 20000000 ≤ x.clk → ∃ t, exec (.clockRaise d) s = .next t ∧ OnlyDie s t d ∧
       t.die d = { x with freq := if x.freq < 20 then x.freq + 1 else x.freq }) ∧
     (105 < x.temp ∨ y.cap < y.power ∨ x.clk < x.hotAt + 20000000 → exec (.clockRaise d) s = .next s) ∧
     (x.resetting = none →
       (y.ready = true → ∃ t, exec (.dieReset d) s = .next t ∧ (∀ h, h / 128 = d → t.hart h = Hart.idle) ∧
         (t.die d).freq = 20 ∧ (t.die d).mail = [] ∧ (t.die d).resetting = some 2 ∧ (t.die d).stepAt = x.clk) ∧
       (y.ready = false → ∃ t, exec (.dieReset d) s = .next t ∧ OnlyDie s t d ∧ t.die d = { x with resetDue := true })) ∧
     (x.resetting ≠ none → exec (.dieReset d) s = .next s) ∧
     (∀ k entry, y.step = none → x.resetting = some k → stepLate k x.stepAt x.clk = false →
       (∀ failed, failed.getLsbD (d % 4) = false → noCluster x = false →
         ∃ t, exec (.bringupStepDone m entry failed (d % 4)) s = .next t ∧
         (k = 2 → (t.die d).resetting = some 4 ∧ SameMem s t ∧ t.harts = s.harts ∧ ∀ e pl, e < 256 → t.chan d e pl = Channel.reset) ∧
         (k = 4 → (t.die d).resetting = some 5 ∧ t.harts = s.harts ∧ ∀ a, t.mem.byte a =
           if keyDie a = d ∧ a % 2 ^ 40 < 2 ^ 39 + 2 ^ 31 ∧ keySpc a ≠ .hbm then 0 else s.mem.byte a) ∧
         (k = 5 → (t.die d).resetting = none ∧ SameMem s t ∧ (∀ i, i < 2 → (t.hart (d * 128 + 96 + i)).Released y.entryVa) ∧
           (t.md m).chalt.getLsbD (2 * (d % 4)) = false ∧ (t.md m).chalt.getLsbD (2 * (d % 4) + 1) = false ∧
           (t.md m).doff.getLsbD (d % 4) = false)) ∧
       ∀ failed, failed.getLsbD (d % 4) = true → (k = 5 → noCluster x = true) →
         ∃ t, exec (.bringupStepDone m entry failed (d % 4)) s = .next t ∧ SameMem s t ∧ t.harts = s.harts ∧ (t.die d).resetting = none ∧
           (t.md m).doff.getLsbD (d % 4) = true ∧ (d % 4 = 0 → (t.md m).fail = true ∧ (t.md m).ready = false)) ∧
     (y.on = false → ∃ t, exec (.powerOn m) s = .next t ∧ OnlyModule s t m ∧
       t.md m = { y with on := true, step := some 1, stepAt := (s.die (4 * m)).clk }) ∧
     (∀ k entry, y.step = some k → 1 ≤ k → k ≤ 7 →
       (let late := stepLate k y.stepAt (s.die (4 * m)).clk
        let fails (ev : Instr) (code : Nat) : Prop := ∃ t, exec ev s = .next t ∧ SameMem s t ∧ t.harts = s.harts ∧
          (t.md m).fail = true ∧ (t.md m).step = none ∧ (t.md m).stage = y.stage ∧ (t.md m).fcode = code
        (late = false → (k = 5 → ∀ e, e / 4 = m → noCluster (s.die e) = false) → (k = 6 → y.imgOk = true ∧ y.minVer ≤ y.imgVer) →
          ∃ t, exec (.bringupStepDone m entry 0 (d % 4)) s = .next t ∧ (t.md m).stage = k ∧
           (t.md m).step = (if k = 7 then none else some (k + 1)) ∧ (t.md m).ready = (y.ready || k == 7) ∧ (t.md m).fail = y.fail ∧
           (k = 6 → y.doff.getLsbD (d % 4) = false → ∀ i, i < 2 → (t.hart (d * 128 + 96 + i)).Released entry) ∧
           (k = 4 → y.doff.getLsbD (d % 4) = false → ∀ a, d * 2 ^ 40 ≤ a → a < d * 2 ^ 40 + 2 ^ 39 + 2 ^ 31 → t.mem.byte a = 0)) ∧
        (y.fcode = 0 → k = 6 → late = false →
          (y.imgOk = false → fails (.bringupStepDone m entry 0 (d % 4)) 0x51) ∧
          (y.imgOk = true → y.imgVer < y.minVer → fails (.bringupStepDone m entry 0 (d % 4)) 0x52)) ∧
        ∀ bad, bad.getLsbD 0 = true → y.doff.getLsbD 0 = false → k ≠ 7 → y.fcode = 0 →
          (late = true → fails (.bringupStepTimeout m bad) ([0, 0x01, 0x11, 0x21, 0x31, 0x41, 0x51].getD k 0)) ∧
          (late = false → k ≠ 6 → (k = 5 → noCluster (s.die (4 * m)) = true) →
            fails (.bringupStepDone m entry bad (d % 4)) ([0, 0x01, 0x11, 0x21, 0x31, 0x41].getD k 0)))) ∧
     (∀ row, (∀ u ∈ x.faulty, inRow s d row u = false) → exec (.targetedSelfTest d row) s = .next s) ∧
     (∀ row, row ∉ x.tests → (∃ u ∈ x.faulty, inRow s d row u = true) →
       ∃ t, exec (.targetedSelfTest d row) s = .next t ∧
         OnlyDie s { t with mem := s.mem, full := s.full, dirty := s.dirty, stirred := s.stirred } d ∧
         t.die d = { x with tests := x.tests ++ [row], faulty := x.faulty.filter fun u => !inRow s d row u } ∧
         (∀ a, mget false s.poison (granule a) = false → t.mem.byte a = s.mem.byte a ∧ t.isFull a = s.isFull a ∧
           mget none t.dirty (keyLine a) = mget none s.dirty (keyLine a)) ∧
         (let u := granule (rowKey s d row)
          mget false s.poison u = true → keySpc u ≠ .hbm → (∀ i, i < 4 → t.mem.byte (u + i) = 0) ∧ t.isFull u = false)) ∧
     (∀ row, row ∈ x.tests →
       (x.transient = [] → err s 2 < 2 ^ 64 - 1 → ∃ t, exec (.selfTestComplete d row true) s = .next t ∧ OnlyDie s t d ∧
         row ∉ (t.die d).tests ∧ err t 2 = err s 2 + 1 ∧ err t 3 = err s 3 ∧ (t.die d).transient = [(row, x.clk)]) ∧
       (err s 3 < 2 ^ 64 - 1 → ∃ t, exec (.selfTestComplete d row false) s = .next t ∧ t.harts = s.harts ∧
         row ∉ (t.die d).tests ∧ err t 2 = err s 2 ∧ err t 3 = err s 3 + 1)) ∧
     (∀ b r, x.shrink = b :: r → (∀ o, o < 64 → leBytes (s.mem.bytes (ctlKey d (0x200 + 8 * o)) 8) % 2 = 0) →
       ∃ t, exec (.sharedSramShrink d) s = .next t ∧ OnlyDie s t d ∧
         t.die d = { x with
           sram := x.sram - 1, shrink := r, badWords := x.badWords.filter fun w => (w - 2 ^ 37) / 2 ^ 20 != b }))

/-- R305 to R313: staging a key, clearing a channel, sending, receiving, refusing and acknowledging a packet, moving a flow, ageing a
queue, and dropping what waits for an unreachable die. Model's choices: what that drop ends (log 39), and that a key staged on a halted
channel becomes current at once (log 41). -/
def Obligations.LinkSteps : Prop :=
  ∀ (s : State) (a b : Nat) (pl : Bool), a < 256 → b < 256 →
    (let c := s.chan a b pl
     let k := s.keyPair a b
     let only (t : State) : Prop := ∀ i, i ≠ chanId a b pl → mget Channel.reset t.chans i = mget Channel.reset s.chans i
     (∀ key salt, (let new : KeySlot := ⟨key, salt, 0⟩
       let ev := exec (.keyStage a b key salt) s
       (k.cur = none → ∃ t, ev = .next t ∧ OnlyDie s t a ∧ t.keyPair a b = { k with cur := some new, event := false }) ∧
       (k.cur ≠ none → (∀ p, (s.chan a b p).st ≠ .halt) →
         ∃ t, ev = .next t ∧ OnlyDie s t a ∧ t.keyPair a b = { k with next := some new, event := false }) ∧
       (k.cur ≠ none → c.st = .halt →
         ∃ t, ev = .next t ∧ (t.chan a b pl).st = .up ∧ t.keyPair a b = ⟨!k.k, some new, none, false⟩))) ∧
     (c.st = .down → ∃ t, exec (.channelClear a b pl) s = .next t ∧ SameMem s t ∧ (t.chan a b pl).st = .up ∧ (t.chan a b pl).fails = 0) ∧
     (c.st ≠ .down → exec (.channelClear a b pl) s = .next s) ∧
     (∀ p ks, c.st = .up → a = b ∨ routeEn s a b = true → c.resend = 0 → c.retry.length < 64 → c.queue = [p] → s.outbox = [] →
       k.cur = some ks → ks.ctr < 2 ^ 40 - 2 ^ 20 →
       ∃ t q, exec (.packetTransmit a b pl) s = .next t ∧ only t ∧ SameMem s t ∧ t.harts = s.harts ∧
         t.chan a b pl = { c with queue := [], retry := c.retry ++ [q] } ∧
         q = { p with k := k.k, ctr := ks.ctr, sealed := true, wait := 0 } ∧
         t.keyPair a b = { k with cur := some { ks with ctr := ks.ctr + 1 } }) ∧
     (∀ q, c.retry = [q] → c.resend = 0 → c.arrived = 0 → c.discard = false → q.k = k.k →
       (∀ p, (s.chan a b p).lastA = none ∧ (s.chan a b p).lastB = none) →
       (∀ h ids, q.body = .stores h ids → ∃ t r, exec (.packetAccept a b pl true) s = .next t ∧ SameMem s t ∧ t.harts = s.harts ∧
         (t.chan a b pl).arrived = 1 ∧ (t.chan a b pl).retry = [q] ∧ (t.chan a b pl).last q.k = some q.ctr ∧
         t.arrived = s.arrived ++ [r] ∧ r = ⟨s.serial, a, b, h, ids, 0, none, q.owner, q.flow % 16, pl, q.age, 0⟩) ∧
       (∀ n e ipa out back, q.body = .request n e ipa out back → ∃ t, exec (.packetAccept a b pl true) s = .next t ∧ SameMem s t ∧
         t.harts = s.harts ∧ (t.chan a b pl).arrived = 1 ∧
         t.arrived = s.arrived ++ [⟨s.serial, a, b, n, [], 0, some (e, ipa, back), q.owner, q.flow % 16, pl, q.age, 0⟩]) ∧
       (∀ n e ipa l, q.body = .response n e ipa l → ∃ t, exec (.packetAccept a b pl true) s = .next t ∧ SameMem s t ∧
         t.harts = s.harts ∧ (t.chan a b pl).arrived = 1 ∧
         t.far = s.far.map fun f => if f.source = n ∧ f.elt = e ∧ f.ipa = ipa then { f with state := .back } else f) ∧
       (∀ tag, bodyTag q.body = some tag → tagTaken s b q.owner tag = true →
         peerOk s (unitAgent a q.owner 0 0 0 none) (b * 2 ^ 48) = true →
         ∃ t, exec (.packetAccept a b pl true) s = .next t ∧ SameMem s t ∧ t.harts = s.harts ∧ (t.chan a b pl).arrived = 1 ∧
           (t.die b).mail = (s.die b).mail ++ [(q.owner, q.body)]) ∧
       ∃ t, exec (.packetAccept a b pl false) s = .next t ∧ OnlyChannels s t ∧ only t ∧ t.chan a b pl = { c with discard := true }) ∧
     (c.discard = true → c.fails < 16 → ∃ t, exec (.packetNak a b pl) s = .next t ∧ OnlyChannels s t ∧ only t ∧
       t.chan a b pl = { c with resend := c.retry.length - c.arrived, discard := false, fails := c.fails + 1 }) ∧
     (c.discard = true → 16 ≤ c.fails → ∃ t, exec (.packetNak a b pl) s = .next t ∧ SameMem s t ∧ (t.chan a b pl).st = .down) ∧
     (0 < c.arrived → ∃ t, exec (.packetAcknowledgement a b pl) s = .next t ∧ OnlyChannels s t ∧ only t ∧
       t.chan a b pl = { c with retry := c.retry.tail, arrived := c.arrived - 1 }) ∧
     (∀ f w, flowSrc f = a → flowDst f = b → flowPlane s f = pl → mget none (s.die a).flows f = some w → (s.chan a b !pl).st = .up →
       w.last + 96 < (s.die a).clk → (∀ p ∈ s.outbox ++ c.queue ++ c.retry, p.flow ≠ f) →
       ∃ t, exec (.flowPlaneMove f) s = .next t ∧ OnlyDie s t a ∧ mget none (t.die a).flows f = some { w with plane := !pl }) ∧
     (∃ t, exec (.packetAgeTick a) s = .next t ∧ t = { s with chans := t.chans, arrived := t.arrived } ∧
       (t.arrived = s.arrived.map fun r => if r.dst = a ∧ 64 ≤ r.wait then { r with age := min 255 (r.age + 1), wait := r.wait - 64 }
         else r) ∧
       t.chan a b pl = { c with queue := c.queue.map fun p =>
         if 64 ≤ p.wait then { p with age := min 255 (p.age + 1), wait := p.wait - 64 } else p } ∧
       ∀ i, i / 512 ≠ a → mget Channel.reset t.chans i = mget Channel.reset s.chans i) ∧
     ((∀ p, (s.chan a b p).st ≠ .up) ∨ routeEn s a b = false → a ≠ b →
       (mget none (s.die a).unreach b).getD 0 + 2 ^ 16 ≤ (s.die a).clk →
       (∀ p, ∀ x ∈ (s.chan a b p).queue ++ (s.chan a b p).retry,
         (∃ h ids, x.body = .stores h ids) ∨ ∃ n e ipa out back, x.body = .request n e ipa out back) →
       (∀ x ∈ s.outbox, flowSrc x.flow ≠ a ∨ flowDst x.flow ≠ b) →
       ∃ t, exec (.unreachableDrop a b) s = .next t ∧ SameMem s t ∧ (∀ p, (t.chan a b p).queue = [] ∧ (t.chan a b p).retry = []) ∧
         (let n (p : Bool) : Nat := ((s.chan a b p).retry.drop (s.chan a b p).arrived).length + (s.chan a b p).queue.length
          mget 0 (s.die a).errs 0 + n false + n true < 2 ^ 64 →
            mget 0 (t.die a).errs 0 = mget 0 (s.die a).errs 0 + n false + n true) ∧
         ∀ h i cyc ipa out back, h < 65536 → ipaHome ipa = b → (s.hart h).hold = some ⟨.remote b cyc, i⟩ →
           (∃ p, ∃ x ∈ (s.chan a b p).queue, x.body = .request h 0 ipa out back) →
           (t.hart h).hold = some ⟨.remoteFailed b, i⟩))

/-- R316, R317, R319, R321, R322: a sequencer's SEND, LOOP and END steps, an arriving chunk, a credit that sends a chunk, the count
of a finished data step, a loss notice, and the request, answer, target and resumption of a gang pause. Model's choices (log 33): how
arriving pieces are gathered, that of the mail only the credits of a program to come are kept when a sequencer ends, and that a rank
which several have paused goes on when each of them has resumed. -/
def Obligations.SequencerSteps : Prop :=
  ∀ (s : State) (d q : Nat), d < 256 → q < 16 →
    (let x := s.seq d q
     let mine (t : State) (y : Sequencer) : Prop := SameMem s t ∧ t.harts = s.harts ∧ t.seq d q = y ∧ ∀ e, e ≠ q → t.seq d e = s.seq d e
     let mail (b : Body) : Prop := (s.die d).mail = [(x.owner, b)]
     let flow (r : Nat) : Nat := flowId (65536 + d * 16 + q) (x.map.getD r 0) x.cls
     let out (t : State) (r : Nat) : List Packet := (t.chan d (x.map.getD r 0) (flowPlane s (flow r))).queue
     let mayUse (r : Nat) : Prop := x.cls < 16 ∧ x.map.getD r 0 < 256 ∧ x.map.getD r 0 ≠ d
     let sends (t : State) (r : Nat) (b : Body) : Prop := out t r = out s r ++ [newPacket (flow r) x.owner b]
     let free : Prop := s.stalled (seqSource d q) = false ∧ toldPage s x.told x.owner = false
     (∀ w, s.AtStep d q w →
       (∀ n tgt i, w = 8 * 2 ^ 60 + n * 2 ^ 32 + tgt * 2 ^ 16 + i → 1 ≤ n → n < 2 ^ 16 → tgt < 2 ^ 12 → i < 2 → tgt < x.step →
         (let l := (if i = 1 then x.l1 else x.l0) + 1
          let put (v : Nat) : Sequencer := if i = 1 then { x with l1 := v, told := none } else { x with l0 := v, told := none }
          ∃ t, exec (.sequencerStep d q) s = .next t ∧
            mine t (if l < n then { put l with step := tgt } else { put 0 with step := x.step + 1 }))) ∧
       (∀ j p b va, w = 2 ^ 60 + p * 2 ^ 48 + b * 2 ^ 46 + j * 2 ^ 28 → j < 2 ^ 16 → p < 2 ^ 11 → b < 3 → x.sends.length < 8 →
         va = ((x.header.getD (4 + b) 0).toNat + j * hdrChunk x.header) % 2 ^ 64 →
         (let r := (x.rank + p) % hdrN x.header
          let k := mget 0 x.sent r + 1
          ∃ t, exec (.sequencerStep d q) s = .next t ∧
            mine t { x with
              sent := mset 0 x.sent r k, sends := x.sends ++ [(r, k, va, [])], chunks := x.chunks + 1, step := x.step + 1
              told := none })) ∧
       (w = 0 → x.sends = [] → x.stored = false → ∀ key, s.SequencerAt d q x (x.header.getD 2 0).toNat 8 8 needW false key →
         (let st := statusWord 1 0 0 x.step x.chunks
          ∃ t, exec (.sequencerStep d q) s = .next t ∧ t.mem.bytes key 8 = toBytes 8 st.toNat ∧ SameMemBut s t key 8 ∧
            t.harts = s.harts ∧ t.seq d q = { x with ending := some st, stored := true, written := some [], told := none }))) ∧
     (∀ st cs, x.st = .run → free → x.ending = some st → x.stored = true → x.written = some cs → (∀ c ∈ s.collapses, c.id ∉ cs) →
       (s.die d).pState ≠ 2 →
       ∃ t, exec (.sequencerStep d q) s = .next t ∧
         mine t { x with
           st := .done, status := st, ending := none, stored := false, written := none, told := none, collected := x.hart.isNone } ∧
         ∀ p ∈ (t.die d).mail, p.1 = x.owner → bodyTag p.2 = some x.tag → st.getLsbD 63 = false ∧ ∃ r n, p.2 = .credit x.tag r n) ∧
     (∀ r n bs, x.st ≠ .free → mail (.chunk x.tag r n bs) →
       ∃ t, exec (.seqChunkArrival d q) s = .next t ∧ (t.die d).mail = [] ∧
         ((∀ p ∈ x.inbox, p.1 ≠ r ∨ p.2.1 ≠ n) → mine t { x with inbox := x.inbox ++ [(r, n, bs)] }) ∧
         ∀ had, x.inbox = [(r, n, had)] → mine t { x with inbox := [(r, n, had ++ bs)] }) ∧
     (∀ r n k va bs, x.st = .run → free → x.ending = none → mail (.credit x.tag r n) → n = mget 0 x.credit r + 1 →
       x.sends = [(r, k, va, bs)] → bs ≠ [] → bs.length ≤ 65536 → k ≤ n → mayUse r →
       (let m := (bs.length + 127) / 128
        (out s r).length + m ≤ 32 → (∀ p ∈ s.outbox, p.flow ≠ flow r) →
        ∃ t, exec (.seqCredit d q) s = .next t ∧ mine t { x with credit := mset 0 x.credit r n, sends := [], told := none } ∧
         (t.die d).mail = [] ∧ out t r = out s r ++ (List.range m).map fun i =>
           newPacket (flow r) x.owner (.chunk x.tag x.rank k ((bs.drop (128 * i)).take 128)))) ∧
     (∀ cs, x.st = .run → x.written = some cs → (∀ c ∈ s.collapses, c.id ∉ cs) →
       ∃ t, exec (.seqDataStepComplete d q) s = .next t ∧
         mine t { x with written := none, chunks := x.chunks + 1, step := x.step + 1, told := none }) ∧
     (∀ r n, x.st = .run ∨ x.st = .paused → x.ending = none → x.written = none → mail (.loss x.tag r n) →
       ∃ t, exec (.lossNotice d q n) s = .next t ∧ (t.die d).mail = [] ∧
         mine t { x with
           st := .run, sends := [], inbox := [], told := none, pausing := false, target := none, pausers := [], stored := false
           ending := some (statusWord 2 n 0 x.step x.chunks) } ∧
         ∀ e pl, ∀ p ∈ t.outbox ++ (t.chan d e pl).queue, flowSrc p.flow = d → p.owner = x.owner →
           ∀ k j bs, p.body ≠ .chunk x.tag k j bs) ∧
     (∀ r, x.st ≠ .free → mail (.pauseReq x.tag r) → mayUse r → flowRoom s (flow r) = true →
       ∃ t, exec (.gangPauseRequest d q) s = .next t ∧ mine t x ∧ sends t r (.pauseAns x.tag x.rank x.chunks) ∧ (t.die d).mail = []) ∧
     (x.st = .run → (s.die d).mail = [] → (s.die d).pState = 2 → (s.die d).pOwner = x.owner → x.pausing = false → x.target = none →
       x.ending = none → ∃ t, exec (.gangPauseRequest d q) s = .next t ∧ SameMem s t ∧ t.harts = s.harts ∧ (t.seq d q).pausing = true) ∧
     (∀ n c a, x.pausing = true → x.st = .run → mail (.pauseAns x.tag n c) → x.map.length = 2 → x.rank < 2 → n = 1 - x.rank →
       x.answers = [(x.rank, some a)] → mayUse n → flowRoom s (flow n) = true →
       ∃ t, exec (.gangPauseAnswer d q n) s = .next t ∧ SameMem s t ∧ (t.seq d q).target = some (max (max a c) (x.target.getD 0)) ∧
         sends t n (.pauseAt x.tag x.rank (max a c))) ∧
     (∀ r n, x.st = .run → mail (.pauseAt x.tag r n) →
       ∃ t, exec (.gangPauseTarget d q n) s = .next t ∧ (t.die d).mail = [] ∧
         mine t { x with target := some (max n (x.target.getD 0)), pausers := x.pausers ++ [r] }) ∧
     (x.st = .paused → x.hart = none → (s.die d).pState = 1 →
       (let on : Sequencer := { x with st := .run, pausing := false, target := none, answers := [], pausers := [] }
        (x.pausing = false → ∀ r, x.pausers = [r] → mail (.resume x.tag r) → ∃ t, exec (.gangResume d q) s = .next t ∧ mine t on ∧ (t.die d).mail = []) ∧
        (∀ r k l, x.pausing = false → x.pausers = r :: k :: l → mail (.resume x.tag r) → ∃ t, exec (.gangResume d q) s = .next t ∧
          mine t { x with pausers := k :: l } ∧ (t.die d).mail = []) ∧
        (x.pausing = true → x.pausers = [] → ∃ t, exec (.gangResume d q) s = .next t ∧ mine t on ∧
          (∀ r, x.map.length = 2 → x.rank < 2 → r = 1 - x.rank → mayUse r → flowRoom s (flow r) = true →
            sends t r (.resume x.tag x.rank))))))
end

