-- ==== Sys2Proof/Laws/Access.lean ====
section
/-! SUPPORT. What a translation leaves as it was when its leaf is cached or it needs no walk (R345, R351). -/

namespace Sys2Proof.Machine

open Sys2Proof

/-- A translation that needs no walk changes nothing. -/
theorem translate_settled (s : State) (a : Agent) (ipa : Nat) (need : Need) (h : s.SettledFor a ipa) :
    (translate s a ipa need).1 = s := by
  unfold translate
  simp only
  split
  · rfl
  split
  · rfl
  split
  · split <;> rfl
  split
  · split <;> split <;> (try split) <;> rfl
  split
  · rfl
  cases ht : tlbHit s a ipa with
  | some t => rfl
  | none =>
    rcases h with h | h | h
    · contradiction
    · simp_all
    · simp [ht] at h

/-- What an agent has been told of a page takes no part in whether a walk is needed. -/
theorem State.SettledFor.untold {s : State} {a : Agent} {ipa : Nat} (h : s.SettledFor a ipa) : s.SettledFor a.untold ipa := by
  unfold Agent.untold
  split <;> exact h

/-- Nor does it clear words of another owner. -/
theorem State.Settled.walksClean {s : State} {ipa : Nat} (h : s.Settled ipa) : s.WalksClean ipa := by
  rintro need a (rfl | rfl)
  · intro x
    rw [translate_settled s (s.agent s.cur) ipa need h]
  · intro x
    rw [translate_settled s (s.agent s.cur).untold ipa need (State.SettledFor.untold (a := s.agent s.cur) h)]

end Sys2Proof.Machine
end

