-- ==== Sys2Proof/Laws/Maps.lean ====
section
/-! SUPPORT. Reads after writes of sparse maps and of memory, and the canonical form that every write keeps. -/

namespace Sys2Proof.Machine

open Sys2Proof

section maps

variable {β : Type}

@[simp] theorem mget_nil (d : β) (k : Nat) : mget d [] k = d := rfl

@[simp] theorem mget_mput_same (d v : β) (k : Nat) : ∀ m : Map β, mget d (mput m k v) k = v
  | [] => by simp [mput, mget]
  | (k', v') :: r => by
    unfold mput
    split
    · simp [mget]
    · split
      · simp [mget]
      · next h => simp [mget, h, mget_mput_same d v k r]

theorem mget_mput_ne (d v : β) {k j : Nat} (h : j ≠ k) : ∀ m : Map β, mget d (mput m k v) j = mget d m j
  | [] => by simp [mput, mget, h]
  | (k', v') :: r => by
    unfold mput
    split
    · simp [mget, h]
    · split
      · next he => subst he; simp [mget, h]
      · simp [mget, mget_mput_ne d v h r]

@[simp] theorem mget_mdel_same (d : β) (k : Nat) : ∀ m : Map β, mget d (mdel m k) k = d
  | [] => rfl
  | (k', v') :: r => by
    unfold mdel
    split
    · exact mget_mdel_same d k r
    · next h => simp [mget, h, mget_mdel_same d k r]

theorem mget_mdel_ne (d : β) {k j : Nat} (h : j ≠ k) : ∀ m : Map β, mget d (mdel m k) j = mget d m j
  | [] => rfl
  | (k', v') :: r => by
    unfold mdel
    split
    · next he => subst he; simp [mget, h, mget_mdel_ne d h r]
    · simp [mget, mget_mdel_ne d h r]

variable [DecidableEq β]

/-- A read after a write of the same key gives the value written. -/
@[simp] theorem mget_mset_same (d v : β) (m : Map β) (k : Nat) : mget d (mset d m k v) k = v := by
  unfold mset
  split
  · next h => simp [h]
  · simp

/-- A write leaves every other key alone. -/
theorem mget_mset_ne (d v : β) (m : Map β) {k j : Nat} (h : j ≠ k) : mget d (mset d m k v) j = mget d m j := by
  unfold mset
  split
  · exact mget_mdel_ne d h m
  · exact mget_mput_ne d v h m

theorem mwf_mono {d : β} {lo lo' : Nat} : ∀ {m : Map β}, mwf d lo m = true → lo' ≤ lo → mwf d lo' m = true
  | [], _, _ => rfl
  | (k, v) :: r, h, hl => by
    simp only [mwf, Bool.and_eq_true, decide_eq_true_eq] at h ⊢
    exact ⟨⟨by omega, h.1.2⟩, h.2⟩

theorem mwf_mdel {d : β} (k : Nat) : ∀ {lo : Nat} {m : Map β}, mwf d lo m = true → mwf d lo (mdel m k) = true
  | _, [], _ => rfl
  | lo, (k', v) :: r, h => by
    simp only [mwf, Bool.and_eq_true, decide_eq_true_eq] at h
    unfold mdel
    split
    · exact mwf_mdel k (mwf_mono h.2 (by omega))
    · simp only [mwf, Bool.and_eq_true, decide_eq_true_eq]
      exact ⟨h.1, mwf_mdel k h.2⟩

theorem mwf_mput {d v : β} (hv : v ≠ d) (k : Nat) :
    ∀ {lo : Nat} {m : Map β}, lo ≤ k → mwf d lo m = true → mwf d lo (mput m k v) = true
  | lo, [], hl, _ => by simp [mput, mwf, hv, hl]
  | lo, (k', v') :: r, hl, h => by
    simp only [mwf, Bool.and_eq_true, decide_eq_true_eq] at h
    unfold mput
    split
    · next hlt => simp [mwf, hv, hl, h.1.2, h.2]; omega
    · split
      · next he => subst he; simp [mwf, hv, h.1.1, h.2]
      · next hn he =>
        simp only [mwf, Bool.and_eq_true, decide_eq_true_eq]
        exact ⟨h.1, mwf_mput hv k (by omega) h.2⟩

/-- A write keeps the canonical form. -/
theorem mwf_mset {d : β} (v : β) (k : Nat) {m : Map β} (h : mwf d 0 m = true) : mwf d 0 (mset d m k v) = true := by
  unfold mset
  split
  · exact mwf_mdel k h
  · next hv => exact mwf_mput hv k (Nat.zero_le k) h

/-- Dropping entries keeps the canonical form. -/
theorem mwf_filter {d : β} (p : Nat × β → Bool) :
    ∀ {lo : Nat} {m : Map β}, mwf d lo m = true → mwf d lo (m.filter p) = true
  | _, [], _ => rfl
  | lo, (k, v) :: r, h => by
    simp only [mwf, Bool.and_eq_true, decide_eq_true_eq] at h
    rw [List.filter_cons]
    split
    · simp only [mwf, Bool.and_eq_true, decide_eq_true_eq]
      exact ⟨h.1, mwf_filter p h.2⟩
    · exact mwf_filter p (mwf_mono h.2 (by omega))

end maps

/-! Memory. -/

@[simp] theorem Memory.byte_setByte_same (m : Memory) (a : Nat) (b : Byte) : (Memory.setByte m a b).byte a = b :=
  mget_mset_same 0 b m a

theorem Memory.byte_setByte_ne (m : Memory) {a x : Nat} (b : Byte) (h : x ≠ a) :
    (Memory.setByte m a b).byte x = Memory.byte m x :=
  mget_mset_ne 0 b m h

theorem Memory.wf_setByte {m : Memory} (a : Nat) (b : Byte) (h : Memory.wf m = true) : Memory.wf (Memory.setByte m a b) = true :=
  mwf_mset b a h

/-- Writing bytes keeps the canonical form. -/
theorem Memory.wf_setBytes : ∀ {bs : List Byte} {m : Memory} {a : Nat}, Memory.wf m = true → Memory.wf (Memory.setBytes m a bs) = true
  | [], _, _, h => h
  | b :: r, _, a, h => Memory.wf_setBytes (bs := r) (a := a + 1) (Memory.wf_setByte a b h)

theorem Memory.wf_filter {m : Memory} (p : Host.Cell → Bool) (h : Memory.wf m = true) : Memory.wf (m.filter p) = true :=
  mwf_filter p h

/-- Writing bytes leaves every byte outside them alone. -/
theorem Memory.byte_setBytes_outside : ∀ (bs : List Byte) (m : Memory) (a x : Nat), x < a ∨ a + bs.length ≤ x →
    (Memory.setBytes m a bs).byte x = Memory.byte m x
  | [], _, _, _, _ => rfl
  | b :: r, m, a, x, h => by
    rw [Memory.setBytes, Memory.byte_setBytes_outside r _ _ _ (by simp at h; omega), Memory.byte_setByte_ne]
    simp at h; omega

/-- A byte written reads back. -/
theorem Memory.byte_setBytes_inside : ∀ (bs : List Byte) (m : Memory) (a i : Nat) (h : i < bs.length),
    (Memory.setBytes m a bs).byte (a + i) = bs[i]
  | b :: r, m, a, 0, _ => by
    rw [Memory.setBytes, Memory.byte_setBytes_outside r _ _ _ (by omega)]
    exact Memory.byte_setByte_same m a b
  | b :: r, m, a, i + 1, h => by
    have := Memory.byte_setBytes_inside r (m.setByte a b) (a + 1) i (by simpa using h)
    rw [Memory.setBytes, show a + (i + 1) = a + 1 + i by omega]
    simpa using this

/-- Reading back what was written. -/
theorem Memory.bytes_setBytes (m : Memory) (a : Nat) (bs : List Byte) : (Memory.setBytes m a bs).bytes a bs.length = bs := by
  have gen : ∀ (bs : List Byte) (n : Memory) (a : Nat), (∀ i (h : i < bs.length), n.byte (a + i) = bs[i]) →
      Memory.bytes n a bs.length = bs := by
    intro bs
    induction bs with
    | nil => intros; rfl
    | cons b r ih =>
      intro n a h
      rw [List.length_cons, Memory.bytes, ih n (a + 1)]
      · rw [show n.byte a = b from h 0 (by simp)]
      · intro i hi
        have := h (i + 1) (by simpa using hi)
        rw [show a + 1 + i = a + (i + 1) by omega]; simpa using this
  exact gen bs _ a fun i h => Memory.byte_setBytes_inside bs m a i h

end Sys2Proof.Machine
end

