-- ==== Sys2Proof/Laws/State.lean ====
section
/-! SUPPORT. What each update of the state and of a hart leaves in every field. -/

namespace Sys2Proof.Machine

open Sys2Proof

/-! setHart. -/

@[simp] theorem State.setHart_cur (s : State) (h : Nat) (x : Hart) : (s.setHart h x).cur = s.cur := rfl
@[simp] theorem State.setHart_agenda (s : State) (h : Nat) (x : Hart) : (s.setHart h x).agenda = s.agenda := rfl
@[simp] theorem State.setHart_fresh (s : State) (h : Nat) (x : Hart) : (s.setHart h x).fresh = s.fresh := rfl
@[simp] theorem State.setHart_cores (s : State) (h : Nat) (x : Hart) : (s.setHart h x).cores = s.cores := rfl
@[simp] theorem State.setHart_dies (s : State) (h : Nat) (x : Hart) : (s.setHart h x).dies = s.dies := rfl
@[simp] theorem State.setHart_modules (s : State) (h : Nat) (x : Hart) : (s.setHart h x).modules = s.modules := rfl
@[simp] theorem State.setHart_mem (s : State) (h : Nat) (x : Hart) : (s.setHart h x).mem = s.mem := rfl
@[simp] theorem State.setHart_keyTag (s : State) (h : Nat) (x : Hart) : (s.setHart h x).keyTag = s.keyTag := rfl
@[simp] theorem State.setHart_owners (s : State) (h : Nat) (x : Hart) : (s.setHart h x).owners = s.owners := rfl
@[simp] theorem State.setHart_full (s : State) (h : Nat) (x : Hart) : (s.setHart h x).full = s.full := rfl
@[simp] theorem State.setHart_poison (s : State) (h : Nat) (x : Hart) : (s.setHart h x).poison = s.poison := rfl
@[simp] theorem State.setHart_dirty (s : State) (h : Nat) (x : Hart) : (s.setHart h x).dirty = s.dirty := rfl
@[simp] theorem State.setHart_replicas (s : State) (h : Nat) (x : Hart) : (s.setHart h x).replicas = s.replicas := rfl
@[simp] theorem State.setHart_collapses (s : State) (h : Nat) (x : Hart) : (s.setHart h x).collapses = s.collapses := rfl
@[simp] theorem State.setHart_winLines (s : State) (h : Nat) (x : Hart) : (s.setHart h x).winLines = s.winLines := rfl
@[simp] theorem State.setHart_tlb (s : State) (h : Nat) (x : Hart) : (s.setHart h x).tlb = s.tlb := rfl
@[simp] theorem State.setHart_chans (s : State) (h : Nat) (x : Hart) : (s.setHart h x).chans = s.chans := rfl
@[simp] theorem State.setHart_outbox (s : State) (h : Nat) (x : Hart) : (s.setHart h x).outbox = s.outbox := rfl
@[simp] theorem State.setHart_far (s : State) (h : Nat) (x : Hart) : (s.setHart h x).far = s.far := rfl
@[simp] theorem State.setHart_arrived (s : State) (h : Nat) (x : Hart) : (s.setHart h x).arrived = s.arrived := rfl
@[simp] theorem State.setHart_frames (s : State) (h : Nat) (x : Hart) : (s.setHart h x).frames = s.frames := rfl
@[simp] theorem State.setHart_posting (s : State) (h : Nat) (x : Hart) : (s.setHart h x).posting = s.posting := rfl
@[simp] theorem State.setHart_out (s : State) (h : Nat) (x : Hart) : (s.setHart h x).out = s.out := rfl
@[simp] theorem State.setHart_serial (s : State) (h : Nat) (x : Hart) : (s.setHart h x).serial = s.serial := rfl
@[simp] theorem State.setHart_invals (s : State) (h : Nat) (x : Hart) : (s.setHart h x).invals = s.invals := rfl
@[simp] theorem State.setHart_stirred (s : State) (h : Nat) (x : Hart) : (s.setHart h x).stirred = s.stirred := rfl
@[simp] theorem State.setHart_raced (s : State) (h : Nat) (x : Hart) : (s.setHart h x).raced = s.raced := rfl

/-! setMe. -/

@[simp] theorem State.setMe_cur (s : State) (x : Hart) : (s.setMe x).cur = s.cur := rfl
@[simp] theorem State.setMe_agenda (s : State) (x : Hart) : (s.setMe x).agenda = s.agenda := rfl
@[simp] theorem State.setMe_fresh (s : State) (x : Hart) : (s.setMe x).fresh = s.fresh := rfl
@[simp] theorem State.setMe_cores (s : State) (x : Hart) : (s.setMe x).cores = s.cores := rfl
@[simp] theorem State.setMe_dies (s : State) (x : Hart) : (s.setMe x).dies = s.dies := rfl
@[simp] theorem State.setMe_modules (s : State) (x : Hart) : (s.setMe x).modules = s.modules := rfl
@[simp] theorem State.setMe_mem (s : State) (x : Hart) : (s.setMe x).mem = s.mem := rfl
@[simp] theorem State.setMe_keyTag (s : State) (x : Hart) : (s.setMe x).keyTag = s.keyTag := rfl
@[simp] theorem State.setMe_owners (s : State) (x : Hart) : (s.setMe x).owners = s.owners := rfl
@[simp] theorem State.setMe_full (s : State) (x : Hart) : (s.setMe x).full = s.full := rfl
@[simp] theorem State.setMe_poison (s : State) (x : Hart) : (s.setMe x).poison = s.poison := rfl
@[simp] theorem State.setMe_dirty (s : State) (x : Hart) : (s.setMe x).dirty = s.dirty := rfl
@[simp] theorem State.setMe_replicas (s : State) (x : Hart) : (s.setMe x).replicas = s.replicas := rfl
@[simp] theorem State.setMe_collapses (s : State) (x : Hart) : (s.setMe x).collapses = s.collapses := rfl
@[simp] theorem State.setMe_winLines (s : State) (x : Hart) : (s.setMe x).winLines = s.winLines := rfl
@[simp] theorem State.setMe_tlb (s : State) (x : Hart) : (s.setMe x).tlb = s.tlb := rfl
@[simp] theorem State.setMe_chans (s : State) (x : Hart) : (s.setMe x).chans = s.chans := rfl
@[simp] theorem State.setMe_outbox (s : State) (x : Hart) : (s.setMe x).outbox = s.outbox := rfl
@[simp] theorem State.setMe_far (s : State) (x : Hart) : (s.setMe x).far = s.far := rfl
@[simp] theorem State.setMe_arrived (s : State) (x : Hart) : (s.setMe x).arrived = s.arrived := rfl
@[simp] theorem State.setMe_frames (s : State) (x : Hart) : (s.setMe x).frames = s.frames := rfl
@[simp] theorem State.setMe_posting (s : State) (x : Hart) : (s.setMe x).posting = s.posting := rfl
@[simp] theorem State.setMe_out (s : State) (x : Hart) : (s.setMe x).out = s.out := rfl
@[simp] theorem State.setMe_serial (s : State) (x : Hart) : (s.setMe x).serial = s.serial := rfl
@[simp] theorem State.setMe_invals (s : State) (x : Hart) : (s.setMe x).invals = s.invals := rfl
@[simp] theorem State.setMe_stirred (s : State) (x : Hart) : (s.setMe x).stirred = s.stirred := rfl
@[simp] theorem State.setMe_raced (s : State) (x : Hart) : (s.setMe x).raced = s.raced := rfl

/-! setCore. -/

@[simp] theorem State.setCore_cur (s : State) (c : Nat) (x : CoreSt) : (s.setCore c x).cur = s.cur := rfl
@[simp] theorem State.setCore_agenda (s : State) (c : Nat) (x : CoreSt) : (s.setCore c x).agenda = s.agenda := rfl
@[simp] theorem State.setCore_fresh (s : State) (c : Nat) (x : CoreSt) : (s.setCore c x).fresh = s.fresh := rfl
@[simp] theorem State.setCore_harts (s : State) (c : Nat) (x : CoreSt) : (s.setCore c x).harts = s.harts := rfl
@[simp] theorem State.setCore_dies (s : State) (c : Nat) (x : CoreSt) : (s.setCore c x).dies = s.dies := rfl
@[simp] theorem State.setCore_modules (s : State) (c : Nat) (x : CoreSt) : (s.setCore c x).modules = s.modules := rfl
@[simp] theorem State.setCore_mem (s : State) (c : Nat) (x : CoreSt) : (s.setCore c x).mem = s.mem := rfl
@[simp] theorem State.setCore_keyTag (s : State) (c : Nat) (x : CoreSt) : (s.setCore c x).keyTag = s.keyTag := rfl
@[simp] theorem State.setCore_owners (s : State) (c : Nat) (x : CoreSt) : (s.setCore c x).owners = s.owners := rfl
@[simp] theorem State.setCore_full (s : State) (c : Nat) (x : CoreSt) : (s.setCore c x).full = s.full := rfl
@[simp] theorem State.setCore_poison (s : State) (c : Nat) (x : CoreSt) : (s.setCore c x).poison = s.poison := rfl
@[simp] theorem State.setCore_dirty (s : State) (c : Nat) (x : CoreSt) : (s.setCore c x).dirty = s.dirty := rfl
@[simp] theorem State.setCore_replicas (s : State) (c : Nat) (x : CoreSt) : (s.setCore c x).replicas = s.replicas := rfl
@[simp] theorem State.setCore_collapses (s : State) (c : Nat) (x : CoreSt) : (s.setCore c x).collapses = s.collapses := rfl
@[simp] theorem State.setCore_winLines (s : State) (c : Nat) (x : CoreSt) : (s.setCore c x).winLines = s.winLines := rfl
@[simp] theorem State.setCore_tlb (s : State) (c : Nat) (x : CoreSt) : (s.setCore c x).tlb = s.tlb := rfl
@[simp] theorem State.setCore_chans (s : State) (c : Nat) (x : CoreSt) : (s.setCore c x).chans = s.chans := rfl
@[simp] theorem State.setCore_outbox (s : State) (c : Nat) (x : CoreSt) : (s.setCore c x).outbox = s.outbox := rfl
@[simp] theorem State.setCore_far (s : State) (c : Nat) (x : CoreSt) : (s.setCore c x).far = s.far := rfl
@[simp] theorem State.setCore_arrived (s : State) (c : Nat) (x : CoreSt) : (s.setCore c x).arrived = s.arrived := rfl
@[simp] theorem State.setCore_frames (s : State) (c : Nat) (x : CoreSt) : (s.setCore c x).frames = s.frames := rfl
@[simp] theorem State.setCore_posting (s : State) (c : Nat) (x : CoreSt) : (s.setCore c x).posting = s.posting := rfl
@[simp] theorem State.setCore_out (s : State) (c : Nat) (x : CoreSt) : (s.setCore c x).out = s.out := rfl
@[simp] theorem State.setCore_serial (s : State) (c : Nat) (x : CoreSt) : (s.setCore c x).serial = s.serial := rfl
@[simp] theorem State.setCore_invals (s : State) (c : Nat) (x : CoreSt) : (s.setCore c x).invals = s.invals := rfl
@[simp] theorem State.setCore_stirred (s : State) (c : Nat) (x : CoreSt) : (s.setCore c x).stirred = s.stirred := rfl
@[simp] theorem State.setCore_raced (s : State) (c : Nat) (x : CoreSt) : (s.setCore c x).raced = s.raced := rfl

/-! setDie. -/

@[simp] theorem State.setDie_cur (s : State) (d : Nat) (x : Die) : (s.setDie d x).cur = s.cur := rfl
@[simp] theorem State.setDie_agenda (s : State) (d : Nat) (x : Die) : (s.setDie d x).agenda = s.agenda := rfl
@[simp] theorem State.setDie_fresh (s : State) (d : Nat) (x : Die) : (s.setDie d x).fresh = s.fresh := rfl
@[simp] theorem State.setDie_harts (s : State) (d : Nat) (x : Die) : (s.setDie d x).harts = s.harts := rfl
@[simp] theorem State.setDie_cores (s : State) (d : Nat) (x : Die) : (s.setDie d x).cores = s.cores := rfl
@[simp] theorem State.setDie_modules (s : State) (d : Nat) (x : Die) : (s.setDie d x).modules = s.modules := rfl
@[simp] theorem State.setDie_mem (s : State) (d : Nat) (x : Die) : (s.setDie d x).mem = s.mem := rfl
@[simp] theorem State.setDie_keyTag (s : State) (d : Nat) (x : Die) : (s.setDie d x).keyTag = s.keyTag := rfl
@[simp] theorem State.setDie_owners (s : State) (d : Nat) (x : Die) : (s.setDie d x).owners = s.owners := rfl
@[simp] theorem State.setDie_full (s : State) (d : Nat) (x : Die) : (s.setDie d x).full = s.full := rfl
@[simp] theorem State.setDie_poison (s : State) (d : Nat) (x : Die) : (s.setDie d x).poison = s.poison := rfl
@[simp] theorem State.setDie_dirty (s : State) (d : Nat) (x : Die) : (s.setDie d x).dirty = s.dirty := rfl
@[simp] theorem State.setDie_replicas (s : State) (d : Nat) (x : Die) : (s.setDie d x).replicas = s.replicas := rfl
@[simp] theorem State.setDie_collapses (s : State) (d : Nat) (x : Die) : (s.setDie d x).collapses = s.collapses := rfl
@[simp] theorem State.setDie_winLines (s : State) (d : Nat) (x : Die) : (s.setDie d x).winLines = s.winLines := rfl
@[simp] theorem State.setDie_tlb (s : State) (d : Nat) (x : Die) : (s.setDie d x).tlb = s.tlb := rfl
@[simp] theorem State.setDie_chans (s : State) (d : Nat) (x : Die) : (s.setDie d x).chans = s.chans := rfl
@[simp] theorem State.setDie_outbox (s : State) (d : Nat) (x : Die) : (s.setDie d x).outbox = s.outbox := rfl
@[simp] theorem State.setDie_far (s : State) (d : Nat) (x : Die) : (s.setDie d x).far = s.far := rfl
@[simp] theorem State.setDie_arrived (s : State) (d : Nat) (x : Die) : (s.setDie d x).arrived = s.arrived := rfl
@[simp] theorem State.setDie_frames (s : State) (d : Nat) (x : Die) : (s.setDie d x).frames = s.frames := rfl
@[simp] theorem State.setDie_posting (s : State) (d : Nat) (x : Die) : (s.setDie d x).posting = s.posting := rfl
@[simp] theorem State.setDie_out (s : State) (d : Nat) (x : Die) : (s.setDie d x).out = s.out := rfl
@[simp] theorem State.setDie_serial (s : State) (d : Nat) (x : Die) : (s.setDie d x).serial = s.serial := rfl
@[simp] theorem State.setDie_invals (s : State) (d : Nat) (x : Die) : (s.setDie d x).invals = s.invals := rfl
@[simp] theorem State.setDie_stirred (s : State) (d : Nat) (x : Die) : (s.setDie d x).stirred = s.stirred := rfl
@[simp] theorem State.setDie_raced (s : State) (d : Nat) (x : Die) : (s.setDie d x).raced = s.raced := rfl

/-! setMd. -/

@[simp] theorem State.setMd_cur (s : State) (m : Nat) (x : Module) : (s.setMd m x).cur = s.cur := rfl
@[simp] theorem State.setMd_agenda (s : State) (m : Nat) (x : Module) : (s.setMd m x).agenda = s.agenda := rfl
@[simp] theorem State.setMd_fresh (s : State) (m : Nat) (x : Module) : (s.setMd m x).fresh = s.fresh := rfl
@[simp] theorem State.setMd_harts (s : State) (m : Nat) (x : Module) : (s.setMd m x).harts = s.harts := rfl
@[simp] theorem State.setMd_cores (s : State) (m : Nat) (x : Module) : (s.setMd m x).cores = s.cores := rfl
@[simp] theorem State.setMd_dies (s : State) (m : Nat) (x : Module) : (s.setMd m x).dies = s.dies := rfl
@[simp] theorem State.setMd_mem (s : State) (m : Nat) (x : Module) : (s.setMd m x).mem = s.mem := rfl
@[simp] theorem State.setMd_keyTag (s : State) (m : Nat) (x : Module) : (s.setMd m x).keyTag = s.keyTag := rfl
@[simp] theorem State.setMd_owners (s : State) (m : Nat) (x : Module) : (s.setMd m x).owners = s.owners := rfl
@[simp] theorem State.setMd_full (s : State) (m : Nat) (x : Module) : (s.setMd m x).full = s.full := rfl
@[simp] theorem State.setMd_poison (s : State) (m : Nat) (x : Module) : (s.setMd m x).poison = s.poison := rfl
@[simp] theorem State.setMd_dirty (s : State) (m : Nat) (x : Module) : (s.setMd m x).dirty = s.dirty := rfl
@[simp] theorem State.setMd_replicas (s : State) (m : Nat) (x : Module) : (s.setMd m x).replicas = s.replicas := rfl
@[simp] theorem State.setMd_collapses (s : State) (m : Nat) (x : Module) : (s.setMd m x).collapses = s.collapses := rfl
@[simp] theorem State.setMd_winLines (s : State) (m : Nat) (x : Module) : (s.setMd m x).winLines = s.winLines := rfl
@[simp] theorem State.setMd_tlb (s : State) (m : Nat) (x : Module) : (s.setMd m x).tlb = s.tlb := rfl
@[simp] theorem State.setMd_chans (s : State) (m : Nat) (x : Module) : (s.setMd m x).chans = s.chans := rfl
@[simp] theorem State.setMd_outbox (s : State) (m : Nat) (x : Module) : (s.setMd m x).outbox = s.outbox := rfl
@[simp] theorem State.setMd_far (s : State) (m : Nat) (x : Module) : (s.setMd m x).far = s.far := rfl
@[simp] theorem State.setMd_arrived (s : State) (m : Nat) (x : Module) : (s.setMd m x).arrived = s.arrived := rfl
@[simp] theorem State.setMd_frames (s : State) (m : Nat) (x : Module) : (s.setMd m x).frames = s.frames := rfl
@[simp] theorem State.setMd_posting (s : State) (m : Nat) (x : Module) : (s.setMd m x).posting = s.posting := rfl
@[simp] theorem State.setMd_out (s : State) (m : Nat) (x : Module) : (s.setMd m x).out = s.out := rfl
@[simp] theorem State.setMd_serial (s : State) (m : Nat) (x : Module) : (s.setMd m x).serial = s.serial := rfl
@[simp] theorem State.setMd_invals (s : State) (m : Nat) (x : Module) : (s.setMd m x).invals = s.invals := rfl
@[simp] theorem State.setMd_stirred (s : State) (m : Nat) (x : Module) : (s.setMd m x).stirred = s.stirred := rfl
@[simp] theorem State.setMd_raced (s : State) (m : Nat) (x : Module) : (s.setMd m x).raced = s.raced := rfl

/-! setCtx. -/

@[simp] theorem State.setCtx_cur (s : State) (m n : Nat) (x : Ctx) : (s.setCtx m n x).cur = s.cur := rfl
@[simp] theorem State.setCtx_agenda (s : State) (m n : Nat) (x : Ctx) : (s.setCtx m n x).agenda = s.agenda := rfl
@[simp] theorem State.setCtx_fresh (s : State) (m n : Nat) (x : Ctx) : (s.setCtx m n x).fresh = s.fresh := rfl
@[simp] theorem State.setCtx_harts (s : State) (m n : Nat) (x : Ctx) : (s.setCtx m n x).harts = s.harts := rfl
@[simp] theorem State.setCtx_cores (s : State) (m n : Nat) (x : Ctx) : (s.setCtx m n x).cores = s.cores := rfl
@[simp] theorem State.setCtx_dies (s : State) (m n : Nat) (x : Ctx) : (s.setCtx m n x).dies = s.dies := rfl
@[simp] theorem State.setCtx_mem (s : State) (m n : Nat) (x : Ctx) : (s.setCtx m n x).mem = s.mem := rfl
@[simp] theorem State.setCtx_keyTag (s : State) (m n : Nat) (x : Ctx) : (s.setCtx m n x).keyTag = s.keyTag := rfl
@[simp] theorem State.setCtx_owners (s : State) (m n : Nat) (x : Ctx) : (s.setCtx m n x).owners = s.owners := rfl
@[simp] theorem State.setCtx_full (s : State) (m n : Nat) (x : Ctx) : (s.setCtx m n x).full = s.full := rfl
@[simp] theorem State.setCtx_poison (s : State) (m n : Nat) (x : Ctx) : (s.setCtx m n x).poison = s.poison := rfl
@[simp] theorem State.setCtx_dirty (s : State) (m n : Nat) (x : Ctx) : (s.setCtx m n x).dirty = s.dirty := rfl
@[simp] theorem State.setCtx_replicas (s : State) (m n : Nat) (x : Ctx) : (s.setCtx m n x).replicas = s.replicas := rfl
@[simp] theorem State.setCtx_collapses (s : State) (m n : Nat) (x : Ctx) : (s.setCtx m n x).collapses = s.collapses := rfl
@[simp] theorem State.setCtx_winLines (s : State) (m n : Nat) (x : Ctx) : (s.setCtx m n x).winLines = s.winLines := rfl
@[simp] theorem State.setCtx_tlb (s : State) (m n : Nat) (x : Ctx) : (s.setCtx m n x).tlb = s.tlb := rfl
@[simp] theorem State.setCtx_chans (s : State) (m n : Nat) (x : Ctx) : (s.setCtx m n x).chans = s.chans := rfl
@[simp] theorem State.setCtx_outbox (s : State) (m n : Nat) (x : Ctx) : (s.setCtx m n x).outbox = s.outbox := rfl
@[simp] theorem State.setCtx_far (s : State) (m n : Nat) (x : Ctx) : (s.setCtx m n x).far = s.far := rfl
@[simp] theorem State.setCtx_arrived (s : State) (m n : Nat) (x : Ctx) : (s.setCtx m n x).arrived = s.arrived := rfl
@[simp] theorem State.setCtx_frames (s : State) (m n : Nat) (x : Ctx) : (s.setCtx m n x).frames = s.frames := rfl
@[simp] theorem State.setCtx_posting (s : State) (m n : Nat) (x : Ctx) : (s.setCtx m n x).posting = s.posting := rfl
@[simp] theorem State.setCtx_out (s : State) (m n : Nat) (x : Ctx) : (s.setCtx m n x).out = s.out := rfl
@[simp] theorem State.setCtx_serial (s : State) (m n : Nat) (x : Ctx) : (s.setCtx m n x).serial = s.serial := rfl
@[simp] theorem State.setCtx_invals (s : State) (m n : Nat) (x : Ctx) : (s.setCtx m n x).invals = s.invals := rfl
@[simp] theorem State.setCtx_stirred (s : State) (m n : Nat) (x : Ctx) : (s.setCtx m n x).stirred = s.stirred := rfl
@[simp] theorem State.setCtx_raced (s : State) (m n : Nat) (x : Ctx) : (s.setCtx m n x).raced = s.raced := rfl

/-! wr. -/

@[simp] theorem State.wr_cur (s : State) (k : Nat) (bs : List Byte) : (s.wr k bs).cur = s.cur := rfl
@[simp] theorem State.wr_agenda (s : State) (k : Nat) (bs : List Byte) : (s.wr k bs).agenda = s.agenda := rfl
@[simp] theorem State.wr_fresh (s : State) (k : Nat) (bs : List Byte) : (s.wr k bs).fresh = s.fresh := rfl
@[simp] theorem State.wr_harts (s : State) (k : Nat) (bs : List Byte) : (s.wr k bs).harts = s.harts := rfl
@[simp] theorem State.wr_cores (s : State) (k : Nat) (bs : List Byte) : (s.wr k bs).cores = s.cores := rfl
@[simp] theorem State.wr_dies (s : State) (k : Nat) (bs : List Byte) : (s.wr k bs).dies = s.dies := rfl
@[simp] theorem State.wr_modules (s : State) (k : Nat) (bs : List Byte) : (s.wr k bs).modules = s.modules := rfl
@[simp] theorem State.wr_keyTag (s : State) (k : Nat) (bs : List Byte) : (s.wr k bs).keyTag = s.keyTag := rfl
@[simp] theorem State.wr_owners (s : State) (k : Nat) (bs : List Byte) : (s.wr k bs).owners = s.owners := rfl
@[simp] theorem State.wr_full (s : State) (k : Nat) (bs : List Byte) : (s.wr k bs).full = s.full := rfl
@[simp] theorem State.wr_poison (s : State) (k : Nat) (bs : List Byte) : (s.wr k bs).poison = s.poison := rfl
@[simp] theorem State.wr_dirty (s : State) (k : Nat) (bs : List Byte) : (s.wr k bs).dirty = s.dirty := rfl
@[simp] theorem State.wr_replicas (s : State) (k : Nat) (bs : List Byte) : (s.wr k bs).replicas = s.replicas := rfl
@[simp] theorem State.wr_collapses (s : State) (k : Nat) (bs : List Byte) : (s.wr k bs).collapses = s.collapses := rfl
@[simp] theorem State.wr_winLines (s : State) (k : Nat) (bs : List Byte) : (s.wr k bs).winLines = s.winLines := rfl
@[simp] theorem State.wr_tlb (s : State) (k : Nat) (bs : List Byte) : (s.wr k bs).tlb = s.tlb := rfl
@[simp] theorem State.wr_chans (s : State) (k : Nat) (bs : List Byte) : (s.wr k bs).chans = s.chans := rfl
@[simp] theorem State.wr_outbox (s : State) (k : Nat) (bs : List Byte) : (s.wr k bs).outbox = s.outbox := rfl
@[simp] theorem State.wr_far (s : State) (k : Nat) (bs : List Byte) : (s.wr k bs).far = s.far := rfl
@[simp] theorem State.wr_arrived (s : State) (k : Nat) (bs : List Byte) : (s.wr k bs).arrived = s.arrived := rfl
@[simp] theorem State.wr_frames (s : State) (k : Nat) (bs : List Byte) : (s.wr k bs).frames = s.frames := rfl
@[simp] theorem State.wr_posting (s : State) (k : Nat) (bs : List Byte) : (s.wr k bs).posting = s.posting := rfl
@[simp] theorem State.wr_out (s : State) (k : Nat) (bs : List Byte) : (s.wr k bs).out = s.out := rfl
@[simp] theorem State.wr_serial (s : State) (k : Nat) (bs : List Byte) : (s.wr k bs).serial = s.serial := rfl
@[simp] theorem State.wr_invals (s : State) (k : Nat) (bs : List Byte) : (s.wr k bs).invals = s.invals := rfl
@[simp] theorem State.wr_stirred (s : State) (k : Nat) (bs : List Byte) : (s.wr k bs).stirred = s.stirred := rfl
@[simp] theorem State.wr_raced (s : State) (k : Nat) (bs : List Byte) : (s.wr k bs).raced = s.raced := rfl

/-! draw. -/

@[simp] theorem State.draw_cur (s : State)  : (s.draw).cur = s.cur := rfl
@[simp] theorem State.draw_agenda (s : State)  : (s.draw).agenda = s.agenda := rfl
@[simp] theorem State.draw_harts (s : State)  : (s.draw).harts = s.harts := rfl
@[simp] theorem State.draw_cores (s : State)  : (s.draw).cores = s.cores := rfl
@[simp] theorem State.draw_dies (s : State)  : (s.draw).dies = s.dies := rfl
@[simp] theorem State.draw_modules (s : State)  : (s.draw).modules = s.modules := rfl
@[simp] theorem State.draw_mem (s : State)  : (s.draw).mem = s.mem := rfl
@[simp] theorem State.draw_keyTag (s : State)  : (s.draw).keyTag = s.keyTag := rfl
@[simp] theorem State.draw_owners (s : State)  : (s.draw).owners = s.owners := rfl
@[simp] theorem State.draw_full (s : State)  : (s.draw).full = s.full := rfl
@[simp] theorem State.draw_poison (s : State)  : (s.draw).poison = s.poison := rfl
@[simp] theorem State.draw_dirty (s : State)  : (s.draw).dirty = s.dirty := rfl
@[simp] theorem State.draw_replicas (s : State)  : (s.draw).replicas = s.replicas := rfl
@[simp] theorem State.draw_collapses (s : State)  : (s.draw).collapses = s.collapses := rfl
@[simp] theorem State.draw_winLines (s : State)  : (s.draw).winLines = s.winLines := rfl
@[simp] theorem State.draw_tlb (s : State)  : (s.draw).tlb = s.tlb := rfl
@[simp] theorem State.draw_chans (s : State)  : (s.draw).chans = s.chans := rfl
@[simp] theorem State.draw_outbox (s : State)  : (s.draw).outbox = s.outbox := rfl
@[simp] theorem State.draw_far (s : State)  : (s.draw).far = s.far := rfl
@[simp] theorem State.draw_arrived (s : State)  : (s.draw).arrived = s.arrived := rfl
@[simp] theorem State.draw_frames (s : State)  : (s.draw).frames = s.frames := rfl
@[simp] theorem State.draw_posting (s : State)  : (s.draw).posting = s.posting := rfl
@[simp] theorem State.draw_out (s : State)  : (s.draw).out = s.out := rfl
@[simp] theorem State.draw_serial (s : State)  : (s.draw).serial = s.serial := rfl
@[simp] theorem State.draw_invals (s : State)  : (s.draw).invals = s.invals := rfl
@[simp] theorem State.draw_stirred (s : State)  : (s.draw).stirred = s.stirred := rfl
@[simp] theorem State.draw_raced (s : State)  : (s.draw).raced = s.raced := rfl

/-! write. -/

@[simp] theorem State.write_cur (s : State) (rd : BitVec 5) (w n : Word) : (s.write rd w n).cur = s.cur := rfl
@[simp] theorem State.write_agenda (s : State) (rd : BitVec 5) (w n : Word) : (s.write rd w n).agenda = s.agenda := rfl
@[simp] theorem State.write_fresh (s : State) (rd : BitVec 5) (w n : Word) : (s.write rd w n).fresh = s.fresh := rfl
@[simp] theorem State.write_cores (s : State) (rd : BitVec 5) (w n : Word) : (s.write rd w n).cores = s.cores := rfl
@[simp] theorem State.write_dies (s : State) (rd : BitVec 5) (w n : Word) : (s.write rd w n).dies = s.dies := rfl
@[simp] theorem State.write_modules (s : State) (rd : BitVec 5) (w n : Word) : (s.write rd w n).modules = s.modules := rfl
@[simp] theorem State.write_mem (s : State) (rd : BitVec 5) (w n : Word) : (s.write rd w n).mem = s.mem := rfl
@[simp] theorem State.write_keyTag (s : State) (rd : BitVec 5) (w n : Word) : (s.write rd w n).keyTag = s.keyTag := rfl
@[simp] theorem State.write_owners (s : State) (rd : BitVec 5) (w n : Word) : (s.write rd w n).owners = s.owners := rfl
@[simp] theorem State.write_full (s : State) (rd : BitVec 5) (w n : Word) : (s.write rd w n).full = s.full := rfl
@[simp] theorem State.write_poison (s : State) (rd : BitVec 5) (w n : Word) : (s.write rd w n).poison = s.poison := rfl
@[simp] theorem State.write_dirty (s : State) (rd : BitVec 5) (w n : Word) : (s.write rd w n).dirty = s.dirty := rfl
@[simp] theorem State.write_replicas (s : State) (rd : BitVec 5) (w n : Word) : (s.write rd w n).replicas = s.replicas := rfl
@[simp] theorem State.write_collapses (s : State) (rd : BitVec 5) (w n : Word) : (s.write rd w n).collapses = s.collapses := rfl
@[simp] theorem State.write_winLines (s : State) (rd : BitVec 5) (w n : Word) : (s.write rd w n).winLines = s.winLines := rfl
@[simp] theorem State.write_tlb (s : State) (rd : BitVec 5) (w n : Word) : (s.write rd w n).tlb = s.tlb := rfl
@[simp] theorem State.write_chans (s : State) (rd : BitVec 5) (w n : Word) : (s.write rd w n).chans = s.chans := rfl
@[simp] theorem State.write_outbox (s : State) (rd : BitVec 5) (w n : Word) : (s.write rd w n).outbox = s.outbox := rfl
@[simp] theorem State.write_far (s : State) (rd : BitVec 5) (w n : Word) : (s.write rd w n).far = s.far := rfl
@[simp] theorem State.write_arrived (s : State) (rd : BitVec 5) (w n : Word) : (s.write rd w n).arrived = s.arrived := rfl
@[simp] theorem State.write_frames (s : State) (rd : BitVec 5) (w n : Word) : (s.write rd w n).frames = s.frames := rfl
@[simp] theorem State.write_posting (s : State) (rd : BitVec 5) (w n : Word) : (s.write rd w n).posting = s.posting := rfl
@[simp] theorem State.write_out (s : State) (rd : BitVec 5) (w n : Word) : (s.write rd w n).out = s.out := rfl
@[simp] theorem State.write_serial (s : State) (rd : BitVec 5) (w n : Word) : (s.write rd w n).serial = s.serial := rfl
@[simp] theorem State.write_invals (s : State) (rd : BitVec 5) (w n : Word) : (s.write rd w n).invals = s.invals := rfl
@[simp] theorem State.write_stirred (s : State) (rd : BitVec 5) (w n : Word) : (s.write rd w n).stirred = s.stirred := rfl
@[simp] theorem State.write_raced (s : State) (rd : BitVec 5) (w n : Word) : (s.write rd w n).raced = s.raced := rfl

/-! retire. -/

@[simp] theorem State.retire_cur (s : State) (n : Word) : (s.retire n).cur = s.cur := rfl
@[simp] theorem State.retire_agenda (s : State) (n : Word) : (s.retire n).agenda = s.agenda := rfl
@[simp] theorem State.retire_fresh (s : State) (n : Word) : (s.retire n).fresh = s.fresh := rfl
@[simp] theorem State.retire_cores (s : State) (n : Word) : (s.retire n).cores = s.cores := rfl
@[simp] theorem State.retire_dies (s : State) (n : Word) : (s.retire n).dies = s.dies := rfl
@[simp] theorem State.retire_modules (s : State) (n : Word) : (s.retire n).modules = s.modules := rfl
@[simp] theorem State.retire_mem (s : State) (n : Word) : (s.retire n).mem = s.mem := rfl
@[simp] theorem State.retire_keyTag (s : State) (n : Word) : (s.retire n).keyTag = s.keyTag := rfl
@[simp] theorem State.retire_owners (s : State) (n : Word) : (s.retire n).owners = s.owners := rfl
@[simp] theorem State.retire_full (s : State) (n : Word) : (s.retire n).full = s.full := rfl
@[simp] theorem State.retire_poison (s : State) (n : Word) : (s.retire n).poison = s.poison := rfl
@[simp] theorem State.retire_dirty (s : State) (n : Word) : (s.retire n).dirty = s.dirty := rfl
@[simp] theorem State.retire_replicas (s : State) (n : Word) : (s.retire n).replicas = s.replicas := rfl
@[simp] theorem State.retire_collapses (s : State) (n : Word) : (s.retire n).collapses = s.collapses := rfl
@[simp] theorem State.retire_winLines (s : State) (n : Word) : (s.retire n).winLines = s.winLines := rfl
@[simp] theorem State.retire_tlb (s : State) (n : Word) : (s.retire n).tlb = s.tlb := rfl
@[simp] theorem State.retire_chans (s : State) (n : Word) : (s.retire n).chans = s.chans := rfl
@[simp] theorem State.retire_outbox (s : State) (n : Word) : (s.retire n).outbox = s.outbox := rfl
@[simp] theorem State.retire_far (s : State) (n : Word) : (s.retire n).far = s.far := rfl
@[simp] theorem State.retire_arrived (s : State) (n : Word) : (s.retire n).arrived = s.arrived := rfl
@[simp] theorem State.retire_frames (s : State) (n : Word) : (s.retire n).frames = s.frames := rfl
@[simp] theorem State.retire_posting (s : State) (n : Word) : (s.retire n).posting = s.posting := rfl
@[simp] theorem State.retire_out (s : State) (n : Word) : (s.retire n).out = s.out := rfl
@[simp] theorem State.retire_serial (s : State) (n : Word) : (s.retire n).serial = s.serial := rfl
@[simp] theorem State.retire_invals (s : State) (n : Word) : (s.retire n).invals = s.invals := rfl
@[simp] theorem State.retire_stirred (s : State) (n : Word) : (s.retire n).stirred = s.stirred := rfl
@[simp] theorem State.retire_raced (s : State) (n : Word) : (s.retire n).raced = s.raced := rfl

/-! trapAt. -/

@[simp] theorem State.trapAt_cur (s : State) (h : Nat) (t : Trap) (pc : Word) (e : BitVec 9) : (s.trapAt h t pc e).cur = s.cur := rfl
@[simp] theorem State.trapAt_agenda (s : State) (h : Nat) (t : Trap) (pc : Word) (e : BitVec 9) : (s.trapAt h t pc e).agenda = s.agenda := rfl
@[simp] theorem State.trapAt_fresh (s : State) (h : Nat) (t : Trap) (pc : Word) (e : BitVec 9) : (s.trapAt h t pc e).fresh = s.fresh := rfl
@[simp] theorem State.trapAt_cores (s : State) (h : Nat) (t : Trap) (pc : Word) (e : BitVec 9) : (s.trapAt h t pc e).cores = s.cores := rfl
@[simp] theorem State.trapAt_dies (s : State) (h : Nat) (t : Trap) (pc : Word) (e : BitVec 9) : (s.trapAt h t pc e).dies = s.dies := rfl
@[simp] theorem State.trapAt_modules (s : State) (h : Nat) (t : Trap) (pc : Word) (e : BitVec 9) : (s.trapAt h t pc e).modules = s.modules := rfl
@[simp] theorem State.trapAt_mem (s : State) (h : Nat) (t : Trap) (pc : Word) (e : BitVec 9) : (s.trapAt h t pc e).mem = s.mem := rfl
@[simp] theorem State.trapAt_keyTag (s : State) (h : Nat) (t : Trap) (pc : Word) (e : BitVec 9) : (s.trapAt h t pc e).keyTag = s.keyTag := rfl
@[simp] theorem State.trapAt_owners (s : State) (h : Nat) (t : Trap) (pc : Word) (e : BitVec 9) : (s.trapAt h t pc e).owners = s.owners := rfl
@[simp] theorem State.trapAt_full (s : State) (h : Nat) (t : Trap) (pc : Word) (e : BitVec 9) : (s.trapAt h t pc e).full = s.full := rfl
@[simp] theorem State.trapAt_poison (s : State) (h : Nat) (t : Trap) (pc : Word) (e : BitVec 9) : (s.trapAt h t pc e).poison = s.poison := rfl
@[simp] theorem State.trapAt_dirty (s : State) (h : Nat) (t : Trap) (pc : Word) (e : BitVec 9) : (s.trapAt h t pc e).dirty = s.dirty := rfl
@[simp] theorem State.trapAt_replicas (s : State) (h : Nat) (t : Trap) (pc : Word) (e : BitVec 9) : (s.trapAt h t pc e).replicas = s.replicas := rfl
@[simp] theorem State.trapAt_collapses (s : State) (h : Nat) (t : Trap) (pc : Word) (e : BitVec 9) : (s.trapAt h t pc e).collapses = s.collapses := rfl
@[simp] theorem State.trapAt_winLines (s : State) (h : Nat) (t : Trap) (pc : Word) (e : BitVec 9) : (s.trapAt h t pc e).winLines = s.winLines := rfl
@[simp] theorem State.trapAt_tlb (s : State) (h : Nat) (t : Trap) (pc : Word) (e : BitVec 9) : (s.trapAt h t pc e).tlb = s.tlb := rfl
@[simp] theorem State.trapAt_chans (s : State) (h : Nat) (t : Trap) (pc : Word) (e : BitVec 9) : (s.trapAt h t pc e).chans = s.chans := rfl
@[simp] theorem State.trapAt_outbox (s : State) (h : Nat) (t : Trap) (pc : Word) (e : BitVec 9) : (s.trapAt h t pc e).outbox = s.outbox := rfl
@[simp] theorem State.trapAt_far (s : State) (h : Nat) (t : Trap) (pc : Word) (e : BitVec 9) : (s.trapAt h t pc e).far = s.far := rfl
@[simp] theorem State.trapAt_arrived (s : State) (h : Nat) (t : Trap) (pc : Word) (e : BitVec 9) : (s.trapAt h t pc e).arrived = s.arrived := rfl
@[simp] theorem State.trapAt_frames (s : State) (h : Nat) (t : Trap) (pc : Word) (e : BitVec 9) : (s.trapAt h t pc e).frames = s.frames := rfl
@[simp] theorem State.trapAt_posting (s : State) (h : Nat) (t : Trap) (pc : Word) (e : BitVec 9) : (s.trapAt h t pc e).posting = s.posting := rfl
@[simp] theorem State.trapAt_out (s : State) (h : Nat) (t : Trap) (pc : Word) (e : BitVec 9) : (s.trapAt h t pc e).out = s.out := rfl
@[simp] theorem State.trapAt_serial (s : State) (h : Nat) (t : Trap) (pc : Word) (e : BitVec 9) : (s.trapAt h t pc e).serial = s.serial := rfl
@[simp] theorem State.trapAt_invals (s : State) (h : Nat) (t : Trap) (pc : Word) (e : BitVec 9) : (s.trapAt h t pc e).invals = s.invals := rfl
@[simp] theorem State.trapAt_stirred (s : State) (h : Nat) (t : Trap) (pc : Word) (e : BitVec 9) : (s.trapAt h t pc e).stirred = s.stirred := rfl
@[simp] theorem State.trapAt_raced (s : State) (h : Nat) (t : Trap) (pc : Word) (e : BitVec 9) : (s.trapAt h t pc e).raced = s.raced := rfl

/-! trap. -/

@[simp] theorem State.trap_cur (s : State) (t : Trap) : (s.trap t).cur = s.cur := rfl
@[simp] theorem State.trap_agenda (s : State) (t : Trap) : (s.trap t).agenda = s.agenda := rfl
@[simp] theorem State.trap_fresh (s : State) (t : Trap) : (s.trap t).fresh = s.fresh := rfl
@[simp] theorem State.trap_cores (s : State) (t : Trap) : (s.trap t).cores = s.cores := rfl
@[simp] theorem State.trap_dies (s : State) (t : Trap) : (s.trap t).dies = s.dies := rfl
@[simp] theorem State.trap_modules (s : State) (t : Trap) : (s.trap t).modules = s.modules := rfl
@[simp] theorem State.trap_mem (s : State) (t : Trap) : (s.trap t).mem = s.mem := rfl
@[simp] theorem State.trap_keyTag (s : State) (t : Trap) : (s.trap t).keyTag = s.keyTag := rfl
@[simp] theorem State.trap_owners (s : State) (t : Trap) : (s.trap t).owners = s.owners := rfl
@[simp] theorem State.trap_full (s : State) (t : Trap) : (s.trap t).full = s.full := rfl
@[simp] theorem State.trap_poison (s : State) (t : Trap) : (s.trap t).poison = s.poison := rfl
@[simp] theorem State.trap_dirty (s : State) (t : Trap) : (s.trap t).dirty = s.dirty := rfl
@[simp] theorem State.trap_replicas (s : State) (t : Trap) : (s.trap t).replicas = s.replicas := rfl
@[simp] theorem State.trap_collapses (s : State) (t : Trap) : (s.trap t).collapses = s.collapses := rfl
@[simp] theorem State.trap_winLines (s : State) (t : Trap) : (s.trap t).winLines = s.winLines := rfl
@[simp] theorem State.trap_tlb (s : State) (t : Trap) : (s.trap t).tlb = s.tlb := rfl
@[simp] theorem State.trap_chans (s : State) (t : Trap) : (s.trap t).chans = s.chans := rfl
@[simp] theorem State.trap_outbox (s : State) (t : Trap) : (s.trap t).outbox = s.outbox := rfl
@[simp] theorem State.trap_far (s : State) (t : Trap) : (s.trap t).far = s.far := rfl
@[simp] theorem State.trap_arrived (s : State) (t : Trap) : (s.trap t).arrived = s.arrived := rfl
@[simp] theorem State.trap_frames (s : State) (t : Trap) : (s.trap t).frames = s.frames := rfl
@[simp] theorem State.trap_posting (s : State) (t : Trap) : (s.trap t).posting = s.posting := rfl
@[simp] theorem State.trap_out (s : State) (t : Trap) : (s.trap t).out = s.out := rfl
@[simp] theorem State.trap_serial (s : State) (t : Trap) : (s.trap t).serial = s.serial := rfl
@[simp] theorem State.trap_invals (s : State) (t : Trap) : (s.trap t).invals = s.invals := rfl
@[simp] theorem State.trap_stirred (s : State) (t : Trap) : (s.trap t).stirred = s.stirred := rfl
@[simp] theorem State.trap_raced (s : State) (t : Trap) : (s.trap t).raced = s.raced := rfl

/-! Records read back. -/

@[simp] theorem State.hart_setHart_same (s : State) (h : Nat) (x : Hart) : (s.setHart h x).hart h = x := mget_mset_same _ _ _ _
theorem State.hart_setHart_ne (s : State) {h j : Nat} (x : Hart) (n : j ≠ h) : (s.setHart h x).hart j = s.hart j :=
  mget_mset_ne _ _ _ n
@[simp] theorem State.me_setMe (s : State) (x : Hart) : (s.setMe x).me = x := mget_mset_same _ _ _ _
theorem State.hart_setMe_ne (s : State) {j : Nat} (x : Hart) (n : j ≠ s.cur) : (s.setMe x).hart j = s.hart j :=
  mget_mset_ne _ _ _ n
@[simp] theorem State.core_setCore_same (s : State) (c : Nat) (x : CoreSt) : (s.setCore c x).core c = x := mget_mset_same _ _ _ _
theorem State.core_setCore_ne (s : State) {c j : Nat} (x : CoreSt) (n : j ≠ c) : (s.setCore c x).core j = s.core j :=
  mget_mset_ne _ _ _ n
@[simp] theorem State.die_setDie_same (s : State) (d : Nat) (x : Die) : (s.setDie d x).die d = x := mget_mset_same _ _ _ _
theorem State.die_setDie_ne (s : State) {d j : Nat} (x : Die) (n : j ≠ d) : (s.setDie d x).die j = s.die j :=
  mget_mset_ne _ _ _ n
@[simp] theorem State.md_setMd_same (s : State) (m : Nat) (x : Module) : (s.setMd m x).md m = x := mget_mset_same _ _ _ _
theorem State.md_setMd_ne (s : State) {m j : Nat} (x : Module) (n : j ≠ m) : (s.setMd m x).md j = s.md j :=
  mget_mset_ne _ _ _ n
@[simp] theorem State.ctx_setCtx_same (s : State) (m n : Nat) (x : Ctx) : (s.setCtx m n x).ctx m n = x := by
  simp [State.ctx, State.setCtx]
@[simp] theorem State.me_write (s : State) (rd : BitVec 5) (w n : Word) : (s.write rd w n).me = (s.me.setG rd w).retire n :=
  State.me_setMe _ _
@[simp] theorem State.me_retire (s : State) (n : Word) : (s.retire n).me = s.me.retire n := State.me_setMe _ _
@[simp] theorem State.me_trap (s : State) (t : Trap) : (s.trap t).me = s.me.trap (isControl s.cur) t s.me.pc 0 :=
  State.me_setMe _ _

@[simp] theorem State.hart_setCore (s : State) (c i : Nat) (x : CoreSt) : (s.setCore c x).hart i = s.hart i := rfl
@[simp] theorem State.hart_setDie (s : State) (c i : Nat) (x : Die) : (s.setDie c x).hart i = s.hart i := rfl
@[simp] theorem State.hart_setMd (s : State) (c i : Nat) (x : Module) : (s.setMd c x).hart i = s.hart i := rfl
@[simp] theorem State.core_setHart (s : State) (c i : Nat) (x : Hart) : (s.setHart c x).core i = s.core i := rfl
@[simp] theorem State.core_setDie (s : State) (c i : Nat) (x : Die) : (s.setDie c x).core i = s.core i := rfl
@[simp] theorem State.core_setMd (s : State) (c i : Nat) (x : Module) : (s.setMd c x).core i = s.core i := rfl
@[simp] theorem State.die_setHart (s : State) (c i : Nat) (x : Hart) : (s.setHart c x).die i = s.die i := rfl
@[simp] theorem State.die_setCore (s : State) (c i : Nat) (x : CoreSt) : (s.setCore c x).die i = s.die i := rfl
@[simp] theorem State.die_setMd (s : State) (c i : Nat) (x : Module) : (s.setMd c x).die i = s.die i := rfl
@[simp] theorem State.md_setHart (s : State) (c i : Nat) (x : Hart) : (s.setHart c x).md i = s.md i := rfl
@[simp] theorem State.md_setCore (s : State) (c i : Nat) (x : CoreSt) : (s.setCore c x).md i = s.md i := rfl
@[simp] theorem State.md_setDie (s : State) (c i : Nat) (x : Die) : (s.setDie c x).md i = s.md i := rfl

/-! Registers read back. -/

@[simp] theorem Hart.g_zero (x : Hart) : x.g 0 = 0 := rfl
@[simp] theorem Hart.g_setG (x : Hart) (r : BitVec 5) (w : Word) : (x.setG r w).g r = if r = 0 then 0 else w := by
  unfold Hart.g Hart.setG
  split <;> simp_all
theorem Hart.g_setG_ne (x : Hart) {r q : BitVec 5} (w : Word) (h : q ≠ r) : (x.setG r w).g q = x.g q := by
  have hn : q.toNat ≠ r.toNat := fun e => h (BitVec.eq_of_toNat_eq e)
  unfold Hart.g Hart.setG
  split
  · rfl
  · split
    · rfl
    · exact mget_mset_ne _ _ _ hn
@[simp] theorem Hart.setG_zero (x : Hart) (w : Word) : x.setG 0 w = x := rfl
@[simp] theorem Hart.v_setV_same (x : Hart) (n : Nat) (w : VReg) : (x.setV n w).v n = w := mget_mset_same _ _ _ _
theorem Hart.v_setV_ne (x : Hart) {n j : Nat} (w : VReg) (h : j ≠ n) : (x.setV n w).v j = x.v j := mget_mset_ne _ _ _ h
@[simp] theorem Hart.k_zero (x : Hart) : x.k 0 = BitVec.allOnes 512 := rfl
@[simp] theorem Hart.k_setK (x : Hart) (n : Nat) (w : KReg) : (x.setK n w).k n = if n = 0 then BitVec.allOnes 512 else w := by
  unfold Hart.k Hart.setK
  split <;> simp_all
theorem Hart.k_setK_ne (x : Hart) {n j : Nat} (w : KReg) (h : j ≠ n) : (x.setK n w).k j = x.k j := by
  unfold Hart.k Hart.setK
  split
  · rfl
  · split
    · rfl
    · exact mget_mset_ne _ _ _ h
@[simp] theorem Hart.tile_setTile_same (x : Hart) (t i : Nat) (w : VReg) : (x.setTile t i w).tile t i = w := mget_mset_same _ _ _ _
@[simp] theorem Hart.ccv_setCc_same (x : Hart) (n : Nat) (w : BitVec 32) : (x.setCc n w).ccv n = w := mget_mset_same _ _ _ _
theorem Hart.ccv_setCc_ne (x : Hart) {n j : Nat} (w : BitVec 32) (h : j ≠ n) : (x.setCc n w).ccv j = x.ccv j :=
  mget_mset_ne _ _ _ h

/-! setG. -/

@[simp] theorem Hart.setG_st (x : Hart) (r : BitVec 5) (w : Word) : (x.setG r w).st = x.st := by
  unfold Hart.setG; split <;> rfl
@[simp] theorem Hart.setG_pc (x : Hart) (r : BitVec 5) (w : Word) : (x.setG r w).pc = x.pc := by
  unfold Hart.setG; split <;> rfl
@[simp] theorem Hart.setG_c (x : Hart) (r : BitVec 5) (w : Word) : (x.setG r w).c = x.c := by
  unfold Hart.setG; split <;> rfl
@[simp] theorem Hart.setG_cc (x : Hart) (r : BitVec 5) (w : Word) : (x.setG r w).cc = x.cc := by
  unfold Hart.setG; split <;> rfl
@[simp] theorem Hart.setG_feni (x : Hart) (r : BitVec 5) (w : Word) : (x.setG r w).feni = x.feni := by
  unfold Hart.setG; split <;> rfl
@[simp] theorem Hart.setG_tokens (x : Hart) (r : BitVec 5) (w : Word) : (x.setG r w).tokens = x.tokens := by
  unfold Hart.setG; split <;> rfl
@[simp] theorem Hart.setG_failed (x : Hart) (r : BitVec 5) (w : Word) : (x.setG r w).failed = x.failed := by
  unfold Hart.setG; split <;> rfl
@[simp] theorem Hart.setG_timedOut (x : Hart) (r : BitVec 5) (w : Word) : (x.setG r w).timedOut = x.timedOut := by
  unfold Hart.setG; split <;> rfl
@[simp] theorem Hart.setG_rebind (x : Hart) (r : BitVec 5) (w : Word) : (x.setG r w).rebind = x.rebind := by
  unfold Hart.setG; split <;> rfl
@[simp] theorem Hart.setG_bind (x : Hart) (r : BitVec 5) (w : Word) : (x.setG r w).bind = x.bind := by
  unfold Hart.setG; split <;> rfl
@[simp] theorem Hart.setG_pend (x : Hart) (r : BitVec 5) (w : Word) : (x.setG r w).pend = x.pend := by
  unfold Hart.setG; split <;> rfl
@[simp] theorem Hart.setG_nb (x : Hart) (r : BitVec 5) (w : Word) : (x.setG r w).nb = x.nb := by
  unfold Hart.setG; split <;> rfl
@[simp] theorem Hart.setG_next (x : Hart) (r : BitVec 5) (w : Word) : (x.setG r w).next = x.next := by
  unfold Hart.setG; split <;> rfl
@[simp] theorem Hart.setG_seen (x : Hart) (r : BitVec 5) (w : Word) : (x.setG r w).seen = x.seen := by
  unfold Hart.setG; split <;> rfl
@[simp] theorem Hart.setG_unacked (x : Hart) (r : BitVec 5) (w : Word) : (x.setG r w).unacked = x.unacked := by
  unfold Hart.setG; split <;> rfl
@[simp] theorem Hart.setG_hold (x : Hart) (r : BitVec 5) (w : Word) : (x.setG r w).hold = x.hold := by
  unfold Hart.setG; split <;> rfl
@[simp] theorem Hart.setG_served (x : Hart) (r : BitVec 5) (w : Word) : (x.setG r w).served = x.served := by
  unfold Hart.setG; split <;> rfl
@[simp] theorem Hart.setG_convoy (x : Hart) (r : BitVec 5) (w : Word) : (x.setG r w).convoy = x.convoy := by
  unfold Hart.setG; split <;> rfl
@[simp] theorem Hart.setG_entering (x : Hart) (r : BitVec 5) (w : Word) : (x.setG r w).entering = x.entering := by
  unfold Hart.setG; split <;> rfl
@[simp] theorem Hart.setG_node (x : Hart) (r : BitVec 5) (w : Word) : (x.setG r w).node = x.node := by
  unfold Hart.setG; split <;> rfl
@[simp] theorem Hart.setG_rank (x : Hart) (r : BitVec 5) (w : Word) : (x.setG r w).rank = x.rank := by
  unfold Hart.setG; split <;> rfl
@[simp] theorem Hart.setG_slot (x : Hart) (r : BitVec 5) (w : Word) : (x.setG r w).slot = x.slot := by
  unfold Hart.setG; split <;> rfl
@[simp] theorem Hart.setG_preqAt (x : Hart) (r : BitVec 5) (w : Word) : (x.setG r w).preqAt = x.preqAt := by
  unfold Hart.setG; split <;> rfl
@[simp] theorem Hart.setG_saving (x : Hart) (r : BitVec 5) (w : Word) : (x.setG r w).saving = x.saving := by
  unfold Hart.setG; split <;> rfl
@[simp] theorem Hart.setG_saveDue (x : Hart) (r : BitVec 5) (w : Word) : (x.setG r w).saveDue = x.saveDue := by
  unfold Hart.setG; split <;> rfl
@[simp] theorem Hart.setG_opq (x : Hart) (r : BitVec 5) (w : Word) : (x.setG r w).opq = x.opq := by
  unfold Hart.setG; split <;> rfl
@[simp] theorem Hart.setG_ready (x : Hart) (r : BitVec 5) (w : Word) : (x.setG r w).ready = x.ready := by
  unfold Hart.setG; split <;> rfl
@[simp] theorem Hart.setG_colls (x : Hart) (r : BitVec 5) (w : Word) : (x.setG r w).colls = x.colls := by
  unfold Hart.setG; split <;> rfl
@[simp] theorem Hart.setG_ic (x : Hart) (r : BitVec 5) (w : Word) : (x.setG r w).ic = x.ic := by
  unfold Hart.setG; split <;> rfl
@[simp] theorem Hart.setG_early (x : Hart) (r : BitVec 5) (w : Word) : (x.setG r w).early = x.early := by
  unfold Hart.setG; split <;> rfl
@[simp] theorem Hart.setG_rng (x : Hart) (r : BitVec 5) (w : Word) : (x.setG r w).rng = x.rng := by
  unfold Hart.setG; split <;> rfl

/-! setV. -/

@[simp] theorem Hart.setV_st (x : Hart) (n : Nat) (w : VReg) : (x.setV n w).st = x.st := rfl
@[simp] theorem Hart.setV_pc (x : Hart) (n : Nat) (w : VReg) : (x.setV n w).pc = x.pc := rfl
@[simp] theorem Hart.setV_c (x : Hart) (n : Nat) (w : VReg) : (x.setV n w).c = x.c := rfl
@[simp] theorem Hart.setV_cc (x : Hart) (n : Nat) (w : VReg) : (x.setV n w).cc = x.cc := rfl
@[simp] theorem Hart.setV_feni (x : Hart) (n : Nat) (w : VReg) : (x.setV n w).feni = x.feni := rfl
@[simp] theorem Hart.setV_tokens (x : Hart) (n : Nat) (w : VReg) : (x.setV n w).tokens = x.tokens := rfl
@[simp] theorem Hart.setV_failed (x : Hart) (n : Nat) (w : VReg) : (x.setV n w).failed = x.failed := rfl
@[simp] theorem Hart.setV_timedOut (x : Hart) (n : Nat) (w : VReg) : (x.setV n w).timedOut = x.timedOut := rfl
@[simp] theorem Hart.setV_rebind (x : Hart) (n : Nat) (w : VReg) : (x.setV n w).rebind = x.rebind := rfl
@[simp] theorem Hart.setV_bind (x : Hart) (n : Nat) (w : VReg) : (x.setV n w).bind = x.bind := rfl
@[simp] theorem Hart.setV_pend (x : Hart) (n : Nat) (w : VReg) : (x.setV n w).pend = x.pend := rfl
@[simp] theorem Hart.setV_nb (x : Hart) (n : Nat) (w : VReg) : (x.setV n w).nb = x.nb := rfl
@[simp] theorem Hart.setV_next (x : Hart) (n : Nat) (w : VReg) : (x.setV n w).next = x.next := rfl
@[simp] theorem Hart.setV_seen (x : Hart) (n : Nat) (w : VReg) : (x.setV n w).seen = x.seen := rfl
@[simp] theorem Hart.setV_unacked (x : Hart) (n : Nat) (w : VReg) : (x.setV n w).unacked = x.unacked := rfl
@[simp] theorem Hart.setV_hold (x : Hart) (n : Nat) (w : VReg) : (x.setV n w).hold = x.hold := rfl
@[simp] theorem Hart.setV_served (x : Hart) (n : Nat) (w : VReg) : (x.setV n w).served = x.served := rfl
@[simp] theorem Hart.setV_convoy (x : Hart) (n : Nat) (w : VReg) : (x.setV n w).convoy = x.convoy := rfl
@[simp] theorem Hart.setV_entering (x : Hart) (n : Nat) (w : VReg) : (x.setV n w).entering = x.entering := rfl
@[simp] theorem Hart.setV_node (x : Hart) (n : Nat) (w : VReg) : (x.setV n w).node = x.node := rfl
@[simp] theorem Hart.setV_rank (x : Hart) (n : Nat) (w : VReg) : (x.setV n w).rank = x.rank := rfl
@[simp] theorem Hart.setV_slot (x : Hart) (n : Nat) (w : VReg) : (x.setV n w).slot = x.slot := rfl
@[simp] theorem Hart.setV_preqAt (x : Hart) (n : Nat) (w : VReg) : (x.setV n w).preqAt = x.preqAt := rfl
@[simp] theorem Hart.setV_saving (x : Hart) (n : Nat) (w : VReg) : (x.setV n w).saving = x.saving := rfl
@[simp] theorem Hart.setV_saveDue (x : Hart) (n : Nat) (w : VReg) : (x.setV n w).saveDue = x.saveDue := rfl
@[simp] theorem Hart.setV_opq (x : Hart) (n : Nat) (w : VReg) : (x.setV n w).opq = x.opq := rfl
@[simp] theorem Hart.setV_ready (x : Hart) (n : Nat) (w : VReg) : (x.setV n w).ready = x.ready := rfl
@[simp] theorem Hart.setV_colls (x : Hart) (n : Nat) (w : VReg) : (x.setV n w).colls = x.colls := rfl
@[simp] theorem Hart.setV_ic (x : Hart) (n : Nat) (w : VReg) : (x.setV n w).ic = x.ic := rfl
@[simp] theorem Hart.setV_early (x : Hart) (n : Nat) (w : VReg) : (x.setV n w).early = x.early := rfl
@[simp] theorem Hart.setV_rng (x : Hart) (n : Nat) (w : VReg) : (x.setV n w).rng = x.rng := rfl

/-! setK. -/

@[simp] theorem Hart.setK_st (x : Hart) (n : Nat) (w : KReg) : (x.setK n w).st = x.st := by
  unfold Hart.setK; split <;> rfl
@[simp] theorem Hart.setK_pc (x : Hart) (n : Nat) (w : KReg) : (x.setK n w).pc = x.pc := by
  unfold Hart.setK; split <;> rfl
@[simp] theorem Hart.setK_c (x : Hart) (n : Nat) (w : KReg) : (x.setK n w).c = x.c := by
  unfold Hart.setK; split <;> rfl
@[simp] theorem Hart.setK_cc (x : Hart) (n : Nat) (w : KReg) : (x.setK n w).cc = x.cc := by
  unfold Hart.setK; split <;> rfl
@[simp] theorem Hart.setK_feni (x : Hart) (n : Nat) (w : KReg) : (x.setK n w).feni = x.feni := by
  unfold Hart.setK; split <;> rfl
@[simp] theorem Hart.setK_tokens (x : Hart) (n : Nat) (w : KReg) : (x.setK n w).tokens = x.tokens := by
  unfold Hart.setK; split <;> rfl
@[simp] theorem Hart.setK_failed (x : Hart) (n : Nat) (w : KReg) : (x.setK n w).failed = x.failed := by
  unfold Hart.setK; split <;> rfl
@[simp] theorem Hart.setK_timedOut (x : Hart) (n : Nat) (w : KReg) : (x.setK n w).timedOut = x.timedOut := by
  unfold Hart.setK; split <;> rfl
@[simp] theorem Hart.setK_rebind (x : Hart) (n : Nat) (w : KReg) : (x.setK n w).rebind = x.rebind := by
  unfold Hart.setK; split <;> rfl
@[simp] theorem Hart.setK_bind (x : Hart) (n : Nat) (w : KReg) : (x.setK n w).bind = x.bind := by
  unfold Hart.setK; split <;> rfl
@[simp] theorem Hart.setK_pend (x : Hart) (n : Nat) (w : KReg) : (x.setK n w).pend = x.pend := by
  unfold Hart.setK; split <;> rfl
@[simp] theorem Hart.setK_nb (x : Hart) (n : Nat) (w : KReg) : (x.setK n w).nb = x.nb := by
  unfold Hart.setK; split <;> rfl
@[simp] theorem Hart.setK_next (x : Hart) (n : Nat) (w : KReg) : (x.setK n w).next = x.next := by
  unfold Hart.setK; split <;> rfl
@[simp] theorem Hart.setK_seen (x : Hart) (n : Nat) (w : KReg) : (x.setK n w).seen = x.seen := by
  unfold Hart.setK; split <;> rfl
@[simp] theorem Hart.setK_unacked (x : Hart) (n : Nat) (w : KReg) : (x.setK n w).unacked = x.unacked := by
  unfold Hart.setK; split <;> rfl
@[simp] theorem Hart.setK_hold (x : Hart) (n : Nat) (w : KReg) : (x.setK n w).hold = x.hold := by
  unfold Hart.setK; split <;> rfl
@[simp] theorem Hart.setK_served (x : Hart) (n : Nat) (w : KReg) : (x.setK n w).served = x.served := by
  unfold Hart.setK; split <;> rfl
@[simp] theorem Hart.setK_convoy (x : Hart) (n : Nat) (w : KReg) : (x.setK n w).convoy = x.convoy := by
  unfold Hart.setK; split <;> rfl
@[simp] theorem Hart.setK_entering (x : Hart) (n : Nat) (w : KReg) : (x.setK n w).entering = x.entering := by
  unfold Hart.setK; split <;> rfl
@[simp] theorem Hart.setK_node (x : Hart) (n : Nat) (w : KReg) : (x.setK n w).node = x.node := by
  unfold Hart.setK; split <;> rfl
@[simp] theorem Hart.setK_rank (x : Hart) (n : Nat) (w : KReg) : (x.setK n w).rank = x.rank := by
  unfold Hart.setK; split <;> rfl
@[simp] theorem Hart.setK_slot (x : Hart) (n : Nat) (w : KReg) : (x.setK n w).slot = x.slot := by
  unfold Hart.setK; split <;> rfl
@[simp] theorem Hart.setK_preqAt (x : Hart) (n : Nat) (w : KReg) : (x.setK n w).preqAt = x.preqAt := by
  unfold Hart.setK; split <;> rfl
@[simp] theorem Hart.setK_saving (x : Hart) (n : Nat) (w : KReg) : (x.setK n w).saving = x.saving := by
  unfold Hart.setK; split <;> rfl
@[simp] theorem Hart.setK_saveDue (x : Hart) (n : Nat) (w : KReg) : (x.setK n w).saveDue = x.saveDue := by
  unfold Hart.setK; split <;> rfl
@[simp] theorem Hart.setK_opq (x : Hart) (n : Nat) (w : KReg) : (x.setK n w).opq = x.opq := by
  unfold Hart.setK; split <;> rfl
@[simp] theorem Hart.setK_ready (x : Hart) (n : Nat) (w : KReg) : (x.setK n w).ready = x.ready := by
  unfold Hart.setK; split <;> rfl
@[simp] theorem Hart.setK_colls (x : Hart) (n : Nat) (w : KReg) : (x.setK n w).colls = x.colls := by
  unfold Hart.setK; split <;> rfl
@[simp] theorem Hart.setK_ic (x : Hart) (n : Nat) (w : KReg) : (x.setK n w).ic = x.ic := by
  unfold Hart.setK; split <;> rfl
@[simp] theorem Hart.setK_early (x : Hart) (n : Nat) (w : KReg) : (x.setK n w).early = x.early := by
  unfold Hart.setK; split <;> rfl
@[simp] theorem Hart.setK_rng (x : Hart) (n : Nat) (w : KReg) : (x.setK n w).rng = x.rng := by
  unfold Hart.setK; split <;> rfl

/-! setTile. -/

@[simp] theorem Hart.setTile_st (x : Hart) (t i : Nat) (w : VReg) : (x.setTile t i w).st = x.st := rfl
@[simp] theorem Hart.setTile_pc (x : Hart) (t i : Nat) (w : VReg) : (x.setTile t i w).pc = x.pc := rfl
@[simp] theorem Hart.setTile_c (x : Hart) (t i : Nat) (w : VReg) : (x.setTile t i w).c = x.c := rfl
@[simp] theorem Hart.setTile_cc (x : Hart) (t i : Nat) (w : VReg) : (x.setTile t i w).cc = x.cc := rfl
@[simp] theorem Hart.setTile_feni (x : Hart) (t i : Nat) (w : VReg) : (x.setTile t i w).feni = x.feni := rfl
@[simp] theorem Hart.setTile_tokens (x : Hart) (t i : Nat) (w : VReg) : (x.setTile t i w).tokens = x.tokens := rfl
@[simp] theorem Hart.setTile_failed (x : Hart) (t i : Nat) (w : VReg) : (x.setTile t i w).failed = x.failed := rfl
@[simp] theorem Hart.setTile_timedOut (x : Hart) (t i : Nat) (w : VReg) : (x.setTile t i w).timedOut = x.timedOut := rfl
@[simp] theorem Hart.setTile_rebind (x : Hart) (t i : Nat) (w : VReg) : (x.setTile t i w).rebind = x.rebind := rfl
@[simp] theorem Hart.setTile_bind (x : Hart) (t i : Nat) (w : VReg) : (x.setTile t i w).bind = x.bind := rfl
@[simp] theorem Hart.setTile_pend (x : Hart) (t i : Nat) (w : VReg) : (x.setTile t i w).pend = x.pend := rfl
@[simp] theorem Hart.setTile_nb (x : Hart) (t i : Nat) (w : VReg) : (x.setTile t i w).nb = x.nb := rfl
@[simp] theorem Hart.setTile_next (x : Hart) (t i : Nat) (w : VReg) : (x.setTile t i w).next = x.next := rfl
@[simp] theorem Hart.setTile_seen (x : Hart) (t i : Nat) (w : VReg) : (x.setTile t i w).seen = x.seen := rfl
@[simp] theorem Hart.setTile_unacked (x : Hart) (t i : Nat) (w : VReg) : (x.setTile t i w).unacked = x.unacked := rfl
@[simp] theorem Hart.setTile_hold (x : Hart) (t i : Nat) (w : VReg) : (x.setTile t i w).hold = x.hold := rfl
@[simp] theorem Hart.setTile_served (x : Hart) (t i : Nat) (w : VReg) : (x.setTile t i w).served = x.served := rfl
@[simp] theorem Hart.setTile_convoy (x : Hart) (t i : Nat) (w : VReg) : (x.setTile t i w).convoy = x.convoy := rfl
@[simp] theorem Hart.setTile_entering (x : Hart) (t i : Nat) (w : VReg) : (x.setTile t i w).entering = x.entering := rfl
@[simp] theorem Hart.setTile_node (x : Hart) (t i : Nat) (w : VReg) : (x.setTile t i w).node = x.node := rfl
@[simp] theorem Hart.setTile_rank (x : Hart) (t i : Nat) (w : VReg) : (x.setTile t i w).rank = x.rank := rfl
@[simp] theorem Hart.setTile_slot (x : Hart) (t i : Nat) (w : VReg) : (x.setTile t i w).slot = x.slot := rfl
@[simp] theorem Hart.setTile_preqAt (x : Hart) (t i : Nat) (w : VReg) : (x.setTile t i w).preqAt = x.preqAt := rfl
@[simp] theorem Hart.setTile_saving (x : Hart) (t i : Nat) (w : VReg) : (x.setTile t i w).saving = x.saving := rfl
@[simp] theorem Hart.setTile_saveDue (x : Hart) (t i : Nat) (w : VReg) : (x.setTile t i w).saveDue = x.saveDue := rfl
@[simp] theorem Hart.setTile_opq (x : Hart) (t i : Nat) (w : VReg) : (x.setTile t i w).opq = x.opq := rfl
@[simp] theorem Hart.setTile_ready (x : Hart) (t i : Nat) (w : VReg) : (x.setTile t i w).ready = x.ready := rfl
@[simp] theorem Hart.setTile_colls (x : Hart) (t i : Nat) (w : VReg) : (x.setTile t i w).colls = x.colls := rfl
@[simp] theorem Hart.setTile_ic (x : Hart) (t i : Nat) (w : VReg) : (x.setTile t i w).ic = x.ic := rfl
@[simp] theorem Hart.setTile_early (x : Hart) (t i : Nat) (w : VReg) : (x.setTile t i w).early = x.early := rfl
@[simp] theorem Hart.setTile_rng (x : Hart) (t i : Nat) (w : VReg) : (x.setTile t i w).rng = x.rng := rfl

/-! setCc. -/

@[simp] theorem Hart.setCc_st (x : Hart) (n : Nat) (w : BitVec 32) : (x.setCc n w).st = x.st := rfl
@[simp] theorem Hart.setCc_pc (x : Hart) (n : Nat) (w : BitVec 32) : (x.setCc n w).pc = x.pc := rfl
@[simp] theorem Hart.setCc_f (x : Hart) (n : Nat) (w : BitVec 32) : (x.setCc n w).f = x.f := rfl
@[simp] theorem Hart.setCc_c (x : Hart) (n : Nat) (w : BitVec 32) : (x.setCc n w).c = x.c := rfl
@[simp] theorem Hart.setCc_feni (x : Hart) (n : Nat) (w : BitVec 32) : (x.setCc n w).feni = x.feni := rfl
@[simp] theorem Hart.setCc_tokens (x : Hart) (n : Nat) (w : BitVec 32) : (x.setCc n w).tokens = x.tokens := rfl
@[simp] theorem Hart.setCc_failed (x : Hart) (n : Nat) (w : BitVec 32) : (x.setCc n w).failed = x.failed := rfl
@[simp] theorem Hart.setCc_timedOut (x : Hart) (n : Nat) (w : BitVec 32) : (x.setCc n w).timedOut = x.timedOut := rfl
@[simp] theorem Hart.setCc_rebind (x : Hart) (n : Nat) (w : BitVec 32) : (x.setCc n w).rebind = x.rebind := rfl
@[simp] theorem Hart.setCc_bind (x : Hart) (n : Nat) (w : BitVec 32) : (x.setCc n w).bind = x.bind := rfl
@[simp] theorem Hart.setCc_pend (x : Hart) (n : Nat) (w : BitVec 32) : (x.setCc n w).pend = x.pend := rfl
@[simp] theorem Hart.setCc_nb (x : Hart) (n : Nat) (w : BitVec 32) : (x.setCc n w).nb = x.nb := rfl
@[simp] theorem Hart.setCc_next (x : Hart) (n : Nat) (w : BitVec 32) : (x.setCc n w).next = x.next := rfl
@[simp] theorem Hart.setCc_seen (x : Hart) (n : Nat) (w : BitVec 32) : (x.setCc n w).seen = x.seen := rfl
@[simp] theorem Hart.setCc_unacked (x : Hart) (n : Nat) (w : BitVec 32) : (x.setCc n w).unacked = x.unacked := rfl
@[simp] theorem Hart.setCc_hold (x : Hart) (n : Nat) (w : BitVec 32) : (x.setCc n w).hold = x.hold := rfl
@[simp] theorem Hart.setCc_served (x : Hart) (n : Nat) (w : BitVec 32) : (x.setCc n w).served = x.served := rfl
@[simp] theorem Hart.setCc_convoy (x : Hart) (n : Nat) (w : BitVec 32) : (x.setCc n w).convoy = x.convoy := rfl
@[simp] theorem Hart.setCc_entering (x : Hart) (n : Nat) (w : BitVec 32) : (x.setCc n w).entering = x.entering := rfl
@[simp] theorem Hart.setCc_node (x : Hart) (n : Nat) (w : BitVec 32) : (x.setCc n w).node = x.node := rfl
@[simp] theorem Hart.setCc_rank (x : Hart) (n : Nat) (w : BitVec 32) : (x.setCc n w).rank = x.rank := rfl
@[simp] theorem Hart.setCc_slot (x : Hart) (n : Nat) (w : BitVec 32) : (x.setCc n w).slot = x.slot := rfl
@[simp] theorem Hart.setCc_preqAt (x : Hart) (n : Nat) (w : BitVec 32) : (x.setCc n w).preqAt = x.preqAt := rfl
@[simp] theorem Hart.setCc_saving (x : Hart) (n : Nat) (w : BitVec 32) : (x.setCc n w).saving = x.saving := rfl
@[simp] theorem Hart.setCc_saveDue (x : Hart) (n : Nat) (w : BitVec 32) : (x.setCc n w).saveDue = x.saveDue := rfl
@[simp] theorem Hart.setCc_opq (x : Hart) (n : Nat) (w : BitVec 32) : (x.setCc n w).opq = x.opq := rfl
@[simp] theorem Hart.setCc_ready (x : Hart) (n : Nat) (w : BitVec 32) : (x.setCc n w).ready = x.ready := rfl
@[simp] theorem Hart.setCc_colls (x : Hart) (n : Nat) (w : BitVec 32) : (x.setCc n w).colls = x.colls := rfl
@[simp] theorem Hart.setCc_ic (x : Hart) (n : Nat) (w : BitVec 32) : (x.setCc n w).ic = x.ic := rfl
@[simp] theorem Hart.setCc_early (x : Hart) (n : Nat) (w : BitVec 32) : (x.setCc n w).early = x.early := rfl
@[simp] theorem Hart.setCc_rng (x : Hart) (n : Nat) (w : BitVec 32) : (x.setCc n w).rng = x.rng := rfl

/-! retire. -/

@[simp] theorem Hart.retire_f (x : Hart) (n : Word) : (x.retire n).f = x.f := rfl
@[simp] theorem Hart.retire_cc (x : Hart) (n : Word) : (x.retire n).cc = x.cc := rfl
@[simp] theorem Hart.retire_feni (x : Hart) (n : Word) : (x.retire n).feni = x.feni := rfl
@[simp] theorem Hart.retire_tokens (x : Hart) (n : Word) : (x.retire n).tokens = x.tokens := rfl
@[simp] theorem Hart.retire_failed (x : Hart) (n : Word) : (x.retire n).failed = x.failed := rfl
@[simp] theorem Hart.retire_timedOut (x : Hart) (n : Word) : (x.retire n).timedOut = x.timedOut := rfl
@[simp] theorem Hart.retire_rebind (x : Hart) (n : Word) : (x.retire n).rebind = x.rebind := rfl
@[simp] theorem Hart.retire_bind (x : Hart) (n : Word) : (x.retire n).bind = x.bind := rfl
@[simp] theorem Hart.retire_pend (x : Hart) (n : Word) : (x.retire n).pend = x.pend := rfl
@[simp] theorem Hart.retire_nb (x : Hart) (n : Word) : (x.retire n).nb = x.nb := rfl
@[simp] theorem Hart.retire_next (x : Hart) (n : Word) : (x.retire n).next = x.next := rfl
@[simp] theorem Hart.retire_seen (x : Hart) (n : Word) : (x.retire n).seen = x.seen := rfl
@[simp] theorem Hart.retire_unacked (x : Hart) (n : Word) : (x.retire n).unacked = x.unacked := rfl
@[simp] theorem Hart.retire_convoy (x : Hart) (n : Word) : (x.retire n).convoy = x.convoy := rfl
@[simp] theorem Hart.retire_entering (x : Hart) (n : Word) : (x.retire n).entering = x.entering := rfl
@[simp] theorem Hart.retire_node (x : Hart) (n : Word) : (x.retire n).node = x.node := rfl
@[simp] theorem Hart.retire_rank (x : Hart) (n : Word) : (x.retire n).rank = x.rank := rfl
@[simp] theorem Hart.retire_slot (x : Hart) (n : Word) : (x.retire n).slot = x.slot := rfl
@[simp] theorem Hart.retire_preqAt (x : Hart) (n : Word) : (x.retire n).preqAt = x.preqAt := rfl
@[simp] theorem Hart.retire_saving (x : Hart) (n : Word) : (x.retire n).saving = x.saving := rfl
@[simp] theorem Hart.retire_saveDue (x : Hart) (n : Word) : (x.retire n).saveDue = x.saveDue := rfl
@[simp] theorem Hart.retire_opq (x : Hart) (n : Word) : (x.retire n).opq = x.opq := rfl
@[simp] theorem Hart.retire_ready (x : Hart) (n : Word) : (x.retire n).ready = x.ready := rfl
@[simp] theorem Hart.retire_colls (x : Hart) (n : Word) : (x.retire n).colls = x.colls := rfl
@[simp] theorem Hart.retire_ic (x : Hart) (n : Word) : (x.retire n).ic = x.ic := rfl
@[simp] theorem Hart.retire_early (x : Hart) (n : Word) : (x.retire n).early = x.early := rfl
@[simp] theorem Hart.retire_rng (x : Hart) (n : Word) : (x.retire n).rng = x.rng := rfl

/-! jump. -/

@[simp] theorem Hart.jump_f (x : Hart) (pc : Word) : (x.jump pc).f = x.f := rfl
@[simp] theorem Hart.jump_cc (x : Hart) (pc : Word) : (x.jump pc).cc = x.cc := rfl
@[simp] theorem Hart.jump_feni (x : Hart) (pc : Word) : (x.jump pc).feni = x.feni := rfl
@[simp] theorem Hart.jump_tokens (x : Hart) (pc : Word) : (x.jump pc).tokens = x.tokens := rfl
@[simp] theorem Hart.jump_failed (x : Hart) (pc : Word) : (x.jump pc).failed = x.failed := rfl
@[simp] theorem Hart.jump_timedOut (x : Hart) (pc : Word) : (x.jump pc).timedOut = x.timedOut := rfl
@[simp] theorem Hart.jump_rebind (x : Hart) (pc : Word) : (x.jump pc).rebind = x.rebind := rfl
@[simp] theorem Hart.jump_bind (x : Hart) (pc : Word) : (x.jump pc).bind = x.bind := rfl
@[simp] theorem Hart.jump_pend (x : Hart) (pc : Word) : (x.jump pc).pend = x.pend := rfl
@[simp] theorem Hart.jump_nb (x : Hart) (pc : Word) : (x.jump pc).nb = x.nb := rfl
@[simp] theorem Hart.jump_next (x : Hart) (pc : Word) : (x.jump pc).next = x.next := rfl
@[simp] theorem Hart.jump_seen (x : Hart) (pc : Word) : (x.jump pc).seen = x.seen := rfl
@[simp] theorem Hart.jump_unacked (x : Hart) (pc : Word) : (x.jump pc).unacked = x.unacked := rfl
@[simp] theorem Hart.jump_convoy (x : Hart) (pc : Word) : (x.jump pc).convoy = x.convoy := rfl
@[simp] theorem Hart.jump_entering (x : Hart) (pc : Word) : (x.jump pc).entering = x.entering := rfl
@[simp] theorem Hart.jump_node (x : Hart) (pc : Word) : (x.jump pc).node = x.node := rfl
@[simp] theorem Hart.jump_rank (x : Hart) (pc : Word) : (x.jump pc).rank = x.rank := rfl
@[simp] theorem Hart.jump_slot (x : Hart) (pc : Word) : (x.jump pc).slot = x.slot := rfl
@[simp] theorem Hart.jump_preqAt (x : Hart) (pc : Word) : (x.jump pc).preqAt = x.preqAt := rfl
@[simp] theorem Hart.jump_saving (x : Hart) (pc : Word) : (x.jump pc).saving = x.saving := rfl
@[simp] theorem Hart.jump_saveDue (x : Hart) (pc : Word) : (x.jump pc).saveDue = x.saveDue := rfl
@[simp] theorem Hart.jump_opq (x : Hart) (pc : Word) : (x.jump pc).opq = x.opq := rfl
@[simp] theorem Hart.jump_ready (x : Hart) (pc : Word) : (x.jump pc).ready = x.ready := rfl
@[simp] theorem Hart.jump_colls (x : Hart) (pc : Word) : (x.jump pc).colls = x.colls := rfl
@[simp] theorem Hart.jump_ic (x : Hart) (pc : Word) : (x.jump pc).ic = x.ic := rfl
@[simp] theorem Hart.jump_early (x : Hart) (pc : Word) : (x.jump pc).early = x.early := rfl
@[simp] theorem Hart.jump_rng (x : Hart) (pc : Word) : (x.jump pc).rng = x.rng := rfl

/-! trap. -/

@[simp] theorem Hart.trap_f (x : Hart) (b : Bool) (t : Trap) (e : Word) (p : BitVec 9) : (x.trap b t e p).f = x.f := rfl
@[simp] theorem Hart.trap_cc (x : Hart) (b : Bool) (t : Trap) (e : Word) (p : BitVec 9) : (x.trap b t e p).cc = x.cc := rfl
@[simp] theorem Hart.trap_feni (x : Hart) (b : Bool) (t : Trap) (e : Word) (p : BitVec 9) : (x.trap b t e p).feni = x.feni := rfl
@[simp] theorem Hart.trap_tokens (x : Hart) (b : Bool) (t : Trap) (e : Word) (p : BitVec 9) : (x.trap b t e p).tokens = x.tokens := rfl
@[simp] theorem Hart.trap_failed (x : Hart) (b : Bool) (t : Trap) (e : Word) (p : BitVec 9) : (x.trap b t e p).failed = x.failed := rfl
@[simp] theorem Hart.trap_timedOut (x : Hart) (b : Bool) (t : Trap) (e : Word) (p : BitVec 9) : (x.trap b t e p).timedOut = x.timedOut := rfl
@[simp] theorem Hart.trap_rebind (x : Hart) (b : Bool) (t : Trap) (e : Word) (p : BitVec 9) : (x.trap b t e p).rebind = x.rebind := rfl
@[simp] theorem Hart.trap_bind (x : Hart) (b : Bool) (t : Trap) (e : Word) (p : BitVec 9) : (x.trap b t e p).bind = x.bind := rfl
@[simp] theorem Hart.trap_pend (x : Hart) (b : Bool) (t : Trap) (e : Word) (p : BitVec 9) : (x.trap b t e p).pend = x.pend := rfl
@[simp] theorem Hart.trap_nb (x : Hart) (b : Bool) (t : Trap) (e : Word) (p : BitVec 9) : (x.trap b t e p).nb = x.nb := rfl
@[simp] theorem Hart.trap_next (x : Hart) (b : Bool) (t : Trap) (e : Word) (p : BitVec 9) : (x.trap b t e p).next = x.next := rfl
@[simp] theorem Hart.trap_seen (x : Hart) (b : Bool) (t : Trap) (e : Word) (p : BitVec 9) : (x.trap b t e p).seen = x.seen := rfl
@[simp] theorem Hart.trap_unacked (x : Hart) (b : Bool) (t : Trap) (e : Word) (p : BitVec 9) : (x.trap b t e p).unacked = x.unacked := rfl
@[simp] theorem Hart.trap_node (x : Hart) (b : Bool) (t : Trap) (e : Word) (p : BitVec 9) : (x.trap b t e p).node = x.node := rfl
@[simp] theorem Hart.trap_rank (x : Hart) (b : Bool) (t : Trap) (e : Word) (p : BitVec 9) : (x.trap b t e p).rank = x.rank := rfl
@[simp] theorem Hart.trap_slot (x : Hart) (b : Bool) (t : Trap) (e : Word) (p : BitVec 9) : (x.trap b t e p).slot = x.slot := rfl
@[simp] theorem Hart.trap_preqAt (x : Hart) (b : Bool) (t : Trap) (e : Word) (p : BitVec 9) : (x.trap b t e p).preqAt = x.preqAt := rfl
@[simp] theorem Hart.trap_saving (x : Hart) (b : Bool) (t : Trap) (e : Word) (p : BitVec 9) : (x.trap b t e p).saving = x.saving := rfl
@[simp] theorem Hart.trap_colls (x : Hart) (b : Bool) (t : Trap) (e : Word) (p : BitVec 9) : (x.trap b t e p).colls = x.colls := rfl
@[simp] theorem Hart.trap_ic (x : Hart) (b : Bool) (t : Trap) (e : Word) (p : BitVec 9) : (x.trap b t e p).ic = x.ic := rfl
@[simp] theorem Hart.trap_early (x : Hart) (b : Bool) (t : Trap) (e : Word) (p : BitVec 9) : (x.trap b t e p).early = x.early := rfl
@[simp] theorem Hart.trap_rng (x : Hart) (b : Bool) (t : Trap) (e : Word) (p : BitVec 9) : (x.trap b t e p).rng = x.rng := rfl

/-! trapReturn. -/

@[simp] theorem Hart.trapReturn_f (x : Hart)  : (x.trapReturn).f = x.f := rfl
@[simp] theorem Hart.trapReturn_cc (x : Hart)  : (x.trapReturn).cc = x.cc := rfl
@[simp] theorem Hart.trapReturn_feni (x : Hart)  : (x.trapReturn).feni = x.feni := rfl
@[simp] theorem Hart.trapReturn_tokens (x : Hart)  : (x.trapReturn).tokens = x.tokens := rfl
@[simp] theorem Hart.trapReturn_failed (x : Hart)  : (x.trapReturn).failed = x.failed := rfl
@[simp] theorem Hart.trapReturn_timedOut (x : Hart)  : (x.trapReturn).timedOut = x.timedOut := rfl
@[simp] theorem Hart.trapReturn_rebind (x : Hart)  : (x.trapReturn).rebind = x.rebind := rfl
@[simp] theorem Hart.trapReturn_bind (x : Hart)  : (x.trapReturn).bind = x.bind := rfl
@[simp] theorem Hart.trapReturn_pend (x : Hart)  : (x.trapReturn).pend = x.pend := rfl
@[simp] theorem Hart.trapReturn_nb (x : Hart)  : (x.trapReturn).nb = x.nb := rfl
@[simp] theorem Hart.trapReturn_next (x : Hart)  : (x.trapReturn).next = x.next := rfl
@[simp] theorem Hart.trapReturn_seen (x : Hart)  : (x.trapReturn).seen = x.seen := rfl
@[simp] theorem Hart.trapReturn_unacked (x : Hart)  : (x.trapReturn).unacked = x.unacked := rfl
@[simp] theorem Hart.trapReturn_convoy (x : Hart)  : (x.trapReturn).convoy = x.convoy := rfl
@[simp] theorem Hart.trapReturn_entering (x : Hart)  : (x.trapReturn).entering = x.entering := rfl
@[simp] theorem Hart.trapReturn_node (x : Hart)  : (x.trapReturn).node = x.node := rfl
@[simp] theorem Hart.trapReturn_rank (x : Hart)  : (x.trapReturn).rank = x.rank := rfl
@[simp] theorem Hart.trapReturn_slot (x : Hart)  : (x.trapReturn).slot = x.slot := rfl
@[simp] theorem Hart.trapReturn_preqAt (x : Hart)  : (x.trapReturn).preqAt = x.preqAt := rfl
@[simp] theorem Hart.trapReturn_saving (x : Hart)  : (x.trapReturn).saving = x.saving := rfl
@[simp] theorem Hart.trapReturn_saveDue (x : Hart)  : (x.trapReturn).saveDue = x.saveDue := rfl
@[simp] theorem Hart.trapReturn_opq (x : Hart)  : (x.trapReturn).opq = x.opq := rfl
@[simp] theorem Hart.trapReturn_ready (x : Hart)  : (x.trapReturn).ready = x.ready := rfl
@[simp] theorem Hart.trapReturn_colls (x : Hart)  : (x.trapReturn).colls = x.colls := rfl
@[simp] theorem Hart.trapReturn_ic (x : Hart)  : (x.trapReturn).ic = x.ic := rfl
@[simp] theorem Hart.trapReturn_early (x : Hart)  : (x.trapReturn).early = x.early := rfl
@[simp] theorem Hart.trapReturn_rng (x : Hart)  : (x.trapReturn).rng = x.rng := rfl

@[simp] theorem Hart.retire_pc (x : Hart) (n : Word) : (x.retire n).pc = x.pc + n := rfl
@[simp] theorem Hart.retire_instret (x : Hart) (n : Word) : (x.retire n).c.instret = x.c.instret + 1 := rfl
@[simp] theorem Hart.jump_pc (x : Hart) (pc : Word) : (x.jump pc).pc = pc := rfl
@[simp] theorem Hart.trapReturn_pc (x : Hart) : x.trapReturn.pc = x.c.epc := rfl
@[simp] theorem Hart.trapReturn_prv (x : Hart) : x.trapReturn.c.prv = x.c.pp := rfl
@[simp] theorem Hart.trap_pc (x : Hart) (b : Bool) (t : Trap) (e : Word) (p : BitVec 9) : (x.trap b t e p).pc = tvecPc x.c.tvec := rfl

end Sys2Proof.Machine
end

