-- ==== Sys2Proof/Laws/Ops.lean ====
section
/-! SUPPORT. What each shared operation of an instruction can do, in the terms of Safety: retiring, writing rd, trapping, waiting and
parking; what issuing is for a hart that may issue; and that every operation on storage keeps memory in canonical form. -/

namespace Sys2Proof.Machine

open Sys2Proof

/-! Instructions that end. -/

theorem onlyHart_setMe (s : State) (x : Hart) : OnlyHart s (s.setMe x) s.cur :=
  ⟨rfl, fun _ => rfl, fun _ h => State.hart_setMe_ne s x h⟩

theorem onlyHart_setHart (s : State) (h : Nat) (x : Hart) : OnlyHart s (s.setHart h x) h :=
  ⟨rfl, fun _ => rfl, fun _ n => State.hart_setHart_ne s x n⟩

theorem wrote_retire (x : Hart) (rd : BitVec 5) (w n : Word) : x.Wrote ((x.setG rd w).retire n) rd w (x.pc + n) := by
  refine ⟨?_, fun r h => ?_, ?_⟩
  · have h := Hart.g_setG x rd w
    simpa [Hart.retire, Hart.g] using h
  · have h' := Hart.g_setG_ne x w h
    simpa [Hart.retire, Hart.g] using h'
  · unfold Hart.retire Hart.setG
    split <;> rfl

/-- Writing rd and retiring. -/
theorem wrote_write (s : State) (rd : BitVec 5) (w n : Word) : s.Wrote (s.write rd w n) rd w (s.me.pc + n) :=
  ⟨onlyHart_setMe _ _, by rw [State.me_write]; exact wrote_retire s.me rd w n⟩

/-- Retiring. -/
theorem passed_retire (s : State) (n : Word) : s.Passed (s.retire n) (s.me.pc + n) :=
  ⟨onlyHart_setMe _ _, by rw [State.me_retire]; rfl⟩

theorem tvecPc_toNat (t : Word) : (tvecPc t).toNat = t.toNat / 2 % 2 ^ 56 * 2 := by
  simp only [tvecPc, BitVec.toNat_shiftLeft, BitVec.toNat_setWidth, BitVec.extractLsb'_toNat, Nat.shiftLeft_eq, Nat.shiftRight_eq_div_pow]
  omega

theorem evenWord_toNat (w : Word) : (w &&& ~~~ 1#64).toNat = w.toNat / 2 * 2 := by
  have h : w &&& ~~~ 1#64 = (w >>> 1) <<< 1 := by
    ext i hi
    simp only [BitVec.getElem_and, BitVec.getElem_not, BitVec.getElem_shiftLeft, BitVec.getElem_ushiftRight]
    rcases Nat.eq_zero_or_pos i with h | h
    · subst h; simp
    · have h1 : ¬ i < 1 := by omega
      have h2 : 1 + (i - 1) = i := by omega
      simp [h1, h2, BitVec.getLsbD_eq_getElem hi, BitVec.getElem_one]
      omega
  rw [h]
  simp only [BitVec.toNat_shiftLeft, BitVec.toNat_ushiftRight, Nat.shiftLeft_eq, Nat.shiftRight_eq_div_pow]
  omega

/-- Taking a trap (R325). -/
theorem trapped_trap (x : Hart) (control : Bool) (t : Trap) (epc : Word) (epos : BitVec 9) :
    x.Trapped (x.trap control t epc epos) control t.cause.code t.tval epc epos :=
  ⟨tvecPc_toNat _, evenWord_toNat _, rfl, rfl, rfl, rfl, rfl, rfl, rfl⟩

/-- A scalar instruction traps. -/
theorem State.trapped (s : State) (t : Trap) : s.Trapped (s.trap t) t.cause.code t.tval :=
  ⟨onlyHart_setHart _ _ _, by rw [State.me_trap]; exact trapped_trap _ _ _ _ _⟩

/-- A scalar instruction begins to wait. -/
theorem State.waits (s : State) (w : Why) (i : Instr) : s.Waits (s.wait w i) i :=
  ⟨onlyHart_setMe _ _, w, s.me.st, by unfold State.wait; rw [State.me_setMe]⟩

/-- A hart parks at its scalar instruction. -/
theorem State.parks (s : State) (w : Why) (i : Instr) : s.Parks (s.park w i) i :=
  ⟨fun _ => rfl, fun _ h => State.hart_setMe_ne s _ h, w, by unfold State.park; rw [State.me_setMe]⟩

/-! The step. -/

/-- The step of a hart that nothing keeps from issuing fetches and executes at its pc. -/
theorem step_issues (s : State) (hi : s.Issues) : step s = closeTurn s (afterTurn s.cur (issue s true)) := by
  obtain ⟨h1, h2, h3, h4, h5, h6, h7, h8, h9⟩ := hi
  have hs : step s = closeTurn s (hartTurn s s.cur) := by unfold step nextTurn; rw [h1]
  have hlim : limitPassed s s.cur = false := by
    simp only [State.me] at h7
    simp [limitPassed, h7]
  have hpage : pageHeld s (s.hart s.cur) = false := by
    simp only [State.me] at h8
    simp [pageHeld, h8]
  have hm : hartMove s = issue s true := by simp only [hartMove, h8, h9]
  have hany : (s.hart s.cur).pend.any (fun e => e.place == .full) = false := by simpa [State.me] using h4
  simp only [State.me] at *
  rw [hs]
  congr 1
  unfold hartTurn
  simp [h2, h3, hany, h5, h6, hlim, h8, hpage, hm]
  cases issue s true <;> rfl

/-! Storage keeps its canonical form: the operations that touch no byte, then those that do. -/

theorem State.dropL1_mem (s : State) (d l : Nat) : (s.dropL1 d l).mem = s.mem := rfl
theorem State.dropReplica_mem (s : State) (l d : Nat) : (s.dropReplica l d).mem = s.mem := rfl
theorem State.charge_mem (s : State) (d o m n : Nat) : (s.charge d o m n).mem = s.mem := rfl
theorem State.wroteBack_mem (s : State) (l : Nat) : (s.wroteBack l).mem = s.mem := by
  unfold State.wroteBack; split <;> rfl
theorem State.l2Drop_mem (s : State) (l : Nat) : (s.l2Drop l).mem = s.mem := State.wroteBack_mem s l
theorem State.l2Evict_mem (s : State) (d : Nat) : (s.l2Evict d).mem = s.mem := by
  unfold State.l2Evict
  split
  · exact State.l2Drop_mem _ _
  · split
    · rfl
    · split <;> rfl
theorem State.l2Room_mem (s : State) (d : Nat) : (s.l2Room d).mem = s.mem := by
  unfold State.l2Room; split; · rfl
  exact State.l2Evict_mem _ _
theorem State.l2Fill_mem (s : State) (l : Nat) : (s.l2Fill l).mem = s.mem := by
  unfold State.l2Fill; dsimp only; split; · rfl
  exact State.l2Room_mem _ _
@[simp] theorem State.filled_mem (s : State) (key : Nat) : (s.filled key).mem = s.mem := by
  unfold State.filled; split; · exact State.l2Fill_mem _ _
  rfl
theorem State.l1Fill_mem (s : State) (d c l : Nat) : (s.l1Fill d c l).mem = s.mem := by
  unfold State.l1Fill; dsimp only; split <;> rfl
theorem State.fillCharge_mem (s t : State) (key owner ipa o : Nat) (r w : Bool) :
    (s.fillCharge t key owner ipa o r w).mem = t.mem := by
  unfold State.fillCharge; dsimp only; split; · rfl
  split
  · split <;> split <;> rfl
  · split <;> rfl
theorem State.eccError_mem (s : State) (key f : Nat) : (s.eccError key f).mem = s.mem := by
  unfold State.eccError; dsimp only; split <;> rfl
theorem State.unraced_mem (s : State) (key n : Nat) : (s.unraced key n).mem = s.mem := by
  unfold State.unraced; split; · rfl
  split <;> rfl
theorem State.overKeyed_mem (s : State) (key owner : Nat) : (s.overKeyed key owner).mem = s.mem := by
  unfold State.overKeyed; split <;> rfl
theorem State.dirtied_mem (s : State) (key owner ipa : Nat) : (s.dirtied key owner ipa).mem = s.mem := by
  unfold State.dirtied
  split
  · rfl
  · dsimp only
    split <;> split <;> first | rfl | exact State.wroteBack_mem _ _
theorem State.noteWrite_mem (s : State) (ipa : Nat) : (s.noteWrite ipa).mem = s.mem := by
  unfold State.noteWrite; split; · rfl
  split <;> rfl
theorem State.noteHome_mem (s : State) (ipa : Nat) : (s.noteHome ipa).mem = s.mem := by
  unfold State.noteHome; split; · rfl
  split; · rfl
  split <;> rfl
theorem State.collapse_mem (s : State) (key : Nat) : (s.collapse key).1.mem = s.mem := by
  unfold State.collapse; split <;> rfl

theorem MemOk.of_mem {s t : State} (h : MemOk s) (e : t.mem = s.mem) : MemOk t := by
  unfold MemOk
  rw [e]
  exact h

theorem memOk_reset : MemOk State.reset := rfl

theorem MemOk.wr {s : State} (key : Nat) (bs : List Byte) (h : MemOk s) : MemOk (s.wr key bs) := Memory.wf_setBytes h
theorem MemOk.zero {s : State} (key n : Nat) (h : MemOk s) : MemOk (s.zero key n) := h.wr _ _
theorem MemOk.scrub {s : State} (p : Nat → Bool) (h : MemOk s) : MemOk (s.scrub p) := Memory.wf_filter _ h
theorem MemOk.healed {s : State} (key n : Nat) (h : MemOk s) : MemOk (s.healed key n) := h
theorem MemOk.overKeyed {s : State} (key owner : Nat) (h : MemOk s) : MemOk (s.overKeyed key owner) :=
  h.of_mem (State.overKeyed_mem _ _ _)
theorem MemOk.wrAs {s : State} (key owner : Nat) (bs : List Byte) (h : MemOk s) : MemOk (s.wrAs key owner bs) :=
  ((h.wr key bs).healed key bs.length).overKeyed key owner
theorem MemOk.clearUnit {s : State} (u size owner : Nat) (h : MemOk s) : MemOk (s.clearUnit u size owner) :=
  (h.wrAs u owner (List.replicate size 0)).of_mem rfl

theorem MemOk.foldl {α : Type} {f : State → α → State} (hf : ∀ s a, MemOk s → MemOk (f s a)) :
    ∀ (l : List α) {s : State}, MemOk s → MemOk (l.foldl f s)
  | [], _, h => h
  | a :: l, s, h => MemOk.foldl hf l (hf s a h)

theorem MemOk.claim {s : State} (key n owner : Nat) (h : MemOk s) : MemOk (s.claim key n owner) := by
  unfold State.claim
  refine MemOk.foldl (fun s u h => ?_) _ h
  split
  · exact h
  · exact h.clearUnit _ _ _

theorem MemOk.lostLine {s : State} (line : Nat) (h : MemOk s) : MemOk (s.lostLine line) := by
  unfold State.lostLine
  split
  · exact h
  · exact h.wr _ _

theorem MemOk.rekeyed {s : State} (key owner ipa n : Nat) (h : MemOk s) : MemOk (s.rekeyed key owner ipa n) := by
  unfold State.rekeyed
  split
  · exact (h.claim _ _ _).overKeyed _ _
  · split
    · unfold MemOk
      dsimp only
      split
      · exact h
      · exact h.wr _ _
    · exact h

theorem State.wr_mem (s : State) (key : Nat) (bs : List Byte) : (s.wr key bs).mem = s.mem.setBytes key bs := rfl
theorem State.healed_mem (s : State) (key n : Nat) : (s.healed key n).mem = s.mem := rfl
theorem State.keyTag_mem (s : State) (k : Map (Nat × Nat × Nat)) : ({ s with keyTag := k } : State).mem = s.mem := rfl
theorem Res.st_ok {α : Type} (s : State) (a : α) : (Res.ok s a).st = s := rfl
theorem Res.st_fault {α : Type} (s : State) (c : Cause) : (Res.fault s c : Res α).st = s := rfl
theorem Res.st_stall {α : Type} (s : State) (w : Why) : (Res.stall s w : Res α).st = s := rfl

/-- What fails with an uncorrectable error leaves memory as it was. -/
theorem MemOk.eccFault {α : Type} {s : State} (key n : Nat) (h : MemOk s) : MemOk (eccFault s key n : Res α).st :=
  h.of_mem (State.eccError_mem _ _ _)

/-- A test of the row holds an access, and changes nothing. -/
theorem MemOk.heldByTest {α : Type} {s : State} {r : Res α} (key n : Nat) (h : MemOk s) (hr : MemOk r.st) :
    MemOk (heldByTest s key n r).st := by
  unfold Machine.heldByTest
  split
  · exact h
  · exact hr

theorem heldByTest_sound {α : Type} {s : State} {owner ipa key n : Nat} (h : s.Sound owner ipa key n) (r : Res α) :
    heldByTest s key n r = r := by
  unfold heldByTest
  rw [if_neg (by simp [h.2.1])]

theorem put_eq (s : State) (owner ipa key : Nat) (bs : List Byte) :
    s.put owner ipa key bs = (((((s.dirtied key owner ipa).rekeyed key owner ipa bs.length).wr key bs).healed key bs.length).dropL1
      (keyDie key) (keyLine key)).filled key := rfl

/-- What a put leaves in memory: its bytes, over what coming under the writer's key leaves. -/
theorem State.put_mem (s : State) (owner ipa key : Nat) (bs : List Byte) :
    (s.put owner ipa key bs).mem = ((s.dirtied key owner ipa).rekeyed key owner ipa bs.length).mem.setBytes key bs := by
  rw [put_eq, State.filled_mem, State.dropL1_mem, State.healed_mem, State.wr_mem]

theorem MemOk.put {s : State} (owner ipa key : Nat) (bs : List Byte) (h : MemOk s) : MemOk (s.put owner ipa key bs) := by
  unfold MemOk
  rw [State.put_mem]
  exact Memory.wf_setBytes ((h.of_mem (State.dirtied_mem _ _ _ _)).rekeyed key owner ipa bs.length)

/-- Every outcome of a read at home leaves memory in canonical form. -/
theorem MemOk.homeRead {s : State} (owner ipa key n : Nat) (h : MemOk s) : MemOk (homeRead s owner ipa key n).st := by
  unfold Machine.homeRead
  split
  · split
    · exact h.eccFault _ _
    · split
      · rw [Res.st_ok]; exact h.of_mem ((State.draw_mem _).trans ((State.filled_mem _ _).trans (State.wroteBack_mem _ _)))
      · rw [Res.st_ok]; exact h.of_mem (State.filled_mem _ _)
  · dsimp only
    split
    · exact (h.claim key n owner).eccFault _ _
    · rw [Res.st_ok]; exact (h.claim key n owner).of_mem (State.filled_mem _ _)

/-- Every outcome of a write at home leaves memory in canonical form. -/
theorem MemOk.homeWrite {s : State} (owner ipa key : Nat) (bs : List Byte) (into : Option Nat) (h : MemOk s) :
    MemOk (homeWrite s owner ipa key bs into).st := by
  unfold Machine.homeWrite
  refine MemOk.heldByTest _ _ h ?_
  split
  · split
    · rw [Res.st_ok]; exact h.put _ _ _ _
    · rw [Res.st_stall]; exact h
  · split
    · rw [Res.st_stall]; exact h
    · rw [Res.st_ok]; exact (h.put owner ipa key bs).of_mem (State.collapse_mem _ _)

/-- Going on from a result that is in order. -/
theorem MemOk.bind {α β : Type} {r : Res α} {f : State → α → Res β} (h : MemOk r.st) (hf : ∀ s a, MemOk s → MemOk (f s a).st) :
    MemOk (r.bind f).st := by
  cases r with
  | ok s a => exact hf s a h
  | fault s c => exact h
  | stall s w => exact h

/-- Every outcome of an atomic at home leaves memory in canonical form. -/
theorem MemOk.homeAtomic {s : State} (owner ipa key n : Nat) (f : Nat → Option (List Byte)) (h : MemOk s) :
    MemOk (homeAtomic s owner ipa key n f).st := by
  unfold Machine.homeAtomic
  refine MemOk.heldByTest _ _ h ?_
  split
  · rw [Res.st_stall]; exact h
  · refine MemOk.bind ((h.of_mem (State.dropL1_mem _ _ _)).homeRead owner ipa key n) fun s bs hs => ?_
    have hs := hs.of_mem (State.unraced_mem s key n)
    dsimp only
    split
    · rw [Res.st_ok]; exact hs.of_mem (State.noteHome_mem _ _)
    · refine MemOk.bind ((hs.of_mem (State.noteWrite_mem _ _)).homeWrite owner ipa key _ none) fun _ _ hs => ?_
      rw [Res.st_ok]; exact hs

/-! Sound memory: the owner's bytes, with nothing in the way. -/

theorem claim_owned {s : State} {key n owner : Nat} (h : ∀ u ∈ unitsOf (tagUnit key) key n, s.tagOf u = owner) :
    s.claim key n owner = s := by
  unfold State.claim
  have go : ∀ l : List Nat, (∀ u ∈ l, s.tagOf u = owner) →
      l.foldl (fun s u => if s.tagOf u = owner then s else s.clearUnit u (tagUnit key) owner) s = s := by
    intro l
    induction l with
    | nil => intro _; rfl
    | cons u r ih =>
      intro hl
      rw [List.foldl_cons, if_pos (hl u List.mem_cons_self)]
      exact ih fun x hx => hl x (List.mem_cons_of_mem _ hx)
  exact go _ h

/-- A read of sound memory at home answers its bytes; beside them it only brings the line into the home's L2 slice. -/
theorem homeRead_sound {s : State} {owner ipa key n : Nat} (h : s.Sound owner ipa key n) :
    homeRead s owner ipa key n = .ok (s.filled key) (s.mem.bytes key n) := by
  obtain ⟨_, _, h2, h3⟩ := h
  unfold homeRead
  split
  · rename_i hk
    rw [if_pos hk] at h3
    rw [if_neg (by simp [h2]), if_neg (by simp [h3])]
    rfl
  · rename_i hk
    rw [if_neg hk] at h3
    simp only [claim_owned h3, h2]
    rfl

/-- Sound memory comes under the writer's key as it stands; only in the overflow area is the line's key noted. -/
theorem rekeyed_sound {s : State} {owner ipa key n : Nat} (h : s.Sound owner ipa key n) :
    s.rekeyed key owner ipa n = { s with keyTag := (s.rekeyed key owner ipa n).keyTag } := by
  obtain ⟨_, _, _, h3⟩ := h
  unfold State.rekeyed
  split
  · rename_i hk
    rw [if_neg hk] at h3
    simp only [claim_owned h3]
    unfold State.overKeyed
    split <;> rfl
  · rename_i hk
    have hk' : s.spc key = .hbm := Decidable.not_not.mp hk
    rw [if_pos hk'] at h3
    simp [h3]

/-- A write of sound memory notes the old contents of a clean line of HBM. -/
theorem dirtied_sound {s : State} {owner ipa key n : Nat} (h : s.Sound owner ipa key n) :
    s.dirtied key owner ipa = { s with dirty := (s.dirtied key owner ipa).dirty } := by
  obtain ⟨_, _, _, h3⟩ := h
  unfold State.dirtied
  split
  · rfl
  · rename_i hk
    have hk' : s.spc key = .hbm := Decidable.not_not.mp hk
    rw [if_pos hk'] at h3
    simp only [h3]
    split <;> rfl

theorem collapse_none {s : State} {key : Nat} (h : s.holders (keyLine key) = []) : s.collapse key = (s, none) := by
  unfold State.collapse
  rw [h]

theorem collapse_frame (s : State) (key : Nat) :
    (s.collapse key).1 = { s with collapses := (s.collapse key).1.collapses, serial := (s.collapse key).1.serial } := by
  unfold State.collapse
  split <;> rfl

theorem rekeyed_sound_mem {s : State} {owner ipa key n : Nat} (h : s.Sound owner ipa key n) :
    (s.rekeyed key owner ipa n).mem = s.mem := (congrArg State.mem (rekeyed_sound h)).trans (State.keyTag_mem _ _)

theorem sound_dirty (s : State) (d : Map (Option ((Nat × Nat × Nat) × List Byte))) (owner ipa key n : Nat) :
    ({ s with dirty := d } : State).Sound owner ipa key n ↔ s.Sound owner ipa key n := Iff.rfl

theorem sound_dirtied {s : State} {owner ipa key n : Nat} (h : s.Sound owner ipa key n) :
    (s.dirtied key owner ipa).Sound owner ipa key n := by
  rw [dirtied_sound h, sound_dirty]
  exact h

/-- What putting bytes in sound memory leaves there. -/
theorem put_sound {s : State} {owner ipa key : Nat} {bs : List Byte} (h : s.Sound owner ipa key bs.length) :
    (s.put owner ipa key bs).mem = s.mem.setBytes key bs := by
  rw [State.put_mem, rekeyed_sound_mem (sound_dirtied h), State.dirtied_mem]

/-- A write of sound memory at home is accepted: it puts its bytes, and starts the collapse of the line's replicas, if any. -/
theorem homeWrite_sound {s : State} {owner ipa key : Nat} {bs : List Byte} (h : s.Sound owner ipa key bs.length) :
    homeWrite s owner ipa key bs none = .ok ((s.put owner ipa key bs).collapse key).1 ((s.put owner ipa key bs).collapse key).2 := by
  unfold homeWrite
  rw [heldByTest_sound h]
  simp only [h.1]
  rfl

end Sys2Proof.Machine
end

