-- ==== Sys2Proof/Tests/Slice0.lean ====
section
/-! SUPPORT. Tests: witnesses that meet the hypotheses of every obligation, decoded words of every instruction with an encoding, and
results worked out by hand from the rules. -/

set_option Elab.async false

open Sys2Proof Sys2Proof.Machine

/-! Ill-formed terms: one for each check of WellFormed, which the check refuses. -/

theorem test_ill_formed_scalar :
    wfErr (.csrr 1 0x003) = some .badCsr ∧ wfErr (.csrw 1 0x104 2) = some .badCsr ∧ wfErr (.csrs 1 0x100 2) = some .badCsr ∧
    wfErr (.csrc 1 0x105 2) = some .badCsr ∧ wfErr (.csrs 1 0x100 0) = none ∧ wfErr (.amoW 1 2 3 12 0) = some .badCode ∧
    wfErr (.amoD 1 2 3 11 0) = some .badCode ∧ wfErr (.fence 1 6) = some .badCode ∧ wfErr (.rngw 1 2 3) = some .badCode ∧
    wfErr (.rngr 1 2 3) = some .badCode ∧ wfErr (.rrtw 1 2 2) = some .badCode ∧ wfErr (.iltw 1 2 2) = some .badCode := by
  decide +kernel

theorem test_ill_formed_vector :
    wfErr (.vadd true 0 0x4D 1 2) = some .reservedSpec ∧ wfErr (.vmerge true 0 1 0x4E 2) = some .reservedSpec ∧
    wfErr (.vfma true 0 1 2 0x4F) = some .reservedSpec ∧ wfErr (.vfsqrt true 0 0x4D 1) = some .reservedSpec ∧
    wfErr (.vscan true 0 1 0x4F) = some .reservedSpec ∧ wfErr (.vid true 0 0x4D) = some .reservedSpec ∧
    wfErr (.vbcast true 1 0x4D 2) = some .reservedSpec ∧ wfErr (.vext true 1 0x4D 2) = some .reservedSpec ∧
    wfErr (.vcmp true 0 1 2 10 1) = some .badCode ∧ wfErr (.vfcmp true 0 1 2 8 1) = some .badCode ∧
    wfErr (.vcmp true 0 0x4D 2 0 1) = some .reservedSpec := by
  decide +kernel

theorem test_ill_formed_conversion :
    wfErr (.vcvt true 0 8 1 1 2) = some .badFormat ∧ wfErr (.vcvt true 0 1 9 1 2) = some .badFormat ∧
    wfErr (.vquant true 3 8 1 2) = some .badFormat ∧ wfErr (.vqsc true 0 7 1 2) = some .badFormat ∧
    wfErr (.vdeq true 8 5 1 2) = some .badFormat ∧ wfErr (.vhad true 9 1 2) = some .reservedOpcode ∧
    wfErr (.vpack true 0 1 2) = some .badFormat ∧ wfErr (.vunpack true 10 1 2) = some .badFormat ∧
    wfErr (.vcvt true 0 0 1 0x4D 2) = some .reservedSpec := by
  decide +kernel

theorem test_ill_formed_vector_memory :
    wfErr (.vld true 0 0 0 1 2 0x4D) = some .reservedSpec ∧ wfErr (.vldff true 0 0 1 2 0x4E) = some .reservedSpec ∧
    wfErr (.vbind true 0 1 0x4D) = some .reservedSpec ∧ wfErr (.vunbind true 0 0x4F) = some .reservedSpec ∧
    wfErr (.vamo true 12 0 1 2 3) = some .badCode ∧ wfErr (.vamo true 0 0 1 31 3) = some .badCode ∧
    wfErr (.vamoNb true 12 0 1 2) = some .badCode ∧ wfErr (.vamoNb true 9 0 1 2) = some .badCode := by
  decide +kernel

theorem test_ill_formed_prefixed :
    wfErr (.prefixed64BitForm true ⟨0, 0, 0, 0, 1⟩ (.vv .add 1 2 3)) = some .mustBeZero ∧
    wfErr (.prefixed64BitForm true ⟨0, 0, 1, 0, 0⟩ (.cmp false 1 2 0 1)) = some .mustBeZero ∧
    wfErr (.prefixed64BitForm true ⟨1, 0, 0, 0, 0⟩ (.vv .add 1 2 3)) = some .mustBeZero ∧
    wfErr (.prefixed64BitForm true ⟨0, 1, 0, 0, 0⟩ (.vx .pack 0 1 0 1 2)) = some .mustBeZero ∧
    wfErr (.prefixed64BitForm true ⟨0, 0, 0, 0, 0⟩ (.vf .id 1 2)) = some .mustBeZero ∧
    wfErr (.prefixed64BitForm true ⟨0, 0, 0, 0, 0⟩ (.vg .ext 1 2 32)) = some .mustBeZero ∧
    wfErr (.prefixed64BitForm true ⟨0, 0, 0, 0, 0⟩ (.vx .had 1 0 0 1 2)) = some .mustBeZero ∧
    wfErr (.prefixed64BitForm true ⟨0, 0, 0, 0, 0⟩ (.vx .unpack 0 1 0 1 2)) = some .reservedOpcode ∧
    wfErr (.prefixed64BitForm true ⟨0, 0, 0, 0, 0⟩ (.amo 9 0 1 31 2)) = some .badCode := by
  decide +kernel

theorem test_ill_formed_tiles_and_compressed :
    wfErr (.tld true 0 3 1 2 3 0) = some .badCode ∧ wfErr (.trd true 0 3 1 2 3) = some .badCode ∧
    wfErr (.twr true 0 0 1 2 0x4D) = some .reservedSpec ∧ wfErr (.tdrain true 0 0 0 0 1 2 3 8) = some .badFormat ∧
    wfErr (.tdrainBp true 0 0 0 3 1 2 3 0) = some .badCode ∧ wfErr (.mopa true 0 0 1 0x4D 2) = some .reservedSpec ∧
    wfErr (.mrws true 0 0 1 2 0x4E 3) = some .reservedSpec ∧ wfErr (.cAddi 0 1) = some .mustBeZero ∧
    wfErr (.cLi 0 1) = some .mustBeZero ∧ wfErr (.cMv 0 1) = some .mustBeZero ∧ wfErr (.cAdd 0 1) = some .mustBeZero ∧
    wfErr (.cSlli 0 1) = some .mustBeZero ∧ wfErr (.cJr 0) = some .mustBeZero := by
  decide +kernel

/-! Words that are no instruction (R43, R45, R48, R52, R55, R62, R65, R67). -/

theorem test_words_refused :
    decodeWord 0 = .error .reservedOpcode ∧
    decodeWord (BitVec.ofNat 64 (fieldAt 1 1 + fieldAt 0x01 2)) = .error .scalarC ∧
    decodeWord (BitVec.ofNat 64 (fieldAt 0x34 2)) = .error .badBase ∧
    decodeWord (BitVec.ofNat 64 (fieldAt 0x13 2 + fieldAt 4 24)) = .error .reservedOpcode ∧
    decodeWord (BitVec.ofNat 64 (fieldAt 0x2A 2 + fieldAt 1 23)) = .error .mustBeZero ∧
    decodeWord (BitVec.ofNat 64 (fieldAt 0x3E 2 + fieldAt 8 19)) = .error .mustBeZero ∧
    decodeWord (BitVec.ofNat 64 (3 + fieldAt 1 2 + fieldAt 1 3 + fieldAt (fieldAt 0x0A 2) 32)) = .error .reservedOpcode ∧
    decodeWord (BitVec.ofNat 64 (3 + fieldAt 1 2 + fieldAt (fieldAt 0x62 2) 32)) = .error .badBase ∧
    decodeWord 0x0001 = .error .mustBeZero ∧ decode [1] = .error .short := by
  decide +kernel

theorem test_words_register_arithmetic :
    decodeTableWord 32 (0x4 + fieldAt 0x19 19 + fieldAt 0xE 14 + fieldAt 0x15 9) = some (.add 0x15 0xE 0x19) ∧
    decodeTableWord 32 (0x4 + fieldAt 0x1 24 + fieldAt 0x19 19 + fieldAt 0xE 14 + fieldAt 0x15 9) = some (.sub 0x15 0xE 0x19) ∧
    decodeTableWord 32 (0x4 + fieldAt 0x2 24 + fieldAt 0x19 19 + fieldAt 0xE 14 + fieldAt 0x15 9) = some (.and 0x15 0xE 0x19) ∧
    decodeTableWord 32 (0x4 + fieldAt 0x3 24 + fieldAt 0x19 19 + fieldAt 0xE 14 + fieldAt 0x15 9) = some (.or 0x15 0xE 0x19) ∧
    decodeTableWord 32 (0x4 + fieldAt 0x4 24 + fieldAt 0x19 19 + fieldAt 0xE 14 + fieldAt 0x15 9) = some (.xor 0x15 0xE 0x19) ∧
    decodeTableWord 32 (0x4 + fieldAt 0x5 24 + fieldAt 0x19 19 + fieldAt 0xE 14 + fieldAt 0x15 9) = some (.sll 0x15 0xE 0x19) ∧
    decodeTableWord 32 (0x4 + fieldAt 0x6 24 + fieldAt 0x19 19 + fieldAt 0xE 14 + fieldAt 0x15 9) = some (.srl 0x15 0xE 0x19) ∧
    decodeTableWord 32 (0x4 + fieldAt 0x7 24 + fieldAt 0x19 19 + fieldAt 0xE 14 + fieldAt 0x15 9) = some (.sra 0x15 0xE 0x19) ∧
    decodeTableWord 32 (0x4 + fieldAt 0x8 24 + fieldAt 0x19 19 + fieldAt 0xE 14 + fieldAt 0x15 9) = some (.slt 0x15 0xE 0x19) ∧
    decodeTableWord 32 (0x4 + fieldAt 0x9 24 + fieldAt 0x19 19 + fieldAt 0xE 14 + fieldAt 0x15 9) = some (.sltu 0x15 0xE 0x19) ∧
    decodeTableWord 32 (0x4 + fieldAt 0x10 24 + fieldAt 0x19 19 + fieldAt 0xE 14 + fieldAt 0x15 9) = some (.mul 0x15 0xE 0x19) ∧
    decodeTableWord 32 (0x4 + fieldAt 0x11 24 + fieldAt 0x19 19 + fieldAt 0xE 14 + fieldAt 0x15 9) = some (.mulh 0x15 0xE 0x19) ∧
    decodeTableWord 32 (0x4 + fieldAt 0x12 24 + fieldAt 0x19 19 + fieldAt 0xE 14 + fieldAt 0x15 9) = some (.mulhu 0x15 0xE 0x19) ∧
    decodeTableWord 32 (0x4 + fieldAt 0x13 24 + fieldAt 0x19 19 + fieldAt 0xE 14 + fieldAt 0x15 9) = some (.div 0x15 0xE 0x19) ∧
    decodeTableWord 32 (0x4 + fieldAt 0x14 24 + fieldAt 0x19 19 + fieldAt 0xE 14 + fieldAt 0x15 9) = some (.divu 0x15 0xE 0x19) ∧
    decodeTableWord 32 (0x4 + fieldAt 0x15 24 + fieldAt 0x19 19 + fieldAt 0xE 14 + fieldAt 0x15 9) = some (.rem 0x15 0xE 0x19) ∧
    decodeTableWord 32 (0x4 + fieldAt 0x16 24 + fieldAt 0x19 19 + fieldAt 0xE 14 + fieldAt 0x15 9) = some (.remu 0x15 0xE 0x19) ∧
    decodeTableWord 32 (0x4 + fieldAt 0x18 24 + fieldAt 0x19 19 + fieldAt 0xE 14 + fieldAt 0x15 9) = some (.min 0x15 0xE 0x19) ∧
    decodeTableWord 32 (0x4 + fieldAt 0x19 24 + fieldAt 0x19 19 + fieldAt 0xE 14 + fieldAt 0x15 9) = some (.max 0x15 0xE 0x19) ∧
    decodeTableWord 32 (0x4 + fieldAt 0x1A 24 + fieldAt 0x19 19 + fieldAt 0xE 14 + fieldAt 0x15 9) = some (.minu 0x15 0xE 0x19) ∧
    decodeTableWord 32 (0x4 + fieldAt 0x1B 24 + fieldAt 0x19 19 + fieldAt 0xE 14 + fieldAt 0x15 9) = some (.maxu 0x15 0xE 0x19) ∧
    decodeTableWord 32 (0x4 + fieldAt 0x400 19 + fieldAt 0xE 14 + fieldAt 0x15 9) = some (.clz 0x15 0xE) ∧
    decodeTableWord 32 (0x4 + fieldAt 0x420 19 + fieldAt 0xE 14 + fieldAt 0x15 9) = some (.ctz 0x15 0xE) ∧
    decodeTableWord 32 (0x4 + fieldAt 0x440 19 + fieldAt 0xE 14 + fieldAt 0x15 9) = some (.popc 0x15 0xE) := by
  decide +kernel

theorem test_words_immediates :
    decodeTableWord 32 (0x8 + fieldAt 0x15A3 19 + fieldAt 0xE 14 + fieldAt 0x15 9) = some (.addi 0x15 0xE 0x15A3) ∧
    decodeTableWord 32 (0xC + fieldAt 0x15A3 19 + fieldAt 0xE 14 + fieldAt 0x15 9) = some (.andi 0x15 0xE 0x15A3) ∧
    decodeTableWord 32 (0x10 + fieldAt 0x15A3 19 + fieldAt 0xE 14 + fieldAt 0x15 9) = some (.ori 0x15 0xE 0x15A3) ∧
    decodeTableWord 32 (0x14 + fieldAt 0x15A3 19 + fieldAt 0xE 14 + fieldAt 0x15 9) = some (.xori 0x15 0xE 0x15A3) ∧
    decodeTableWord 32 (0x18 + fieldAt 0x15A3 19 + fieldAt 0xE 14 + fieldAt 0x15 9) = some (.slti 0x15 0xE 0x15A3) ∧
    decodeTableWord 32 (0x1C + fieldAt 0x15A3 19 + fieldAt 0xE 14 + fieldAt 0x15 9) = some (.sltiu 0x15 0xE 0x15A3) ∧
    decodeTableWord 32 (0x20 + fieldAt 0x16 19 + fieldAt 0xE 14 + fieldAt 0x15 9) = some (.slli 0x15 0xE 0x16) ∧
    decodeTableWord 32 (0x20 + fieldAt 0x1 25 + fieldAt 0x16 19 + fieldAt 0xE 14 + fieldAt 0x15 9) = some (.srli 0x15 0xE 0x16) ∧
    decodeTableWord 32 (0x20 + fieldAt 0x2 25 + fieldAt 0x16 19 + fieldAt 0xE 14 + fieldAt 0x15 9) = some (.srai 0x15 0xE 0x16) ∧
    decodeTableWord 32 (0x24 + fieldAt 0x2C5B1 14 + fieldAt 0x15 9) = some (.lui 0x15 0x2C5B1) ∧
    decodeTableWord 32 (0x28 + fieldAt 0x2C5B1 14 + fieldAt 0x15 9) = some (.auipc 0x15 0x2C5B1) := by
  decide +kernel

theorem test_words_control :
    decodeTableWord 32 (0x2C + fieldAt 0x2C5B1 14 + fieldAt 0x15 9) = some (.jal 0x15 0x2C5B1) ∧
    decodeTableWord 32 (0x30 + fieldAt 0x15A3 19 + fieldAt 0xE 14 + fieldAt 0x15 9) = some (.jalr 0x15 0xE 0x15A3) ∧
    decodeTableWord 32 (0x34 + fieldAt 0x15A3 19 + fieldAt 0x19 14 + fieldAt 0xE 9) = some (.beq 0xE 0x19 0x15A3) ∧
    decodeTableWord 32 (0x38 + fieldAt 0x15A3 19 + fieldAt 0x19 14 + fieldAt 0xE 9) = some (.bne 0xE 0x19 0x15A3) ∧
    decodeTableWord 32 (0x3C + fieldAt 0x15A3 19 + fieldAt 0x19 14 + fieldAt 0xE 9) = some (.blt 0xE 0x19 0x15A3) ∧
    decodeTableWord 32 (0x40 + fieldAt 0x15A3 19 + fieldAt 0x19 14 + fieldAt 0xE 9) = some (.bge 0xE 0x19 0x15A3) ∧
    decodeTableWord 32 (0x44 + fieldAt 0x15A3 19 + fieldAt 0x19 14 + fieldAt 0xE 9) = some (.bltu 0xE 0x19 0x15A3) ∧
    decodeTableWord 32 (0x48 + fieldAt 0x15A3 19 + fieldAt 0x19 14 + fieldAt 0xE 9) = some (.bgeu 0xE 0x19 0x15A3) ∧
    decodeTableWord 32 (0x4C + fieldAt 0x5A3C 9) = some (.trap 0x5A3C) ∧
    decodeTableWord 32 (0x100004C) = some (.sret) ∧
    decodeTableWord 32 (0x200004C) = some (.mret) ∧
    decodeTableWord 32 (0x300004C) = some (.halt) ∧
    decodeTableWord 32 (0x50 + fieldAt 0x2B3 9) = some (.safe 0x2B3) ∧
    decodeTableWord 32 (0x54 + fieldAt 0x201 21 + fieldAt 0x15 9) = some (.csrr 0x15 0x201) ∧
    decodeTableWord 32 (0x54 + fieldAt 0x1 19 + fieldAt 0x201 21 + fieldAt 0xE 14 + fieldAt 0x15 9) = some (.csrw 0x15 0x201 0xE) ∧
    decodeTableWord 32 (0x54 + fieldAt 0x2 19 + fieldAt 0x201 21 + fieldAt 0xE 14 + fieldAt 0x15 9) = some (.csrs 0x15 0x201 0xE) ∧
    decodeTableWord 32 (0x54 + fieldAt 0x3 19 + fieldAt 0x201 21 + fieldAt 0xE 14 + fieldAt 0x15 9) = some (.csrc 0x15 0x201 0xE) := by
  decide +kernel

theorem test_words_accesses :
    decodeTableWord 32 (0x58 + fieldAt 0x1A6 23 + fieldAt 0xB 19 + fieldAt 0x12 14 + fieldAt 0x1D 9) = some (.lb 0x1D 0x12 0xB 0x1A6) ∧
    decodeTableWord 32 (0x5C + fieldAt 0x1A6 23 + fieldAt 0xB 19 + fieldAt 0x12 14 + fieldAt 0x1D 9) = some (.lh 0x1D 0x12 0xB 0x1A6) ∧
    decodeTableWord 32 (0x60 + fieldAt 0x1A6 23 + fieldAt 0xB 19 + fieldAt 0x12 14 + fieldAt 0x1D 9) = some (.lw 0x1D 0x12 0xB 0x1A6) ∧
    decodeTableWord 32 (0x64 + fieldAt 0x1A6 23 + fieldAt 0xB 19 + fieldAt 0x12 14 + fieldAt 0x1D 9) = some (.ld 0x1D 0x12 0xB 0x1A6) ∧
    decodeTableWord 32 (0x68 + fieldAt 0x1A6 23 + fieldAt 0xB 19 + fieldAt 0x12 14 + fieldAt 0x1D 9) = some (.lbu 0x1D 0x12 0xB 0x1A6) ∧
    decodeTableWord 32 (0x6C + fieldAt 0x1A6 23 + fieldAt 0xB 19 + fieldAt 0x12 14 + fieldAt 0x1D 9) = some (.lhu 0x1D 0x12 0xB 0x1A6) ∧
    decodeTableWord 32 (0x70 + fieldAt 0x1A6 23 + fieldAt 0xB 19 + fieldAt 0x12 14 + fieldAt 0x1D 9) = some (.lwu 0x1D 0x12 0xB 0x1A6) ∧
    decodeTableWord 32 (0x74 + fieldAt 0x1A6 23 + fieldAt 0xB 19 + fieldAt 0x12 14 + fieldAt 0x1D 9) = some (.sb 0x1D 0x12 0xB 0x1A6) ∧
    decodeTableWord 32 (0x78 + fieldAt 0x1A6 23 + fieldAt 0xB 19 + fieldAt 0x12 14 + fieldAt 0x1D 9) = some (.sh 0x1D 0x12 0xB 0x1A6) ∧
    decodeTableWord 32 (0x7C + fieldAt 0x1A6 23 + fieldAt 0xB 19 + fieldAt 0x12 14 + fieldAt 0x1D 9) = some (.sw 0x1D 0x12 0xB 0x1A6) ∧
    decodeTableWord 32 (0x80 + fieldAt 0x1A6 23 + fieldAt 0xB 19 + fieldAt 0x12 14 + fieldAt 0x1D 9) = some (.sd 0x1D 0x12 0xB 0x1A6) ∧
    decodeTableWord 32 (0x84 + fieldAt 0x1A6 23 + fieldAt 0xB 19 + fieldAt 0x12 14 + fieldAt 0x1D 9) = some (.ldf 0x1D 0x12 0xB 0x1A6) ∧
    decodeTableWord 32 (0x88 + fieldAt 0x1A6 23 + fieldAt 0xB 19 + fieldAt 0x12 14 + fieldAt 0x1D 9) = some (.ldfk 0x1D 0x12 0xB 0x1A6) ∧
    decodeTableWord 32 (0x8C + fieldAt 0x1A6 23 + fieldAt 0xB 19 + fieldAt 0x12 14 + fieldAt 0x1D 9) = some (.ste 0x1D 0x12 0xB 0x1A6) ∧
    decodeTableWord 32 (0x90 + fieldAt 0x1A6 23 + fieldAt 0xB 19 + fieldAt 0x12 14 + fieldAt 0x1D 9) = some (.stf 0x1D 0x12 0xB 0x1A6) := by
  decide +kernel

theorem test_words_atomics_and_sync :
    decodeTableWord 32 (0x94 + fieldAt 0xB 28 + fieldAt 0x6 24 + fieldAt 0x19 19 + fieldAt 0xE 14 + fieldAt 0x15 9) = some (.amoW 0x15 0xE 0x19 6 0xB) ∧
    decodeTableWord 32 (0x98 + fieldAt 0xB 28 + fieldAt 0x6 24 + fieldAt 0x19 19 + fieldAt 0xE 14 + fieldAt 0x15 9) = some (.amoD 0x15 0xE 0x19 6 0xB) ∧
    decodeTableWord 32 (0x9C + fieldAt 0x4 25 + fieldAt 0x8421 9) = some (.fence 0x8421 4) ∧
    decodeTableWord 32 (0xA0 + fieldAt 0x8421 14 + fieldAt 0x15 9) = some (.feni 0x15 0x8421) ∧
    decodeTableWord 32 (0xA4 + fieldAt 0xE 14) = some (.fenw 0xE) ∧
    decodeTableWord 32 (0xA8 + fieldAt 0xD 19 + fieldAt 0x15 9) = some (.ccrd 0x15 0xD) ∧
    decodeTableWord 32 (0xAC + fieldAt 0xD 19) = some (.ccwaitAll 0xD) ∧
    decodeTableWord 32 (0xAC + fieldAt 0x1 23 + fieldAt 0xD 19 + fieldAt 0xE 14) = some (.ccwaitGe 0xD 0xE) ∧
    decodeTableWord 32 (0xB0 + fieldAt 0xD 19 + fieldAt 0xE 14) = some (.ccset 0xD 0xE) ∧
    decodeTableWord 32 (0xB4 + fieldAt 0xE 14 + fieldAt 0x15 9) = some (.nspawn 0x15 0xE) ∧
    decodeTableWord 32 (0xB8) = some (.nend) ∧
    decodeTableWord 32 (0xBC) = some (.nyield) ∧
    decodeTableWord 32 (0xC0 + fieldAt 0xB 24 + fieldAt 0x19 19 + fieldAt 0xE 14) = some (.chinit 0xE 0x19 0xB) ∧
    decodeTableWord 32 (0xC4 + fieldAt 0xB 24 + fieldAt 0x19 19 + fieldAt 0xE 14 + fieldAt 0x15 9) = some (.charr 0x15 0xE 0x19 0xB) ∧
    decodeTableWord 32 (0xC8 + fieldAt 0xB 24 + fieldAt 0x19 19 + fieldAt 0xE 14) = some (.chwait 0xE 0x19 0xB) ∧
    decodeTableWord 32 (0xCC + fieldAt 0xB 24 + fieldAt 0x19 19 + fieldAt 0xE 14) = some (.charm 0xE 0x19 0xB) ∧
    decodeTableWord 32 (0xD8 + fieldAt 0x19 19 + fieldAt 0xE 14 + fieldAt 0x15 9) = some (.coll 0x15 0xE 0x19) ∧
    decodeTableWord 32 (0xDC + fieldAt 0xE 14 + fieldAt 0x15 9) = some (.collw 0x15 0xE) ∧
    decodeTableWord 32 (0xE0 + fieldAt 0x1 24 + fieldAt 0x19 19 + fieldAt 0xE 14) = some (.rngw 0xE 0x19 1) ∧
    decodeTableWord 32 (0xE4 + fieldAt 0x1 24 + fieldAt 0xE 14 + fieldAt 0x15 9) = some (.rngr 0x15 0xE 1) ∧
    decodeTableWord 32 (0xE8 + fieldAt 0x19 19 + fieldAt 0xE 14) = some (.ptinv 0xE 0x19) ∧
    decodeTableWord 32 (0xEC + fieldAt 0x1 24 + fieldAt 0x19 19 + fieldAt 0xE 14) = some (.rrtw 0xE 0x19 1) ∧
    decodeTableWord 32 (0xF0 + fieldAt 0x1 24 + fieldAt 0x19 19 + fieldAt 0xE 14) = some (.iltw 0xE 0x19 1) ∧
    decodeTableWord 32 (0xF4 + fieldAt 0x19 19 + fieldAt 0xE 14 + fieldAt 0x15 9) = some (.winOpen 0x15 0xE 0x19) ∧
    decodeTableWord 32 (0xF4 + fieldAt 0x20 19 + fieldAt 0xE 14) = some (.winRev 0xE) ∧
    decodeTableWord 32 (0xF4 + fieldAt 0x40 19 + fieldAt 0xE 14) = some (.winSync 0xE) := by
  decide +kernel

theorem test_words_vector_setup :
    decodeTableWord 32 (0xF8 + fieldAt 0x5 19 + fieldAt 0x15 9) = some (.mtrrd 0x15 5) ∧
    decodeTableWord 32 (0x100 + fieldAt 0x19 19 + fieldAt 0xE 14 + fieldAt 0x15 9) = some (.vsetvl 0x15 0xE 0x19) ∧
    decodeTableWord 32 (0x104 + fieldAt 0x2D 19 + fieldAt 0xE 14 + fieldAt 0x15 9) = some (.vsetvli 0x15 0xE 0x2D) := by
  decide +kernel

theorem test_words_vector_integer :
    decodeTableWord 32 (fieldAt 0x42 2 + fieldAt 0x2 30 + fieldAt 0x46 23 + fieldAt 0x23 16 + fieldAt 0x19 9 + fieldAt 0x1 1) = some (.vadd true 2 0x46 0x23 0x19) ∧
    decodeTableWord 32 (fieldAt 0x43 2 + fieldAt 0x2 30 + fieldAt 0x46 23 + fieldAt 0x23 16 + fieldAt 0x19 9 + fieldAt 0x1 1) = some (.vsub true 2 0x46 0x23 0x19) ∧
    decodeTableWord 32 (fieldAt 0x44 2 + fieldAt 0x2 30 + fieldAt 0x46 23 + fieldAt 0x23 16 + fieldAt 0x19 9 + fieldAt 0x1 1) = some (.vmul true 2 0x46 0x23 0x19) ∧
    decodeTableWord 32 (fieldAt 0x45 2 + fieldAt 0x2 30 + fieldAt 0x46 23 + fieldAt 0x23 16 + fieldAt 0x19 9 + fieldAt 0x1 1) = some (.vmulh true 2 0x46 0x23 0x19) ∧
    decodeTableWord 32 (fieldAt 0x46 2 + fieldAt 0x2 30 + fieldAt 0x46 23 + fieldAt 0x23 16 + fieldAt 0x19 9 + fieldAt 0x1 1) = some (.vmulhu true 2 0x46 0x23 0x19) ∧
    decodeTableWord 32 (fieldAt 0x47 2 + fieldAt 0x2 30 + fieldAt 0x46 23 + fieldAt 0x23 16 + fieldAt 0x19 9 + fieldAt 0x1 1) = some (.vmac true 2 0x46 0x23 0x19) ∧
    decodeTableWord 32 (fieldAt 0x48 2 + fieldAt 0x2 30 + fieldAt 0x46 23 + fieldAt 0x23 16 + fieldAt 0x19 9 + fieldAt 0x1 1) = some (.vmin true 2 0x46 0x23 0x19) ∧
    decodeTableWord 32 (fieldAt 0x49 2 + fieldAt 0x2 30 + fieldAt 0x46 23 + fieldAt 0x23 16 + fieldAt 0x19 9 + fieldAt 0x1 1) = some (.vmax true 2 0x46 0x23 0x19) ∧
    decodeTableWord 32 (fieldAt 0x4A 2 + fieldAt 0x2 30 + fieldAt 0x46 23 + fieldAt 0x23 16 + fieldAt 0x19 9 + fieldAt 0x1 1) = some (.vminu true 2 0x46 0x23 0x19) ∧
    decodeTableWord 32 (fieldAt 0x4B 2 + fieldAt 0x2 30 + fieldAt 0x46 23 + fieldAt 0x23 16 + fieldAt 0x19 9 + fieldAt 0x1 1) = some (.vmaxu true 2 0x46 0x23 0x19) ∧
    decodeTableWord 32 (fieldAt 0x4C 2 + fieldAt 0x2 30 + fieldAt 0x46 23 + fieldAt 0x23 16 + fieldAt 0x19 9 + fieldAt 0x1 1) = some (.vand true 2 0x46 0x23 0x19) ∧
    decodeTableWord 32 (fieldAt 0x4D 2 + fieldAt 0x2 30 + fieldAt 0x46 23 + fieldAt 0x23 16 + fieldAt 0x19 9 + fieldAt 0x1 1) = some (.vor true 2 0x46 0x23 0x19) ∧
    decodeTableWord 32 (fieldAt 0x4E 2 + fieldAt 0x2 30 + fieldAt 0x46 23 + fieldAt 0x23 16 + fieldAt 0x19 9 + fieldAt 0x1 1) = some (.vxor true 2 0x46 0x23 0x19) ∧
    decodeTableWord 32 (fieldAt 0x4F 2 + fieldAt 0x2 30 + fieldAt 0x46 23 + fieldAt 0x23 16 + fieldAt 0x19 9 + fieldAt 0x1 1) = some (.vsll true 2 0x46 0x23 0x19) ∧
    decodeTableWord 32 (fieldAt 0x50 2 + fieldAt 0x2 30 + fieldAt 0x46 23 + fieldAt 0x23 16 + fieldAt 0x19 9 + fieldAt 0x1 1) = some (.vsrl true 2 0x46 0x23 0x19) ∧
    decodeTableWord 32 (fieldAt 0x51 2 + fieldAt 0x2 30 + fieldAt 0x46 23 + fieldAt 0x23 16 + fieldAt 0x19 9 + fieldAt 0x1 1) = some (.vsra true 2 0x46 0x23 0x19) ∧
    decodeTableWord 32 (fieldAt 0x52 2 + fieldAt 0x2 30 + fieldAt 0x46 23 + fieldAt 0x23 16 + fieldAt 0x19 9 + fieldAt 0x1 1) = some (.vsadd true 2 0x46 0x23 0x19) ∧
    decodeTableWord 32 (fieldAt 0x53 2 + fieldAt 0x2 30 + fieldAt 0x46 23 + fieldAt 0x23 16 + fieldAt 0x19 9 + fieldAt 0x1 1) = some (.vsaddu true 2 0x46 0x23 0x19) ∧
    decodeTableWord 32 (fieldAt 0x54 2 + fieldAt 0x2 30 + fieldAt 0x46 23 + fieldAt 0x23 16 + fieldAt 0x19 9 + fieldAt 0x1 1) = some (.vssub true 2 0x46 0x23 0x19) ∧
    decodeTableWord 32 (fieldAt 0x55 2 + fieldAt 0x2 30 + fieldAt 0x46 23 + fieldAt 0x23 16 + fieldAt 0x19 9 + fieldAt 0x1 1) = some (.vssubu true 2 0x46 0x23 0x19) := by
  decide +kernel

theorem test_words_vector_float :
    decodeTableWord 32 (fieldAt 0x56 2 + fieldAt 0x2 30 + fieldAt 0x46 23 + fieldAt 0x23 16 + fieldAt 0x19 9 + fieldAt 0x1 1) = some (.vfadd true 2 0x46 0x23 0x19) ∧
    decodeTableWord 32 (fieldAt 0x57 2 + fieldAt 0x2 30 + fieldAt 0x46 23 + fieldAt 0x23 16 + fieldAt 0x19 9 + fieldAt 0x1 1) = some (.vfsub true 2 0x46 0x23 0x19) ∧
    decodeTableWord 32 (fieldAt 0x58 2 + fieldAt 0x2 30 + fieldAt 0x46 23 + fieldAt 0x23 16 + fieldAt 0x19 9 + fieldAt 0x1 1) = some (.vfmul true 2 0x46 0x23 0x19) ∧
    decodeTableWord 32 (fieldAt 0x59 2 + fieldAt 0x2 30 + fieldAt 0x46 23 + fieldAt 0x23 16 + fieldAt 0x19 9 + fieldAt 0x1 1) = some (.vfdiv true 2 0x46 0x23 0x19) ∧
    decodeTableWord 32 (fieldAt 0x5A 2 + fieldAt 0x2 30 + fieldAt 0x46 23 + fieldAt 0x23 16 + fieldAt 0x19 9 + fieldAt 0x1 1) = some (.vfmin true 2 0x46 0x23 0x19) ∧
    decodeTableWord 32 (fieldAt 0x5B 2 + fieldAt 0x2 30 + fieldAt 0x46 23 + fieldAt 0x23 16 + fieldAt 0x19 9 + fieldAt 0x1 1) = some (.vfmax true 2 0x46 0x23 0x19) ∧
    decodeTableWord 32 (fieldAt 0x5C 2 + fieldAt 0x2 30 + fieldAt 0x46 23 + fieldAt 0x23 16 + fieldAt 0x19 9 + fieldAt 0x1 1) = some (.vfma true 2 0x46 0x23 0x19) ∧
    decodeTableWord 32 (fieldAt 0x5D 2 + fieldAt 0x2 30 + fieldAt 0x46 23 + fieldAt 0x23 16 + fieldAt 0x19 9 + fieldAt 0x1 1) = some (.vfms true 2 0x46 0x23 0x19) ∧
    decodeTableWord 32 (fieldAt 0x5E 2 + fieldAt 0x2 30 + fieldAt 0x46 23 + fieldAt 0x23 16 + fieldAt 0x19 9 + fieldAt 0x1 1) = some (.vfnma true 2 0x46 0x23 0x19) ∧
    decodeTableWord 32 (fieldAt 0x5F 2 + fieldAt 0x2 30 + fieldAt 0x32 16 + fieldAt 0x19 9 + fieldAt 0x1 1) = some (.vfsqrt true 2 0x32 0x19) ∧
    decodeTableWord 32 (fieldAt 0x5F 2 + fieldAt 0x1 23 + fieldAt 0x2 30 + fieldAt 0x32 16 + fieldAt 0x19 9 + fieldAt 0x1 1) = some (.vfrcp true 2 0x32 0x19) ∧
    decodeTableWord 32 (fieldAt 0x5F 2 + fieldAt 0x2 23 + fieldAt 0x2 30 + fieldAt 0x32 16 + fieldAt 0x19 9 + fieldAt 0x1 1) = some (.vfrsq true 2 0x32 0x19) ∧
    decodeTableWord 32 (fieldAt 0x5F 2 + fieldAt 0x3 23 + fieldAt 0x2 30 + fieldAt 0x32 16 + fieldAt 0x19 9 + fieldAt 0x1 1) = some (.vfexp2 true 2 0x32 0x19) ∧
    decodeTableWord 32 (fieldAt 0x5F 2 + fieldAt 0x4 23 + fieldAt 0x2 30 + fieldAt 0x32 16 + fieldAt 0x19 9 + fieldAt 0x1 1) = some (.vfclass true 2 0x32 0x19) := by
  decide +kernel

theorem test_words_masks :
    decodeTableWord 32 (fieldAt 0x60 2 + fieldAt 0x2 30 + fieldAt 0x46 23 + fieldAt 0x23 16 + fieldAt 0x7 12 + fieldAt 0x5 9 + fieldAt 0x1 1) = some (.vcmp true 2 0x46 0x23 7 5) ∧
    decodeTableWord 32 (fieldAt 0x61 2 + fieldAt 0x2 30 + fieldAt 0x46 23 + fieldAt 0x23 16 + fieldAt 0x7 12 + fieldAt 0x5 9 + fieldAt 0x1 1) = some (.vfcmp true 2 0x46 0x23 7 5) ∧
    decodeTableWord 32 (fieldAt 0x62 2 + fieldAt 0x6 19 + fieldAt 0x3 14 + fieldAt 0x5 9 + fieldAt 0x1 1) = some (.kand true 5 3 6) ∧
    decodeTableWord 32 (fieldAt 0x62 2 + fieldAt 0x4 22 + fieldAt 0x6 19 + fieldAt 0x3 14 + fieldAt 0x5 9 + fieldAt 0x1 1) = some (.kor true 5 3 6) ∧
    decodeTableWord 32 (fieldAt 0x62 2 + fieldAt 0x8 22 + fieldAt 0x6 19 + fieldAt 0x3 14 + fieldAt 0x5 9 + fieldAt 0x1 1) = some (.kxor true 5 3 6) ∧
    decodeTableWord 32 (fieldAt 0x62 2 + fieldAt 0xC 22 + fieldAt 0x6 19 + fieldAt 0x3 14 + fieldAt 0x5 9 + fieldAt 0x1 1) = some (.kandn true 5 3 6) ∧
    decodeTableWord 32 (fieldAt 0x62 2 + fieldAt 0x200 17 + fieldAt 0x3 14 + fieldAt 0x5 9 + fieldAt 0x1 1) = some (.knot true 5 3) ∧
    decodeTableWord 32 (fieldAt 0x62 2 + fieldAt 0x280 17 + fieldAt 0x3 14 + fieldAt 0x5 9 + fieldAt 0x1 1) = some (.kmov true 5 3) ∧
    decodeTableWord 32 (fieldAt 0x63 2 + fieldAt 0x6 14 + fieldAt 0x15 9 + fieldAt 0x1 1) = some (.kpop true 0x15 6) ∧
    decodeTableWord 32 (fieldAt 0x63 2 + fieldAt 0x80 17 + fieldAt 0x6 14 + fieldAt 0x15 9 + fieldAt 0x1 1) = some (.kfirst true 0x15 6) := by
  decide +kernel

theorem test_words_vector_moves :
    decodeTableWord 32 (fieldAt 0x64 2 + fieldAt 0x2 30 + fieldAt 0x32 16 + fieldAt 0x19 9 + fieldAt 0x1 1) = some (.vmv true 2 0x32 0x19) ∧
    decodeTableWord 32 (fieldAt 0x64 2 + fieldAt 0x80 16 + fieldAt 0x2 30 + fieldAt 0x19 9 + fieldAt 0x1 1) = some (.vid true 2 0x19) ∧
    decodeTableWord 32 (fieldAt 0x64 2 + fieldAt 0x2 23 + fieldAt 0x13 27 + fieldAt 0x32 16 + fieldAt 0x19 9 + fieldAt 0x1 1) = some (.vbcast true 0x13 0x32 0x19) ∧
    decodeTableWord 32 (fieldAt 0x65 2 + fieldAt 0x13 27 + fieldAt 0x32 16 + fieldAt 0x15 9 + fieldAt 0x1 1) = some (.vext true 0x13 0x32 0x15) ∧
    decodeTableWord 32 (fieldAt 0x65 2 + fieldAt 0x1 23 + fieldAt 0x13 27 + fieldAt 0x32 16 + fieldAt 0x19 9 + fieldAt 0x1 1) = some (.vins true 0x13 0x32 0x19) ∧
    decodeTableWord 32 (fieldAt 0x66 2 + fieldAt 0x13 27 + fieldAt 0x32 16 + fieldAt 0x19 9 + fieldAt 0x1 1) = some (.vslup true 0x13 0x32 0x19) ∧
    decodeTableWord 32 (fieldAt 0x66 2 + fieldAt 0x1 23 + fieldAt 0x13 27 + fieldAt 0x32 16 + fieldAt 0x19 9 + fieldAt 0x1 1) = some (.vsldn true 0x13 0x32 0x19) ∧
    decodeTableWord 32 (fieldAt 0x67 2 + fieldAt 0x2 30 + fieldAt 0x46 23 + fieldAt 0x23 16 + fieldAt 0x19 9 + fieldAt 0x1 1) = some (.vperm true 2 0x46 0x23 0x19) ∧
    decodeTableWord 32 (fieldAt 0x68 2 + fieldAt 0x2 30 + fieldAt 0x32 16 + fieldAt 0x19 9 + fieldAt 0x1 1) = some (.vcompress true 2 0x32 0x19) ∧
    decodeTableWord 32 (fieldAt 0x68 2 + fieldAt 0x1 23 + fieldAt 0x2 30 + fieldAt 0x32 16 + fieldAt 0x19 9 + fieldAt 0x1 1) = some (.vexpand true 2 0x32 0x19) ∧
    decodeTableWord 32 (fieldAt 0x69 2 + fieldAt 0x2 30 + fieldAt 0x46 23 + fieldAt 0x23 16 + fieldAt 0x19 9 + fieldAt 0x1 1) = some (.vmerge true 2 0x46 0x23 0x19) := by
  decide +kernel

theorem test_words_reductions :
    decodeTableWord 32 (fieldAt 0x6A 2 + fieldAt 0x2 30 + fieldAt 0x32 16 + fieldAt 0x19 9 + fieldAt 0x1 1) = some (.vredsum true 2 0x32 0x19) ∧
    decodeTableWord 32 (fieldAt 0x6A 2 + fieldAt 0x1 23 + fieldAt 0x2 30 + fieldAt 0x32 16 + fieldAt 0x19 9 + fieldAt 0x1 1) = some (.vredmin true 2 0x32 0x19) ∧
    decodeTableWord 32 (fieldAt 0x6A 2 + fieldAt 0x2 23 + fieldAt 0x2 30 + fieldAt 0x32 16 + fieldAt 0x19 9 + fieldAt 0x1 1) = some (.vredmax true 2 0x32 0x19) ∧
    decodeTableWord 32 (fieldAt 0x6A 2 + fieldAt 0x3 23 + fieldAt 0x2 30 + fieldAt 0x32 16 + fieldAt 0x19 9 + fieldAt 0x1 1) = some (.vredminu true 2 0x32 0x19) ∧
    decodeTableWord 32 (fieldAt 0x6A 2 + fieldAt 0x4 23 + fieldAt 0x2 30 + fieldAt 0x32 16 + fieldAt 0x19 9 + fieldAt 0x1 1) = some (.vredmaxu true 2 0x32 0x19) ∧
    decodeTableWord 32 (fieldAt 0x6A 2 + fieldAt 0x5 23 + fieldAt 0x2 30 + fieldAt 0x32 16 + fieldAt 0x19 9 + fieldAt 0x1 1) = some (.vfredsum true 2 0x32 0x19) ∧
    decodeTableWord 32 (fieldAt 0x6A 2 + fieldAt 0x6 23 + fieldAt 0x2 30 + fieldAt 0x32 16 + fieldAt 0x19 9 + fieldAt 0x1 1) = some (.vfredmin true 2 0x32 0x19) ∧
    decodeTableWord 32 (fieldAt 0x6A 2 + fieldAt 0x7 23 + fieldAt 0x2 30 + fieldAt 0x32 16 + fieldAt 0x19 9 + fieldAt 0x1 1) = some (.vfredmax true 2 0x32 0x19) ∧
    decodeTableWord 32 (fieldAt 0x6A 2 + fieldAt 0x8 23 + fieldAt 0x2 30 + fieldAt 0x32 16 + fieldAt 0x19 9 + fieldAt 0x1 1) = some (.vscan true 2 0x32 0x19) ∧
    decodeTableWord 32 (fieldAt 0x6A 2 + fieldAt 0x9 23 + fieldAt 0x2 30 + fieldAt 0x32 16 + fieldAt 0x19 9 + fieldAt 0x1 1) = some (.vfscan true 2 0x32 0x19) := by
  decide +kernel

theorem test_words_conversion :
    decodeTableWord 32 (fieldAt 0x6B 2 + fieldAt 0x1 31 + fieldAt 0x2 27 + fieldAt 0x1 23 + fieldAt 0x32 16 + fieldAt 0x19 9 + fieldAt 0x1 1) = some (.vcvt true 1 2 1 0x32 0x19) ∧
    decodeTableWord 32 (fieldAt 0x6C 2 + fieldAt 0x2 27 + fieldAt 0x9 23 + fieldAt 0x32 16 + fieldAt 0x19 9 + fieldAt 0x1 1) = some (.vquant true 2 9 0x32 0x19) ∧
    decodeTableWord 32 (fieldAt 0x6D 2 + fieldAt 0x2 27 + fieldAt 0x9 23 + fieldAt 0x32 16 + fieldAt 0x19 9 + fieldAt 0x1 1) = some (.vqsc true 2 9 0x32 0x19) ∧
    decodeTableWord 32 (fieldAt 0x6E 2 + fieldAt 0x9 27 + fieldAt 0x1 23 + fieldAt 0x32 16 + fieldAt 0x19 9 + fieldAt 0x1 1) = some (.vdeq true 9 1 0x32 0x19) ∧
    decodeTableWord 32 (fieldAt 0x6F 2 + fieldAt 0x6 23 + fieldAt 0x32 16 + fieldAt 0x19 9 + fieldAt 0x1 1) = some (.vhad true 6 0x32 0x19) ∧
    decodeTableWord 32 (fieldAt 0x70 2 + fieldAt 0x6 27 + fieldAt 0x32 16 + fieldAt 0x19 9 + fieldAt 0x1 1) = some (.vpack true 6 0x32 0x19) ∧
    decodeTableWord 32 (fieldAt 0x70 2 + fieldAt 0x1 23 + fieldAt 0x6 27 + fieldAt 0x32 16 + fieldAt 0x19 9 + fieldAt 0x1 1) = some (.vunpack true 6 0x32 0x19) := by
  decide +kernel

theorem test_words_vector_memory :
    decodeTableWord 32 (fieldAt 0x71 2 + fieldAt 0x1 31 + fieldAt 0x1 30 + fieldAt 0xB 26 + fieldAt 0x16 21 + fieldAt 0x12 16 + fieldAt 0x2D 9 + fieldAt 0x1 1) = some (.vld true 1 1 0xB 0x16 0x12 0x2D) ∧
    decodeTableWord 32 (fieldAt 0x72 2 + fieldAt 0x1 31 + fieldAt 0x1 30 + fieldAt 0xB 26 + fieldAt 0x16 21 + fieldAt 0x12 16 + fieldAt 0x2D 9 + fieldAt 0x1 1) = some (.vlds true 1 1 0xB 0x16 0x12 0x2D) ∧
    decodeTableWord 32 (fieldAt 0x73 2 + fieldAt 0x1 31 + fieldAt 0x1 30 + fieldAt 0xB 26 + fieldAt 0x16 21 + fieldAt 0x12 16 + fieldAt 0x2D 9 + fieldAt 0x1 1) = some (.vldx true 1 1 0xB 0x16 0x12 0x2D) ∧
    decodeTableWord 32 (fieldAt 0x74 2 + fieldAt 0x1 31 + fieldAt 0xB 26 + fieldAt 0x16 21 + fieldAt 0x12 16 + fieldAt 0x2D 9 + fieldAt 0x1 1) = some (.vldff true 1 0xB 0x16 0x12 0x2D) ∧
    decodeTableWord 32 (fieldAt 0x75 2 + fieldAt 0x1 31 + fieldAt 0x1 30 + fieldAt 0xB 26 + fieldAt 0x16 21 + fieldAt 0x12 16 + fieldAt 0x2D 9 + fieldAt 0x1 1) = some (.vst true 1 1 0xB 0x16 0x12 0x2D) ∧
    decodeTableWord 32 (fieldAt 0x76 2 + fieldAt 0x1 31 + fieldAt 0x1 30 + fieldAt 0xB 26 + fieldAt 0x16 21 + fieldAt 0x12 16 + fieldAt 0x2D 9 + fieldAt 0x1 1) = some (.vsts true 1 1 0xB 0x16 0x12 0x2D) ∧
    decodeTableWord 32 (fieldAt 0x77 2 + fieldAt 0x1 31 + fieldAt 0x1 30 + fieldAt 0xB 26 + fieldAt 0x16 21 + fieldAt 0x12 16 + fieldAt 0x2D 9 + fieldAt 0x1 1) = some (.vstx true 1 1 0xB 0x16 0x12 0x2D) ∧
    decodeTableWord 32 (fieldAt 0x78 2 + fieldAt 0xB 26 + fieldAt 0x12 16 + fieldAt 0x2D 9 + fieldAt 0x1 1) = some (.vbind true 0xB 0x12 0x2D) ∧
    decodeTableWord 32 (fieldAt 0x78 2 + fieldAt 0x1 30 + fieldAt 0xB 26 + fieldAt 0x2D 9 + fieldAt 0x1 1) = some (.vunbind true 0xB 0x2D) ∧
    decodeTableWord 32 (fieldAt 0x79 2 + fieldAt 0x1 30 + fieldAt 0xB 26 + fieldAt 0x16 21 + fieldAt 0x12 16 + fieldAt 0x1A 9 + fieldAt 0x1 1) = some (.xcopy true 1 0xB 0x16 0x12 0x1A) ∧
    decodeTableWord 32 (fieldAt 0x7A 2 + fieldAt 0x1 31 + fieldAt 0x1 30 + fieldAt 0xB 26 + fieldAt 0x16 21 + fieldAt 0x12 16 + fieldAt 0x2D 9 + fieldAt 0x1 1) = some (.vldf true 1 1 0xB 0x16 0x12 0x2D) ∧
    decodeTableWord 32 (fieldAt 0x7B 2 + fieldAt 0x1 31 + fieldAt 0xB 26 + fieldAt 0x16 21 + fieldAt 0x12 16 + fieldAt 0x2D 9 + fieldAt 0x1 1) = some (.vste true 1 0xB 0x16 0x12 0x2D) ∧
    decodeTableWord 32 (fieldAt 0x7C 2 + fieldAt 0xB 28 + fieldAt 0x6 24 + fieldAt 0x1C 19 + fieldAt 0x15 14 + fieldAt 0x9 9 + fieldAt 0x1 1) = some (.vamo true 6 0xB 0x1C 0x15 9) ∧
    decodeTableWord 32 (fieldAt 0x7C 2 + fieldAt 0x1F 14 + fieldAt 0xB 28 + fieldAt 0x6 24 + fieldAt 0x1C 19 + fieldAt 0x9 9 + fieldAt 0x1 1) = some (.vamoNb true 6 0xB 0x1C 9) := by
  decide +kernel

theorem test_words_compressed :
    decodeTableWord 16 (0x1 + fieldAt 0x16 11 + fieldAt 0x15 6) = some (.cAddi 0x15 0x16) ∧
    decodeTableWord 16 (0x5 + fieldAt 0x16 11 + fieldAt 0x15 6) = some (.cLi 0x15 0x16) ∧
    decodeTableWord 16 (0x9 + fieldAt 0x16 11 + fieldAt 0x15 6) = some (.cMv 0x15 0x16) ∧
    decodeTableWord 16 (0xD + fieldAt 0x16 11 + fieldAt 0x15 6) = some (.cAdd 0x15 0x16) ∧
    decodeTableWord 16 (0x11 + fieldAt 0x16 11 + fieldAt 0x15 6) = some (.cSlli 0x15 0x16) ∧
    decodeTableWord 16 (0x15 + fieldAt 0x13 11 + fieldAt 0x15 6) = some (.cLd 0x15 0x13) ∧
    decodeTableWord 16 (0x19 + fieldAt 0x13 11 + fieldAt 0x16 6) = some (.cSd 0x16 0x13) ∧
    decodeTableWord 16 (0x1D + fieldAt 0x2C5 6) = some (.cJ 0x2C5) ∧
    decodeTableWord 16 (0x21 + fieldAt 0x16 6) = some (.cJr 0x16) ∧
    decodeTableWord 16 (0x25 + fieldAt 0x53 9 + fieldAt 0x6 6) = some (.cBeqz 6 0x53) ∧
    decodeTableWord 16 (0x29 + fieldAt 0x53 9 + fieldAt 0x6 6) = some (.cBnez 6 0x53) ∧
    decodeTableWord 16 (0x2D) = some (.cNop) ∧
    decodeTableWord 16 (0x31 + fieldAt 0x2B3 6) = some (.cSafe 0x2B3) ∧
    decodeTableWord 16 (0x35 + fieldAt 0xD 6) = some (.cCcwait 0xD) ∧
    decodeTableWord 16 (0x39 + fieldAt 0x5 12 + fieldAt 0x3 9 + fieldAt 0x6 6) = some (.cVadd 5 3 6) ∧
    decodeTableWord 16 (0x3D + fieldAt 0x32 9 + fieldAt 0x6 6) = some (.cVmv 0x32 6) := by
  decide +kernel

theorem test_words_tiles :
    decodeTableWord 64 (3 + fieldAt 1 2 + fieldAt 5 16 + fieldAt (fieldAt 0x34 2 + fieldAt 3 9 + fieldAt 0x16 14 + fieldAt 0xB 19) 32) = some (.vacq true 5 0xB 0x16 3) ∧
    decodeTableWord 64 (3 + fieldAt 6 16 + fieldAt (fieldAt 0x35 2 + fieldAt 0x16 14 + fieldAt 0xB 19) 32) = some (.vrel false 6 0xB 0x16) ∧
    decodeTableWord 64 (3 + fieldAt 1 2 + fieldAt 1 3 + fieldAt (fieldAt 5 9) 32) = some (.tzero true 5) ∧
    decodeTableWord 64 (3 + fieldAt 1 2 + fieldAt 1 3 + fieldAt 1 19 + fieldAt 6 16 + fieldAt (fieldAt 0x01 2 + fieldAt 5 9 + fieldAt 0x13 12 + fieldAt 0xB 17 + fieldAt 0x16 24) 32) = some (.tld true 6 1 5 0x13 0x16 0xB) ∧
    decodeTableWord 64 (3 + fieldAt 1 2 + fieldAt 1 3 + fieldAt 2 19 + fieldAt 6 16 + fieldAt (fieldAt 0x02 2 + fieldAt 5 9 + fieldAt 0x13 12 + fieldAt 0xB 17 + fieldAt 0x16 24) 32) = some (.tst true 6 2 5 0x13 0x16 0xB) ∧
    decodeTableWord 64 (3 + fieldAt 1 2 + fieldAt 1 3 + fieldAt 1 19 + fieldAt 6 16 + fieldAt (fieldAt 0x03 2 + fieldAt 5 9 + fieldAt 0x13 12 + fieldAt 0x45 17) 32) = some (.trd true 6 1 5 0x13 0x45) ∧
    decodeTableWord 64 (3 + fieldAt 1 2 + fieldAt 1 3 + fieldAt 1 19 + fieldAt 6 16 + fieldAt (fieldAt 0x04 2 + fieldAt 5 9 + fieldAt 0x13 12 + fieldAt 0x45 17) 32) = some (.twr true 6 1 5 0x13 0x45) ∧
    decodeTableWord 64 (3 + fieldAt 1 2 + fieldAt 1 3 + fieldAt 2 10 + fieldAt 0xD 12 + fieldAt 1 19 + fieldAt 6 16 + fieldAt (fieldAt 0x05 2 + fieldAt 5 9 + fieldAt 0x13 12 + fieldAt 0x45 17 + fieldAt 6 24) 32) = some (.tdrain true 6 2 0xD 1 5 0x13 0x45 6) ∧
    decodeTableWord 64 (3 + fieldAt 1 2 + fieldAt 1 3 + fieldAt 2 10 + fieldAt 0xD 12 + fieldAt 1 19 + fieldAt 6 16 + fieldAt (fieldAt 0x05 2 + fieldAt 5 9 + fieldAt 0x13 12 + fieldAt 0x4C 17 + fieldAt 6 24 + fieldAt 1 29) 32) = some (.tdrainBp true 6 2 0xD 1 5 0x13 0x4C 6) ∧
    decodeTableWord 64 (3 + fieldAt 1 2 + fieldAt 1 3 + fieldAt (fieldAt 0x06 2 + fieldAt 0x13 12 + fieldAt 0xB 17 + fieldAt 0x16 24) 32) = some (.bld true 0x16 0x13 0xB) ∧
    decodeTableWord 64 (3 + fieldAt 1 2 + fieldAt 1 3 + fieldAt (fieldAt 0x06 2 + fieldAt 0x13 12 + fieldAt 0xB 17 + fieldAt 0x16 24 + fieldAt 1 29) 32) = some (.bldW true 0x16 0x13 0xB) ∧
    decodeTableWord 64 (3 + fieldAt 1 2 + fieldAt 1 3 + fieldAt (fieldAt 0x07 2 + fieldAt 0x13 12 + fieldAt 0x16 24) 32) = some (.binv true 0x16 0x13) ∧
    decodeTableWord 64 (3 + fieldAt 1 2 + fieldAt 1 3 + fieldAt (fieldAt 0x08 2 + fieldAt 0x13 12) 32) = some (.mcfg true 0x13) ∧
    decodeTableWord 64 (3 + fieldAt 1 2 + fieldAt 1 3 + fieldAt 4 23 + fieldAt 0 21 + fieldAt 6 16 + fieldAt (fieldAt 0x09 2 + fieldAt 5 9 + fieldAt 0x45 17 + fieldAt 0x16 24) 32) = some (.mopa true 6 4 5 0x45 0x16) ∧
    decodeTableWord 64 (3 + fieldAt 1 2 + fieldAt 1 3 + fieldAt 4 23 + fieldAt 1 21 + fieldAt 6 16 + fieldAt (fieldAt 0x09 2 + fieldAt 5 9 + fieldAt 0x13 12 + fieldAt 0x45 17 + fieldAt 0x16 24) 32) = some (.mipa true 6 4 5 0x13 0x45 0x16) ∧
    decodeTableWord 64 (3 + fieldAt 1 2 + fieldAt 1 3 + fieldAt 4 23 + fieldAt 2 21 + fieldAt 6 16 + fieldAt (fieldAt 0x09 2 + fieldAt 5 9 + fieldAt 0x13 12 + fieldAt 0x45 17 + fieldAt 0x16 24) 32) = some (.mrwa true 6 4 5 0x13 0x45 0x16) ∧
    decodeTableWord 64 (3 + fieldAt 1 2 + fieldAt 1 3 + fieldAt 4 23 + fieldAt 3 21 + fieldAt 6 16 + fieldAt (fieldAt 0x09 2 + fieldAt 5 9 + fieldAt 0x13 12 + fieldAt 0x45 17 + fieldAt 0x16 24) 32) = some (.mrws true 6 4 5 0x13 0x45 0x16) := by
  decide +kernel

theorem test_words_prefixed :
    decodeTableWord 64 (3 + fieldAt 1 2 + fieldAt 1 9 + fieldAt 1 6 + fieldAt 1 10 + fieldAt 5 16 + fieldAt (fieldAt 0x42 2 + fieldAt 0x19 9 + fieldAt 0x23 16 + fieldAt 0x46 23) 32) = some (.prefixed64BitForm true ⟨0, 5, 0, 1, 0x24⟩ (.vv .add 0x46 0x23 0x19)) ∧
    decodeTableWord 64 (3 + fieldAt 5 16 + fieldAt (fieldAt 0x61 2 + fieldAt 5 9 + fieldAt 7 12 + fieldAt 0x23 16 + fieldAt 0x46 23) 32) = some (.prefixed64BitForm false ⟨0, 5, 0, 0, 0⟩ (.cmp true 0x46 0x23 7 5)) ∧
    decodeTableWord 64 (3 + fieldAt 0xD 12 + fieldAt (fieldAt 0x5F 2 + fieldAt 0x19 9 + fieldAt 0x32 16 + fieldAt 3 23) 32) = some (.prefixed64BitForm false ⟨0, 0, 0xD, 0, 0⟩ (.vf .fexp2 0x32 0x19)) ∧
    decodeTableWord 64 (3 + fieldAt 5 16 + fieldAt (fieldAt 0x66 2 + fieldAt 0x19 9 + fieldAt 0x32 16 + fieldAt 1 23 + fieldAt 0x13 27) 32) = some (.prefixed64BitForm false ⟨0, 5, 0, 0, 0⟩ (.vg .sldn 0x13 0x32 0x19)) ∧
    decodeTableWord 64 (3 + fieldAt 4 23 + fieldAt (fieldAt 0x6C 2 + fieldAt 0x19 9 + fieldAt 0x32 16 + fieldAt 9 23 + fieldAt 2 27) 32) = some (.prefixed64BitForm false ⟨4, 0, 0, 0, 0⟩ (.vx .quant 0 2 9 0x32 0x19)) ∧
    decodeTableWord 64 (3 + fieldAt 5 16 + fieldAt 3 8 + fieldAt (fieldAt 0x7C 2 + fieldAt 9 9 + fieldAt 0x15 14 + fieldAt 0x1C 19 + fieldAt 6 24 + fieldAt 0xB 28) 32) = some (.prefixed64BitForm false ⟨0, 5, 0, 0, 0x30⟩ (.amo 6 0xB 0x1C 0x15 9)) := by
  decide +kernel

/-! Small states: a control hart at level M, and a hart of owner 1 at level U whose VA 0 is IPA 0 of space 9, with every feature. -/

/-- A test of what an instruction answers. -/
def after (o : Out) (p : State → Bool) : Bool :=
  match o with
  | .next t => p t
  | _ => false

/-- Control hart 0 of die 0 at level M, running at 0x1000 with these g registers. -/
def ctlHart (g : Map Word) : Hart :=
  { Hart.idle with st := .run, pc := 0x1000, f := { Files.zero with g := g }, c := { Csrs.zero with prv := 3 } }

/-- The state of that hart alone. -/
def ctl (g : Map Word) : State := { State.reset with harts := [(96, ctlHart g)] }

/-- A hart of owner 1 at level U, running at 0x1000. -/
def userHart (g : Map Word) : Hart :=
  { Hart.idle with st := .run, pc := 0x1000, f := { Files.zero with g := g }, c := { Csrs.zero with ctxid := 0x100000 } }

/-- Owner 1's context record: range 0 maps VAs 0 to 2 MiB with R, W and X to sync SRAM of die 0. -/
def userCtx : Ctx :=
  { Ctx.reset with st := .run, facc := BitVec.allOnes 128, parts := 1, ranges := [(0, 0x87), (2, 0x900000000000)] }

/-- Hart 0 of die 0, on an M-class core. -/
def user (x : Hart) : State :=
  { State.reset with cur := 0, harts := [(0, x)], modules := [(0, { Module.reset with ctxs := [(1, userCtx)] })] }

/-! Witnesses: the encoding and the step. -/

theorem test_encoding_witness :
    wellFormed (.addi 5 3 0x1FFC) = true ∧ encode (.addi 5 3 0x1FFC) = some (4, 0xFFE0CA08) ∧
    decode [0x08, 0xCA, 0xE0, 0xFF, 7] = .ok (.addi 5 3 0x1FFC, [7]) := by
  decide +kernel

theorem fetch_ok {α : Type} {r : Fetch α} (p : α → Bool)
    (h : (match r with | .ok _ a => p a | _ => false) = true) : ∃ f a, r = .ok f a ∧ p a = true := by
  cases r <;> simp_all

theorem test_step_scalar_witness :
    (let s := State.reset.withFetchWord 32 0xFFE0CA08
     s.Issues ∧ (∃ f a, fetchInsn s s.cur s.me.pc = .ok f a ∧ decide (a = (0xFFE0CA08, 4)) = true) ∧
     decodeWord 0xFFE0CA08 = .ok (.addi 5 3 0x1FFC) ∧ startsConvoy 0xFFE0CA08 = false) := by
  refine ⟨?_, fetch_ok _ (by decide +kernel), by decide +kernel, by decide +kernel⟩
  unfold State.Issues
  decide +kernel

/-- ADDI g5, g0, -4 as the first instruction after it has been placed. -/
theorem test_step_addi :
    after (step (State.reset.withFetchWord 32 0xFFE00A08)) (fun t => t.g 5 == -4 && t.me.pc == 4) = true := by
  decide +kernel

/-- VADD v3, v2, v1 with C = 1, alone. -/
def vaddWord : Nat := fieldAt 1 1 + fieldAt 0x42 2 + fieldAt 3 9 + fieldAt 2 16 + fieldAt 1 23

theorem test_step_convoy_witness :
    (let s := State.reset.withFetchWord 32 vaddWord
     let w : Word := BitVec.ofNat 64 vaddWord
     s.Issues ∧ (∃ f a, fetchInsn s s.cur s.me.pc = .ok f a ∧ decide (a = (w, 4)) = true) ∧
     decodeWord w = .ok (.vadd true 0 1 2 3) ∧ startsConvoy w = true ∧ (s.me.nb = [] ∧ s.me.ready = none ∧
       (s.hart (sibling s.cur)).convoy = none ∧ (s.hart (sibling s.cur)).ready = none) ∧
     ∃ f a, fetchConvoy s.cur (2 ^ 57) (s.me.pc + 4) [slotAt s.me.pc (w, 4)] (s.leftEntry s.cur) = .ok f a ∧
       decide (a = [slotAt s.me.pc (w, 4)]) = true) := by
  refine ⟨?_, fetch_ok _ (by decide +kernel), by decide +kernel, by decide +kernel, by decide +kernel, fetch_ok _ (by decide +kernel)⟩
  unfold State.Issues
  decide +kernel

/-! Scalar arithmetic (R116 to R120, R67): boundary operands, results by hand. -/

/-- What i leaves in g3 with g1 and g2 given. -/
def g3Of (i : Instr) (a b : Word) : Option Word :=
  match exec i (ctl [(1, a), (2, b)]) with
  | .next t => some (t.g 3)
  | _ => none

/-- 2^63. -/
def minWord : Word := 0x8000000000000000

theorem test_register_arithmetic :
    g3Of (.add 3 1 2) minWord minWord = some 0 ∧ g3Of (.sub 3 1 2) 0 1 = some (-1) ∧
    g3Of (.and 3 1 2) 0xF0 0x3C = some 0x30 ∧ g3Of (.or 3 1 2) 0xF0 0x3C = some 0xFC ∧ g3Of (.xor 3 1 2) 0xF0 0x3C = some 0xCC ∧
    g3Of (.sll 3 1 2) 1 127 = some minWord ∧ g3Of (.srl 3 1 2) minWord 63 = some 1 ∧ g3Of (.sra 3 1 2) minWord 63 = some (-1) ∧
    g3Of (.slt 3 1 2) (-1) 0 = some 1 ∧ g3Of (.sltu 3 1 2) (-1) 0 = some 0 ∧
    g3Of (.mul 3 1 2) minWord 2 = some 0 ∧ g3Of (.mulh 3 1 2) (-1) 1 = some (-1) ∧ g3Of (.mulhu 3 1 2) (-1) 2 = some 1 ∧
    g3Of (.min 3 1 2) (-1) 1 = some (-1) ∧ g3Of (.max 3 1 2) (-1) 1 = some 1 ∧
    g3Of (.minu 3 1 2) (-1) 1 = some 1 ∧ g3Of (.maxu 3 1 2) (-1) 1 = some (-1) ∧
    g3Of (.clz 3 1) 1 0 = some 63 ∧ g3Of (.ctz 3 1) 0 0 = some 64 ∧ g3Of (.popc 3 1) (-1) 0 = some 64 := by
  decide +kernel

theorem test_division :
    g3Of (.div 3 1 2) (-7) 2 = some (-3) ∧ g3Of (.rem 3 1 2) (-7) 2 = some (-1) ∧
    g3Of (.div 3 1 2) minWord (-1) = some minWord ∧ g3Of (.rem 3 1 2) minWord (-1) = some 0 ∧
    g3Of (.div 3 1 2) 5 0 = some (-1) ∧ g3Of (.rem 3 1 2) 5 0 = some 5 ∧
    g3Of (.divu 3 1 2) (-1) 2 = some 0x7FFFFFFFFFFFFFFF ∧ g3Of (.divu 3 1 2) 5 0 = some (-1) ∧
    g3Of (.remu 3 1 2) (-1) 2 = some 1 ∧ g3Of (.remu 3 1 2) 5 0 = some 5 := by
  decide +kernel

theorem test_immediates :
    g3Of (.addi 3 1 0x1FFF) 0 0 = some (-1) ∧ g3Of (.andi 3 1 0x1FFC) 0xFF 0 = some 0xFC ∧ g3Of (.ori 3 1 0x1000) 1 0 = some (-4095) ∧
    g3Of (.xori 3 1 0x1FFF) 5 0 = some (-6) ∧ g3Of (.slti 3 1 0x1FFF) (-2) 0 = some 1 ∧ g3Of (.sltiu 3 1 0x1FFF) 5 0 = some 1 ∧
    g3Of (.slli 3 1 63) 3 0 = some minWord ∧ g3Of (.srli 3 1 63) minWord 0 = some 1 ∧ g3Of (.srai 3 1 62) minWord 0 = some (-2) ∧
    g3Of (.lui 3 0x20000) 0 0 = some (-0x40000000) ∧ g3Of (.auipc 3 1) 0 0 = some 0x3000 := by
  decide +kernel

theorem test_compressed_arithmetic :
    g3Of (.cAddi 3 0x1F) 0 0 = some (-1) ∧ g3Of (.cLi 3 0x10) 0 0 = some (-16) ∧ g3Of (.cMv 3 1) 9 0 = some 9 ∧
    g3Of (.cAdd 3 1) 9 0 = some 9 ∧ g3Of (.cSlli 3 31) 0 0 = some 0 ∧
    after (exec (.cSlli 1 31) (ctl [(1, 1)])) (fun t => t.g 1 == 0x80000000 && t.me.pc == 0x1002) = true := by
  decide +kernel

theorem test_g0_keeps_zero :
    after (exec (.add 0 1 1) (ctl [(1, 7)])) (fun t => t.g 0 == 0 && t.g 1 == 7 && t.me.pc == 0x1004 && t.me.c.instret == 1) = true := by
  decide +kernel

theorem test_scalar_arithmetic_witness :
    oprValue (.sra 3 1 2) ((ctl [(1, minWord), (2, 63)]).g 1) ((ctl [(1, minWord), (2, 63)]).g 2) = some (-1) ∧
    oprValue (.popc 3 1) (-1) 0 = some 64 ∧ immValue (.addi 3 1 0x1000) (ctl []) = some (3, -4096, 4) ∧
    immValue (.cSlli 3 31) (ctl []) = some (3, 0, 2) := by
  decide +kernel

/-! Control (R121, R122, R125 to R129). -/

theorem test_jumps :
    after (exec (.jal 3 0x20000) (ctl [])) (fun t => t.g 3 == 0x1004 && t.me.pc == -0x3F000) = true ∧
    after (exec (.jalr 3 1 0x1FFF) (ctl [(1, 0x2000)])) (fun t => t.g 3 == 0x1004 && t.me.pc == 0x1FFE) = true ∧
    after (exec (.jalr 1 1 0) (ctl [(1, 0x2000)])) (fun t => t.g 1 == 0x1004 && t.me.pc == 0x2000) = true ∧
    after (exec (.cJ 0x200) (ctl [])) (fun t => t.me.pc == 0xC00) = true ∧
    after (exec (.cJr 1) (ctl [(1, 0x2001)])) (fun t => t.me.pc == 0x2000) = true := by
  decide +kernel

theorem test_branches :
    after (exec (.beq 1 2 0x1000) (ctl [])) (fun t => t.me.pc == -0x1000) = true ∧
    after (exec (.bne 1 2 2) (ctl [])) (fun t => t.me.pc == 0x1004) = true ∧
    after (exec (.blt 1 2 2) (ctl [(1, -1)])) (fun t => t.me.pc == 0x1004) = true ∧
    after (exec (.bge 1 2 4) (ctl [])) (fun t => t.me.pc == 0x1008) = true ∧
    after (exec (.bltu 1 2 4) (ctl [(1, -1)])) (fun t => t.me.pc == 0x1004) = true ∧
    after (exec (.bgeu 1 2 4) (ctl [(1, -1)])) (fun t => t.me.pc == 0x1008) = true ∧
    after (exec (.cBeqz 0 0x40) (ctl [])) (fun t => t.me.pc == 0xF80) = true ∧
    after (exec (.cBnez 7 0x3F) (ctl [(10, 1)])) (fun t => t.me.pc == 0x107E) = true := by
  decide +kernel

theorem test_control_witness :
    jumpTarget (.jal 3 0x20000) (ctl []) = some (3, -0x3F000, 4) ∧ jumpTarget (.cJr 1) (ctl [(1, 0x2001)]) = some (0, 0x2000, 2) ∧
    (branchTest (.beq 1 2 0x1000) (ctl [])).isSome = true ∧ (branchTest (.cBnez 7 1) (ctl [])).isSome = true ∧
    (ctl []).me.c.preq = false := by
  decide +kernel

theorem test_nops :
    after (exec .cNop (ctl [])) (fun t => t.me.pc == 0x1002) = true ∧
    after (exec (.safe 5) (ctl [])) (fun t => t.me.pc == 0x1004) = true ∧
    after (exec (.cSafe 5) (ctl [])) (fun t => t.me.pc == 0x1002) = true := by
  decide +kernel

theorem test_trap :
    after (exec (.trap 0x1234) (user { userHart [] with c := { (userHart []).c with tvec := 0x2000 } })) (fun t =>
      t.me.pc == 0x2000 && t.me.c.cause == 15 && t.me.c.tval == 0x1234 && t.me.c.epc == 0x1000 && t.me.c.prv == 1 &&
      t.me.c.pp == 0 && t.me.c.instret == 0) = true := by
  decide +kernel

theorem test_privilege_witness :
    levelOf .sret = some 1 ∧ (user (userHart [])).me.c.prv.toNat < 1 ∧ encode .sret = some (4, 0x0100004C) ∧
    levelOf (.winRev 1) = some 1 ∧ featureOf (.winRev 1) = some 7 ∧ hasFeature (user (userHart [])) 0 7 = true ∧
    after (exec .sret (user (userHart []))) (fun t => t.me.c.cause == 14 && t.me.c.tval == 0x0100004C) = true ∧
    after (exec (.csrr 1 0x600) (user (userHart []))) (fun t => t.me.c.cause == 14) = true := by
  decide +kernel

/-- A hart at level S or M that returns to epc = 0x3000. -/
def returning (prv pp : BitVec 2) : State :=
  user { userHart [] with c := { (userHart []).c with prv := prv, pp := pp, epc := 0x3000, epos := 7 } }

theorem test_returns :
    (1 ≤ (returning 1 0).me.c.prv.toNat ∧ (returning 1 0).me.c.pp ≠ 3) ∧ (returning 3 1).me.c.prv = 3 ∧
    after (exec .sret (returning 1 0)) (fun t => t.me.pc == 0x3000 && t.me.c.prv == 0 && t.me.c.epos == 7) = true ∧
    after (exec .mret (returning 3 1)) (fun t => t.me.pc == 0x3000 && t.me.c.prv == 1 && t.me.c.pp == 0) = true ∧
    (1 ≤ (returning 1 3).me.c.prv.toNat ∧ (returning 1 3).me.c.pp = 3) ∧
    after (exec .sret (returning 1 3)) (fun t => t.me.c.cause == 14) = true := by
  decide +kernel

/-- An outstanding store. -/
def storeElt : Elt :=
  { id := 1, op := 0, e := 0, cls := 2, kind := .write, place := .issued, va := 0, ipa := 0, size := 4, key := some 0
    dpa := none, data := [1, 2, 3, 4], srcVa := 0, src := [], dst := 0, ew := 0, owner := 0, gen := 0, seenBy := [], logged := false }

/-- Control hart 0 with one store outstanding, in class 2. -/
def busy : State := { State.reset with harts := [(96, { ctlHart [] with pend := [storeElt], next := 2 })] }

theorem test_halt :
    ((ctl []).me.c.prv = 3 ∧ (ctl []).me.pend = [] ∧ (ctl []).me.seen = []) ∧
    after (exec .halt (ctl [])) (fun t => t.me.st == .halted && t.me.c.epc == 0x1004 && (t.md 0).chalt == 1) = true ∧
    (busy.me.c.prv = 3 ∧ busy.me.pend ≠ [] ∧ ∀ e ∈ busy.me.pend, e.cls < 16) ∧
    after (exec .halt busy) (fun t => t.me.hold.isSome && t.me.pc == 0x1000) = true := by
  decide +kernel

/-! CSRs and the vector length (R80 to R88, R130 to R134). -/

theorem test_csr_access :
    csrWord (ctl []) 0x205 = some 0 ∧ csrMask 0x205 = some (0, 2 ^ 57 - 2) ∧ csrMask 0x201 = some (0x1C, 3) ∧
    csrNew (.csrw 3 0x205 1) (ctl [(1, -1)]) = some (3, 0x205, -1) ∧
    after (exec (.csrr 3 0x201) (ctl [])) (fun t => t.g 3 == 24) = true ∧
    after (exec (.csrw 3 0x205 1) (ctl [(1, -1)])) (fun t => t.g 3 == 0 && t.me.c.tvec == 0x1FFFFFFFFFFFFFE) = true ∧
    after (exec (.csrw 3 0x201 1) (ctl [(1, 2)])) (fun t => t.g 3 == 24 && t.me.c.pp == 0) = true ∧
    after (exec (.csrs 1 0x206 1) (ctl [(1, 5)])) (fun t => t.g 1 == 0 && t.me.c.scratch == 5) = true ∧
    after (exec (.csrc 3 0x105 0) (ctl [])) (fun t => t.me.pc == 0x1004) = true ∧
    after (exec (.csrc 3 0x001 1) (user { userHart [(1, 3)] with c := { (userHart []).c with fflags := 31 } })) (fun t =>
      t.g 3 == 31 && t.me.c.fflags == 28) = true := by
  decide +kernel

theorem test_maxvl_write :
    (csrNew (.csrw 3 0x200 1) (ctl [(1, 5)]) = some (3, 0x200, 5) ∧ ((ctl []).hart (sibling 96)).convoy = none ∧
      1 ≤ (ctl []).me.c.prv.toNat) ∧
    after (exec (.csrw 3 0x200 1)
      { ctl [(1, 5)] with harts := [(96, { ctlHart [(1, 5)] with
          c := { Csrs.zero with prv := 3, vl := 128, vtype := 2 }
          f := { Files.zero with
            g := [(1, 5)], v := [(0, BitVec.allOnes 4096)], k := [(1, BitVec.allOnes 512)], t := [(640, BitVec.allOnes 4096)] } })] }) (fun t =>
      t.g 3 == 3 && (t.core 48).q == 1 && t.me.c.vl == 64 && t.me.v 0 == (BitVec.allOnes 2048).setWidth 4096 &&
        t.me.k 1 == (BitVec.allOnes 256).setWidth 512 && t.me.tile 5 0 == (BitVec.allOnes 2048).setWidth 4096) = true := by
  decide +kernel

theorem test_files_ok_witness : ∀ h, (((ctl [(1, 5)]).hart h)).FilesOk := by
  intro h
  by_cases hh : h = 96
  · subst hh; unfold Hart.FilesOk Files.Ok; decide +kernel
  · have : (ctl [(1, 5)]).hart h = Hart.idle := by
      simp [ctl, State.hart, mget, State.reset]; omega
    rw [this]; unfold Hart.FilesOk Files.Ok; decide +kernel

theorem test_vector_length :
    encode (.vsetvli 3 1 2) = some (4, 0x00104704) ∧ encode (.vsetvli 3 1 4) = some (4, 0x00204704) ∧
    after (exec (.vsetvli 3 1 2) (ctl [(1, 1000)])) (fun t => t.g 3 == 128 && t.me.c.vl == 128 && t.me.c.vtype == 2) = true ∧
    after (exec (.vsetvli 3 1 4) (ctl [(1, 1000)])) (fun t => t.me.c.cause == 1 && t.me.c.vl == 0) = true ∧
    after (exec (.vsetvl 0 1 2) (ctl [(1, 5), (2, 3)])) (fun t => t.me.c.vl == 5 && t.me.c.vtype == 3) = true ∧
    after (exec (.vsetvl 3 1 2) (ctl [(1, 5), (2, 64)])) (fun t => t.me.c.cause == 1) = true := by
  decide +kernel

theorem test_vtype_witness : vtypeGood 2 ∧ ¬ vtypeGood 4 ∧ vtypeGood 0x25 ∧ ¬ vtypeGood 0x22 ∧ ¬ vtypeGood 64 := by
  unfold vtypeGood; decide

/-! Accesses of memory (R241 to R249, R262 to R266). -/

/-- IPA 0x100 of shared SRAM of die 0, and of sync SRAM. -/
def sramIpa : Nat := 0x800000000100
/-- IPA 0x100 of sync SRAM of die 0. -/
def syncIpa : Nat := 0x900000000100

/-- A control hart with g1 = IPA 0x100 of shared SRAM, whose first 8 bytes are 0x80 to 0x87. -/
def atSram (g : Map Word) : State :=
  { ctl ((1, 0x800000000100) :: g) with
    mem := (List.range 8).map fun i => ⟨2 ^ 37 + 0x100 + i, BitVec.ofNat 8 (0x80 + i)⟩ }

/-- The facts of State.AtHome, computed: no walk is needed. -/
def homeB (s : State) (ipa : Nat) : Bool :=
  decide ((s.me.pend = [] ∧ s.me.seen = [] ∧ s.me.unacked = []) ∧ s.me.early = [] ∧ s.me.hold = none ∧
    mget false s.posting s.cur = false ∧ ipaHome ipa = hartDie s.cur ∧ ipaSpace ipa ≠ 13 ∧
    (inReset s (ipaHome ipa) = false ∧ s.raced = none) ∧
    (s.owner s.cur = 0 ∨ pagedSpace (ipaSpace ipa) = false ∨ (tlbHit s (s.agent s.cur) ipa).isSome = true))

theorem home_of {s : State} {ipa : Nat} (h : homeB s ipa = true) : s.Settled ipa ∧ s.AtHome ipa := by
  obtain ⟨h1, h2, h3, h4, h5, h6, h7, h8⟩ := of_decide_eq_true h
  exact ⟨h8, h1, h2, h3, h4, h5, h6, h7, State.Settled.walksClean h8⟩

/-- The facts of State.Sound, computed. -/
def soundB (s : State) (owner ipa key n : Nat) : Bool :=
  decide (s.collapsing (keyLine key) = false ∧ s.testing key n = false ∧ s.poisoned key n = false ∧
    (if s.spc key = .hbm then s.foreign key owner ipa = false else ∀ u ∈ unitsOf (tagUnit key) key n, s.tagOf u = owner))

theorem sound_of {s : State} {owner ipa key n : Nat} (h : soundB s owner ipa key n = true) : s.Sound owner ipa key n := by
  unfold State.Sound; exact of_decide_eq_true h

/-- The facts of State.AgentAt, computed. -/
def agentB (s : State) (a : Agent) (ipa n : Nat) (need : Need) (key : Nat) : Bool :=
  match (translate s a ipa need).2 with
  | .ok k _ =>
    decide (k = key ∧ (a.owner = 0 ∨ pagedSpace (ipaSpace ipa) = false ∨ (tlbHit s a ipa).isSome = true) ∧ ipaHome ipa = a.die ∧
      ipaSpace ipa ≠ 13 ∧ a.told = none ∧ (inReset s (ipaHome ipa) = false ∧ s.raced = none) ∧ soundB s a.owner ipa key n = true ∧
      s.holders (keyLine key) = [])
  | _ => false

theorem agent_of {s : State} {a : Agent} {ipa n : Nat} {need : Need} {key : Nat} (h : agentB s a ipa n need key = true) :
    s.AgentAt a ipa n need key := by
  unfold agentB at h
  split at h
  · rename_i k leaf hk
    obtain ⟨rfl, h2, h3, h4, h5, h6, h7, h8⟩ := of_decide_eq_true h
    exact ⟨⟨leaf, hk⟩, h2, h3, h4, h5, h6, sound_of h7, h8⟩
  · cases h

/-- The facts of State.ProgramAt, computed. -/
def programB (s : State) (x : Sequencer) (a : Agent) (va n align : Nat) (need : Need) (key : Nat) : Bool :=
  match seqAddr s x a va n align need false with
  | .ok ipa => agentB s a ipa n need key
  | .error _ => false

theorem program_of {s : State} {x : Sequencer} {a : Agent} {va n align : Nat} {need : Need} {key : Nat}
    (h : programB s x a va n align need key = true) : s.ProgramAt x a va n align need false key := by
  unfold programB at h
  split at h
  · rename_i ipa hi
    exact ⟨ipa, hi, agent_of h⟩
  · cases h

/-- The checks of State.Lane, computed. -/
def laneB (s : State) (va : Word) (n : Nat) (need : Need) (atom : Bool) (key : Nat) (leaf : Word) : Bool :=
  match hartCheck s s.cur va.toNat n n need atom with
  | .ok ipa =>
    decide (((translate s (s.agent s.cur) ipa need).2 = .ok key leaf ∧ s.holders (keyLine key) = []) ∧
      homeB s ipa = true ∧ soundB s (s.owner s.cur) ipa key n = true)
  | .error _ => false

theorem lane_of {s : State} {va : Word} {n : Nat} {need : Need} {atom : Bool} {key : Nat} {leaf : Word}
    (h : laneB s va n need atom key leaf = true) : s.Lane va n need atom key leaf := by
  unfold laneB at h
  split at h
  · rename_i ipa hc
    obtain ⟨⟨h1, h5⟩, h2, h4⟩ := of_decide_eq_true h
    exact ⟨ipa, hc, h1, (home_of h2).1, (home_of h2).2, sound_of h4, h5⟩
  · cases h

theorem test_access_witness :
    (let s := atSram []
     s.Reaches 0x800000000100 8 needR false sramIpa (2 ^ 37 + 0x100) ∧ s.Reaches 0x800000000100 8 needW false sramIpa (2 ^ 37 + 0x100) ∧
     s.Reaches 0x800000000100 8 needRW true sramIpa (2 ^ 37 + 0x100) ∧ s.AtHome sramIpa ∧ s.Sound (s.owner s.cur) sramIpa (2 ^ 37 + 0x100) 8) :=
  ⟨⟨by decide +kernel, 0, by decide +kernel⟩, ⟨by decide +kernel, 0, by decide +kernel⟩, ⟨by decide +kernel, 0, by decide +kernel⟩,
    (home_of (by decide +kernel)).2, sound_of (by decide +kernel)⟩

theorem test_access_forms :
    loadForm (.ld 3 1 15 0) (atSram []) = some (3, 0x800000000100, 8, false, 15, 4) ∧
    storeForm (.cSd 3 31) (ctl [(2, 8)]) = some (0, 0x100, 8, 0, 2) ∧
    amoForm (.amoW 3 1 2 9 4) (atSram [(2, -1), (3, 5)]) = some (3, 0x800000000100, 0xFFFFFFFF, 5, 9, 32, 4) ∧
    accessOf (.charr 3 1 2 0) (atSram []) = some (0x800000000100, 16) ∧ accessOf (.lb 3 1 0 0x1FF) (atSram []) = some (0x8000000000FF, 1) := by
  exact ⟨rfl, rfl, rfl, rfl, rfl⟩

theorem test_loads :
    after (exec (.lb 3 1 0 0) (atSram [])) (fun t => t.g 3 == -128) = true ∧
    after (exec (.lh 3 1 0 1) (atSram [])) (fun t => t.g 3 == -31870) = true ∧
    after (exec (.lw 3 1 0 1) (atSram [])) (fun t => t.g 3 == 0xFFFFFFFF87868584) = true ∧
    after (exec (.ld 3 1 0 0) (atSram [])) (fun t => t.g 3 == 0x8786858483828180 && t.me.pc == 0x1004) = true ∧
    after (exec (.lbu 3 1 0 7) (atSram [])) (fun t => t.g 3 == 0x87) = true ∧
    after (exec (.lhu 3 1 0 3) (atSram [])) (fun t => t.g 3 == 0x8786) = true ∧
    after (exec (.lwu 1 1 0 0) (atSram [])) (fun t => t.g 1 == 0x83828180) = true ∧
    after (exec (.cLd 3 0) { atSram [] with harts := [(96, ctlHart [(2, 0x800000000100)])] }) (fun t =>
      t.g 3 == 0x8786858483828180 && t.me.pc == 0x1002) = true := by
  decide +kernel

theorem test_stores :
    after (exec (.sb 3 1 0 0x1FF) (atSram [(3, 0x1234)])) (fun t => t.mem.byte (2 ^ 37 + 0xFF) == 0x34 && t.mem.byte (2 ^ 37 + 0x100) == 0x80) = true ∧
    after (exec (.sh 3 1 0 0) (atSram [(3, 0x1234)])) (fun t => t.mem.bytes (2 ^ 37 + 0x100) 3 == [0x34, 0x12, 0x82]) = true ∧
    after (exec (.sw 3 1 0 1) (atSram [(3, -1)])) (fun t => t.mem.bytes (2 ^ 37 + 0x103) 5 == [0x83, 255, 255, 255, 255]) = true ∧
    after (exec (.sd 0 1 0 0) (atSram [])) (fun t => t.mem == [] && t.me.pc == 0x1004) = true ∧
    after (exec (.cSd 3 31) { ctl [] with harts := [(96, ctlHart [(2, 0x800000000000), (3, 7)])] }) (fun t =>
      t.mem == [⟨2 ^ 37 + 0xF8, 7⟩]) = true := by
  decide +kernel

/-- A store to die 1 of the module retires at once and stands outstanding. -/
theorem test_far_store :
    (let s := ctl [(1, 0x1800000000100), (3, 9)]
     s.Reaches 0x1800000000100 4 needW false 0x1800000000100 (2 ^ 40 + 2 ^ 37 + 0x100) ∧ s.me.pend = [] ∧
     ipaHome 0x1800000000100 ≠ hartDie s.cur ∧ s.WalksClean 0x1800000000100 ∧
     after (exec (.sw 3 1 5 0) s) (fun t => t.mem == [] && t.me.pc == 0x1004 &&
       t.me.pend.map (fun e => (e.key, e.data, e.cls)) == [(some (2 ^ 40 + 2 ^ 37 + 0x100), [9, 0, 0, 0], 5)]) = true) := by
  refine ⟨⟨by decide +kernel, 0, by decide +kernel⟩, by decide +kernel, by decide +kernel,
    State.Settled.walksClean (.inl (by decide +kernel)), by decide +kernel⟩

theorem test_access_checks :
    (accessOf (.lw 3 1 0 0) (ctl [(1, 2)]) = some (2, 4) ∧ (ctl [(1, 2)]).me.served = none) ∧
    after (exec (.lw 3 1 0 0) (ctl [(1, 2)])) (fun t => t.me.c.cause == 4 && t.me.c.tval == 2) = true ∧
    after (exec (.ld 3 1 0 0) (ctl [(1, 0x100000000000000)])) (fun t => t.me.c.cause == 5) = true ∧
    (let s := user (userHart [(1, 0x200000)])
     s.owner s.cur = 1 ∧
     (∀ j, j < 16 → rangeCovers (s.me.rng.getD (s.ctx (hartDie s.cur / 4) (s.owner s.cur)).ranges) j 0x200000 = false) ∧
     after (exec (.lw 3 1 0 0) s) (fun t => t.me.c.cause == 5 && t.me.c.tval == 0x200000) = true) := by
  decide +kernel

/-- AMO on shared SRAM: old value to g3, new bytes. -/
def amoOf (op : BitVec 4) (a d : Word) : Option (Word × List Byte) :=
  match exec (.amoW 3 1 2 op 0) (atSram [(2, a), (3, d)]) with
  | .next t => some (t.g 3, t.mem.bytes (2 ^ 37 + 0x100) 4)
  | _ => none

theorem test_atomics_bitwise :
    amoOf 0 0x7C7D7E80 0 = some (0xFFFFFFFF83828180, [0, 0, 0, 0]) ∧ amoOf 1 0xFF 0 = some (0xFFFFFFFF83828180, [0x80, 0, 0, 0]) ∧
    amoOf 2 0xFF 0 = some (0xFFFFFFFF83828180, [0xFF, 0x81, 0x82, 0x83]) ∧
    amoOf 3 0x83828180 0 = some (0xFFFFFFFF83828180, [0, 0, 0, 0]) ∧ amoOf 4 1 0 = some (0xFFFFFFFF83828180, [0x80, 0x81, 0x82, 0x83]) := by
  decide +kernel

theorem test_atomics_compare :
    amoOf 5 1 0 = some (0xFFFFFFFF83828180, [1, 0, 0, 0]) ∧ amoOf 6 1 0 = some (0xFFFFFFFF83828180, [1, 0, 0, 0]) ∧
    amoOf 7 1 0 = some (0xFFFFFFFF83828180, [0x80, 0x81, 0x82, 0x83]) ∧ amoOf 8 5 0 = some (0xFFFFFFFF83828180, [5, 0, 0, 0]) ∧
    amoOf 9 5 0x83828180 = some (0xFFFFFFFF83828180, [5, 0, 0, 0]) ∧
    amoOf 9 5 0x83828181 = some (0xFFFFFFFF83828180, [0x80, 0x81, 0x82, 0x83]) ∧
    amoOf 10 0x80000000 0 = some (0xFFFFFFFF83828180, [0xFF, 0xFF, 0xFF, 0xFF]) := by
  decide +kernel

theorem test_atomic_word :
    after (exec (.amoD 3 1 2 0 0) (atSram [(2, 0x7877767574737280)])) (fun t =>
      t.g 3 == 0x8786858483828180 && t.mem.bytes (2 ^ 37 + 0x100) 8 == [0, 0xF4, 0xF5, 0xF7, 0xF9, 0xFB, 0xFD, 0xFF]) = true ∧
    after (exec (.amoW 3 1 2 11 0) { atSram [(2, 0x3F800000)] with mem := [⟨2 ^ 37 + 0x102, 0x80⟩, ⟨2 ^ 37 + 0x103, 0x3F⟩] }) (fun t =>
      t.g 3 == 0x3F800000 && t.mem == [⟨2 ^ 37 + 0x103, 0x40⟩]) = true := by
  decide +kernel

/-! Synchronisation (R275 to R287). -/

/-- A control hart with g1 = IPA 0x100 of sync SRAM. -/
def atSync (g : Map Word) (full : Bool) (bytes : List Byte) : State :=
  { ctl ((1, 0x900000000100) :: g) with
    full := mset false [] (2 ^ 38 + 0x100) full, mem := Memory.setBytes [] (2 ^ 38 + 0x100) bytes }

theorem test_sync_witness :
    (let s := atSync [(2, 1)] true [5, 0, 1, 0, 1]
     let key := 2 ^ 38 + 0x100
     s.SyncReady 0x900000000100 4 needRW syncIpa key ∧ s.SyncReady 0x900000000100 4 needR syncIpa key ∧
     s.SyncReady 0x900000000100 4 needW syncIpa key ∧ s.SyncReady 0x900000000100 16 needW syncIpa key ∧
     s.SyncReady 0x900000000100 16 needRW syncIpa key ∧ s.SyncReady 0x900000000100 16 needR syncIpa key) := by
  refine ⟨⟨⟨by decide +kernel, 0, by decide +kernel⟩, ?_⟩, ⟨⟨by decide +kernel, 0, by decide +kernel⟩, ?_⟩,
    ⟨⟨by decide +kernel, 0, by decide +kernel⟩, ?_⟩, ⟨⟨by decide +kernel, 0, by decide +kernel⟩, ?_⟩,
    ⟨⟨by decide +kernel, 0, by decide +kernel⟩, ?_⟩, ⟨⟨by decide +kernel, 0, by decide +kernel⟩, ?_⟩⟩
  all_goals
    exact ⟨(home_of (by decide +kernel)).2, sound_of (by decide +kernel), by decide +kernel⟩

theorem test_tagged :
    ipaSpace syncIpa = 9 ∧ taggedForm (.ldf 3 1 2 0) (atSync [] true []) = some (3, 0x900000000100, 2, 0) ∧
    (atSync [] true []).isFull (2 ^ 38 + 0x100) = true ∧
    after (exec (.ldf 3 1 0 0) (atSync [] true [1, 0, 0, 0x80])) (fun t =>
      t.g 3 == 0xFFFFFFFF80000001 && t.full == [] && t.me.pc == 0x1004) = true ∧
    after (exec (.ldfk 3 1 0 0) (atSync [] true [7])) (fun t => t.g 3 == 7 && t.isFull (2 ^ 38 + 0x100)) = true ∧
    after (exec (.ste 3 1 0 0) (atSync [(3, 0x123456789)] false [])) (fun t =>
      t.isFull (2 ^ 38 + 0x100) && t.mem.bytes (2 ^ 38 + 0x100) 5 == [0x89, 0x67, 0x45, 0x23, 0]) = true ∧
    after (exec (.stf 3 1 0 0) (atSync [(3, 9)] true [])) (fun t => t.isFull (2 ^ 38 + 0x100) && t.mem == [⟨2 ^ 38 + 0x100, 9⟩]) = true := by
  decide +kernel

theorem test_tagged_waits :
    after (exec (.ldf 3 1 0 0) (atSync [] false [7])) (fun t => t.me.st == .park && t.g 3 == 0 && t.full == [] &&
      (t.die 0).recs.map (fun q => (q.key, q.hart, q.kind)) == [(2 ^ 38 + 0x100, 96, 0)]) = true ∧
    after (exec (.ldfk 3 1 0 0) (atSync [] false [7])) (fun t => t.me.st == .park) = true ∧
    after (exec (.ste 3 1 0 0) (atSync [(3, 1)] true [7])) (fun t => t.me.st == .park && t.mem == [⟨2 ^ 38 + 0x100, 7⟩]) = true := by
  decide +kernel

theorem test_chambers :
    after (exec (.chinit 1 2 0) (atSync [(2, 65535)] false [1, 2, 3, 4, 1])) (fun t => chamberAt t (2 ^ 38 + 0x100) == 0xFFFF0000) = true ∧
    after (exec (.chinit 1 2 0) (atSync [(2, 65536)] false [1])) (fun t => t.me.c.cause == 3 && t.mem == [⟨2 ^ 38 + 0x100, 1⟩]) = true ∧
    after (exec (.chinit 1 0 0) (atSync [] false [1])) (fun t => t.me.c.cause == 3) = true ∧
    encode (.chinit 1 0 0) = some (4, 0x000040C0) ∧
    after (exec (.charr 3 1 2 0) (atSync [(2, 2)] false [1, 0, 3, 0, 1])) (fun t => t.g 3 == 1 && chamberAt t (2 ^ 38 + 0x100) == 0x30000) = true ∧
    after (exec (.charr 3 1 2 0) (atSync [(2, 1)] false [1, 0, 3, 0, 1])) (fun t => t.g 3 == 1 && chamberAt t (2 ^ 38 + 0x100) == 0x100030002) = true ∧
    after (exec (.chwait 1 2 0) (atSync [] false [1, 0, 3, 0, 1])) (fun t => t.me.pc == 0x1004 && t.me.st == .run) = true ∧
    after (exec (.chwait 1 2 0) (atSync [(2, 1)] false [1, 0, 3, 0, 1])) (fun t => t.me.pc == 0x1000 && t.me.st == .park &&
      (t.die 0).chRecs.map (fun q => (q.key, q.hart, q.phase)) == [(2 ^ 38 + 0x100, 96, true)]) = true := by
  decide +kernel

theorem test_charm :
    after (exec (.charm 1 2 0) (atSync [] false [1, 0, 3, 0, 0x11])) (fun t => chamberAt t (2 ^ 38 + 0x100) == 0x100030001) = true ∧
    (let s := atSync [(2, 0x900000000202)] false [1, 0, 3, 0, 1]
     hasFeature s s.cur 10 = true ∧ issueCheck s (s.agent s.cur) s.me.c.prv 0x900000000200 32 32 needR false = .ok 0x900000000200 ∧
     after (exec (.charm 1 2 0) s) (fun t =>
       chamberAt t (2 ^ 38 + 0x100) / 2 ^ 64 == 0x900000000200 && chamberAt t (2 ^ 38 + 0x100) % 2 ^ 64 == 0x1900030001) = true) := by
  decide +kernel

theorem test_fence :
    after (exec (.fence 0xFFFF 0) (ctl [])) (fun t => t.me.pc == 0x1004) = true ∧
    after (exec (.fence 0xFFFB 5) busy) (fun t => t.me.pc == 0x1004) = true ∧
    (∃ e ∈ busy.me.pend, (4#16).getLsbD e.cls = true) ∧
    after (exec (.fence 4 0) busy) (fun t => t.me.pc == 0x1000 && t.me.hold.isSome) = true := by
  decide +kernel

/-- A hart of die 0 has written a line of die 1 in class 2, and that die's replicas of it on these dies are still to acknowledge. -/
def collapsingAt (ds : List (Nat × Bool)) : State :=
  { State.reset with
    collapses := [⟨6, 2 ^ 33, ds⟩], harts := [(96, { ctlHart [] with seen := [⟨6, 2, true, false, false⟩] })] }

/-- R228, R240 (message passing, row 5): a FENCE at die scope waits for the copies of its own die, one at module scope for all. -/
theorem test_fence_scopes :
    after (exec (.fence 4 3) (collapsingAt [(0, false), (2, false)])) (fun t => t.me.hold.isSome) = true ∧
    after (exec (.fence 4 3) (collapsingAt [(0, true), (2, false)])) (fun t => t.me.pc == 0x1004) = true ∧
    after (exec (.fence 4 4) (collapsingAt [(0, true), (2, false)])) (fun t => t.me.hold.isSome) = true := by
  decide +kernel

/-- A hart with class 3 marked failed at VA 0x5000 and class 4 timed out at 0x6000. -/
def marked : State := { State.reset with harts := [(96, { ctlHart [] with failed := [(3, some 0x5000)], timedOut := [(3, some 0x6000), (4, some 0x7000)] })] }

theorem test_failed_marks :
    (mget none marked.me.failed 3 = some 0x5000 ∧ mwf none 0 marked.me.failed = true ∧ marked.me.pend = [] ∧ marked.me.seen = [] ∧
      mget none marked.me.failed 4 = none ∧ mget none marked.me.timedOut 4 = some 0x7000) ∧
    after (exec (.fence 8 0) marked) (fun t => t.me.c.cause == 7 && t.me.c.tval == 0x5000 && t.me.failed == []) = true ∧
    after (exec (.feni 3 0xFFFF) marked) (fun t => t.me.c.cause == 7 && t.me.failed == [] && t.me.feni == 0) = true ∧
    after (exec (.ccwaitAll 3) marked) (fun t => t.me.c.cause == 7 && t.me.timedOut.length == 2) = true ∧
    after (exec (.cCcwait 4) marked) (fun t => t.me.c.cause == 9 && t.me.c.tval == 0x7000 && t.me.timedOut.length == 1) = true := by
  decide +kernel

/-- A hart with this many incomplete fence tokens, the last of number 8. -/
def withTokens (n : Nat) (g : Map Word) : State :=
  { State.reset with harts := [(96, { ctlHart g with feni := 8, tokens := (List.range n).map fun i => (9 - n + i, [1]) })] }

theorem test_fence_tokens :
    after (exec (.feni 3 0xFFFF) (ctl [])) (fun t => t.g 3 == 1 && t.me.feni == 1 && t.me.tokens == []) = true ∧
    (withTokens 7 []).me.tokens.length < 8 ∧ after (exec (.feni 3 0) (withTokens 7 [])) (fun t => t.g 3 == 9) = true ∧
    8 ≤ (withTokens 8 []).me.tokens.length ∧ after (exec (.feni 3 0) (withTokens 8 [])) (fun t => t.me.hold.isSome && t.g 3 == 0) = true ∧
    after (exec (.fenw 1) (withTokens 1 [(1, 9)])) (fun t => t.me.c.cause == 13 && t.me.c.tval == 9) = true ∧
    after (exec (.fenw 1) (withTokens 1 [(1, 7)])) (fun t => t.me.pc == 0x1004) = true ∧
    after (exec (.fenw 1) (withTokens 1 [(1, 8)])) (fun t => t.me.pc == 0x1000 && t.me.st == .park) = true ∧
    after (exec (.fenw 0) (withTokens 1 [])) (fun t => t.me.pc == 0x1004) = true := by
  decide +kernel

/-- A hart of die 0 with these of class 2: a store of its own die, one of die 1 on its way, one in the side log, one applied at die 1
whose collapse 6 is being collected, and stores of request 4 that die 1 has not answered. -/
def fencing : State :=
  { State.reset with
    collapses := [⟨6, 2 ^ 33, [(2, false)]⟩]
    harts := [(96, { ctlHart [] with
      pend := [storeElt, { storeElt with id := 2, ipa := 2 ^ 48, place := .sent }, { storeElt with id := 3, place := .sideLog }], next := 8
      seen := [⟨6, 2, true, false, false⟩], unacked := [⟨4, 2, [], 1, 0, false⟩] })] }

/-- The token waits for all but the first, and for none of them under a mask without class 2. -/
theorem test_fence_token_waits :
    after (exec (.feni 3 4) fencing) (fun t => t.g 3 == 1 &&
      t.me.tokens.map (fun p => (p.1, [2, 4, 6, 13, 9].map fun n => p.2.contains n)) == [(1, [false, true, true, true, true])]) = true ∧
    after (exec (.feni 3 0xFFFB) fencing) (fun t => t.me.tokens == []) = true := by
  decide +kernel

/-! Counters and meters (R366, R374). -/

/-- Counter 2 at 5, and one element of non-blocking instruction 7 outstanding in class 2. -/
def counting (g : Map Word) : State :=
  { State.reset with harts := [(96, { ctlHart g with cc := [(2, 5)], pend := [{ storeElt with op := 7 }], next := 8 })] }

theorem test_counters :
    after (exec (.ccrd 3 2) (counting [])) (fun t => t.g 3 == 5) = true ∧
    after (exec (.ccset 2 1) (counting [(1, 0x100000007)])) (fun t => t.me.cc == [(2, 7)]) = true ∧
    after (exec (.ccwaitAll 1) (counting [])) (fun t => t.me.pc == 0x1004) = true ∧
    (∃ e ∈ (counting []).me.pend, e.cls = 2 ∧ e.op ≠ 0) ∧
    after (exec (.ccwaitAll 2) (counting [])) (fun t => t.me.st == .park && t.me.pc == 0x1000) = true ∧
    after (exec (.ccwaitGe 2 1) (counting [(1, 5)])) (fun t => t.me.pc == 0x1004) = true ∧
    after (exec (.ccwaitGe 2 1) (counting [(1, 6)])) (fun t => t.me.st == .park) = true ∧
    after (exec (.cCcwait 1) (counting [])) (fun t => t.me.pc == 0x1002) = true := by
  decide +kernel

/-- Every element of class 2 has been applied, and a write of one is still being collected. -/
def collecting : State :=
  { State.reset with harts := [(96, { ctlHart [] with nb := [⟨7, 2, 0, true, none, 0, [5]⟩] })] }

theorem test_counter_waits_for_collapse :
    ((∀ e ∈ collecting.me.pend, e.cls ≠ 2) ∧ ∃ o ∈ collecting.me.nb, o.cls = 2 ∧ o.colls ≠ []) ∧
    after (exec (.ccwaitAll 2) collecting) (fun t => t.me.st == .park) = true ∧
    after (exec (.ccwaitAll 3) collecting) (fun t => t.me.pc == 0x1004) = true := by
  decide +kernel

theorem test_meters :
    encode (.mtrrd 3 6) = some (4, 0x003006F8) ∧ isControl (user (userHart [])).cur = false ∧ isControl (ctl []).cur = true ∧
    after (exec (.mtrrd 3 6) (ctl [])) (fun t => t.me.c.cause == 1 && t.me.c.tval == 0x3006F8) = true ∧
    after (exec (.mtrrd 3 6) { user (userHart []) with
        dies := [(2, { Die.reset with pendM := [(14, 9)] })]
        modules := [(0, { Module.reset with ctxs := [(1, { userCtx with meters := [(6, 100)] })] })] }) (fun t => t.g 3 == 109) = true := by
  decide +kernel

/-! Tables (R343 to R360). -/

/-- A hart of owner 1 at level S. -/
def superHart (g : Map Word) : Hart := { userHart g with c := { (userHart g).c with prv := 1 } }

theorem test_range_named : rangeNamed (user (superHart [(1, 31)])) 31 15 1 ∧ ¬ rangeNamed (user (superHart [])) 47 15 2 ∧
    ¬ rangeNamed (user (superHart [])) 1024 0 1 := by
  unfold rangeNamed ownerNamed; decide +kernel

theorem test_range_registers :
    after (exec (.rngw 1 2 0) (user (superHart [(1, 31), (2, -1)]))) (fun t =>
      rangeWord (t.ctx 0 1).ranges 15 0 == 0x1FFFFFFFFE000E7 && t.me.pc == 0x1004) = true ∧
    after (exec (.rngw 1 2 2) (user (superHart [(1, 3), (2, -1)]))) (fun t => rangeWord (t.ctx 0 1).ranges 3 2 == 0xFFFFFFFFE00000) = true ∧
    after (exec (.rngr 3 0 2) (user (superHart []))) (fun t => t.g 3 == 0x900000000000) = true ∧
    after (exec (.rngw 1 2 0) (user (superHart [(1, 1024)]))) (fun t => t.me.c.cause == 3 && t.me.c.tval == (encR 0 2 1 0 0x38).setWidth 64) = true := by
  decide +kernel

theorem test_table_values_witness :
    regionGood 1 0x10000 ∧ ¬ regionGood 1 0x300 ∧ ¬ regionGood 0 0x1400 ∧ regionGood 0 (0x200000 + 21 * 2 ^ 8) ∧
    interleaveGood Die.reset 0 0 0xFF ∧ ¬ interleaveGood Die.reset 0 0 0x7F ∧ interleaveGood Die.reset 0 1 (7 * 2 ^ 8) ∧
    ¬ interleaveGood Die.reset 0 1 (8 * 2 ^ 8) := by
  unfold regionGood interleaveGood; decide +kernel

theorem test_tables_refuse :
    after (exec (.rrtw 1 2 1) (ctl [(1, 256), (2, 0x10000)])) (fun t => t.me.c.cause == 3) = true ∧
    after (exec (.rrtw 1 2 1) (ctl [(1, 255), (2, 0x300)])) (fun t => t.me.c.cause == 3) = true ∧
    after (exec (.iltw 1 2 0) (ctl [(1, 32), (2, 0xFF)])) (fun t => t.me.c.cause == 3) = true ∧
    after (exec (.iltw 1 2 0) (ctl [(1, 0), (2, 0x7F)])) (fun t => t.me.c.cause == 3) = true ∧
    after (exec (.ptinv 1 2) (ctl [(2, 0x4100)])) (fun t => t.me.c.cause == 3) = true ∧
    after (exec (.ptinv 1 2) (ctl [(2, 0x40)])) (fun t => t.me.c.cause == 3) = true := by
  decide +kernel

theorem test_region_write :
    after (exec (.rrtw 1 2 1) (ctl [(1, 255), (2, 0x50000 + 2 * 2 ^ 8 + 1 * 2 ^ 6)])) (fun t =>
      let r := mget Region.reset (t.md 0).regions 255
      r.thresh == 5 && r.maxdeg == 2 && r.mindeg == 1 && r.deg == 1 && r.gen == 1 && t.me.pc == 0x1004) = true ∧
    after (exec (.rrtw 1 2 0) (ctl [(1, 0), (2, 0x200000 + 21 * 2 ^ 8 + 1)])) (fun t =>
      let r := mget Region.reset (t.md 0).regions 0
      r.base == 0x200000 && r.lsize == 21 && r.en && r.gen == 1) = true := by
  decide +kernel

theorem test_interleave_write :
    after (exec (.iltw 1 2 0) (ctl [(1, 31), (2, 0xFF)])) (fun t =>
      (t.die 3).mask 7 == 0xFF && mget 0 (t.die 3).igen 7 == 1 && (t.die 3).base 7 == 7) = true ∧
    after (exec (.iltw 1 2 1) (ctl [(1, 0), (2, 3 * 2 ^ 8)])) (fun t => (t.die 0).base 0 == 3 && (t.die 0).mask 0 == 2 ^ 64 - 1) = true := by
  decide +kernel

/-- A cached 4 KiB page of owner 1 at IPA 0x5000 of die 0. -/
def cached : TlbEnt := ⟨0, 63, 1, 0, 0x5000, 0x1000, 0x119⟩

theorem test_ptinv :
    (ownerNamed (ctl []) 1 1 ∧ invalidated 0x5FFF 0x100 0x5000 0x1000 ∧ cached.hits 1 0x5000 0x1000) ∧
    after (exec (.ptinv 1 2) { ctl [(1, 0x5FFF), (2, 0x100)] with tlb := [cached, { cached with owner := 2 }] }) (fun t =>
      t.tlb == [{ cached with owner := 2 }] && t.me.pc == 0x1004) = true ∧
    after (exec (.ptinv 1 2) { ctl [(1, 0x6000), (2, 0x100)] with tlb := [cached] }) (fun t => t.tlb == [cached]) = true ∧
    after (exec (.ptinv 1 2) { ctl [(1, 0x9000), (2, 0x8100)] with tlb := [cached] }) (fun t => t.tlb == []) = true := by
  unfold ownerNamed invalidated TlbEnt.hits; decide +kernel

/-- A control hart with g1 = shared SRAM of die 4, in module 1, and g2 = 2 MiB; entry 0 is open. -/
def windowed (ws : Map Window) (g : Map Word) : State :=
  { ctl ([(1, 0x4800000000000), (2, 0x200000)] ++ g) with dies := [(0, { Die.reset with windows := ws })] }

/-- An open window of owner 0 over 2 MiB of shared SRAM of die 4. -/
def openWindow : Window := { isOpen := true, seq := 5, owner := 0, base := 0x4800000000000, len := 0x200000, closing := none }

theorem test_window_open :
    (let s := windowed [(0, openWindow)] []
     hasFeature s s.cur 7 = true ∧ xlateVa s (s.agent s.cur) (s.g 1).toNat needR = .ok 0x4800000000000 ∧
     ipaHome 0x4800000000000 / 4 ≠ s.cur / 512 ∧ (s.g 1).toNat + (s.g 2).toNat ≤ rangeEnd s (s.g 1).toNat ∧
     after (exec (.winOpen 3 1 2) s) (fun t => t.g 3 == 65 && (mget Window.closed (t.die 0).windows 1).isOpen &&
       mget Window.closed (t.die 0).windows 0 == openWindow) = true) ∧
    after (exec (.winOpen 3 1 2) (windowed ((List.range 64).map fun e => (e, openWindow)) [])) (fun t => t.g 3 == -1) = true := by
  decide +kernel

theorem test_window_close :
    handleNames (windowed [(0, openWindow)] [(3, 320)]) 320 0 openWindow ∧
    after (exec (.winRev 3) (windowed [(0, openWindow)] [(3, 320)])) (fun t =>
      !(mget Window.closed (t.die 0).windows 0).isOpen && t.me.pc == 0x1004) = true ∧
    after (exec (.winSync 3) { windowed [(0, openWindow)] [(3, 320)] with
      winLines := [(winKey 0 0x4800000000080, some ⟨0, 0, 0x4800000000080, [1], []⟩)] }) (fun t =>
        (mget Window.closed (t.die 0).windows 0).isOpen && t.winLines == []) = true ∧
    after (exec (.winRev 3) (windowed [(0, openWindow)] [(3, 321)])) (fun t => (t.die 0).windows == [(0, openWindow)]) = true := by
  unfold handleNames; decide +kernel

/-! Nodes (R295 to R303). -/

/-- A descriptor's fields. -/
def aDesc : Desc :=
  { va := 0, entry := 0x2000, strict := false, preds := 0, prio := 3, width := 1, cls := 2, args := [0, 0, 0, 0], succ := 0, nsucc := 0
    opd0 := 0, opd0M := 0 }

/-- Node 1 of launch 1, its one rank on hart 0. -/
def aNode : Node := { id := 1, owner := 1, launch := 1, d := aDesc, cls := 0, aff := none, ranks := [(0, .hart 0)], rel := none, due := none }

/-- Launch 1 with live nodes. -/
def aLaunch (live : Nat) : Launch :=
  { id := 1, owner := 1, slot := 0, seq := 0, cap := 7, nva := 0, nval := 0, live, status := 0, roots := 0, count := 0, next := 0
    parsing := false, told := none, rng := none }

/-- The Basin entry of a ready descriptor. -/
def anEntry (id : Nat) : Entry := { id, owner := 1, launch := 1, d := aDesc, aff := none, node := none, at_ := [0, 0, 0, 0], order := 5 }

/-- Hart 0 runs node 1; g1 = 0 is the VA of a descriptor in sync SRAM whose bytes from 8 on are given. -/
def dispatched (bs : List Byte) (basin : List Entry) (live : Nat) : State :=
  { user { userHart [] with node := some 1 } with
    modules := [(0, { Module.reset with
      ctxs := [(1, { userCtx with slots := [0] })], nodes := [aNode], launches := [aLaunch live], basin })]
    dies := [(0, { Die.reset with pOwner := 1, pState := 1 })]
    owners := (List.range 32).map fun i => (2 ^ 38 + 4 * i, 1)
    mem := Memory.setBytes [] (2 ^ 38 + 8) bs }

theorem test_spawn_witness :
    (let s := dispatched [2] [] 1
     s.Reaches (s.g 1) 128 needR false 0x900000000000 (2 ^ 38) ∧ s.AtHome 0x900000000000 ∧
     s.Sound (s.owner s.cur) 0x900000000000 (2 ^ 38) 80 ∧ isControl s.cur = false ∧ hasFeature s s.cur 9 = true) :=
  ⟨⟨by decide +kernel, 0, by decide +kernel⟩, (home_of (by decide +kernel)).2, sound_of (by decide +kernel), by decide +kernel,
    by decide +kernel⟩

/-- n entries in the Basin, and k of owner 1 in the spill. -/
def crowded (n k : Nat) : State :=
  let s := dispatched [2] [] 1
  { s with modules := [(0, { s.md 0 with basin := List.replicate n (anEntry 9), spilled := List.replicate k (anEntry 9) })] }

theorem length_filter_replicate {α : Type} (p : α → Bool) (a : α) (n : Nat) (h : p a = true) :
    ((List.replicate n a).filter p).length = n := by
  simp [h]

theorem test_spawn_crowded (n k : Nat) :
    (inBasin (crowded n k) 0).length = n ∧ spillRoom (crowded n k) 0 1 = decide (k < 2 ^ 20) ∧
      (k ≠ 0 → basinOpen (crowded n k) 0 = false) := by
  refine ⟨length_filter_replicate _ _ n rfl, ?_, ?_⟩
  · exact congrArg (fun j => decide (j < 2 ^ 20)) (length_filter_replicate (fun e : Entry => e.owner == 1 && e.node == none) (anEntry 9) k rfl)
  · cases k with
    | zero => simp
    | succ k => intro; exact Bool.and_false _

theorem test_spawn_crowded_witness :
    ([crowded 0 (2 ^ 20), crowded 4096 (2 ^ 20)] : List State).all (fun s =>
      homeB s 0x900000000000 && soundB s (s.owner s.cur) 0x900000000000 (2 ^ 38) 80 &&
      decide (hartCheck s s.cur (s.g 1).toNat 128 128 needR false = .ok 0x900000000000 ∧
        (translate s (s.agent s.cur) 0x900000000000 needR).2 = .ok (2 ^ 38) 0)) = true := by
  decide +kernel

theorem test_spawn :
    after (exec (.nspawn 3 1) (dispatched [3] [] 1)) (fun t => t.g 3 == 3 && (t.md 0).basin == []) = true ∧
    after (exec (.nspawn 3 1) (dispatched [2, 1] [] 1)) (fun t => t.g 3 == 1 && (t.md 0).basin == []) = true ∧
    after (exec (.nspawn 3 1) (dispatched [2] [] 1)) (fun t => t.g 3 == 0 && t.me.pc == 0x1004 &&
      (t.md 0).basin.map (·.d.cls) == [2] && (t.md 0).launches == [aLaunch 2]) = true := by
  decide +kernel

theorem test_node_end :
    (nodeAt (dispatched [] [] 2) 0 = some aNode ∧ aNode.rel = none ∧ othersLeft aNode 0 = false ∧ aNode.d.nsucc = 0 ∧
      launchOf (dispatched [] [] 2) 0 1 = some (aLaunch 2)) ∧
    after (exec .nend (dispatched [] [] 2)) (fun t => t.hart 0 == (dispatched [] [] 2).me.ended && (t.hart 0).c.ctxid == 0x100000 && (t.md 0).nodes == [] && (t.md 0).launches == [aLaunch 1]) = true ∧
    after (exec .nend (ctl [])) (fun t => t.me.c.cause == 1) = true ∧ encode .nend = some (4, 0xB8) ∧
    after (exec .nyield (ctl [])) (fun t => t.me.c.cause == 1) = true := by
  decide +kernel

theorem test_node_yield :
    after (exec .nyield (dispatched [] [] 1)) (fun t => t.me.pc == 0x1004 && t.me.saving == none) = true ∧
    (anEntry 9 ∈ eligible (dispatched [] [anEntry 9] 1) 0 ∧ classAllows 2 0 = true ∧
      3 ≤ effPrio (dispatched [] [anEntry 9] 1) 0 (anEntry 9)) ∧
    after (exec .nyield (dispatched [] [anEntry 9] 1)) (fun t =>
      t.me.pc == 0x1004 && t.me.saving == some (2, 0, BitVec.allOnes 256)) = true := by
  decide +kernel

/-- The node has a second rank, on hart 8, which is to be saved too. -/
theorem test_gang_yield :
    (let s := dispatched [] [anEntry 9] 1
     let s : State := { s with
       harts := s.harts ++ [(8, { userHart [] with node := some 1 })]
       modules := [(0, { s.md 0 with nodes := [{ aNode with ranks := [(0, .hart 0), (1, .hart 8)] }] })] }
     after (exec .nyield s) (fun t => t.me.saving == some (2, 0, BitVec.allOnes 256) && (t.hart 8).c.preq && !t.me.c.preq)) = true := by
  decide +kernel

/-! Collectives (R314 to R320). -/

theorem res_ok {α : Type} {r : Res α} (p : α → Bool)
    (h : (match r with | .ok _ a => p a | _ => false) = true) : ∃ a, r = .ok r.st a ∧ p a = true := by
  cases r <;> simp_all [Res.st]

/-- A header of tag 1, rank 0 of 2, chunks of 128 bytes of I32; its rank map of dies 0 and 1 follows at 0x40, its status word is at
0x80. -/
def aHeader : List Word := [0x200000001, 0x800000000040, 0x800000000080, 0x700000080, 0x800000000100, 0x800000000200, 0x800000000300, 0]

/-- The program in shared SRAM of die 0: header, rank map, step words. -/
def program (steps : List Word) : Memory :=
  Memory.setBytes [] (2 ^ 37) ((aHeader ++ steps).flatMap fun w => toBytes 8 w.toNat)

/-- A control hart with g1 at the program. -/
def collState : State := { ctl [(1, 0x800000000000), (2, 7)] with mem := program [0, 64] }

theorem test_coll_witness :
    (let s := collState
     hasFeature s s.cur 6 = true ∧ hartCheck s s.cur (s.g 1).toNat 64 64 needR false = .ok 0x800000000000 ∧
     (let r := hartReadIpa s s.cur 15 0x800000000000 64
      (∃ bs, r = .ok r.st bs ∧ (wordsOf bs 8 == aHeader) = true) ∧
      (let ag := r.st.agent s.cur
       let m := readMap (seqFresh r.st ag (s.g 1).toNat (r.st.g 2) (some s.cur)) ag 0x800000000040 2 0 [] r.st
       (∃ map, m = .ok m.st map ∧ (map == some [0, 1]) = true) ∧
       rankOf aHeader [0, 1] 0 = some 0 ∧ tagHeld m.st 0 1 = false ∧ freeSeq m.st 0 = some 0)) ∧ hdrOk aHeader = true) :=
  ⟨by decide +kernel, by decide +kernel, ⟨res_ok _ (by decide +kernel), res_ok _ (by decide +kernel), by decide +kernel,
    by decide +kernel, by decide +kernel⟩, by decide +kernel⟩

theorem test_coll_completes_witness :
    (let s := collState
     let h := wordsOf (s.mem.bytes (2 ^ 37) 64) 8
     let fresh := seqFresh s (s.agent s.cur) (s.g 1).toNat (s.g 2) (some s.cur)
     s.Lane (s.g 1) 64 needR false (2 ^ 37) 0 ∧ hdrOk h = true ∧ [0, 1].length = hdrN h ∧
     (∀ i, i < hdrN h → s.ProgramAt fresh (s.agent s.cur) (((h.getD 1 0).toNat + 8 * i) % 2 ^ 64) 8 8 needR false (2 ^ 37 + 0x40 + 8 * i) ∧
       leBytes (s.mem.bytes (2 ^ 37 + 0x40 + 8 * i) 8) < 256 ∧
       [0, 1].getD i 0 = leBytes (s.mem.bytes (2 ^ 37 + 0x40 + 8 * i) 8) % 64 * 4 + leBytes (s.mem.bytes (2 ^ 37 + 0x40 + 8 * i) 8) / 64) ∧
     rankOf h [0, 1] 0 = some 0 ∧ tagHeld s 0 (field (h.getD 0 0).toNat 0 16) = false ∧ freeSeq s 0 = some 0) := by
  refine ⟨lane_of (by decide +kernel), by decide +kernel, by decide +kernel, ?_, by decide +kernel, by decide +kernel, by decide +kernel⟩
  intro i hi
  have : i = 0 ∨ i = 1 := by
    have : hdrN (wordsOf (collState.mem.bytes (2 ^ 37) 64) 8) = 2 := by decide +kernel
    omega
  rcases this with rfl | rfl <;> exact ⟨program_of (by decide +kernel), by decide +kernel, by decide +kernel⟩

theorem test_coll :
    after (exec (.coll 3 1 2) collState) (fun t => t.g 3 == 0x10000 && t.me.colls == [0x10000] && t.me.pc == 0x1004 &&
      (t.seq 0 0).st == .run && (t.seq 0 0).map == [0, 1] && (t.seq 0 0).b3 == 7 && (t.seq 0 0).header == aHeader) = true := by
  decide +kernel

/-- A control hart that holds handle 0x10000 of sequencer 0 of die 0, in a state and with a status. -/
def collected (st : SeqState) (status : Word) : State :=
  { State.reset with
    harts := [(96, { ctlHart [(1, 0x10000)] with colls := [0x10000] })]
    dies := [(0, { Die.reset with seqs := [(0, { Sequencer.reset with st, seq := 1, status })] })] }

theorem test_collw :
    ((handleSeq (collected .run 0) 0 ((collected .run 0).g 1)).isSome = true ∧ (collected .run 0).g 1 ∈ (collected .run 0).me.colls ∧
      hasFeature (collected .run 0) 96 6 = true) ∧
    after (exec (.collw 3 1) (collected .run 0)) (fun t => t.me.st == .park && t.me.pc == 0x1000) = true ∧
    after (exec (.collw 3 1) (collected .done 0x4000000000000005)) (fun t =>
      t.g 3 == 0x4000000000000005 && t.me.colls == [] && (t.seq 0 0).collected) = true ∧
    after (exec (.collw 3 1) (collected .done 0x8000000000000000)) (fun t => t.me.c.cause == 12 && t.me.colls == []) = true ∧
    after (exec (.collw 3 2) (collected .run 0)) (fun t => t.g 3 == -1) = true := by
  decide +kernel

/-! Vectors (R134 to R168). -/

/-- The checks of State.Starts, computed. -/
def startsB (s : State) (i : Instr) (n : Nat) : Bool :=
  wellFormed i && (slotTrap s s.cur s.me (cxOf s s.cur s.me.f.g 0 0 0) [] [] (slotOf s.me.pc i)).isNone &&
  (encode i).map (·.1) == some n && s.me.nb == [] && s.me.c.epos == 0 && s.me.served == none

theorem starts_of {s : State} {i : Instr} {n : Nat} (h : startsB s i n = true) : s.Starts i n := by
  simp only [startsB, Bool.and_eq_true, Option.isNone_iff_eq_none, beq_iff_eq, Option.map_eq_some_iff] at h
  obtain ⟨⟨⟨⟨⟨h1, h2⟩, ⟨p, h3, h4⟩⟩, h5⟩, h6⟩, h7⟩ := h
  refine ⟨h1, h2, ⟨p.2, ?_⟩, h5, h6, h7⟩
  rw [h3, ← h4]

/-- Register of two lanes of 32 bits. -/
def pair (x y : Nat) : VReg := BitVec.ofNat 4096 (x + y * 2 ^ 32)

/-- Hart 0 at level U with a vtype, vl, and registers v1, v2, v3, o0 given; k1 is 0b10 and g1 is 1. -/
def vecHart (vt : BitVec 6) (vl : Nat) (a b c o : VReg) : Hart :=
  { userHart [(1, 1)] with
    f := { Files.zero with g := [(1, 1)], v := [(1, a), (2, b), (3, c), (64, o)], k := [(1, 2)] }
    c := { (userHart []).c with vtype := vt, vl := vl } }

/-- Two lanes of v3 after i, with v1, v2 and v3 of two lanes; vtype 2 is I32, 6 is F32. -/
def v3Of (i : Instr) (vt : BitVec 6) (a b c : Nat × Nat) : Option (Nat × Nat) :=
  match exec i (user (vecHart vt 2 (pair a.1 a.2) (pair b.1 b.2) (pair c.1 c.2) 0)) with
  | .next t => if t.me.pc = 0x1004 then some (laneOf (t.me.v 3) 32 0, laneOf (t.me.v 3) 32 1) else none
  | _ => none

/-- 5 and -2^31. -/
def xs : Nat × Nat := (5, 0x80000000)
/-- 7 and 2. -/
def ys : Nat × Nat := (7, 2)

theorem test_vector_add :
    v3Of (.vadd true 0 2 1 3) 2 xs ys (0, 0) = some (12, 0x80000002) ∧ v3Of (.vsub true 0 2 1 3) 2 xs ys (0, 0) = some (0xFFFFFFFE, 0x7FFFFFFE) ∧
    v3Of (.vadd true 1 2 1 3) 2 xs ys (9, 9) = some (9, 0x80000002) ∧
    v3Of (.vmul true 0 2 1 3) 2 xs ys (0, 0) = some (35, 0) ∧ v3Of (.vmulh true 0 2 1 3) 2 xs ys (0, 0) = some (0, 0xFFFFFFFF) ∧
    v3Of (.vmulhu true 0 2 1 3) 2 xs ys (0, 0) = some (0, 1) ∧ v3Of (.vmac true 0 2 1 3) 2 xs ys (1, 1) = some (36, 1) := by
  decide +kernel

theorem test_vector_min_and_logic :
    v3Of (.vmin true 0 2 1 3) 2 xs ys (0, 0) = some (5, 0x80000000) ∧ v3Of (.vmax true 0 2 1 3) 2 xs ys (0, 0) = some (7, 2) ∧
    v3Of (.vminu true 0 2 1 3) 2 xs ys (0, 0) = some (5, 2) ∧ v3Of (.vmaxu true 0 2 1 3) 2 xs ys (0, 0) = some (7, 0x80000000) ∧
    v3Of (.vand true 0 2 1 3) 2 xs ys (0, 0) = some (5, 0) ∧ v3Of (.vor true 0 2 1 3) 2 xs ys (0, 0) = some (7, 0x80000002) ∧
    v3Of (.vxor true 0 2 1 3) 2 xs ys (0, 0) = some (2, 0x80000002) ∧ v3Of (.vsll true 0 2 1 3) 2 xs ys (0, 0) = some (640, 0) := by
  decide +kernel

theorem test_vector_shift_and_saturate :
    v3Of (.vsrl true 0 2 1 3) 2 xs ys (0, 0) = some (0, 0x20000000) ∧ v3Of (.vsra true 0 2 1 3) 2 xs ys (0, 0) = some (0, 0xE0000000) ∧
    v3Of (.vsadd true 0 2 1 3) 2 (0x7FFFFFFF, 0x80000000) (1, 0xFFFFFFFF) (0, 0) = some (0x7FFFFFFF, 0x80000000) ∧
    v3Of (.vsaddu true 0 2 1 3) 2 (0xFFFFFFFF, 1) (1, 1) (0, 0) = some (0xFFFFFFFF, 2) ∧
    v3Of (.vssub true 0 2 1 3) 2 xs ys (0, 0) = some (0xFFFFFFFE, 0x80000000) ∧
    v3Of (.vssubu true 0 2 1 3) 2 xs ys (0, 0) = some (0, 0x7FFFFFFE) := by
  decide +kernel

/-- 1.0 and 3.0; 2.0 and -1.0; 1.0 twice. -/
def fx : Nat × Nat := (0x3F800000, 0x40400000)
/-- 2.0 and -1.0. -/
def fy : Nat × Nat := (0x40000000, 0xBF800000)
/-- 1.0 twice. -/
def fz : Nat × Nat := (0x3F800000, 0x3F800000)

theorem test_vector_float :
    v3Of (.vfadd true 0 2 1 3) 6 fx fy fz = some (0x40400000, 0x40000000) ∧ v3Of (.vfsub true 0 2 1 3) 6 fx fy fz = some (0xBF800000, 0x40800000) ∧
    v3Of (.vfmul true 0 2 1 3) 6 fx fy fz = some (0x40000000, 0xC0400000) ∧ v3Of (.vfdiv true 0 2 1 3) 6 fx fy fz = some (0x3F000000, 0xC0400000) ∧
    v3Of (.vfmin true 0 2 1 3) 6 fx fy fz = some (0x3F800000, 0xBF800000) ∧ v3Of (.vfmax true 0 2 1 3) 6 fx fy fz = some (0x40000000, 0x40400000) ∧
    v3Of (.vfma true 0 2 1 3) 6 fx fy fz = some (0x40400000, 0xC0000000) ∧ v3Of (.vfms true 0 2 1 3) 6 fx fy fz = some (0x3F800000, 0xC0800000) := by
  decide +kernel

theorem test_vector_float_functions :
    v3Of (.vfnma true 0 2 1 3) 6 fx fy fz = some (0xBF800000, 0x40800000) ∧
    v3Of (.vfsqrt true 0 1 3) 6 (0x40800000, 0x41100000) fy fz = some (0x40000000, 0x40400000) ∧
    v3Of (.vfrcp true 0 1 3) 6 (0x40000000, 0x40800000) fy fz = some (0x3F000000, 0x3E800000) ∧
    v3Of (.vfrsq true 0 1 3) 6 (0x40800000, 0x3E800000) fy fz = some (0x3F000000, 0x40000000) ∧
    v3Of (.vfexp2 true 0 1 3) 6 (0x40400000, 0xBF800000) fy fz = some (0x41000000, 0x3F000000) ∧
    v3Of (.vfclass true 0 1 3) 6 (0x80000000, 0x7F800000) fy fz = some (8, 128) := by
  decide +kernel

theorem test_vector_moves :
    v3Of (.vmv true 1 1 3) 2 xs ys (9, 9) = some (9, 0x80000000) ∧ v3Of (.vid true 0 3) 2 xs ys (9, 9) = some (0, 1) ∧
    v3Of (.vbcast true 1 1 3) 2 xs ys (9, 9) = some (0x80000000, 0x80000000) ∧ v3Of (.vins true 1 1 3) 2 xs ys (9, 9) = some (9, 5) ∧
    v3Of (.vslup true 1 1 3) 2 xs ys (9, 9) = some (9, 5) ∧ v3Of (.vsldn true 1 1 3) 2 xs ys (9, 9) = some (0x80000000, 0) ∧
    v3Of (.vperm true 0 2 1 3) 2 xs (1, 1000) (9, 9) = some (0x80000000, 0) ∧ v3Of (.vcompress true 1 1 3) 2 xs ys (9, 9) = some (0x80000000, 9) ∧
    v3Of (.vexpand true 1 1 3) 2 xs ys (9, 9) = some (9, 5) ∧ v3Of (.vmerge true 1 2 1 3) 2 xs ys (9, 9) = some (7, 0x80000000) := by
  decide +kernel

theorem test_vector_reductions :
    v3Of (.vredsum true 0 1 3) 2 (0xFFFFFFFF, 3) ys (9, 9) = some (2, 9) ∧ v3Of (.vredmin true 0 1 3) 2 xs ys (9, 9) = some (0x80000000, 9) ∧
    v3Of (.vredmax true 0 1 3) 2 xs ys (9, 9) = some (5, 9) ∧ v3Of (.vredminu true 0 1 3) 2 xs ys (9, 9) = some (5, 9) ∧
    v3Of (.vredmaxu true 0 1 3) 2 xs ys (9, 9) = some (0x80000000, 9) ∧ v3Of (.vscan true 0 1 3) 2 (0xFFFFFFFF, 3) ys (9, 9) = some (0xFFFFFFFF, 2) ∧
    v3Of (.vfredsum true 0 1 3) 6 fx fy (9, 9) = some (0x40800000, 9) ∧ v3Of (.vfredmin true 0 1 3) 6 fy fx (9, 9) = some (0xBF800000, 9) ∧
    v3Of (.vfredmax true 1 1 3) 6 fy fx (9, 9) = some (0xBF800000, 9) ∧ v3Of (.vfscan true 0 1 3) 6 fx fy (9, 9) = some (0x3F800000, 0x40800000) := by
  decide +kernel

/-- R108's example: the tree of VFREDSUM over 1.0, 2^-24, 2^-24, 2^-24. -/
theorem test_vfredsum_tree :
    after (exec (.vfredsum true 0 1 3) (user (vecHart 6 4 0x3380000033800000338000003F800000 0 0 0))) (fun t =>
      laneOf (t.me.v 3) 32 0 == 0x3F800001 && t.me.c.fflags.getLsbD 0) = true ∧
    after (exec (.vfscan true 0 1 3) (user (vecHart 6 4 0x3380000033800000338000003F800000 0 0 0))) (fun t =>
      laneOf (t.me.v 3) 32 3 == 0x3F800000) = true := by
  decide +kernel

/-- R144's example: +VFMA v3.c01, -v1, |v2|, k5. -/
theorem test_vfma_prefixed :
    after (exec (.prefixed64BitForm true ⟨0, 5, 0, 1, 0x24⟩ (.vv .fma 2 1 3))
      { user (vecHart 6 4 0x404000003F000000C00000003F800000 0x3F800000400000003E800000BF000000 0x400000003E800000000000003F800000 0) with
        harts := [(0, { vecHart 6 4 0 0 0 0 with
          f := { Files.zero with
            v := [(1, 0x404000003F000000C00000003F800000), (2, 0x3F800000400000003E800000BF000000),
              (3, 0x400000003E800000000000003F800000)]
            k := [(5, 0xB)] } })] }) (fun t =>
      t.me.v 3 == 0x000000003E8000003F0000003F000000 && t.me.c.fflags == 0 && t.me.pc == 0x1008) = true := by
  decide +kernel

theorem test_vector_starts :
    (let s := user (vecHart 2 2 1 2 3 0)
     s.Starts (.vadd true 1 2 1 3) 4 ∧ s.Starts (.vredsum true 0 1 3) 4 ∧ s.Starts (.vcmp true 0 2 1 4 1) 4 ∧ s.Starts (.kand true 1 1 1) 4 ∧
     s.Starts (.kpop true 3 1) 4 ∧ s.Starts (.vext true 1 1 3) 4 ∧ s.Starts (.vhad true 0 1 3) 4 ∧
     s.Starts (.prefixed64BitForm true ⟨0, 1, 0, 3, 0x20⟩ (.vv .add 2 1 3)) 8 ∧ s.me.bind = [] ∧
     convoyOp (.vadd true 1 2 1 3) = some (.vec ⟨0, 1, 0, 0, 0⟩ (.vv .add 2 1 3)) ∧ vecDst s (.vv .add 2 1 3) = some (3, 32) ∧
     (∀ e, e < s.me.c.vl → readsFirst s ⟨0, 1, 0, 0, 0⟩ (.vv .add 2 1 3) e)) := by
  refine ⟨starts_of (by decide +kernel), starts_of (by decide +kernel), starts_of (by decide +kernel), starts_of (by decide +kernel),
    starts_of (by decide +kernel), starts_of (by decide +kernel), starts_of (by decide +kernel), starts_of (by decide +kernel),
    by decide +kernel, rfl, by decide +kernel, fun _ _ => trivial⟩

/-- Formats: F32 to I8 in 8-bit lanes, I8 to F32, VQUANT and its record, VQSC, VDEQ, VPACK, VUNPACK. -/
theorem test_conversions :
    after (exec (.vcvt true 1 0 6 1 3) (user (vecHart 0 2 (pair 0x40600000 0xC3800000) 0 0 0))) (fun t => t.me.v 3 == 0x8004) = true ∧
    after (exec (.vcvt true 0 6 0 1 3) (user (vecHart 6 2 0x80FF 0 0 0))) (fun t => t.me.v 3 == pair 0xBF800000 0xC3000000) = true ∧
    after (exec (.vquant true 0 8 1 3) (user (vecHart 6 2 (pair 0 0x437F0000) 0 0 0))) (fun t =>
      t.me.v 3 == 0xFF00 && t.me.v 64 == 0x3C00 && t.me.c.fflags == 0) = true ∧
    after (exec (.vqsc true 0 8 1 3) (user (vecHart 6 2 (pair 0x40000000 0x40400000) 0 0 0x13C00))) (fun t => t.me.v 3 == 0x0403) = true ∧
    after (exec (.vdeq true 8 0 1 3) (user (vecHart 6 2 0x0403 0 0 0x13C00))) (fun t => t.me.v 3 == pair 0x40000000 0x40400000) = true ∧
    after (exec (.vhad true 0 1 3) (user (vecHart 2 2 (pair 5 7) 0 0 0))) (fun t => t.me.v 3 == pair 12 0xFFFFFFFE) = true ∧
    after (exec (.vpack true 5 1 3) (user (vecHart 2 2 (pair 0x12345 0xFFFFFFFF) 0 0 0))) (fun t => t.me.v 3 == 0xFFFF2345) = true ∧
    after (exec (.vunpack true 5 1 3) (user (vecHart 1 2 0x80007FFF 0 0 0))) (fun t => t.me.v 3 == pair 0x7FFF 0xFFFF8000) = true := by
  decide +kernel

theorem test_conversion_witness :
    (let s := user (vecHart 2 2 1 2 3 0)
     s.Starts (.vcvt true 1 0 6 1 3) 4 ∧ s.Starts (.vquant true 0 8 1 3) 4 ∧ s.Starts (.vqsc true 0 8 1 3) 4 ∧ s.Starts (.vdeq true 8 0 1 3) 4 ∧
     s.Starts (.vpack true 5 1 3) 4 ∧ s.Starts (.vunpack true 5 1 3) 4 ∧
     readsFirst s ⟨0, 0, 0, 0, 0⟩ (.vx .cvt 0 0 6 3 3) 0) := by
  refine ⟨starts_of (by decide +kernel), starts_of (by decide +kernel), starts_of (by decide +kernel), starts_of (by decide +kernel),
    starts_of (by decide +kernel), starts_of (by decide +kernel), ?_⟩
  exact .inr (.inr (by decide +kernel))

theorem test_masks :
    after (exec (.vcmp true 0 2 1 4 2) (user (vecHart 2 2 (pair 5 0x80000000) (pair 7 2) 0 0))) (fun t => t.me.k 2 == 1) = true ∧
    after (exec (.vcmp true 0 2 1 2 2) (user (vecHart 2 2 (pair 5 0x80000000) (pair 7 2) 0 0))) (fun t => t.me.k 2 == 3) = true ∧
    after (exec (.vfcmp true 0 2 1 2 1) (user (vecHart 6 2 (pair 0x7FC00000 0xBF800000) 0 0 0))) (fun t =>
      t.me.k 1 == 2 && t.me.c.fflags.getLsbD 4) = true ∧
    after (exec (.kand true 2 0 1) (user (vecHart 2 2 0 0 0 0))) (fun t => t.me.k 2 == 2) = true ∧
    after (exec (.kor true 2 2 1) (user (vecHart 2 2 0 0 0 0))) (fun t => t.me.k 2 == 2) = true ∧
    after (exec (.kxor true 2 0 1) (user (vecHart 2 2 0 0 0 0))) (fun t => t.me.k 2 == 1) = true ∧
    after (exec (.kandn true 2 0 1) (user (vecHart 2 2 0 0 0 0))) (fun t => t.me.k 2 == 1) = true ∧
    after (exec (.knot true 1 1) (user (vecHart 2 2 0 0 0 0))) (fun t => t.me.k 1 == 1) = true ∧
    after (exec (.kmov true 2 1) (user (vecHart 2 1 0 0 0 0))) (fun t => t.me.k 2 == 0) = true := by
  decide +kernel

theorem test_vectors_to_scalars :
    after (exec (.kpop true 3 1) (user (vecHart 2 2 0 0 0 0))) (fun t => t.g 3 == 1) = true ∧
    after (exec (.kfirst true 3 1) (user (vecHart 2 2 0 0 0 0))) (fun t => t.g 3 == 1) = true ∧
    after (exec (.kfirst true 3 2) (user (vecHart 2 2 0 0 0 0))) (fun t => t.g 3 == -1) = true ∧
    after (exec (.vext true 1 1 3) (user (vecHart 2 2 (pair 5 0x80000000) 0 0 0))) (fun t => t.g 3 == 0xFFFFFFFF80000000) = true ∧
    after (exec (.vext true 1 1 3) (user (vecHart 6 0 (pair 5 0x80000000) 0 0 0))) (fun t => t.g 3 == 0x80000000) = true := by
  decide +kernel

theorem test_convoy_checks :
    ([.vadd true 0 2 1 3, .vfadd true 0 2 1 3, .tzero true 5, .vadd false 0 2 1 3, .cVadd 1 2 3, .cVmv 1 2, .vadd true 0 2 1 72,
      .vadd true 0 76 1 3] : List Instr).all wellFormed = true ∧ wellFormed (.vadd true 0 2 1 77) = false ∧
    encode (.vadd true 0 2 1 3) = some (4, 0x0101070A) ∧ encode (.tzero true 5) = some (8, 0x00000A000000000F) ∧
    after (exec (.vadd true 0 2 1 3) (user (vecHart 6 2 0 0 0 0))) (fun t => t.me.c.cause == 1 && t.me.c.tval == 0x0101070A) = true ∧
    after (exec (.vfadd true 0 2 1 3) (user (vecHart 2 2 0 0 0 0))) (fun t => t.me.c.cause == 1) = true ∧
    after (exec (.tzero true 5) (ctl [])) (fun t => t.me.c.cause == 10 && t.me.c.tval == 0xA000000000F) = true ∧
    32 ≤ (ctl []).cur / 2 % 64 ∧ hasFeature (ctl []) 96 0 = true ∧
    after (exec (.vadd false 0 2 1 3) (user (vecHart 2 2 0 0 0 0))) (fun t => t.me.c.cause == 2) = true ∧
    after (exec (.cVadd 1 2 3) (user (vecHart 2 2 0 0 0 0))) (fun t => t.me.c.cause == 2) = true ∧
    after (exec (.cVmv 1 2) (user (vecHart 6 2 0 0 0 0))) (fun t => t.me.c.cause == 2) = true ∧
    after (exec (.vadd true 0 2 1 72) (user (vecHart 2 2 0 0 0 0))) (fun t => t.me.c.cause == 3) = true ∧
    after (exec (.vadd true 0 76 1 3) (user (vecHart 2 2 0 0 0 0))) (fun t => t.me.c.cause == 3) = true := by
  decide +kernel

/-- A convoy of VHAD and C.VADD, and the two alone. -/
theorem test_compressed_in_convoy :
    (let s := user (vecHart 2 2 (pair 5 7) 0 0 (pair 1 1))
     match startConvoy s s.cur [slotOf 0x1000 (.vhad true 0 1 65), slotOf 0x1004 (.cVadd 1 0 2)], exec (.vhad true 0 1 65) s with
     | .ok (some (u, cv)), .next a =>
       let t := runConvoy u u.cur cv
       t.me.v 65 == pair 12 0xFFFFFFFE && t.me.v 66 == pair 13 0xFFFFFFFF && t.me.pc == 0x1006 && t.me.c.instret == 2 &&
         startsB s (.vhad true 0 1 65) 4 && startsB a (.vadd true 0 65 64 66) 4 &&
         after (exec (.vadd true 0 65 64 66) a) (fun b => b.me.v 66 == t.me.v 66)
     | _, _ => false) = true := by
  decide +kernel

/-- Memory from address 0 on holds VHAD o1 with vl = 1, then C.VADD o2. -/
def pairWord : Nat := fieldAt 1 1 + fieldAt 0x6F 2 + fieldAt 65 9 + fieldAt 1 16 + 2 ^ 32 * (0x39 + fieldAt 1 12 + fieldAt 2 6)

/-- The two form the convoy that the next step runs. -/
theorem test_compressed_in_convoy_witness :
    (let s := State.reset.withFetchWord 64 pairWord
     let w : Word := BitVec.ofNat 64 (pairWord % 2 ^ 32)
     let w2 : Word := BitVec.ofNat 64 (pairWord / 2 ^ 32)
     let first := slotAt s.me.pc (w, 4)
     let second := slotAt (s.me.pc + 4) (w2, 2)
     s.Issues ∧ decodeWord w = .ok (.vhad true 0 1 65) ∧ decodeWord w2 = .ok (.cVadd 1 0 2) ∧ startsConvoy w = true ∧
     (s.me.nb = [] ∧ s.me.ready = none ∧ s.me.bind = [] ∧ (s.hart (sibling s.cur)).convoy = none ∧ (s.hart (sibling s.cur)).ready = none) ∧
     (match fetchInsn s s.cur s.me.pc with
      | .ok f a => a == (w, 4) &&
        match fetchConvoy s.cur (2 ^ 57) (s.me.pc + 4) [first] (f.leftEntry s.cur) with
        | .ok f' l => l == [first, second] &&
          let u := (f'.fetched s.cur).hasPipes s.cur
          let cx := cxOf u u.cur u.me.f.g 0 0 0
          startsB u (.vhad true 0 1 65) 4 &&
          match first.op, second.op with
          | some o, some o' => (slotTrap u u.cur u.me cx [] [o'] first).isNone && (slotTrap u u.cur u.me cx [o] [o] second).isNone
          | _, _ => false
        | _ => false
      | _ => false) = true) := by
  refine ⟨?_, by decide +kernel, by decide +kernel, by decide +kernel, by decide +kernel, by decide +kernel⟩
  unfold State.Issues
  decide +kernel

/-! Vector accesses of memory (R248 to R279). -/

theorem lanes_of {s : State} {l : List Nat} {va : Nat → Word} {n : Nat} {need : Need} {atom : Bool} {key : Nat → Nat}
    {leaf : Nat → Word} (h : (l.all fun e => laneB s (va e) n need atom (key e) (leaf e)) = true) :
    ∀ e, e ∈ l → s.Lane (va e) n need atom (key e) (leaf e) :=
  fun e he => lane_of (List.all_eq_true.mp h e he)

/-- Control hart 0 with vl = 2 and I32 or another vtype; g1 is IPA 0x100 of a space, g2 and g3 given; v1 and v2 given. -/
def vecMem (sp : Word) (vt : BitVec 6) (g2 g3 : Word) (a b : VReg) : State :=
  { State.reset with
    harts := [(96, { ctlHart [] with
      f := { Files.zero with g := [(1, sp * 2 ^ 44 + 0x100), (2, g2), (3, g3)], v := [(1, a), (2, b)], k := [(1, 2)] }
      c := { Csrs.zero with prv := 3, vtype := vt, vl := 2 } })]
    mem := Memory.setBytes [] (if sp = 8 then 2 ^ 37 + 0x100 else 2 ^ 38 + 0x100) [1, 2, 3, 4, 5, 6, 7, 8]
    full := if sp = 8 then [] else [(2 ^ 38 + 0x100, true), (2 ^ 38 + 0x104, true)] }

theorem test_vector_load_witness :
    (let s := vecMem 8 2 0 0 0 0
     vecLoad (.vld true 0 0 5 2 1 3) s = some (0, false, 5, 3, elementVa s 0 1 2 4) ∧ s.Starts (.vld true 0 0 5 2 1 3) 4 ∧ s.me.bind = [] ∧
     (∀ e, e ∈ s.actives 0 → s.Lane (elementVa s 0 1 2 4 e) 4 needR false (2 ^ 37 + 0x100 + 4 * e) 0) ∧
     (∀ e, e ∈ s.actives 0 → s.Lane (elementVa s 0 1 2 4 e) 4 needW false (2 ^ 37 + 0x100 + 4 * e) 0) ∧
     vecStore (.vst true 0 0 5 2 1 3) s = some (0, false, 5, 3, elementVa s 0 1 2 4) ∧ s.Starts (.vst true 0 0 5 2 1 3) 4) :=
  ⟨rfl, starts_of (by decide +kernel), by decide +kernel, lanes_of (by decide +kernel),
    lanes_of (by decide +kernel), rfl, starts_of (by decide +kernel)⟩

/-- Control hart 0 with g1 at the last word of shared SRAM. -/
def atEnd : State :=
  { vecMem 8 2 0 0 0 0 with
    harts := [(96, { (vecMem 8 2 0 0 0 0).me with f := { Files.zero with g := [(1, 0x800003FFFFFC)] } })] }

/-- VLDFF whose element 1 lies above it: m = 1. -/
theorem test_vldff_witness :
    vecLoad (.vldff true 0 5 0 1 3) atEnd = some (0, false, 5, 3, elementVa atEnd 0 1 0 4) ∧ atEnd.Starts (.vldff true 0 5 0 1 3) 4 ∧
    1 ∈ atEnd.actives 0 ∧ hartCheck atEnd atEnd.cur (elementVa atEnd 0 1 0 4 1).toNat 4 4 needR false = .error .protectionFault ∧
    atEnd.Lane (elementVa atEnd 0 1 0 4 0) 4 needR false (2 ^ 37 + 0x3FFFFFC) 0 ∧
    after (exec (.vldff true 0 5 0 1 3) atEnd) (fun t => t.me.c.vl == 1 && t.me.pc == 0x1004) = true :=
  ⟨rfl, starts_of (by decide +kernel), by decide +kernel, by decide +kernel, lane_of (by decide +kernel), by decide +kernel⟩

theorem test_vector_loads :
    after (exec (.vld true 0 0 0 0 1 3) (vecMem 8 2 0 0 0 0)) (fun t => t.me.v 3 == pair 0x04030201 0x08070605 && t.me.pc == 0x1004) = true ∧
    after (exec (.vld true 1 0 0 0 1 3) (vecMem 8 2 0 0 0 0)) (fun t => t.me.v 3 == pair 0 0x08070605) = true ∧
    after (exec (.vlds true 0 0 0 2 1 3) (vecMem 8 2 0 0 0 0)) (fun t => t.me.v 3 == pair 0x04030201 0x04030201) = true ∧
    after (exec (.vldx true 0 0 0 1 1 3) (vecMem 8 2 0 0 (pair 4 0) 0)) (fun t => t.me.v 3 == pair 0x08070605 0x04030201) = true ∧
    after (exec (.vldff true 0 0 0 1 3) (vecMem 8 2 0 0 0 0)) (fun t => t.me.v 3 == pair 0x04030201 0x08070605 && t.me.c.vl == 2) = true := by
  decide +kernel

theorem test_vector_stores :
    after (exec (.vst true 0 0 0 2 1 1) (vecMem 8 2 4 0 (pair 0x11 0x22) 0)) (fun t =>
      t.mem.bytes (2 ^ 37 + 0x100) 12 == [1, 2, 3, 4, 0x11, 0, 0, 0, 0x22, 0, 0, 0]) = true ∧
    after (exec (.vsts true 0 0 0 0 1 1) (vecMem 8 2 0 0 (pair 0x11 0x22) 0)) (fun t =>
      t.mem.bytes (2 ^ 37 + 0x100) 5 == [0x22, 0, 0, 0, 5]) = true ∧
    after (exec (.vstx true 1 0 0 2 1 1) (vecMem 8 2 0 0 (pair 0x11 0x22) (pair 0 4))) (fun t =>
      t.mem.bytes (2 ^ 37 + 0x100) 8 == [1, 2, 3, 4, 0x22, 0, 0, 0]) = true := by
  decide +kernel

theorem test_non_blocking :
    (let s := vecMem 8 2 0x800000000100 4 (pair 0x11 0x22) (BitVec.ofNat 4096 0x800000000100)
     s.Starts (.vld true 0 1 5 0 1 3) 4 ∧ s.Starts (.vst true 0 1 5 0 1 3) 4 ∧ s.Starts (.vamoNb true 0 5 2 1) 4 ∧
     s.Starts (.xcopy true 1 5 2 1 3) 4 ∧ (nonBlocking (.vld true 0 1 5 0 1 3) s).isSome = true ∧ (nonBlocking (.vst true 0 1 5 0 1 3) s).isSome = true ∧
     hartCheck s s.cur (elementVa s 0 1 0 4 1).toNat 4 4 needR false = .ok 0x800000000104 ∧
     hartCheck s s.cur (s.g 2).toNat 4 1 needR false = .ok 0x800000000100 ∧
     after (exec (.vld true 0 1 5 0 1 3) s) (fun t => t.me.pend.map (fun e => (e.e, e.va)) == [(0, 0x800000000100), (1, 0x800000000104)] &&
       t.me.pc == 0x1004 && t.me.v 3 == 0) = true ∧
     after (exec (.vst true 0 1 5 0 1 1) s) (fun t => t.me.pend.map (·.data) == [[0x11, 0, 0, 0], [0x22, 0, 0, 0]] && t.mem == s.mem) = true ∧
     after (exec (.xcopy true 1 5 2 1 3) s) (fun t => t.me.pend.map (fun e => (e.size, e.src)) == [(4, [(0x800000000100, 4)])]) = true) :=
  ⟨starts_of (by decide +kernel), starts_of (by decide +kernel), starts_of (by decide +kernel), starts_of (by decide +kernel),
    by decide +kernel, by decide +kernel, by decide +kernel, by decide +kernel, by decide +kernel, by decide +kernel, by decide +kernel⟩

/-- VLD.NB of two words of a page that is not mapped: both elements wait in the replay queue. -/
theorem test_non_blocking_missing :
    (let x := vecHart 2 2 0 0 0 0
     let s : State := { user { x with f := { x.f with g := [] } } with
       modules := [(0, { Module.reset with ctxs := [(1, { userCtx with ranges := [(0, 0x87), (2, 0x800000000000)] })] })] }
     startsB s (.vld true 0 1 5 0 1 3) 4 &&
     after (exec (.vld true 0 1 5 0 1 3) s) (fun t =>
       t.me.pend.map (·.place) == [.replay, .replay] && t.me.pc == 0x1004 &&
       t.me.pend.all fun e => e.pages.any fun p => (translate s (e.agent 0 false) p.1 p.2).2 == .miss)) = true := by
  decide +kernel

theorem test_non_blocking_tagged :
    (let s := vecMem 9 2 0 0 (BitVec.ofNat 4096 (0x900000000100 + 0x900000000104 * 2 ^ 64)) 0
     s.Starts (.vldf true 0 1 5 0 1 3) 4 ∧ s.Starts (.vamoNb true 0 5 1 2) 4 ∧
     (nonBlocking (.vldf true 0 1 5 0 1 3) s).isSome = true ∧ (nonBlocking (.vamoNb true 0 5 1 2) s).isSome = true ∧
     (∀ e, e ∈ s.actives 0 → hartCheck s s.cur (elementVa s 0 1 0 4 e).toNat 4 4 needRW true = .ok (0x900000000100 + 4 * e)) ∧
     after (exec (.vldf true 0 1 5 0 1 3) s) (fun t => t.me.pend.map (fun e => (e.e, e.kind)) == [(0, .tagRead), (1, .tagRead)]) = true ∧
     after (exec (.vamoNb true 0 5 1 2) s) (fun t => t.me.pend.map (fun e => (e.kind, e.data)) == [(.amo 0, [0, 0, 0, 0]), (.amo 0, [0, 0, 0, 0])]) = true) :=
  ⟨starts_of (by decide +kernel), starts_of (by decide +kernel), by decide +kernel, by decide +kernel, by decide +kernel, by decide +kernel,
    by decide +kernel⟩

theorem test_vector_tagged_witness :
    (let s := vecMem 9 2 0 0 0 0
     s.Starts (.vldf true 0 0 5 0 1 3) 4 ∧ s.Starts (.vste true 0 5 0 1 3) 4 ∧
     (∀ e, e ∈ s.actives 0 → s.Lane (elementVa s 0 1 0 4 e) 4 needRW true (2 ^ 38 + 0x100 + 4 * e) 0) ∧
     (∀ e, e ∈ s.actives 0 → s.Lane (elementVa s 0 1 0 4 e) 4 needW true (2 ^ 38 + 0x100 + 4 * e) 0) ∧
     (∀ e, e ∈ s.actives 0 → s.isFull (2 ^ 38 + 0x100 + 4 * e) = true ∧ (s.die 0).recs = []) ∧
     Apart [0, 1] (fun e => 2 ^ 38 + 0x100 + 4 * e) 4) := by
  refine ⟨starts_of (by decide +kernel), starts_of (by decide +kernel), lanes_of (by decide +kernel),
    lanes_of (by decide +kernel), by decide +kernel, ?_⟩
  intro e f _ _ h; dsimp only; omega

theorem test_vector_tagged :
    after (exec (.vldf true 0 0 0 0 1 3) (vecMem 9 2 0 0 0 0)) (fun t => t.me.v 3 == pair 0x04030201 0x08070605 && t.full == []) = true ∧
    after (exec (.vste true 0 0 0 1 1) { vecMem 9 2 0 0 (pair 0x11 0x22) 0 with full := [] }) (fun t =>
      t.full == [(2 ^ 38 + 0x100, true), (2 ^ 38 + 0x104, true)] && t.mem == [⟨2 ^ 38 + 0x100, 0x11⟩, ⟨2 ^ 38 + 0x104, 0x22⟩]) = true := by
  decide +kernel

/-- VAs of the two words of shared SRAM, as v1; v2 is the operand register. -/
def wordVas : VReg := BitVec.ofNat 4096 (0x800000000100 + 0x800000000104 * 2 ^ 64)

theorem test_vector_atomic_witness :
    (let s := vecMem 8 2 0 0 wordVas (pair 1 2)
     s.Starts (.vamo true 0 5 1 3 2) 4 ∧ s.Starts (.prefixed64BitForm true ⟨0, 1, 0, 0, 0x20⟩ (.amo 0 5 1 3 2)) 8 ∧
     (∀ e, e ∈ s.actives 0 → s.Lane (laneVa s 1 e) 4 needRW true (2 ^ 37 + 0x100 + 4 * e) 0) ∧
     Apart [0, 1] (fun e => 2 ^ 37 + 0x100 + 4 * e) 4) := by
  refine ⟨starts_of (by decide +kernel), starts_of (by decide +kernel), lanes_of (by decide +kernel), ?_⟩
  intro e f _ _ h; dsimp only; omega

theorem test_vector_atomics :
    after (exec (.vamo true 0 0 1 3 2) (vecMem 8 2 0 0 wordVas (pair 1 2))) (fun t =>
      t.me.v 3 == pair 0x04030201 0x08070605 && t.mem.bytes (2 ^ 37 + 0x100) 8 == [2, 2, 3, 4, 7, 6, 7, 8]) = true ∧
    after (exec (.prefixed64BitForm true ⟨0, 1, 0, 0, 0x20⟩ (.amo 0 0 1 3 2)) (vecMem 8 2 0 0 wordVas (pair 1 2))) (fun t =>
      t.me.v 3 == pair 0 0x08070605 && t.mem.bytes (2 ^ 37 + 0x100) 8 == [1, 2, 3, 4, 3, 6, 7, 8] && t.me.pc == 0x1008) = true := by
  decide +kernel

/-- Two lanes that name one mutex, at a free word, and then a third at a held one. -/
def mutexVas : VReg := BitVec.ofNat 4096 (0x800000000108 + 0x800000000108 * 2 ^ 64 + 0x800000000100 * 2 ^ 128)

/-- That state, with vl = 3. -/
def mutexState : State :=
  { vecMem 8 3 0 0 mutexVas 0 with
    harts := [(96, { (vecMem 8 3 0 0 mutexVas 0).me with c := { Csrs.zero with prv := 3, vtype := 3, vl := 3, ctxid := 5 } })] }

theorem test_mutex_witness :
    mutexState.Starts (.vacq true 0 5 1 2) 8 ∧ mutexState.Starts (.vrel true 0 5 1) 8 ∧
    (∀ e, e ∈ mutexState.actives 0 → mutexState.Lane (laneVa mutexState 1 e) 8 needRW true
      (if e = 2 then 2 ^ 37 + 0x100 else 2 ^ 37 + 0x108) 0) ∧
    (mutexState.actives 0).filter (leads mutexState 1 (mutexState.actives 0)) = [0, 2] ∧
    Apart [0, 2] (fun e => if e = 2 then 2 ^ 37 + 0x100 else 2 ^ 37 + 0x108) 8 := by
  refine ⟨starts_of (by decide +kernel), starts_of (by decide +kernel), lanes_of (by decide +kernel), by decide +kernel, ?_⟩
  intro e f he hf h
  simp only [List.mem_cons, List.not_mem_nil, or_false] at he hf
  rcases he with rfl | rfl <;> rcases hf with rfl | rfl <;> simp at *

theorem test_mutexes :
    after (exec (.vacq true 0 0 1 2) mutexState) (fun t =>
      t.me.k 2 == 1 && t.mem.bytes (2 ^ 37 + 0x108) 8 == [0x60, 0, 0, 0, 5, 0, 0, 0x80] && t.mem.byte (2 ^ 37 + 0x100) == 1) = true ∧
    after (exec (.vrel true 0 0 1) mutexState) (fun t => t.mem == [] && t.me.pc == 0x1008) = true := by
  decide +kernel

/-- A record of an I32 stream from IPA 0x100 of shared SRAM, at POS. -/
def aRecord (pos : Nat) : BitVec 256 := BitVec.ofNat 256 (0x800000000100 + 0xA * 2 ^ 96 + 0xA * 2 ^ 100 + pos * 2 ^ 192)

/-- A hart whose v5 is bound to it, or whose g2 = IPA 0x200 holds it; bindbase is IPA 0x400. -/
def bound (bind : Map (Option (Nat × BitVec 256))) : State :=
  { vecMem 8 2 0x800000000200 0 0 0 with
    harts := [(96, { (vecMem 8 2 0x800000000200 0 0 0).me with
      bind, c := { Csrs.zero with prv := 3, vtype := 2, vl := 2, bindbase := 0x800000000400 } })]
    mem := Memory.setBytes (vecMem 8 2 0 0 0 0).mem (2 ^ 37 + 0x200) (toBytes 32 (aRecord 1).toNat) }

theorem test_stream_witness :
    (bound []).Starts (.vbind true 7 2 5) 4 ∧ (bound []).Starts (.vunbind true 7 5) 4 ∧ ((bound []).g 2).toNat % 32 = 0 ∧
    (∀ e, e ∈ [0, 1, 2, 3] → (bound []).Lane ((bound []).g 2 + BitVec.ofNat 64 (8 * e)) 8 needR false (2 ^ 37 + 0x200 + 8 * e) 0) ∧
    (¬ (bound []).BindRefused (aRecord 1) ∧ (bound []).BindRefused (aRecord 1 ||| 2#256)) ∧ (bound [(5, some (7, aRecord 0))]).Starts (.vunbind true 7 5) 4 ∧
    (bound [(5, some (7, aRecord 0))]).Lane ((bound []).me.c.bindbase + BitVec.ofNat 64 (32 * 5)) 32 needW false (2 ^ 37 + 0x4A0) 0 ∧
    (bound [(5, some (7, aRecord 0))]).Starts (.vmv true 0 5 3) 4 ∧ recPos (aRecord 0) = 0 ∧ codeWidth (recDfmt (aRecord 0)) = 32 ∧
    (∀ e, e ∈ [0, 1] → (bound [(5, some (7, aRecord 0))]).Lane
      (BitVec.ofNat 64 (recField (aRecord 0) 0 64 + (0 + e) * (32 / 8))) 4 needR false (2 ^ 37 + 0x100 + 4 * e) 0) :=
  ⟨starts_of (by decide +kernel), starts_of (by decide +kernel), by decide +kernel, lanes_of (by decide +kernel), by constructor <;> unfold State.BindRefused streamPair <;> decide +kernel,
    starts_of (by decide +kernel), lane_of (by decide +kernel), starts_of (by decide +kernel), by decide +kernel, by decide +kernel,
    lanes_of (by decide +kernel)⟩

theorem test_stream_refused :
    after (exec (.vbind true 7 2 5) { bound [] with
      mem := Memory.setBytes (bound []).mem (2 ^ 37 + 0x200) (toBytes 32 (aRecord 1 ||| 2#256).toNat) }) (fun t =>
        t.me.c.cause == 11 && t.me.c.tval == 0x800000000200 && t.me.bind == []) = true := by
  decide +kernel

theorem test_streams :
    after (exec (.vbind true 7 2 5) (bound [])) (fun t => t.me.bind == [(5, some (7, aRecord 1))] && t.me.pc == 0x1004) = true ∧
    after (exec (.vunbind true 7 5) (bound [(5, some (7, aRecord 3))])) (fun t =>
      t.me.bind == [] && t.mem.bytes (2 ^ 37 + 0x4A0) 32 == toBytes 32 (aRecord 3).toNat) = true ∧
    after (exec (.vunbind true 7 5) (bound [])) (fun t => t.mem == (bound []).mem) = true ∧
    after (exec (.vmv true 0 5 3) (bound [(5, some (7, aRecord 0))])) (fun t =>
      t.me.v 3 == pair 0x04030201 0x08070605 && t.me.bind == [(5, some (7, aRecord 2))]) = true := by
  decide +kernel

theorem test_copy_witness :
    (let s := vecMem 8 2 0x800000000138 8 0 0
     s.Starts (.xcopy true 0 5 1 2 3) 4 ∧ (s.g 1).toNat % 128 + 8 ≤ 128 ∧ (s.g 2).toNat % 128 + 8 ≤ 128 ∧
     hartCheck s s.cur (s.g 1).toNat 8 1 needR false = .ok 0x800000000100 ∧ hartCheck s s.cur (s.g 2).toNat 8 1 needW false = .ok 0x800000000138 ∧
     (translate s (s.agent s.cur) 0x800000000138 needW).2 = .ok (2 ^ 37 + 0x138) 0 ∧ s.holders (keyLine (2 ^ 37 + 0x138)) = [] ∧
     s.Sound (s.owner s.cur) 0x800000000138 (2 ^ 37 + 0x138) 8 ∧ s.AtHome 0x800000000138 ∧
     (translate s (s.agent s.cur) 0x800000000100 needR).2 = .ok (2 ^ 37 + 0x100) 0 ∧
     s.Sound (s.owner s.cur) 0x800000000100 (2 ^ 37 + 0x100) 8 ∧ s.AtHome 0x800000000100) :=
  ⟨starts_of (by decide +kernel), by decide +kernel, by decide +kernel, by decide +kernel, by decide +kernel, by decide +kernel,
    by decide +kernel, sound_of (by decide +kernel), (home_of (by decide +kernel)).2, by decide +kernel, sound_of (by decide +kernel),
    (home_of (by decide +kernel)).2⟩

theorem test_copies :
    after (exec (.xcopy true 0 5 1 2 3) (vecMem 8 2 0x800000000138 8 0 0)) (fun t =>
      t.mem.bytes (2 ^ 37 + 0x138) 9 == [1, 2, 3, 4, 5, 6, 7, 8, 0] && t.me.pc == 0x1004) = true ∧
    after (exec (.xcopy true 0 5 1 2 3) (vecMem 8 2 0x800000000138 0 0 0)) (fun t => t.mem == (vecMem 8 2 0 0 0 0).mem && t.me.pc == 0x1004) = true := by
  decide +kernel

/-! Tiles and the array (R171 to R192). -/

/-- Hart 0 with vl = 2, v1 = (2.0, 3.0), o0 = (0, 1), g1 = 1, g2 = 0, mtype given, and words in tile 5 and plane rows 1 and 2. -/
def tileHart (mt : BitVec 22) (tile : Map VReg) (fmt : Nat) (row1 row2 : VReg) : Hart :=
  let x := vecHart 2 2 (pair 0x40000000 0x40400000) 0 0 (pair 0 1)
  let d : BitVec 128 := packDesc ⟨0, 0, 0, 0, 0, fmt, false, false, false, true⟩
  { x with f := { x.f with t := tile, plane := [(1, row1), (2, row2)], pdesc := [(1, d), (2, d)] }, c := { x.c with mtype := mt } }

/-- That hart with F32 rows 4.0 and 1.0, tile 5 of rows 0 and 1 given. -/
def tiled (row0 row1 : VReg) : State := user (tileHart 0 [(640, row0), (641, row1)] 0 0x40800000 0x3F800000)

theorem test_tile_starts :
    (let s := tiled (pair 7 8) 0
     s.Starts (.tzero true 5) 8 ∧ s.Starts (.trd true 0 1 5 0 3) 8 ∧ s.Starts (.twr true 0 2 5 1 1) 8 ∧ s.Starts (.tdrain true 0 0 0 0 5 0 3 1) 8 ∧
     s.Starts (.tdrainBp true 0 0 0 0 5 0 76 1) 8 ∧ s.Starts (.mcfg true 1) 8 ∧ s.Starts (.binv true 1 1) 8 ∧ s.me.bind = [] ∧
     mwf 0 0 s.me.f.pdesc = true) :=
  ⟨starts_of (by decide +kernel), starts_of (by decide +kernel), starts_of (by decide +kernel), starts_of (by decide +kernel),
    starts_of (by decide +kernel), starts_of (by decide +kernel), starts_of (by decide +kernel), by decide +kernel, by decide +kernel⟩

theorem test_tile_moves :
    after (exec (.tzero true 5) (tiled (pair 7 8) 0)) (fun t => t.me.f.t == [] && t.me.pc == 0x1008) = true ∧
    after (exec (.trd true 0 0 5 0 3) (tiled (pair 7 8) 0)) (fun t => t.me.v 3 == pair 7 8) = true ∧
    after (exec (.trd true 0 1 5 1 3) (tiled (pair 7 8) (pair 9 6))) (fun t => t.me.v 3 == pair 8 6) = true ∧
    after (exec (.trd true 0 2 5 0 3) (tiled (pair 7 8) (pair 9 6))) (fun t => t.me.v 3 == pair 7 6) = true ∧
    after (exec (.twr true 1 1 5 1 1) (tiled (pair 7 8) 0)) (fun t => t.me.tile 5 0 == pair 7 8 && t.me.tile 5 1 == pair 0 0x40400000) = true ∧
    after (exec (.tdrain true 0 0 1 0 5 0 3 1) (tiled (pair 0x3F800000 0x40400000) 0)) (fun t => t.me.v 3 == 0x46004000 && t.me.c.mflags == 0) = true ∧
    after (exec (.tdrainBp true 0 0 0 0 5 0 76 6) (tiled (pair 0x43800000 0) 0)) (fun t => t.me.v 3 == 0 && t.me.c.mflags != 0) = true ∧
    after (exec (.mcfg true 1) (tiled 0 0)) (fun t => t.me.c.mtype == 1) = true ∧
    after (exec (.binv true 1 1) (tiled 0 0)) (fun t => !(t.me.desc 1).valid && (t.me.desc 2).valid) = true := by
  decide +kernel

/-- An MMA passes its checks and reads no LAZY row. -/
def runnable (s : State) (i : Instr) : Bool :=
  let cx := cxOf s s.cur s.me.f.g 0 0 0
  match mmaOf i with
  | some a => !mmaBad s.me cx s.me.c.mtype a && (mmaReads s.me cx s.me.c.mtype a).all fun r => !(s.me.desc r).lazy
  | none => false

/-- A Q8 MOPA of one group of 32, at a GPOS: codes 2 and 5 less the zero points 1 and 3, four of each. At GPOS 0 the exact sum goes to
the partner tile; at GPOS 7, the last, it is scaled by 1.0 and 1.0 into tile 4. -/
def quantised (gpos : Nat) : State :=
  let x := tileHart 8 [] 8 0x05050505 0
  let d (m : Bool) : BitVec 128 := packDesc ⟨0, 0, 2, gpos, 0, 8, false, m, false, true⟩
  user { x with f := { x.f with
    v := [(1, pair 0x02020202 0x01010101), (64, pair 0x13C00 0x13C00)], plane := [(1, 0x05050505), (2, 0x33C00)]
    pdesc := [(1, d false), (2, d true)] } }

theorem test_mma_witness :
    (let s := tiled 0 0
     s.Starts (.mopa true 0 0 5 1 1) 8 ∧ s.me.bind = [] ∧ s.Starts (.mipa true 0 0 5 2 1 1) 8 ∧ s.Starts (.mrwa true 0 0 5 2 1 1) 8 ∧
     (mmaOf (.mopa true 0 0 5 1 1)).isSome = true ∧
     ([.mopa true 0 0 5 1 1, .mipa true 0 0 5 2 1 1, .mrwa true 0 0 5 2 1 1] : List Instr).all (runnable s) = true ∧
     (let s := user (tileHart 0 [] 1 (BitVec.ofNat 4096 (0x53C00 + 0xFFFF0000 * 2 ^ 32)) (BitVec.ofNat 4096 (0x34000 + 0xFFFF0000 * 2 ^ 32)))
      s.Starts (.mrws true 0 0 5 2 1 1) 8 ∧ runnable s (.mrws true 0 0 5 2 1 1) = true) ∧
     (quantised 7).Starts (.mopa true 0 0 4 1 1) 8 ∧ runnable (quantised 7) (.mopa true 0 0 4 1 1) = true ∧
     ((quantised 7).me.c.vl * 32 / 32 = 2 ∧ (mtAf (quantised 7).me.c.mtype).toNat = 8)) :=
  ⟨starts_of (by decide +kernel), by decide +kernel, starts_of (by decide +kernel), starts_of (by decide +kernel), by decide +kernel,
    by decide +kernel, ⟨starts_of (by decide +kernel), by decide +kernel⟩, starts_of (by decide +kernel), by decide +kernel, by decide +kernel⟩

theorem test_mma :
    after (exec (.mopa true 0 0 5 1 1) (tiled (pair 0x3F800000 5) 0)) (fun t =>
      t.me.tile 5 0 == pair 0x41100000 5 && t.me.tile 5 1 == 0x41400000 && t.me.pc == 0x1008) = true ∧
    after (exec (.mipa true 0 0 5 2 1 1) (tiled 0 0)) (fun t => t.me.tile 5 0 == 0x41300000) = true ∧
    after (exec (.mrwa true 1 0 5 2 1 1) (tiled 0 0)) (fun t => t.me.tile 5 0 == 0x40400000) = true ∧
    after (exec (.mrws true 0 0 5 2 1 1) (user (tileHart 0 [] 1
        (BitVec.ofNat 4096 (0x53C00 + 0xFFFF0000 * 2 ^ 32)) (BitVec.ofNat 4096 (0x34000 + 0xFFFF0000 * 2 ^ 32))))) (fun t =>
      t.me.tile 5 0 == pair 0x40C00000 0x40000000 && t.me.tile 5 1 == pair 3 5 && t.g 2 == 2) = true := by
  decide +kernel

theorem test_mopa_quantised :
    after (exec (.mopa true 0 0 4 1 1) (quantised 0)) (fun t => t.me.f.t == [(640, 8)]) = true ∧
    after (exec (.mopa true 0 0 4 1 1) (quantised 7)) (fun t => t.me.f.t == [(512, 0x41000000)]) = true := by
  decide +kernel

/-- Hart 0 with g1 = 1 and g2 = 0, VA 0 being shared SRAM of owner 1 through a cached leaf, which holds bytes. -/
def tileMem (mt : BitVec 22) (vl : Nat) (bytes : List Byte) : State :=
  let x := tileHart mt [(640, pair 7 8)] 0 0 0
  { user { x with c := { x.c with vl := vl } } with
    modules := [(0, { Module.reset with ctxs := [(1, { userCtx with ranges := [(0, 0x87), (2, 0x800000000000)] })] })]
    tlb := [⟨0, 0, 1, 0, 0x800000000000, 0x200000, 0x2000000119⟩]
    owners := (List.range 20).map fun i => (2 ^ 37 + 128 * i, 1)
    mem := Memory.setBytes [] (2 ^ 37) bytes }

theorem test_tile_memory_witness :
    (let s := tileMem 0 2 [1, 0, 0, 0, 2]
     s.Starts (.tld true 0 0 5 0 2 7) 8 ∧ s.Starts (.tst true 0 0 5 0 2 7) 8 ∧
     (∀ e, e ∈ s.actives 0 → s.Lane (s.g 2 + BitVec.ofNat 64 (4 * e)) 4 needR false (2 ^ 37 + 4 * e) 0x2000000119) ∧
     (∀ e, e ∈ s.actives 0 → s.Lane (s.g 2 + BitVec.ofNat 64 (4 * e)) 4 needW false (2 ^ 37 + 4 * e) 0x2000000119)) :=
  ⟨starts_of (by decide +kernel), starts_of (by decide +kernel), lanes_of (by decide +kernel), lanes_of (by decide +kernel)⟩

/-- Every piece of BLD's rows lies in sound memory. -/
def rowsB (s : State) (wide : Bool) : Bool :=
  (bldRows (cxOf s s.cur s.me.f.g 0 0 0) s.me.c.mtype 7 wide (s.g 1).toNat (s.g 2).toNat).all fun p =>
    (rowPieces p.2).all fun va => laneB s (BitVec.ofNat 64 va) 128 needR false (2 ^ 37 + va) 0x2000000119 && va < 2 ^ 64

theorem rows_of {s : State} {wide : Bool} (h : rowsB s wide = true) :
    ∀ r d va, (r, d) ∈ bldRows (cxOf s s.cur s.me.f.g 0 0 0) s.me.c.mtype 7 wide (s.g 1).toNat (s.g 2).toNat → va ∈ rowPieces d →
      s.Lane (BitVec.ofNat 64 va) 128 needR false (2 ^ 37 + va) 0x2000000119 ∧ va < 2 ^ 64 := by
  intro r d va hr hv
  have := List.all_eq_true.mp (List.all_eq_true.mp h (r, d) hr) va hv
  simp only [Bool.and_eq_true, decide_eq_true_eq] at this
  exact ⟨lane_of this.1, this.2⟩

theorem test_bld_witness :
    (tileMem 0 1 []).Starts (.bld true 1 2 7) 8 ∧ rowsB (tileMem 0 1 []) false = true ∧
    (tileMem 0x90 8 []).Starts (.bldW true 1 2 7) 8 ∧ rowsB (tileMem 0x90 8 []) true = true ∧
    (tileMem 0x90 8 []).me.c.mtype.toNat / 2 ^ 12 % 4 ≠ 3 :=
  ⟨starts_of (by decide +kernel), by decide +kernel, starts_of (by decide +kernel), by decide +kernel, by decide +kernel⟩

theorem test_tile_memory :
    after (exec (.tld true 0 1 5 0 2 7) (tileMem 0 2 [1, 0, 0, 0, 2])) (fun t => t.me.tile 5 0 == pair 1 8 && t.me.tile 5 1 == 2) = true ∧
    after (exec (.tst true 0 0 5 0 2 7) (tileMem 0 2 [1, 0, 0, 0, 2])) (fun t => t.mem == [⟨2 ^ 37, 7⟩, ⟨2 ^ 37 + 4, 8⟩] && t.me.pc == 0x1008) = true ∧
    after (exec (.bld true 1 2 7) (tileMem 0 1 [1, 2, 3, 4])) (fun t =>
      mget 0 t.me.f.plane 1 == 0x04030201 && t.me.desc 1 == ⟨0, 7, 2, 0, 0, 0, false, false, false, true⟩) = true ∧
    after (exec (.bldW true 1 2 7) (tileMem 0x90 8 [0x21, 0x43])) (fun t =>
      mget 0 t.me.f.plane 1 == 0x04030201 && t.me.desc 1 == ⟨0, 7, 9, 0, 0, 8, true, false, false, true⟩ && (t.me.desc 9).md) = true := by
  decide +kernel

/-! Steps of harts (HartSteps). -/

/-- Hart 0 alone, while another hart acts. -/
def seenFrom (x : Hart) : State := { user x with cur := 96 }

/-- A convoy of one instruction at 0x1000 in progress, at element lo. -/
def midway (i : Instr) (lo : Nat) : Conv := { start := 0x1000, insns := [(0x1000, i)], gs := [(1, 1)], lo, bval := 0, vals := [], ahead := none, on := true, flags := 0, kept := [], latch := 0 }

/-- Hart 0 at element lo of VADD v3, v2, v1 on I32, of vl elements. -/
def midVadd (vl lo : Nat) : State :=
  seenFrom { vecHart 2 vl (pair 5 6) (pair 10 20) 0 0 with convoy := some (midway (.vadd true 0 2 1 3) lo) }

theorem test_commit_unit_witness : (midVadd 2 0).Moves 0 ∧ (midVadd 40 0).Moves 0 := by
  unfold State.Moves; decide +kernel

theorem test_commit_unit :
    after (exec (.commitUnit 0) (midVadd 2 0)) (fun t =>
      (t.hart 0).v 3 == pair 15 26 && (t.hart 0).pc == 0x1004 && (t.hart 0).convoy == none && t.cur == 96) = true ∧
    after (exec (.commitUnit 0) (midVadd 40 0)) (fun t =>
      (t.hart 0).v 3 == pair 15 26 && (t.hart 0).pc == 0x1000 && (t.hart 0).convoy == some (midway (.vadd true 0 2 1 3) 32)) = true := by
  decide +kernel

theorem test_mpipe_accept :
    (seenFrom { tileHart 0 [(640, pair 1 2)] 0 0 0 with convoy := some (midway (.tzero true 5) 0) }).Moves 0 ∧
    after (exec (.mpipeAccept 0) (seenFrom { tileHart 0 [(640, pair 1 2)] 0 0 0 with convoy := some (midway (.tzero true 5) 0) }))
      (fun t => (t.hart 0).tile 5 0 == 0 && (t.hart 0).pc == 0x1008) = true := by
  constructor
  · unfold State.Moves; decide +kernel
  · decide +kernel

/-- Hart 0 at level S waits to write g1 to maxvl. -/
def waitsMaxvl : State := seenFrom { superHart [(1, 2)] with hold := some ⟨.order, some (.csrw 3 0x200 1)⟩ }

theorem test_maxvl_change :
    (csrNew (.csrw 3 0x200 1) (waitsMaxvl.acting 0) = some (3, 0x200, 2) ∧
     ({ waitsMaxvl with harts := mset Hart.idle waitsMaxvl.harts 0 { waitsMaxvl.hart 0 with hold := none } } : State).Moves 0 ∧
     waitsMaxvl.hart 1 = Hart.idle) ∧
    after (exec (.maxvlChange 0) waitsMaxvl) (fun t =>
      (t.core 0).q == 2 && decide (64 < (t.core 0).stall) && (t.hart 0).pc == 0x1004 && (t.hart 0).g 3 == 3) = true := by
  constructor
  · unfold State.Moves; decide +kernel
  · decide +kernel

theorem test_lane_stall_end :
    after (exec (.laneStallEnd 5) { State.reset with cores := [(5, { CoreSt.reset with stall := 1 })] }) (fun t => t.cores == []) = true ∧
    after (exec (.laneStallEnd 5) { State.reset with cores := [(5, { CoreSt.reset with stall := 2 })] }) (fun t => (t.core 5).stall == 2) = true := by
  decide +kernel

/-- Hart 0 waits at a load of owner-tagged sync SRAM. -/
def waitsLoad (w : Why) : State :=
  { seenFrom { userHart [(1, 8)] with hold := some ⟨w, some (.lw 3 1 0 0)⟩ } with
    mem := [(2 ^ 38 + 8, 7)], owners := [(2 ^ 38 + 8, 1)] }

theorem test_held_load_witness :
    accessOf (.lw 3 1 0 0) ((waitsLoad (.page 0 1 0)).acting 0) = some (8, 4) ∧
    ({ waitsLoad (.page 0 1 0) with
      harts := mset Hart.idle (waitsLoad (.page 0 1 0)).harts 0 { (waitsLoad (.page 0 1 0)).hart 0 with hold := none } } : State).Moves 0 ∧
    ({ waitsLoad .order with
      harts := mset Hart.idle (waitsLoad .order).harts 0 { (waitsLoad .order).hart 0 with hold := none } } : State).Moves 0 := by
  unfold State.Moves; decide +kernel

theorem test_held_load :
    after (exec (.loadDataReturn 0) (waitsLoad (.page 0 1 0))) (fun t =>
      (t.hart 0).g 3 == 7 && (t.hart 0).pc == 0x1004 && (t.hart 0).hold == none && t.cur == 96) = true ∧
    after (exec (.loadDataReturn 0) (waitsLoad .order)) (fun t => t == waitsLoad .order) = true ∧
    after (exec (.pageRequestRetry 0 0) (waitsLoad .order)) (fun t =>
      (t.hart 0).g 3 == 7 && (t.hart 0).pc == 0x1004 && (t.hart 0).hold == none && t.cur == 96) = true := by
  decide +kernel

/-- Hart 0 waits for die 1 since cycle 5. -/
def waitsRemote (clk : Nat) : State :=
  { waitsLoad (.remote 1 5) with dies := [(0, { Die.reset with clk })], far := [⟨0, 0, 2 ^ 48, 1, 0, 2 ^ 40, .read none, 0, 8, 5, .lost, none⟩] }

theorem test_held_load_quiet :
    pageAsked (waitsLoad (.page 0 1 0)) 0 1 (ctxGen ((waitsLoad (.page 0 1 0)).hart 0).c.ctxid) 0 = false ∧
    ((waitsLoad .order).hart 0).pend = [] ∧ respLost (waitsRemote 65541) 0 1 = true := by
  decide +kernel

theorem test_response_timeout :
    after (exec (.responseTimeout 0) (waitsRemote 65541)) (fun t => (t.hart 0).hold == some ⟨.remoteFailed 1, some (.lw 3 1 0 0)⟩) = true ∧
    after (exec (.responseTimeout 0) (waitsRemote 65540)) (fun t => t == waitsRemote 65540) = true := by
  decide +kernel

/-- Hart 0 runs node 1 with a pre-emption pending since cycle 5 and a safelim of 10 cycles. -/
def preempted (clk : Nat) : State :=
  let x := userHart []
  { seenFrom { x with node := some 1, preqAt := 5, c := { x.c with preq := true, safelim := 10 } } with dies := [(0, { Die.reset with clk })] }

theorem test_safelim :
    after (exec (.safelimExpiry 0) (preempted 15)) (fun t => (t.hart 0).saving == some (2, 0, BitVec.allOnes 256)) = true ∧
    after (exec (.safelimExpiry 0) (preempted 14)) (fun t => t == preempted 14) = true := by
  decide +kernel

theorem test_fence_token_complete :
    after (exec (.fenceTokenComplete 0) (seenFrom { userHart [] with tokens := [(1, []), (2, [7])] })) (fun t =>
      (t.hart 0).tokens == [(2, [7])]) = true ∧
    after (exec (.fenceTokenComplete 0) (seenFrom { userHart [] with tokens := [(1, [7])] })) (fun t => (t.hart 0).tokens == [(1, [7])]) = true := by
  decide +kernel

/-- A store of a word by hart 0, at an offset of sync SRAM of a die. -/
def aStore (id die off : Nat) : Elt :=
  { id, op := 0, e := 0, cls := 3, kind := .write, place := .issued, va := off, ipa := die * 2 ^ 48 + 9 * 2 ^ 44 + off, size := 4
    key := some (die * 2 ^ 40 + 2 ^ 38 + off), dpa := none, data := [id % 256, 0, 0, 1], srcVa := 0, src := [], dst := 0, ew := 0, owner := 1
    gen := 0, seenBy := [], logged := false }

/-- Hart 0 has two buffered stores to one line of die 1. -/
def buffering : State := seenFrom { userHart [] with pend := [aStore 1 1 8, aStore 2 1 12] }

theorem test_buffer_send_witness :
    (∀ d, d ∈ (buffering.hart 0).pend → d.op = 0 ∧ d.kind = .write ∧ d.place = .issued ∧
      d.key.map keyLine = some (keyLine (2 ^ 40 + 2 ^ 38)) ∧ d.cls = 3) ∧
    ((buffering.hart 0).pend.map (·.id)).Nodup ∧ flowRoom buffering (flowId 0 1 3) = true ∧ ipaHome (aStore 1 1 8).ipa ≠ 0 / 128 := by
  decide +kernel

theorem test_buffer_send :
    after (exec (.combiningBufferSend 0 2) buffering) (fun t =>
      (t.hart 0).pend.map (·.place) == [.sent, .sent] && (t.chan 0 1 (flowPlane buffering (flowId 0 1 3))).queue.map (·.body) == [.stores 0 [1, 2]]) = true ∧
    after (exec (.combiningBufferSend 0 1) buffering) (fun t =>
      (t.hart 0).pend.map (·.place) == [.sent, .issued] && (t.chan 0 1 (flowPlane buffering (flowId 0 1 3))).queue.map (·.body) == [.stores 0 [1]]) = true := by
  decide +kernel

/-! Steps of elements (ElementSteps). -/

/-- An element of hart 0 at offset 8 of sync SRAM of its die. -/
def anElt (op : Nat) (kind : EltKind) (data : List Byte) : Elt := { aStore 1 0 8 with op, kind, key := none, data, dst := 3, ew := 32, cls := 2 }

/-- Hart 0 has that element outstanding, of a non-blocking instruction if op is not 0; the word holds 7. -/
def withElt (el : Elt) : State :=
  { seenFrom { userHart [] with
      pend := [el], nb := if el.op = 0 then [] else [{ id := el.op, cls := el.cls, open_ := 1, issued := true, vd := none, pc := 0, colls := [] }] } with
    mem := [(2 ^ 38 + 8, 7)], owners := [(2 ^ 38 + 8, 1)] }

/-- The facts of State.Element, computed. -/
def elementB (s : State) (h : Nat) (el : Elt) (n : Nat) (need : Need) (key : Nat) : Bool :=
  decide ((s.hart h).pend = [el] ∧ (s.hart h).seen = [] ∧ el.asked s h = false ∧ behindLog s h el = false ∧
    el.place ≠ .sent ∧ (s.hart h).uncommitted el = false ∧ agentB s (el.agent h false) el.ipa n need key = true)

theorem element_of {s : State} {h : Nat} {el : Elt} {n : Nat} {need : Need} {key : Nat} (e : elementB s h el n need key = true) :
    s.Element h el n need key := by
  obtain ⟨h1, h2, h3, h4, h5, h6, h7⟩ := of_decide_eq_true e
  exact ⟨h1, h2, h3, h4, h5, h6, agent_of h7⟩

theorem test_element_witness :
    (withElt (anElt 9 .write [1, 2, 3, 4])).Element 0 (anElt 9 .write [1, 2, 3, 4]) 4 needW (2 ^ 38 + 8) ∧
    (withElt (anElt 9 .read [])).Element 0 (anElt 9 .read []) 4 needR (2 ^ 38 + 8) ∧
    (withElt (anElt 9 (.amo 1) [5, 0, 0, 0])).Element 0 (anElt 9 (.amo 1) [5, 0, 0, 0]) 4 needRW (2 ^ 38 + 8) ∧
    (∃ o, ((withElt (anElt 9 .read [])).hart 0).nb = [o] ∧ o.id = 9 ∧ o.open_ = 1 ∧ o.issued = true ∧ o.cls = 2 ∧ o.colls = []) :=
  ⟨element_of (by decide +kernel), element_of (by decide +kernel), element_of (by decide +kernel), ⟨9, 2, 1, true, none, 0, []⟩, rfl,
    by decide +kernel⟩

theorem test_element_complete :
    after (exec (.nbElementComplete 0 9 0) (withElt (anElt 9 .write [1, 2, 3, 4]))) (fun t =>
      t.mem.bytes (2 ^ 38 + 8) 4 == [1, 2, 3, 4] && (t.hart 0).pend == [] && (t.hart 0).nb == [] && (t.hart 0).ccv 2 == 1) = true ∧
    after (exec (.nbElementComplete 0 9 0) (withElt (anElt 9 .read []))) (fun t =>
      laneOf ((t.hart 0).v 3) 32 0 == 7 && (t.hart 0).pend == [] && (t.hart 0).ccv 2 == 1) = true ∧
    after (exec (.nbElementComplete 0 9 0) (withElt (anElt 9 (.amo 0) [5, 0, 0, 0]))) (fun t =>
      t.mem.bytes (2 ^ 38 + 8) 4 == [12, 0, 0, 0] && (t.hart 0).pend == [] && (t.hart 0).ccv 2 == 1) = true := by
  decide +kernel

/-- A blocking store of hart 0 in its core's side log, and a load in its replay queue. -/
def logged : State :=
  { withElt { anElt 0 .write [1, 2, 3, 4] with place := .sideLog } with cores := [(0, { CoreSt.reset with log := [(0, 1)] })] }
/-- A load element in the replay queue. -/
def queued : State :=
  { withElt { anElt 9 .read [] with place := .replay } with cores := [(0, { CoreSt.reset with replay := [(2, 1), (0, 1)] })] }

theorem test_queues_witness :
    logged.Element 0 { anElt 0 .write [1, 2, 3, 4] with place := .sideLog } 4 needW (2 ^ 38 + 8) ∧ (logged.core 0).log = [(0, 1)] ∧
    queued.Element 0 { anElt 9 .read [] with place := .replay } 4 needR (2 ^ 38 + 8) ∧ (queued.core 0).replay[1]? = some (0, 1) :=
  ⟨element_of (by decide +kernel), by decide +kernel, element_of (by decide +kernel), by decide +kernel⟩

theorem test_queues :
    after (exec (.sideLogReplay 0) logged) (fun t =>
      t.mem.bytes (2 ^ 38 + 8) 4 == [1, 2, 3, 4] && (t.hart 0).pend == [] && (t.core 0).log == []) = true ∧
    after (exec (.replayQueueRead 0 1) queued) (fun t =>
      laneOf ((t.hart 0).v 3) 32 0 == 7 && (t.hart 0).pend == [] && (t.core 0).replay == [(2, 1)]) = true := by
  decide +kernel

/-- A store of hart 0 whose request has arrived at die 1. -/
def atHome : State :=
  { seenFrom { userHart [] with pend := [{ aStore 1 1 8 with place := .sent }] } with
    arrived := [⟨4, 0, 1, 0, [1], 0, none, 1, 3, false, 0, 0⟩], owners := [(2 ^ 40 + 2 ^ 38 + 8, 1)] }

theorem test_request_apply :
    (peerOk atHome ({ aStore 1 1 8 with place := .sent }.agent 0 false) (aStore 1 1 8).ipa = true ∧
      atHome.Open (aStore 1 1 8).ipa ∧ atHome.Sound 1 (aStore 1 1 8).ipa (2 ^ 40 + 2 ^ 38 + 8) 4 ∧
      atHome.holders (keyLine (2 ^ 40 + 2 ^ 38 + 8)) = [] ∧ flowRoom atHome (flowId (unitSource 1 0) 0 3) = true) ∧
    after (exec (.remoteRequestApply 4) atHome) (fun t =>
      t.mem.bytes (2 ^ 40 + 2 ^ 38 + 8) 4 == [1, 0, 0, 1] && t.arrived == [] && (t.hart 0).pend == [] &&
        (t.hart 0).unacked == [⟨4, 3, [], 1, 0, false⟩] &&
        (t.chan 1 0 false).queue.map (fun p => (p.body, p.owner, p.flow)) == [(.ack 0 4, 1, flowId (unitSource 1 0) 0 3)]) = true :=
  ⟨⟨by decide +kernel, ⟨by decide +kernel, by decide +kernel⟩, sound_of (by decide +kernel), by decide +kernel, by decide +kernel⟩,
    by decide +kernel⟩

/-- Hart 0 retries an LDF for a record of die 0; its word is full or empty. -/
def retrying (full : Bool) : State :=
  { seenFrom { userHart [] with st := .run, hold := some ⟨.tagRetry 8 77, some (.ldf 3 1 0 0)⟩ } with
    dies := [(0, { Die.reset with retries := [⟨0, 2 ^ 38 + 8, 0, 0, 0, 0, 1⟩] })]
    mem := [(2 ^ 38 + 8, 7)], owners := [(2 ^ 38 + 8, 1)], full := if full then [(2 ^ 38 + 8, true)] else [] }
/-- It does so at a bank of die 1. -/
def retryingFar : State :=
  let k := 2 ^ 40 + 2 ^ 38 + 8
  { retrying true with
    dies := [(1, { Die.reset with retries := [⟨0, k, 0, 0, 0, 0, 1⟩] })], mem := [(k, 7)], owners := [(k, 1)], full := [(k, true)] }

theorem test_tag_retry :
    (refusedTags (retrying true) 0 = [(0, ⟨0, 2 ^ 38 + 8, 0, 0, 0, 0, 1⟩)] ∧ refusedWaits (retrying true) 0 = [] ∧
      (retrying true).tagOf (2 ^ 38 + 8) = 1 ∧ (retrying true).poisoned (2 ^ 38 + 8) 4 = false ∧
      (retrying true).testing (2 ^ 38 + 8) 4 = false) ∧
    after (exec (.tagRecordRetry 0) retryingFar) (fun t =>
      t.hart 0 == retryingFar.hart 0 && !t.isFull (2 ^ 40 + 2 ^ 38 + 8) && t.packets.any fun p => p.body == .notice 0 0 7) = true ∧
    after (exec (.tagRecordRetry 0) (retrying true)) (fun t =>
      (t.hart 0).served == some 7 && (t.hart 0).st == .run && !t.isFull (2 ^ 38 + 8) && (t.die 0).retries == []) = true ∧
    after (exec (.tagRecordRetry 0) (retrying false)) (fun t =>
      (t.hart 0).hold == some ⟨.tag 8 77, some (.ldf 3 1 0 0)⟩ && (t.hart 0).st == .park && (t.die 0).recs == [⟨0, 2 ^ 38 + 8, 0, 0, 0, 0, 1⟩] &&
        (t.die 0).retries == []) = true := by
  decide +kernel

/-- Hart 0 waits for a word, or for a chamber, until cycle 77 of its die. -/
def expiring (w : Why) (clk : Nat) : State :=
  { seenFrom { userHart [] with st := .park, hold := some ⟨w, some (.ldf 3 1 0 0)⟩, c := { (userHart []).c with tvec := 0x4000 } } with
    dies := [(0, { Die.reset with clk, recs := [⟨0, 2 ^ 38 + 8, 0, 0, 0, 0, 1⟩], chRecs := [⟨2 ^ 38, 0, false, 1⟩] })] }

theorem test_wait_timeouts :
    noticeFlies (expiring (.tag 8 77) 77) 0 0 = false ∧
    after (exec (.tagWaitTimeout 0 0 0) (expiring (.tag 8 77) 77)) (fun t =>
      (t.hart 0).c.cause == 9 && (t.hart 0).c.tval == 8 && (t.hart 0).pc == 0x4000 && (t.die 0).recs == [] && (t.hart 0).st == .run) = true ∧
    after (exec (.tagWaitTimeout 0 0 0) (expiring (.tag 8 77) 76)) (fun t => t == expiring (.tag 8 77) 76) = true ∧
    after (exec (.chamberWaitTimeout 0) (expiring (.chamber 16 77) 77)) (fun t =>
      (t.hart 0).c.cause == 9 && (t.hart 0).c.tval == 16 && (t.hart 0).c.epc == 0x1000 && (t.die 0).chRecs == []) = true := by
  decide +kernel

/-- Hart 0 waits for page 5 of owner 1, request 3 of module 0. -/
def paging : State :=
  { State.reset with
    harts := [(0, { userHart [] with hold := some ⟨.page 0 1 5, some (.lw 3 1 0 0)⟩ })]
    modules := [(0, { Module.reset with preqs := [⟨3, 1, 0, 5, 0, [0]⟩] })] }

theorem test_page_answer :
    (paging.ctx 0 1).gen = 0 ∧
    after (exec (.hostPageAnswer 0 3 0 1) paging) (fun t =>
      (t.hart 0).hold == some ⟨.pageFailed 0x5000, some (.lw 3 1 0 0)⟩ && (t.md 0).preqs == []) = true ∧
    after (exec (.hostPageAnswer 0 3 0 0) paging) (fun t =>
      (t.md 0).preqs.map (·.page) == [5] && t.out == [.pageRequest 0 1 1 0 0x5000 0] && mget 0 (t.ctx 0 1).errs 3 == 1) = true := by
  decide +kernel

/-- Tables of owner 1 on die 0 whose root is at DPA 0x10000: a 2 MiB leaf maps IPA 0 of HBM to DPA 0. -/
def tables (leaf : List Byte) : Memory :=
  let at_ := dpaKey State.reset 0
  [(at_ 0x10000, [1, 0, 2]), (at_ 0x20000, [1, 0, 3]), (at_ 0x30000, leaf), (ctlKey 0 0x208, [1, 0, 1])].foldl
    (fun m p => Memory.setBytes m p.1 p.2) []

/-- The page is mapped. -/
def mapped : State := { paging with mem := tables [0x19, 1] }

theorem test_page_mapped :
    ((walk (mapped.setMd 0 { mapped.md 0 with preqs := [] }) 1 0x5000).2 != .miss) = true ∧
    after (exec (.hostPageAnswer 0 3 0 0) mapped) (fun t => (t.md 0).preqs == [] && (t.hart 0).hold == (mapped.hart 0).hold) = true := by
  decide +kernel

/-! Steps at homes (HomeSteps). -/

/-- Line 100 of die 0 with replicas on dies 1 and 2, its collapse 7 being collected, and a hart of die 0 that waits for it. -/
def collapsing (ds : List (Nat × Bool)) : State :=
  { State.reset with
    replicas := [(401, some ⟨0, 0, 0, [], []⟩), (402, some ⟨0, 0, 0, [], []⟩)], collapses := [⟨7, 100, ds⟩], serial := 8
    harts := [(0, { userHart [] with seen := [⟨7, 3, true, false, false⟩] })] }

theorem test_collapse :
    (collapseOf (collapsing [(1, false), (2, true)]) 100 1 false).isSome = true ∧
    after (exec (.replicaInvalidate 100 1) (collapsing [(1, false), (2, false)])) (fun t =>
      t.replicas == [(402, some ⟨0, 0, 0, [], []⟩)] && t.collapses == [⟨7, 100, [(1, true), (2, false)]⟩]) = true ∧
    after (exec (.collapseAck 100 2) (collapsing [(1, false), (2, true)])) (fun t =>
      t.collapses == [⟨7, 100, [(1, false)]⟩] && (t.hart 0).seen.length == 1) = true ∧
    after (exec (.collapseAck 100 2) (collapsing [(2, true)])) (fun t => t.collapses == [] && (t.hart 0).seen == []) = true ∧
    after (exec (.collapseAck 100 1) (collapsing [(1, false)])) (fun t => t == collapsing [(1, false)]) = true := by
  decide +kernel

/-- Hart 0 of die 0 waits at its home die 4 for a line of region 5 of module 1, whose GEN is 2; it was steered at some GEN. -/
def bouncing (g : BitVec 4) : State :=
  { State.reset with
    harts := [(0, { userHart [] with hold := some ⟨.home 0x4800000000100 g, some (.lw 3 1 0 0)⟩ })]
    modules := [(1, { Module.reset with regions := [(5, { Region.reset with base := 0x4800000000000, lsize := 21, en := true, gen := 2 })] })] }

theorem test_bounce :
    (steerGen (bouncing 1) 0x4800000000100 = 2 ∧ (regionOf (bouncing 1) 1 0x4800000000100).map (·.1) = some 5) ∧
    after (exec (.generationBounce 0) (bouncing 1)) (fun t =>
      (mget Region.reset (t.md 1).regions 5).bounces == 1 && t.harts == (bouncing 2).harts) = true ∧
    after (exec (.generationBounce 0) (bouncing 2)) (fun t => t == bouncing 2) = true := by
  decide +kernel

theorem test_window_lines :
    after (exec (.windowLineInvalidate 0 2) { windowed [(2, { openWindow with isOpen := false, closing := some 9 })] [] with
      winLines := [(winKey 0 0x4800000000080, some ⟨0, 0, 0x4800000000080, [1], []⟩), (winKey 0 0x4900000000080, some ⟨0, 0, 0x4900000000080, [1], []⟩)] }) (fun t =>
        (mget Window.closed (t.die 0).windows 2).closing == none && t.winLines == [(winKey 0 0x4900000000080, some ⟨0, 0, 0x4900000000080, [1], []⟩)]) = true := by
  decide +kernel

/-- Die 0 caches a page of owner 1. -/
def caching : State := { State.reset with tlb := [cached] }

theorem test_invalidation_message :
    after (exec (.translationInvalidationMessage 0 0x5FFF 0) caching) (fun t => t.out == [.invalDone 0 false]) = true ∧
    after (exec (.translationInvalidationMessage 0 0x5FFF 0x4100) caching) (fun t => t.out == [.invalDone 0 false]) = true ∧
    after (exec (.translationInvalidationMessage 0 0x5FFF 0x100) State.reset) (fun t => t.out == [.invalDone 0 true]) = true ∧
    (invalidated 0x5FFF 0x100 0x5000 0x1000 ∧ cached.hits 1 0x5000 0x1000) ∧
    after (exec (.translationInvalidationMessage 0 0x5FFF 0x100) caching) (fun t =>
      t.out == [] && t.invals == [⟨1, 0, 1, 0x5000, 0x1000, [0]⟩]) = true := by
  unfold invalidated TlbEnt.hits; decide +kernel

theorem test_tlb_invalidate :
    after (exec (.tlbInvalidate 1 0) { caching with invals := [⟨1, 0, 1, 0x5000, 0x1000, [0]⟩] }) (fun t =>
      t.tlb == [] && t.invals == [] && t.out == [.invalDone 0 true]) = true ∧
    after (exec (.tlbInvalidate 1 0) { caching with invals := [⟨1, 0, 1, 0x6000, 0x1000, [0, 3]⟩] }) (fun t =>
      t.tlb == [cached] && t.invals == [⟨1, 0, 1, 0x6000, 0x1000, [3]⟩] && t.out == []) = true := by
  decide +kernel

/-- Shared SRAM of die 0 holds bytes at 0x100. -/
def plainMem : State := { State.reset with mem := Memory.setBytes [] (2 ^ 37 + 0x100) [1, 2, 3, 4, 5] }

theorem test_host_access :
    ((hostTarget plainMem 0 0 0x800000000102 4 needR).2 = none ∧
      (hostTarget plainMem 0 0 0x800000000104 4 needR).2 = some (2 ^ 37 + 0x104, []) ∧
      hostTarget plainMem 0 0 0x800000000100 8 needW = (plainMem, some (2 ^ 37 + 0x100, [])) ∧
      plainMem.Sound 0 0x800000000100 (2 ^ 37 + 0x100) 8) ∧
    after (exec (.hostAccess 0 0 false 0x800000000102 4 0) plainMem) (fun t => t.out == [.hostDone 0 0 false]) = true ∧
    after (exec (.hostAccess 0 0 false 0x800000000104 4 0) plainMem) (fun t => t.out == [.hostDone 0 5 true] && t.mem == plainMem.mem) = true ∧
    after (exec (.hostAccess 0 0 true 0x800000000104 2 0x12345) plainMem) (fun t =>
      t.out == [.hostDone 0 0 true] && t.mem.bytes (2 ^ 37 + 0x100) 8 == [1, 2, 3, 4, 0x45, 0x23, 0, 0] && t.raced == none) = true :=
  ⟨⟨by decide +kernel, by decide +kernel, by decide +kernel, sound_of (by decide +kernel)⟩, by decide +kernel, by decide +kernel,
    by decide +kernel⟩

/-- Owner 1's page of HBM, for the host's accesses, or its atomics too: HV is bit 7 and SA bit 6. -/
def hosted (leaf : List Byte) : State :=
  let key := dpaKey State.reset 0 0x5000
  { State.reset with mem := Memory.setBytes (tables leaf) key [7], keyTag := [(keyLine key, State.reset.keyOf 0 1 0x5000)] }

theorem test_host_atomic :
    (match hostTarget (hosted [0xD9, 1]) 0 1 0x5000 4 needRW with
      | (t, some (key, ls)) => key == dpaKey State.reset 0 0x5000 && ls != [] && (ls.all fun e => e.getLsbD 6) &&
        soundB (hosted [0xD9, 1]) 1 0x5000 key 4 && (hosted [0xD9, 1]).holders (keyLine key) == [] && t.mem == (hosted [0xD9, 1]).mem
      | (_, none) => false) = true ∧
    after (exec (.hostAccess 0 1 true 0x5000 4 5) (hosted [0x99, 1])) (fun t =>
      t.out == [.hostDone 0 0 true] && t.raced.map (·.2) == some (dpaKey State.reset 0 0x5000, [7, 0, 0, 0])) = true ∧
    after (exec (.hostAtomic 0 1 0 0x5000 4 5 0) (hosted [0xD9, 1])) (fun t =>
      t.out == [.hostDone 0 7 true] && t.mem.bytes (dpaKey State.reset 0 0x5000) 4 == [12, 0, 0, 0]) = true ∧
    after (exec (.hostAtomic 0 1 9 0x5000 4 5 8) (hosted [0xD9, 1])) (fun t =>
      t.out == [.hostDone 0 7 true] && t.mem.bytes (dpaKey State.reset 0 0x5000) 4 == [7, 0, 0, 0]) = true ∧
    after (exec (.hostAtomic 0 1 0 0x5000 4 5 0) (hosted [0x99, 1])) (fun t => t.out == [.hostDone 0 0 false]) = true := by
  decide +kernel

/-- A trigger of owner 0 that copies 4 bytes in shared SRAM of die 0. -/
def aJob (e : Nat) : CopyJob :=
  { id := 5, owner := 0, chamber := 0x900000000040, dst := 0x800000000200, src := 0x800000000100, count := 4, cls := 0, notify := 0, e, kind := 2
    loaded := true, told := none }

/-- Die 0's Lockkeeper carries it out. -/
def copying (e : Nat) : State := { plainMem with dies := [(0, { Die.reset with copies := [aJob e] })] }

theorem test_trigger_copy_witness :
    check4 (copying 0) ((aJob 0).agent (copying 0) 0) 0 0x800000000100 4 needR false = true ∧
    check4 (copying 0) ((aJob 0).agent (copying 0) 0) 0 0x800000000200 4 needW false = true ∧
    toldPage (copying 0) (aJob 0).told 0 = false ∧
    (copying 0).AgentAt ((aJob 0).agent (copying 0) 0) 0x800000000100 4 needR (2 ^ 37 + 0x100) ∧
    (copying 0).AgentAt ((aJob 0).agent (copying 0) 0) 0x800000000200 4 needW (2 ^ 37 + 0x200) :=
  ⟨by decide +kernel, by decide +kernel, by decide +kernel, agent_of (by decide +kernel), agent_of (by decide +kernel)⟩

theorem test_trigger_copy :
    after (exec (.triggerCopySegment 0 0) (copying 0)) (fun t =>
      t.mem.bytes (2 ^ 37 + 0x200) 8 == [1, 2, 3, 4, 0, 0, 0, 0] && (t.die 0).copies == [aJob 1]) = true ∧
    after (exec (.triggerCopySegment 0 0) (copying 1)) (fun t => (t.die 0).copies == [] && t.mem == plainMem.mem) = true := by
  decide +kernel

/-! Steps of contexts (ContextSteps). -/

/-- Module 0 with owner 1's context running, nothing else; a record of module 0 is changed by f. -/
def moduleWith (c : Ctx) (f : Module → Module) : State :=
  { State.reset with modules := [(0, f { Module.reset with ctxs := [(1, c)] })] }

/-- A launch record with list VA 0, this COUNT, context 0 and SEQ 9. -/
def launchRecord (count : Nat) : BitVec 512 := BitVec.ofNat 512 (count * 2 ^ 64 + 9 * 2 ^ 504)

theorem test_launch_window :
    after (exec (.launchWindowWrite 0 1 66 2 0x1234) (moduleWith userCtx id)) (fun t =>
      t.mem.bytes (ctlKey 0 (0x41000 + 65)) 4 == [0, 0x34, 0x12, 0] && (t.md 0).parses == []) = true ∧
    after (exec (.launchWindowWrite 0 1 64 64 (launchRecord 1)) (moduleWith userCtx fun m => { m with ready := true })) (fun t =>
      t.mem.bytes (ctlKey 0 (0x41000 + 64)) 64 == toBytes 64 (launchRecord 1).toNat && (t.md 0).parses == [(1, 1, toBytes 64 (launchRecord 1).toNat)]) = true := by
  decide +kernel

/-- That record waits to be parsed; VA 0 names the descriptor at VA 128, whose CLASS is 2. -/
def launching (c : Ctx) (count : Nat) : State :=
  { moduleWith c fun m => { m with parses := [(1, 1, toBytes 64 (launchRecord count).toNat)] } with
    owners := [(2 ^ 38, 1), (2 ^ 38 + 4, 1)] ++ (List.range 20).map fun i => (2 ^ 38 + 128 + 4 * i, 1)
    mem := [(2 ^ 38, 128), (2 ^ 38 + 136, 2)] }

theorem test_launch_witness :
    (let s := launching userCtx 1
     (s.ctx 0 1).st = .run ∧ basinOpen s 0 = true ∧ s.AgentReads (lineMonitor s 0 1 none) 0 8 8 [128, 0, 0, 0, 0, 0, 0, 0] ∧
     s.AgentReads (lineMonitor s 0 1 none) 128 80 128 (s.mem.bytes (2 ^ 38 + 128) 80) ∧
     (descOf s (lineMonitor s 0 1 none) 128 (s.mem.bytes (2 ^ 38 + 128) 80)).isSome = true) := by
  refine ⟨by decide +kernel, by decide +kernel, ⟨0x900000000000, 2 ^ 38, by decide +kernel, agent_of (by decide +kernel), by decide +kernel⟩,
    ⟨0x900000000080, 2 ^ 38 + 128, by decide +kernel, agent_of (by decide +kernel), rfl⟩, by decide +kernel⟩

theorem test_launch_parse :
    after (exec (.launchParse 0 1 1) (launching { userCtx with st := .opened } 1)) (fun t => t.out == [.report 0 1 1 9 2] && (t.md 0).parses == []) = true ∧
    after (exec (.launchParse 0 1 1) (launching userCtx 0)) (fun t => t.out == [.report 0 1 1 9 1] && (t.md 0).launches == []) = true ∧
    after (exec (.launchParse 0 1 1) (launching userCtx 1)) (fun t =>
      t.out == [] && (t.md 0).launches.map (fun l => (l.owner, l.slot, l.seq, l.live, l.status, l.parsing)) == [(1, 1, 9, 1, 0, false)] &&
        (t.md 0).basin.map (fun e => (e.owner, e.d.va, e.d.cls)) == [(1, 128, 2)]) = true := by
  decide +kernel

theorem test_spill :
    (anEntry 9).need ≤ 0 + max 1 userCtx.weight.toNat ∧
    after (exec (.spillAdmission 0) (moduleWith { userCtx with spill := [9] } fun m => { m with spilled := [anEntry 9] })) (fun t =>
      (t.md 0).spilled == [] && (t.md 0).basin.map (·.id) == [9] && (t.ctx 0 1).spill == [] && (t.ctx 0 1).deficit == 0) = true := by
  decide +kernel

/-- Die 0 is owner 1's partition; entry 9 is in the Basin, and in the dispatch queue if queued. -/
def dispatching (queued : Bool) : State :=
  { moduleWith { userCtx with sbase := 0x100000, ssize := 0x1000, tvec := 0x4001 } fun m => { m with basin := [anEntry 9] } with
    dies := [(0, { Die.reset with pOwner := 1, pState := 1, queue := if queued then [9] else [], claims := if queued then [(9, 0)] else [] })] }

theorem test_dispatch_witness :
    (∀ b h, h / 128 = 0 → ((dispatching b).hart h).st = .idle ∧ ((dispatching b).hart h).pend = [] ∧ ((dispatching b).hart h).unacked = []) ∧
    (∀ b k, ((dispatching b).core k).offline = false) ∧
    (∀ b, ((dispatching b).md 0).doff.getLsbD 0 = false ∧ ((dispatching b).die 0).resetting = none ∧ ((dispatching b).die 0).decided = false) ∧
    (∀ x, x / 4 = 0 → x ≠ 0 → wouldClaim (dispatching false) x (anEntry 9) = false) ∧
    ∀ x, x / 4 = 0 → ((dispatching false).die x).queue = [] := by
  refine ⟨fun _ _ _ => ⟨rfl, rfl, rfl⟩, fun _ _ => rfl, by decide +kernel, ?_, ?_⟩ <;>
  · intro x hx
    have : x = 0 ∨ x = 1 ∨ x = 2 ∨ x = 3 := by omega
    rcases this with rfl | rfl | rfl | rfl <;> decide +kernel

theorem test_dispatch :
    after (exec (.dispatchDecision 0) (dispatching false)) (fun t =>
      (t.die 0).queue == [9] && (t.die 0).claims == [(9, 0)] && (t.die 0).decided) = true ∧
    after (exec (.nodePlacement 0) (dispatching true)) (fun t =>
      let y := t.hart 0
      y.st == .run && y.pc == 0x2000 && y.g 2 == 0x101000 && y.g 8 == 1 && y.c.ctxid == 0x100000 && y.c.tvec == 0x4000 &&
        (t.md 0).basin == [] && (t.ctx 0 1).slots == [0] && (t.die 0).queue == []) = true := by
  decide +kernel

theorem test_save_complete :
    after (exec (.saveComplete 0 1) (moduleWith userCtx fun m => { m with nodes := [{ aNode with ranks := [(0, .saved), (1, .ended)] }] })) (fun t =>
      (t.md 0).basin.map (fun e => (e.node, e.owner, e.launch, e.d.width)) == [(some 1, 1, 1, 1)]) = true := by
  decide +kernel

/-- Die 0 is owner 1's partition in a state; harts given. -/
def partition (st : BitVec 2) (hs : Map Hart) : State :=
  { moduleWith userCtx fun m => { m with launches := [aLaunch 1], basin := [anEntry 9] } with
    dies := [(0, { Die.reset with pOwner := 1, pState := st, clk := 70 })], harts := hs }

theorem test_partition :
    after (exec (.partitionSuspend 0) (partition 1 [(0, userHart [])])) (fun t =>
      (t.die 0).pState == 2 && (t.hart 0).c.preq && (t.hart 0).preqAt == 70) = true ∧
    after (exec (.partitionSuspend 0) (partition 1 [(96, ctlHart [])])) (fun t => (t.die 0).pState == 3 && !(t.hart 96).c.preq) = true ∧
    after (exec (.partitionResume 0) (partition 3 [])) (fun t => (t.die 0).pState == 1) = true := by
  decide +kernel

theorem test_kill :
    ([.hostKill 0 1, .partitionKill 0] : List Instr).all (fun i =>
      after (exec i (partition 1 [(0, userHart []), (96, ctlHart [])])) (fun t =>
        (t.ctx 0 1).st == .dying && (t.ctx 0 1).ranges == [] && (t.hart 0).st == .idle && t.hart 96 == ctlHart [] && t.out == [.report 0 1 0 0 4] &&
          (t.md 0).launches == [] && (t.md 0).basin == [])) = true := by
  decide +kernel

theorem test_teardown :
    inTransit (moduleWith { userCtx with st := .dying, parts := 0 } id) 0 1 = false ∧
    inTransit { moduleWith { userCtx with st := .dying, parts := 0 } id with arrived := [⟨4, 0, 1, 0, [1], 0, none, 1, 3, false, 0, 0⟩] } 0 1 = true ∧
    after (exec (.killTeardown 0 1) { moduleWith { userCtx with st := .dying, parts := 0 } id with
      owners := [(2 ^ 38 + 8, 1), (2 ^ 38 + 12, 2)], tlb := [cached, { cached with owner := 2 }] }) (fun t =>
        (t.ctx 0 1).st == .free && (t.ctx 0 1).parts == 0 && (mget noSnap (t.md 0).finals 1).length == 16 && t.owners == [(2 ^ 38 + 12, 2)] &&
          t.tlb == [{ cached with owner := 2 }]) = true := by
  decide +kernel

/-- Owner 1's record opened for stacks 0 and 2. -/
def openedCtx : Ctx := { Ctx.reset with st := .opened, gen := 4, parts := 5, ssize := 0x1000 }

theorem test_open_and_start :
    after (exec (.contextOpen 0 1 5) (moduleWith { Ctx.reset with gen := 3 } fun m =>
      { m with ready := true, parses := [(1, 0, []), (2, 0, [])], finals := [(1, [7])] })) (fun t =>
      (t.ctx 0 1).st == .opened && (t.ctx 0 1).parts == 5 && (t.ctx 0 1).gen == 4 && (t.md 0).parses == [(2, 0, [])] &&
        mget noSnap (t.md 0).finals 1 == noSnap) = true ∧
    after (exec (.contextOpen 0 1 3) (moduleWith openedCtx id)) (fun t => t.ctx 0 1 == { openedCtx with parts := 3 }) = true ∧
    after (exec (.contextStart 0 1) (moduleWith openedCtx id)) (fun t =>
      (t.ctx 0 1).st == .run && (t.die 0).pOwner == 1 && (t.die 0).pState == 1 && (t.die 1).pOwner == 0 && (t.die 2).pOwner == 1) = true ∧
    after (exec (.contextStart 0 1) (moduleWith { openedCtx with ssize := 8 } id)) (fun t => (t.ctx 0 1).st == .opened && (t.ctx 0 1).serr) = true := by
  decide +kernel

theorem test_start_witness :
    openedCtx.facc &&& ~~~ Module.reset.foff = 0 ∧ ∀ j, j < 4 → ((moduleWith openedCtx id).die (4 * 0 + j)).pOwner = 0 :=
  ⟨by decide +kernel, fun _ _ => rfl⟩

/-! Steps of control harts, the Lantern and the stacks (ControlSteps). -/

/-- Die 0 alone, with other fields. -/
def dieWith (x : Die) : State := { State.reset with dies := [(0, x)] }
/-- Module 0 alone, with other fields. -/
def lantern (m : Module) : State := { State.reset with modules := [(0, m)] }

/-- A place of HBM that an overflow area of 16 * 64 MiB takes from channel group 7 of die 0. -/
def overflowPlace : Nat := dpaKey State.reset 0 (7 * 2 ^ 34 + 0x200000000 - 2 ^ 29)

theorem test_overflow_size :
    inOverflow (dieWith Die.reset) (16 * 2 ^ 26) overflowPlace = true ∧ inOverflow (dieWith Die.reset) (7 * 2 ^ 26) overflowPlace = false ∧
    after (exec (.overflowSizeWrite 0 0x1F) { dieWith Die.reset with mem := [(overflowPlace, 7), (2 ^ 38, 9)], full := [(overflowPlace, true)] })
      (fun t => (t.die 0).osize == 16 && t.mem == [(2 ^ 38, 9)] && t.full == []) = true ∧
    after (exec (.overflowSizeWrite 0 0) (dieWith Die.reset)) (fun t => t == dieWith Die.reset) = true ∧
    after (exec (.overflowSizeWrite 0 3) (dieWith { Die.reset with pState := 1 })) (fun t => (t.die 0).osize == 0) = true := by
  decide +kernel

theorem test_restart :
    after (exec (.controlHartRestart 0 3) { lantern { Module.reset with chalt := 3 } with
      harts := [(97, { ctlHart [] with st := .halted, c := { Csrs.zero with epc := 0x2000 } })] }) (fun t =>
        (t.hart 97).st == .run && (t.hart 97).pc == 0x2000 && (t.hart 97).c.prv == 3 && (t.md 0).chalt == 1 && t.hart 96 == Hart.idle) = true := by
  decide +kernel

theorem test_tables_of_control :
    after (exec (.controlRegisterWrite 0 0x208 8 (-1)) { State.reset with tlb := [cached, { cached with owner := 2 }] }) (fun t =>
      t.mem.bytes (ctlKey 0 0x208) 8 == toBytes 8 0x3FFFFFF001 && t.tlb == [{ cached with owner := 2 }]) = true ∧
    after (exec (.peerTableWrite 0 5 6) (lantern { Module.reset with peers := [(4, 3)] })) (fun t => (t.md 0).peers == [(4, 3), (5, 6)]) = true ∧
    after (exec (.peerTableWrite 0 0 6) (lantern Module.reset)) (fun t => (t.md 0).peers == [(0, 6)]) = true ∧
    after (exec (.routeTableWrite 0 7 0xFFFFFFFF) (dieWith Die.reset)) (fun t => (t.die 0).routes == [(7, 0xFFF3)]) = true := by
  decide +kernel

/-- Owners 1 and 2 used 30 and 10 core-cycles (meter 6) on die 0. -/
def folding : State :=
  { dieWith { Die.reset with pendM := [(14, 30), (22, 10)], foldDue := true } with modules := [(0, { Module.reset with ctxs := [(1, { userCtx with residue := 900 })] })] }

theorem test_fold :
    after (exec (.meterFold 0 4000) folding) (fun t =>
      (t.ctx 0 1).meters == [(6, 30), (7, 3)] && (t.ctx 0 1).residue == 900 && (t.ctx 0 2).meters == [(6, 10), (7, 1)] &&
        (t.ctx 0 2).residue == 0 && (t.die 0).pendM == [] && !(t.die 0).foldDue) = true ∧
    after (exec (.meterFold 0 4000) (dieWith { Die.reset with pendM := [(14, 30)] })) (fun t => (t.die 0).pendM == [(14, 30)]) = true := by
  decide +kernel

theorem test_snapshots :
    after (exec (.snapshotRequest 0 1) (lantern { Module.reset with finals := [(1, [3])] })) (fun t => t.out == [.snapshot 0 1 [3]]) = true ∧
    after (exec (.snapshotRequest 0 1) (moduleWith { userCtx with parts := 5 } id)) (fun t => (t.ctx 0 1).forming == some [0, 2]) = true ∧
    after (exec (.snapshotForm 0 1) (moduleWith { userCtx with forming := some [], meters := [(2, 7)] } id)) (fun t =>
      t.out.map (fun o => match o with | .snapshot 0 1 w => (w.length, w.getD 3 0) | _ => (0, 0)) == [(16, 7)] && (t.ctx 0 1).snapSeq == 1 &&
        (t.ctx 0 1).forming == none) = true := by
  decide +kernel

theorem test_attestation_and_service :
    after (exec (.attestationRequest 0 9) State.reset) (fun t => t.out.length == 1) = true ∧
    after (exec (.fieldServiceCommand 0) (dieWith { Die.reset with retired := [4], errs := [(1, 2)] })) (fun t => t.die 0 == Die.reset) = true := by
  decide +kernel

theorem test_clock :
    after (exec (.thermalEvent 0 106) (dieWith { Die.reset with clk := 9 })) (fun t => (t.die 0).freq == 19 && (t.die 0).hotAt == 9) = true ∧
    after (exec (.thermalEvent 0 106) (dieWith { Die.reset with freq := 12 })) (fun t => (t.die 0).freq == 12) = true ∧
    after (exec (.thermalEvent 0 105) (dieWith { Die.reset with temp := 30 })) (fun t => (t.die 0).freq == 20 && (t.die 0).temp == 105) = true ∧
    after (exec (.thermalEvent 0 50) { lantern { Module.reset with cap := 900, power := 901 } with dies := [(2, { Die.reset with temp := 70 })] })
      (fun t => (t.die 0).freq == 20 && (t.die 2).freq == 19) = true ∧
    after (exec (.clockRaise 0) (dieWith { Die.reset with clk := 20000000 })) (fun t => (t.die 0).freq == 20) = true ∧
    after (exec (.clockRaise 0) (dieWith { Die.reset with freq := 12, clk := 20000005, hotAt := 5 })) (fun t => (t.die 0).freq == 13) = true ∧
    after (exec (.clockRaise 0) (dieWith { Die.reset with freq := 12, clk := 20000004, hotAt := 5 })) (fun t => (t.die 0).freq == 12) = true := by
  decide +kernel

/-- A ready module whose control hart 0 of die 0 has halted, with a byte of HBM and one of shared SRAM; a reset of die 0 may be under
way since cycle 5. -/
def resetting (ready : Bool) (stage : Option Nat) (clk : Nat) : State :=
  { lantern { Module.reset with ready, chalt := 5, doff := 3, entryVa := 0x4000 } with
    harts := [(96, { ctlHart [] with st := .halted })], dies := [(0, { Die.reset with freq := 12, resetting := stage, stepAt := 5, clk })]
    mem := [(5, 9), (2 ^ 37 + 8, 7), (2 ^ 40 + 2 ^ 37, 3)] }

theorem test_die_reset :
    ([.dieReset 0, .thermalEvent 0 116] : List Instr).all (fun i =>
      after (exec i (resetting true none 30)) (fun t =>
        t.hart 96 == Hart.idle && (t.die 0).freq == 20 && (t.die 0).resetting == some 2 && (t.die 0).stepAt == 30)) = true ∧
    after (exec (.dieReset 0) (resetting false none 30)) (fun t => (t.die 0).resetDue && (t.hart 96).st == .halted) = true ∧
    after (exec (.dieReset 0) (resetting true (some 4) 30)) (fun t => t == resetting true (some 4) 30) = true := by
  decide +kernel

theorem test_die_reset_steps :
    ((resetting true (some 5) 30).md 0).step = none ∧ noCluster ((resetting true (some 5) 30).die 0) = false ∧
    stepLate 5 5 30 = false ∧
    after (exec (.bringupStepDone 0 0 0 0) (resetting true (some 2) 30)) (fun t =>
      (t.die 0).resetting == some 4 && t.mem == (resetting true none 30).mem) = true ∧
    after (exec (.bringupStepDone 0 0 0 0) (resetting true (some 4) 30)) (fun t =>
      (t.die 0).resetting == some 5 && t.mem == [(5, 9), (2 ^ 40 + 2 ^ 37, 3)]) = true ∧
    after (exec (.bringupStepDone 0 0 0 0) (resetting true (some 5) 30)) (fun t =>
      (t.hart 96).st == .run && (t.hart 96).pc == 0x4000 && (t.hart 97).c.prv == 3 && (t.die 0).resetting == none && (t.md 0).chalt == 4 &&
        (t.md 0).doff == 2) = true ∧
    after (exec (.bringupStepDone 0 0 1 0) (resetting true (some 4) 30)) (fun t =>
      (t.hart 96).st == .halted && (t.die 0).resetting == none && (t.md 0).doff == 3) = true := by
  decide +kernel

/-- Bring-up is at a step. -/
def bringing (k : Nat) : State :=
  { lantern { Module.reset with on := true, step := some k, stage := k - 1, stepAt := 3 } with mem := [(5, 9)] }
/-- That step began at cycle 3, and it is a later one. -/
def bringingAt (k clk : Nat) : State := { bringing k with dies := [(0, { Die.reset with clk })] }

theorem test_bring_up :
    after (exec (.powerOn 0) (dieWith { Die.reset with clk := 8 })) (fun t => (t.md 0).on && (t.md 0).step == some 1 && (t.md 0).stepAt == 8) = true ∧
    after (exec (.bringupStepDone 0 0 0 0) (bringing 1)) (fun t => (t.md 0).stage == 1 && (t.md 0).step == some 2) = true ∧
    after (exec (.bringupStepDone 0 0 0 0) (bringing 4)) (fun t => t.mem == [] && (t.md 0).stage == 4) = true ∧
    after (exec (.bringupStepDone 0 0x3001 0 0) (bringing 6)) (fun t => (t.hart 96).pc == 0x3000 && (t.hart 481).st == .run) = true ∧
    after (exec (.bringupStepDone 0 0 0 0) (bringing 7)) (fun t => (t.md 0).ready && (t.md 0).step == none && (t.md 0).stage == 7) = true ∧
    after (exec (.bringupStepDone 0 0 1 0) (bringing 3)) (fun t => (t.md 0).fail && (t.md 0).fcode == 0x21 && (t.md 0).stage == 2) = true ∧
    after (exec (.bringupStepTimeout 0 1) (bringingAt 6 100000004)) (fun t =>
      (t.md 0).fail && (t.md 0).fcode == 0x51 && (t.md 0).step == none) = true ∧
    after (exec (.bringupStepTimeout 0 1) (bringingAt 6 100000003)) (fun t => t == bringingAt 6 100000003) = true := by
  decide +kernel

theorem test_self_tests :
    after (exec (.targetedSelfTest 0 8) (dieWith { Die.reset with faulty := [granule (rowKey State.reset 0 8)] })) (fun t =>
      (t.die 0).tests == [8] && (t.die 0).faulty == []) = true ∧
    after (exec (.targetedSelfTest 0 8) (dieWith { Die.reset with errs := [(1, 1)] })) (fun t => (t.die 0).tests == []) = true ∧
    after (exec (.selfTestComplete 0 8 true) (dieWith { Die.reset with tests := [8], clk := 5 })) (fun t =>
      (t.die 0).tests == [] && (t.die 0).errs == [(2, 1)] && (t.die 0).transient == [(8, 5)]) = true := by
  decide +kernel

/-- The clause of a poisoned granule of the tested row: a word of shared SRAM that names its row. -/
theorem test_self_test_poisoned_witness :
    let s : State := { dieWith { Die.reset with faulty := [2 ^ 37] } with poison := [(2 ^ 37, true)] }
    inRow s 0 (2 ^ 37) (2 ^ 37) = true ∧
    mget false s.poison (granule (rowKey s 0 (2 ^ 37))) = true ∧ keySpc (granule (rowKey s 0 (2 ^ 37))) ≠ .hbm := by
  decide +kernel

theorem test_shrink :
    (∀ o, o < 64 → leBytes ((dieWith { Die.reset with shrink := [3] }).mem.bytes (ctlKey 0 (0x200 + 8 * o)) 8) % 2 = 0) ∧
    after (exec (.sharedSramShrink 0) (dieWith { Die.reset with shrink := [3, 7], badWords := [2 ^ 37 + 3 * 2 ^ 20, 2 ^ 37 + 7 * 2 ^ 20] })) (fun t =>
      (t.die 0).sram == 63 && (t.die 0).shrink == [7] && (t.die 0).badWords == [2 ^ 37 + 7 * 2 ^ 20]) = true := by
  decide +kernel

/-! Steps of links (LinkSteps), from die 0 to die 1. -/

/-- A packet of hart 0's stores 1 and 2, of owner 1. -/
def aPacket : Packet := { body := .stores 0 [1, 2], owner := 1, flow := flowId 0 1 3, age := 2, wait := 65, k := false, ctr := 4, sealed := false }

/-- Die 0's route to die 1 is enabled; its plane A channel to die 1 and its key pair are given. -/
def linked (c : Channel) (k : KeyPair) : State :=
  { State.reset with
    chans := [(2, c)], dies := [(0, { Die.reset with clk := 70000, routes := [(1, 1)], keys := if k = noKeys then [] else [(1, k)] })] }

/-- A current key whose counter is 5. -/
def keyed : KeyPair := ⟨false, some ⟨7, 8, 5⟩, none, false⟩

theorem test_key_stage :
    after (exec (.keyStage 0 1 3 4) (linked Channel.reset noKeys)) (fun t => t.keyPair 0 1 == ⟨false, some ⟨3, 4, 0⟩, none, false⟩) = true ∧
    after (exec (.keyStage 0 1 3 4) (linked Channel.reset keyed)) (fun t => t.keyPair 0 1 == { keyed with next := some ⟨3, 4, 0⟩ }) = true ∧
    after (exec (.keyStage 0 1 3 4) (linked { Channel.reset with st := .halt } keyed)) (fun t =>
      t.keyPair 0 1 == ⟨true, some ⟨3, 4, 0⟩, none, false⟩ && (t.chan 0 1 false).st == .up) = true := by
  decide +kernel

theorem test_channel_clear :
    after (exec (.channelClear 0 1 false) (linked { Channel.reset with st := .down, fails := 17 } noKeys)) (fun t =>
      (t.chan 0 1 false).st == .up && (t.chan 0 1 false).fails == 0) = true ∧
    after (exec (.channelClear 0 1 false) (linked { Channel.reset with st := .halt } noKeys)) (fun t => (t.chan 0 1 false).st == .halt) = true := by
  decide +kernel

theorem test_transmit :
    routeEn (linked Channel.reset keyed) 0 1 = true ∧
    after (exec (.packetTransmit 0 1 false) (linked { Channel.reset with queue := [aPacket] } keyed)) (fun t =>
      (t.chan 0 1 false).queue == [] && (t.chan 0 1 false).retry == [{ aPacket with ctr := 5, sealed := true, wait := 0 }] &&
        ((t.keyPair 0 1).cur.map (·.ctr)) == some 6) = true := by
  decide +kernel

/-- A collective credit on its way. -/
def aCredit : Packet := { aPacket with body := .credit 7 1 3, owner := 0 }

/-- One packet in flight; sequencer 0 of die 1 runs a program of tag 7. -/
def flying (p : Packet) : State :=
  let s := linked { Channel.reset with retry := [p] } keyed
  { s with dies := s.dies ++ [(1, { Die.reset with seqs := [(0, { Sequencer.reset with st := .run, header := [7] })] })] }

/-- An access of hart 0 at die 1, and its response. -/
def aRequest (back : Bool) : Packet :=
  { aPacket with body := if back then .response 0 0 (2 ^ 48) 8 else .request 0 0 (2 ^ 48) 0 8 }

theorem test_accept :
    (∀ p, ((flying aPacket).chan 0 1 p).lastA = none ∧ ((flying aPacket).chan 0 1 p).lastB = none) ∧
    after (exec (.packetAccept 0 1 false true) (flying aPacket)) (fun t =>
      (t.chan 0 1 false).arrived == 1 && (t.chan 0 1 false).lastA == some 4 &&
        t.arrived == [⟨1, 0, 1, 0, [1, 2], 0, none, 1, 3, false, 2, 0⟩]) = true ∧
    after (exec (.packetAccept 0 1 false true) (flying (aRequest false))) (fun t =>
      (t.chan 0 1 false).arrived == 1 && t.arrived == [⟨1, 0, 1, 0, [], 0, some (0, 2 ^ 48, 8), 1, 3, false, 2, 0⟩]) = true ∧
    after (exec (.packetAccept 0 1 false true) { flying (aRequest true) with far := [⟨0, 0, 2 ^ 48, 1, 3, 2 ^ 40, .read none, 0, 8, 5, .sent, none⟩] }) (fun t =>
      t.far == [⟨0, 0, 2 ^ 48, 1, 3, 2 ^ 40, .read none, 0, 8, 5, .back, none⟩]) = true ∧
    peerOk (flying aCredit) (unitAgent 0 0 0 0 0 none) (1 * 2 ^ 48) = true ∧ tagTaken (flying aCredit) 1 0 7 = true ∧
    after (exec (.packetAccept 0 1 false true) (flying aCredit)) (fun t =>
      (t.chan 0 1 false).arrived == 1 && (t.die 1).mail == [(0, .credit 7 1 3)]) = true ∧
    after (exec (.packetAccept 0 1 false false) (flying aPacket)) (fun t =>
      (t.chan 0 1 false).discard && (t.chan 0 1 false).arrived == 0 && t.arrived == []) = true := by
  decide +kernel

theorem test_nak_and_acknowledgement :
    after (exec (.packetNak 0 1 false) (linked { Channel.reset with retry := [aPacket, aCredit], arrived := 1, discard := true, fails := 15 } keyed))
      (fun t => (t.chan 0 1 false).resend == 1 && !(t.chan 0 1 false).discard && (t.chan 0 1 false).fails == 16 && (t.chan 0 1 false).st == .up) = true ∧
    after (exec (.packetNak 0 1 false) (linked { Channel.reset with retry := [aPacket], discard := true, fails := 16 } keyed)) (fun t =>
      (t.chan 0 1 false).st == .down && mget 0 (t.die 0).errs 6 == 1) = true ∧
    after (exec (.packetAcknowledgement 0 1 false) (linked { Channel.reset with retry := [aPacket, aCredit], arrived := 1 } keyed)) (fun t =>
      (t.chan 0 1 false).retry == [aCredit] && (t.chan 0 1 false).arrived == 0) = true := by
  decide +kernel

/-- A flow that last sent on plane A at some cycle. -/
def flowing (last : Nat) : State :=
  { linked Channel.reset keyed with dies := [(0, { ((linked Channel.reset keyed).die 0) with flows := [(flowId 0 1 3, some ⟨false, last⟩)] })] }

theorem test_flow_move :
    (flowSrc (flowId 0 1 3) = 0 ∧ flowDst (flowId 0 1 3) = 1 ∧ flowPlane (flowing 69903) (flowId 0 1 3) = false) ∧
    after (exec (.flowPlaneMove (flowId 0 1 3)) (flowing 69903)) (fun t => (t.die 0).flows == [(flowId 0 1 3, some ⟨true, 69903⟩)]) = true ∧
    after (exec (.flowPlaneMove (flowId 0 1 3)) (flowing 69904)) (fun t => t == flowing 69904) = true := by
  decide +kernel

theorem test_age :
    after (exec (.packetAgeTick 0) (linked { Channel.reset with queue := [aPacket, { aPacket with wait := 63 }] } keyed)) (fun t =>
      (t.chan 0 1 false).queue.map (fun p => (p.age, p.wait)) == [(3, 1), (2, 63)]) = true ∧
    after (exec (.packetAgeTick 1) { State.reset with arrived := [⟨4, 0, 1, 0, [1], 0, none, 1, 3, false, 2, 70⟩] }) (fun t =>
      t.arrived.map (fun q => (q.age, q.wait)) == [(3, 6)]) = true := by
  decide +kernel

/-- Die 1 is unreachable: die 0 has no route to it, since cycle 3; two packets and hart 0 wait for it. -/
def stranded : State :=
  { State.reset with
    chans := [(2, { Channel.reset with queue := [aPacket, aRequest false] }), (3, { Channel.reset with retry := [aPacket] })]
    dies := [(0, { Die.reset with clk := 65539, unreach := [(1, some 3)] })]
    harts := [(0, { userHart [] with hold := some ⟨.remote 1 9, some (.lw 3 1 0 0)⟩ })] }

theorem test_unreachable :
    (routeEn stranded 0 1 = false ∧ ∀ p, ∀ x ∈ (stranded.chan 0 1 p).queue ++ (stranded.chan 0 1 p).retry,
      x.body = .stores 0 [1, 2] ∨ x.body = .request 0 0 (2 ^ 48) 0 8) ∧
    after (exec (.unreachableDrop 0 1) stranded) (fun t =>
      mget 0 (t.die 0).errs 0 == 3 && (t.chan 0 1 false).queue == [] && (t.chan 0 1 true).retry == [] &&
        (t.hart 0).hold == some ⟨.remoteFailed 1, some (.lw 3 1 0 0)⟩) = true := by
  decide +kernel

/-! Steps of sequencers (SequencerSteps). -/

/-- Sequencer 0 of die 0 runs the program at the start of shared SRAM as rank 0 of dies 0 and 1, for owner 0, at step 1; its state is
changed by f. -/
def seqWith (f : Sequencer → Sequencer) : Sequencer :=
  f { Sequencer.reset with st := .run, seq := 1, va := 0x800000000000, step := 1, header := aHeader, map := [0, 1], collected := false }

/-- That sequencer, with its step words and the messages of its die. -/
def sequencing (f : Sequencer → Sequencer) (steps : List Word) (mail : List (Nat × Body)) : State :=
  { State.reset with
    dies := [(0, { Die.reset with seqs := [(0, seqWith f)], mail, pState := 1, routes := [(1, 1)] })], mem := program steps }

/-- The facts of State.SequencerAt for sequencer 0 of die 0, computed. -/
def seqAtB (s : State) (va n align : Nat) (need : Need) (key : Nat) : Bool :=
  programB s (s.seq 0 0) ((s.seq 0 0).agent 0 0) va n align need key

theorem seq_at_of {s : State} {va n align : Nat} {need : Need} {key : Nat} (h : seqAtB s va n align need key = true) :
    s.SequencerAt 0 0 (s.seq 0 0) va n align need false key := program_of h

/-- A SEND of chunk 0 of buffer 0 to the next rank, a LOOP of 3 rounds on counter 0 back to step 0, and END. -/
def sendWord : Nat := 2 ^ 60 + 2 ^ 48
/-- LOOP. -/
def loopWord : Nat := 8 * 2 ^ 60 + 3 * 2 ^ 32

/-- Sequencer 0 is at step 1, whose word is w. -/
def stepping (w : Nat) : State := sequencing id [0, BitVec.ofNat 64 w] []

theorem test_step_witness :
    (stepping loopWord).AtStep 0 0 loopWord ∧ (stepping sendWord).AtStep 0 0 sendWord ∧ (stepping 0).AtStep 0 0 0 ∧
    (stepping 0).SequencerAt 0 0 ((stepping 0).seq 0 0) 0x800000000080 8 8 needW false (2 ^ 37 + 0x80) := by
  refine ⟨?_, ?_, ?_, seq_at_of (by decide +kernel)⟩ <;>
  exact ⟨by decide +kernel, by decide +kernel, by decide +kernel, by decide +kernel, by decide +kernel, by decide +kernel,
    by decide +kernel, by decide +kernel, 2 ^ 37 + 72, seq_at_of (by decide +kernel), by decide +kernel⟩

theorem test_sequencer_step :
    after (exec (.sequencerStep 0 0) (stepping loopWord)) (fun t => (t.seq 0 0).l0 == 1 && (t.seq 0 0).step == 0) = true ∧
    after (exec (.sequencerStep 0 0) (sequencing (fun x => { x with l0 := 2 }) [0, BitVec.ofNat 64 loopWord] [])) (fun t =>
      (t.seq 0 0).l0 == 0 && (t.seq 0 0).step == 2) = true ∧
    after (exec (.sequencerStep 0 0) (stepping sendWord)) (fun t =>
      (t.seq 0 0).sends == [(1, 1, 0x800000000100, [])] && (t.seq 0 0).sent == [(1, 1)] && (t.seq 0 0).chunks == 1 && (t.seq 0 0).step == 2) = true ∧
    after (exec (.sequencerStep 0 0) (stepping 0)) (fun t =>
      (t.seq 0 0).st == .run && (t.seq 0 0).ending == some 0x4000000100000000 && (t.seq 0 0).stored && (t.seq 0 0).written == some [] &&
        t.mem.bytes (2 ^ 37 + 0x80) 8 == toBytes 8 0x4000000100000000) = true := by
  decide +kernel

/-- Sequencer 0 has applied the write of its status word, which is being performed; two messages of its tag have come. -/
def stored (st : Word) : State :=
  sequencing (fun x => { x with ending := some st, stored := true, written := some [3] }) [] [(0, .credit 1 1 1), (0, .chunk 1 1 1 [])]

theorem test_sequencer_done :
    (stored 0x4000000100000000).stalled (seqSource 0 0) = false ∧ toldPage (stored 0x4000000100000000) none 0 = false ∧
    after (exec (.sequencerStep 0 0) (stored 0x4000000100000000)) (fun t =>
      (t.seq 0 0).st == .done && (t.seq 0 0).status == 0x4000000100000000 && (t.die 0).mail == [(0, .credit 1 1 1)]) = true ∧
    after (exec (.sequencerStep 0 0) (stored 0x8000000000000000)) (fun t => (t.seq 0 0).st == .done && (t.die 0).mail == []) = true ∧
    after (exec (.sequencerStep 0 0) { stored 0x4000000100000000 with collapses := [⟨3, 9, [(1, false)]⟩] }) (fun t =>
      (t.seq 0 0).st == .run) = true := by
  decide +kernel

theorem test_sequencer_messages :
    after (exec (.seqChunkArrival 0 0) (sequencing id [] [(0, .chunk 1 1 5 [7])])) (fun t =>
      (t.seq 0 0).inbox == [(1, 5, [7])] && (t.die 0).mail == []) = true ∧
    after (exec (.seqChunkArrival 0 0) (sequencing (fun x => { x with inbox := [(1, 5, [7])] }) [] [(0, .chunk 1 1 5 [8, 9])])) (fun t =>
      (t.seq 0 0).inbox == [(1, 5, [7, 8, 9])]) = true ∧
    flowRoom (sequencing id [] []) (flowId 65536 1 0) = true ∧
    after (exec (.seqCredit 0 0) (sequencing (fun x => { x with sends := [(1, 1, 0x800000000100, [7])] }) [] [(0, .credit 1 1 1)])) (fun t =>
      (t.seq 0 0).sends == [] && (t.seq 0 0).credit == [(1, 1)] && (t.die 0).mail == [] &&
        (t.chan 0 1 false).queue.map (fun p => (p.body, p.owner, p.flow)) == [(.chunk 1 0 1 [7], 0, flowId 65536 1 0)]) = true ∧
    after (exec (.seqCredit 0 0) (sequencing (fun x => { x with sends := [(1, 1, 0x800000000100, List.replicate 200 7)] }) [] [(0, .credit 1 1 1)]))
      (fun t => (t.seq 0 0).sends == [] && (t.chan 0 1 false).queue.map (·.body) ==
        [.chunk 1 0 1 (List.replicate 128 7), .chunk 1 0 1 (List.replicate 72 7)]) = true ∧
    after (exec (.seqDataStepComplete 0 0) { sequencing (fun x => { x with written := some [3] }) [] [] with collapses := [⟨4, 9, [(1, false)]⟩] })
      (fun t => (t.seq 0 0).written == none && (t.seq 0 0).chunks == 1 && (t.seq 0 0).step == 2) = true := by
  decide +kernel

/-- A loss notice of rank 1 has arrived. -/
def losing : State := sequencing id [] [(0, .loss 1 1 1)]

theorem test_loss :
    after (exec (.lossNotice 0 0 1) losing) (fun t =>
      (t.seq 0 0).st == .run && (t.seq 0 0).ending == some 0x8001000100000000 && (t.seq 0 0).sends == [] && (t.die 0).mail == []) = true ∧
    (let aChunk : Packet := { body := .chunk 1 0 1 [7], owner := 0, flow := flowId 65536 1 0, age := 0, wait := 0, k := false, ctr := 0, sealed := false }
     after (exec (.lossNotice 0 0 1) { losing with chans := [(2, { Channel.reset with queue := [aChunk, aCredit] })] }) (fun t =>
       (t.chan 0 1 false).queue == [aCredit])) = true := by
  decide +kernel

theorem test_gang_pause :
    after (exec (.gangPauseRequest 0 0) (sequencing (fun x => { x with chunks := 6 }) [] [(0, .pauseReq 1 1)])) (fun t =>
      (t.die 0).mail == [] && (t.chan 0 1 false).queue.map (·.body) == [.pauseAns 1 0 6]) = true ∧
    after (exec (.gangPauseRequest 0 0) { sequencing id [] [] with
      dies := [(0, { ((sequencing id [] []).die 0) with pState := 2 })] }) (fun t => (t.seq 0 0).pausing) = true ∧
    after (exec (.gangPauseAnswer 0 0 1) (sequencing (fun x => { x with pausing := true, answers := [(0, some 4)] }) [] [(0, .pauseAns 1 1 6)]))
      (fun t => (t.seq 0 0).target == some 6 && (t.chan 0 1 false).queue.map (·.body) == [.pauseAt 1 0 6]) = true ∧
    after (exec (.gangPauseTarget 0 0 6) (sequencing id [] [(0, .pauseAt 1 1 6)])) (fun t =>
      (t.seq 0 0).target == some 6 && (t.seq 0 0).pausers == [1] && (t.die 0).mail == []) = true := by
  decide +kernel

theorem test_gang_resume :
    after (exec (.gangResume 0 0) (sequencing (fun x => { x with st := .paused, pausers := [1] }) [] [(0, .resume 1 1)])) (fun t =>
      (t.seq 0 0).st == .run && (t.seq 0 0).pausers == [] && (t.die 0).mail == []) = true ∧
    after (exec (.gangResume 0 0) (sequencing (fun x => { x with st := .paused, pausers := [1, 0] }) [] [(0, .resume 1 1)])) (fun t =>
      (t.seq 0 0).st == .paused && (t.seq 0 0).pausers == [0] && (t.die 0).mail == []) = true ∧
    after (exec (.gangResume 0 0) (sequencing (fun x => { x with st := .paused, pausing := true, target := some 6, answers := [(0, some 4)] }) [] []))
      (fun t => (t.seq 0 0).st == .run && !(t.seq 0 0).pausing && (t.seq 0 0).target == none && (t.seq 0 0).answers == [] &&
        (t.chan 0 1 false).queue.map (·.body) == [.resume 1 0]) = true := by
  decide +kernel
end

section
/-! The scalar unit: its meanings against the integers in which Safety states them (R116 to R122, R67), then the two obligations. -/

namespace Sys2Proof.Machine

open Sys2Proof

/-! Words as integers: sums, differences, products and shifts wrap to the width (R114). -/

theorem add_eq_ofInt {w : Nat} (a b : BitVec w) : a + b = BitVec.ofInt w (a.toInt + b.toInt) := by
  rw [BitVec.ofInt_add, BitVec.ofInt_toInt, BitVec.ofInt_toInt]

theorem add_ofInt_eq {w : Nat} (a : BitVec w) (z : Int) : a + BitVec.ofInt w z = BitVec.ofInt w (a.toInt + z) := by
  rw [BitVec.ofInt_add, BitVec.ofInt_toInt]

theorem sub_eq_ofInt {w : Nat} (a b : BitVec w) : a - b = BitVec.ofInt w (a.toInt - b.toInt) := by
  rw [Int.sub_eq_add_neg, BitVec.ofInt_add, BitVec.ofInt_neg, BitVec.ofInt_toInt, BitVec.ofInt_toInt, BitVec.sub_eq_add_neg]

theorem mul_eq_ofInt {w : Nat} (a b : BitVec w) : a * b = BitVec.ofInt w (a.toInt * b.toInt) := by
  rw [BitVec.ofInt_mul, BitVec.ofInt_toInt, BitVec.ofInt_toInt]

theorem eq_ofNat_of_toNat_eq {w n : Nat} {a : BitVec w} (h : a.toNat = n) : a = BitVec.ofNat w n := by
  rw [← h, BitVec.ofNat_toNat, BitVec.setWidth_eq]

theorem shiftLeft_eq_ofNat {w : Nat} (a : BitVec w) (n : Nat) : a <<< n = BitVec.ofNat w (a.toNat * 2 ^ n) :=
  congrArg (BitVec.ofNat w) (Nat.shiftLeft_eq _ _)

theorem ofInt_shiftLeft {w : Nat} (z : Int) (n : Nat) : BitVec.ofInt w z <<< n = BitVec.ofInt w (z * 2 ^ n) := by
  have hpow : BitVec.ofInt w (2 ^ n) = BitVec.twoPow w n := by
    apply BitVec.eq_of_toNat_eq
    rw [show (2 : Int) ^ n = ((2 ^ n : Nat) : Int) by norm_cast, BitVec.ofInt_natCast, BitVec.toNat_ofNat, BitVec.toNat_twoPow]
  rw [BitVec.ofInt_mul, hpow, BitVec.shiftLeft_eq_mul_twoPow]

theorem ushiftRight_eq_ofNat {w : Nat} (a : BitVec w) (n : Nat) : a >>> n = BitVec.ofNat w (a.toNat / 2 ^ n) :=
  eq_ofNat_of_toNat_eq (by rw [BitVec.toNat_ushiftRight, Nat.shiftRight_eq_div_pow])

theorem sshiftRight_eq_ofInt {w : Nat} (a : BitVec w) (n : Nat) : a.sshiftRight n = BitVec.ofInt w (a.toInt / 2 ^ n) := by
  rw [BitVec.sshiftRight_eq, Int.shiftRight_eq_div_pow]
  norm_cast

theorem and_eq_ofNat {w : Nat} (a b : BitVec w) : a &&& b = BitVec.ofNat w (a.toNat &&& b.toNat) :=
  eq_ofNat_of_toNat_eq (BitVec.toNat_and _ _)

theorem or_eq_ofNat {w : Nat} (a b : BitVec w) : a ||| b = BitVec.ofNat w (a.toNat ||| b.toNat) :=
  eq_ofNat_of_toNat_eq (BitVec.toNat_or _ _)

theorem xor_eq_ofNat {w : Nat} (a b : BitVec w) : a ^^^ b = BitVec.ofNat w (a.toNat ^^^ b.toNat) :=
  eq_ofNat_of_toNat_eq (BitVec.toNat_xor _ _)

/-- The high half of a product that is exact in twice the width (MULH). -/
theorem extractLsb'_ofInt_high (z : Int) : (BitVec.ofInt 128 z).extractLsb' 64 64 = BitVec.ofInt 64 (z / 2 ^ 64) := by
  apply BitVec.eq_of_toNat_eq
  simp only [BitVec.extractLsb'_toNat, BitVec.toNat_ofInt, Nat.shiftRight_eq_div_pow]
  omega

theorem mulhS_eq (a b : Word) : mulhS a b = (a.signExtend 128 * b.signExtend 128).extractLsb' 64 64 := by
  have hprod : a.signExtend 128 * b.signExtend 128 = BitVec.ofInt 128 (a.toInt * b.toInt) := (BitVec.ofInt_mul _ _).symm
  rw [hprod, extractLsb'_ofInt_high]
  rfl

theorem mulhU_eq (a b : Word) : mulhU a b = (a.setWidth 128 * b.setWidth 128).extractLsb' 64 64 := by
  apply BitVec.eq_of_toNat_eq
  have hwide (x : Word) : x.toNat % 2 ^ 128 = x.toNat := Nat.mod_eq_of_lt (by omega)
  simp only [mulhU, BitVec.toNat_ofNat, BitVec.extractLsb'_toNat, BitVec.toNat_mul, BitVec.toNat_setWidth, hwide,
    Nat.shiftRight_eq_div_pow]
  generalize a.toNat * b.toNat = p
  omega

/-! Division (R117). -/

theorem divS_eq (a b : Word) :
    divS a b = if b = 0 then -1 else if a.toInt = -2 ^ 63 ∧ b.toInt = -1 then a else BitVec.ofInt 64 (a.toInt.tdiv b.toInt) := by
  unfold divS
  split
  · rfl
  · split
    next h =>
      -- the quotient 2 ^ 63 wraps to the dividend
      obtain ⟨ha, hb⟩ := h
      rw [← BitVec.ofInt_toInt (x := a), ha, hb]
      rfl
    · rfl

theorem divU_eq (a b : Word) : divU a b = if b = 0 then -1 else BitVec.ofNat 64 (a.toNat / b.toNat) := rfl

theorem remS_eq (a b : Word) :
    remS a b = if b = 0 then a else BitVec.ofInt 64 (a.toInt - b.toInt * a.toInt.tdiv b.toInt) := by
  rw [← Int.tmod_def]
  rfl

theorem remU_eq (a b : Word) :
    remU a b = if b = 0 then a else BitVec.ofNat 64 (a.toNat - b.toNat * (a.toNat / b.toNat)) := by
  rw [← Nat.mod_def]
  rfl

/-! Comparisons, minima and maxima. -/

theorem sLt_iff (a b : Word) : sLt a b = true ↔ a.toInt < b.toInt := BitVec.slt_iff_toInt_lt

theorem not_sLt_iff (a b : Word) : (!sLt a b) = true ↔ a.toInt ≥ b.toInt := by
  rw [Bool.not_eq_true', ← Bool.not_eq_true, sLt_iff, Int.not_lt, ge_iff_le]

theorem not_ult_iff (a b : Word) : (!a.ult b) = true ↔ a.toNat ≥ b.toNat := by
  rw [Bool.not_eq_true', ← Bool.not_eq_true, BitVec.ult_iff_toNat_lt, Nat.not_lt, ge_iff_le]

theorem flagWord_eq {c : Bool} {p : Prop} [Decidable p] (h : c = true ↔ p) : flagWord c = if p then 1 else 0 := by
  unfold flagWord
  simp only [h]

theorem signed_min_eq (a b : Word) : (if sLt b a then b else a) = BitVec.ofInt 64 (min a.toInt b.toInt) := by
  rw [min_def, apply_ite (BitVec.ofInt 64), BitVec.ofInt_toInt, BitVec.ofInt_toInt]
  simp only [sLt_iff, ← Int.not_le, ite_not]

theorem signed_max_eq (a b : Word) : (if sLt a b then b else a) = BitVec.ofInt 64 (max a.toInt b.toInt) := by
  rw [max_def_lt, apply_ite (BitVec.ofInt 64), BitVec.ofInt_toInt, BitVec.ofInt_toInt]
  simp only [sLt_iff]

theorem unsigned_min_eq (a b : Word) : (if b.ult a then b else a) = BitVec.ofNat 64 (min a.toNat b.toNat) := by
  apply eq_ofNat_of_toNat_eq
  rw [min_def, apply_ite BitVec.toNat]
  simp only [BitVec.ult_iff_toNat_lt, ← Nat.not_le, ite_not]

theorem unsigned_max_eq (a b : Word) : (if a.ult b then b else a) = BitVec.ofNat 64 (max a.toNat b.toNat) := by
  apply eq_ofNat_of_toNat_eq
  rw [max_def_lt, apply_ite BitVec.toNat]
  simp only [BitVec.ult_iff_toNat_lt]

/-! Bit counts: the recursions count what Safety reads off the list of the bits. -/

theorem leadZeros_eq (n w : Nat) :
    leadZeros n w = (((List.range n).map fun i => w.testBit (n - 1 - i)).takeWhile (! ·)).length := by
  induction n with
  | zero => rfl
  | succ n ih =>
    have htail : ((List.range n).map Nat.succ).map (fun i => w.testBit (n + 1 - 1 - i)) =
        (List.range n).map fun i => w.testBit (n - 1 - i) := by
      rw [List.map_map]
      refine List.map_congr_left fun i _ => congrArg w.testBit ?_
      omega
    rw [leadZeros, List.range_succ_eq_map, List.map_cons, htail, List.takeWhile_cons]
    cases h : w.testBit n <;> simp [h, ih, Nat.add_comm]

theorem trailZeros_eq (n i w : Nat) :
    trailZeros n i w = (((List.range n).map fun j => w.testBit (i + j)).takeWhile (! ·)).length := by
  induction n generalizing i with
  | zero => rfl
  | succ n ih =>
    have htail : ((List.range n).map Nat.succ).map (fun j => w.testBit (i + j)) =
        (List.range n).map fun j => w.testBit (i + 1 + j) := by
      rw [List.map_map]
      refine List.map_congr_left fun j _ => congrArg w.testBit ?_
      omega
    rw [trailZeros, List.range_succ_eq_map, List.map_cons, htail, List.takeWhile_cons]
    cases w.testBit i <;> simp [ih, Nat.add_comm]

theorem countOnes_eq (n w : Nat) : countOnes n w = ((List.range n).filter fun i => w.testBit i).length := by
  induction n with
  | zero => rfl
  | succ n ih =>
    rw [countOnes, List.range_succ, List.filter_append, List.length_append, ← ih]
    cases h : w.testBit n <;> simp [h, Nat.add_comm]

theorem leadZeros_word (a : Word) : leadZeros 64 a.toNat = zerosAbove a := leadZeros_eq 64 a.toNat

theorem trailZeros_word (a : Word) : trailZeros 64 0 a.toNat = zerosBelow a := by
  rw [trailZeros_eq]
  simp only [Nat.zero_add]
  rfl

theorem countOnes_word (a : Word) : countOnes 64 a.toNat = onesIn a := countOnes_eq 64 a.toNat

/-! Immediates, offsets and targets (R44, R121, R67). -/

theorem upperImm_eq (n : BitVec 18) : upperImm n = BitVec.ofInt 64 (n.toInt * 2 ^ 13) := ofInt_shiftLeft _ _

/-- An address and twice a signed offset. -/
theorem add_offset_eq {k : Nat} (pc : Word) (n : BitVec k) :
    pc + n.signExtend 64 <<< 1 = BitVec.ofInt 64 (pc.toInt + n.toInt * 2) := by
  rw [← add_ofInt_eq]
  exact congrArg (pc + ·) (ofInt_shiftLeft _ _)

theorem evenPc_eq (w : Word) : evenPc w = BitVec.ofNat 64 (w.toNat - w.toNat % 2) := by
  apply eq_ofNat_of_toNat_eq
  rw [evenPc, evenWord_toNat]
  omega

theorem cReg_eq (r : BitVec 3) : cReg r = BitVec.ofNat 5 (r.toNat + 3) := by
  rw [BitVec.ofNat_add, BitVec.ofNat_toNat]
  rfl

/-! What the scalar meanings do to the state. -/

theorem next_write_congr {s : State} {d : BitVec 5} {w v n : Word} (h : w = v) :
    (.next (s.write d w n) : Out) = .next (s.write d v n) := by rw [h]

/-- A two-operand row writes its result (R116, R117). -/
theorem exec_opr {i : Instr} {s : State} {v : Word} (h : oprValue i (s.g (oprRegs i).2.1) (s.g (oprRegs i).2.2) = some v) :
    exec i s = .next (s.write (oprRegs i).1 v 4) := by
  cases i with
  | add d a b => cases h; exact next_write_congr (add_eq_ofInt _ _)
  | sub d a b => cases h; exact next_write_congr (sub_eq_ofInt _ _)
  | and d a b => cases h; exact next_write_congr (and_eq_ofNat _ _)
  | or d a b => cases h; exact next_write_congr (or_eq_ofNat _ _)
  | xor d a b => cases h; exact next_write_congr (xor_eq_ofNat _ _)
  | sll d a b => cases h; exact next_write_congr (shiftLeft_eq_ofNat _ _)
  | srl d a b => cases h; exact next_write_congr (ushiftRight_eq_ofNat _ _)
  | sra d a b => cases h; exact next_write_congr (sshiftRight_eq_ofInt _ _)
  | slt d a b => cases h; exact next_write_congr (flagWord_eq (sLt_iff _ _))
  | sltu d a b => cases h; exact next_write_congr (flagWord_eq BitVec.ult_iff_toNat_lt)
  | mul d a b => cases h; exact next_write_congr (mul_eq_ofInt _ _)
  | mulh d a b => cases h; exact next_write_congr (mulhS_eq _ _)
  | mulhu d a b => cases h; exact next_write_congr (mulhU_eq _ _)
  | div d a b => cases h; exact next_write_congr (divS_eq _ _)
  | divu d a b => cases h; exact next_write_congr (divU_eq _ _)
  | rem d a b => cases h; exact next_write_congr (remS_eq _ _)
  | remu d a b => cases h; exact next_write_congr (remU_eq _ _)
  | min d a b => cases h; exact next_write_congr (signed_min_eq _ _)
  | max d a b => cases h; exact next_write_congr (signed_max_eq _ _)
  | minu d a b => cases h; exact next_write_congr (unsigned_min_eq _ _)
  | maxu d a b => cases h; exact next_write_congr (unsigned_max_eq _ _)
  | clz d a => cases h; exact next_write_congr (congrArg _ (leadZeros_word _))
  | ctz d a => cases h; exact next_write_congr (congrArg _ (trailZeros_word _))
  | popc d a => cases h; exact next_write_congr (congrArg _ (countOnes_word _))
  | _ => nomatch h

/-- A row with an immediate, or a compressed form, writes its result (R118 to R120, R67). Sign extension is ofInt of the value. -/
theorem exec_imm {i : Instr} {s : State} {d : BitVec 5} {v n : Word} (h : immValue i s = some (d, v, n)) :
    exec i s = .next (s.write d v n) := by
  cases i with
  | addi d a k => cases h; exact next_write_congr (add_ofInt_eq _ _)
  | andi d a k => cases h; rfl
  | ori d a k => cases h; rfl
  | xori d a k => cases h; rfl
  | slti d a k =>
    cases h
    have hk : (imm13 k).toInt = k.toInt := BitVec.toInt_signExtend_of_le (by decide)
    exact next_write_congr (flagWord_eq (by rw [sLt_iff, hk]))
  | sltiu d a k => cases h; exact next_write_congr (flagWord_eq BitVec.ult_iff_toNat_lt)
  | slli d a k => cases h; exact next_write_congr (shiftLeft_eq_ofNat _ _)
  | srli d a k => cases h; exact next_write_congr (ushiftRight_eq_ofNat _ _)
  | srai d a k => cases h; exact next_write_congr (sshiftRight_eq_ofInt _ _)
  | lui d k => cases h; exact next_write_congr (upperImm_eq _)
  | auipc d k => cases h; exact next_write_congr (by rw [upperImm_eq, add_ofInt_eq])
  | cAddi d k => cases h; exact next_write_congr (add_ofInt_eq _ _)
  | cLi d k => cases h; rfl
  | cMv d a => cases h; rfl
  | cAdd d a => cases h; exact next_write_congr (add_eq_ofInt _ _)
  | cSlli d k => cases h; exact next_write_congr (shiftLeft_eq_ofNat _ _)
  | _ => nomatch h

theorem wrote_jump (x : Hart) (rd : BitVec 5) (w pc : Word) : x.Wrote ((x.setG rd w).jump pc) rd w pc := by
  obtain ⟨hrd, hothers, -⟩ := wrote_retire x rd w 0
  refine ⟨hrd, hothers, ?_⟩
  unfold Hart.jump Hart.retire Hart.setG
  split <;> rfl

/-- Linking and going to a target (R121). -/
theorem wrote_jumpTo (s : State) (rd : BitVec 5) (tgt len : Word) : s.Wrote (s.jumpTo rd tgt len) rd (s.me.pc + len) tgt :=
  ⟨onlyHart_setMe _ _, by rw [State.jumpTo, State.me_setMe]; exact wrote_jump s.me rd _ tgt⟩

theorem next_jumpTo_congr {s : State} {d : BitVec 5} {t tgt n : Word} (h : t = tgt) :
    (.next (s.jumpTo d t n) : Out) = .next (s.jumpTo d tgt n) := by rw [h]

/-- A jump links and goes to its target (R121, R67). -/
theorem exec_jump {i : Instr} {s : State} {d : BitVec 5} {tgt n : Word} (h : jumpTarget i s = some (d, tgt, n)) :
    exec i s = .next (s.jumpTo d tgt n) := by
  cases i with
  | jal d k => cases h; exact next_jumpTo_congr (add_offset_eq _ _)
  | jalr d a k => cases h; exact next_jumpTo_congr ((congrArg evenPc (add_ofInt_eq _ _)).trans (evenPc_eq _))
  | cJ k => cases h; exact next_jumpTo_congr (add_offset_eq _ _)
  | cJr a => cases h; exact next_jumpTo_congr (evenPc_eq _)
  | _ => nomatch h

/-- A branch goes to its offset when taken and past itself otherwise (R122). -/
theorem passed_branch (s : State) (taken : Bool) (off len : Word) :
    s.Passed (s.branch taken off len) (s.me.pc + if taken then off else len) :=
  ⟨onlyHart_setMe _ _, by rw [State.branch, State.me_setMe]; rfl⟩

/-- A branch is State.branch on a decision of its condition, with twice its offset field (R122, R67). -/
theorem exec_branch {i : Instr} {s : State} {p : Prop} {o : Int} {n : Word} (h : branchTest i s = some (p, o, n)) :
    ∃ taken off, exec i s = .next (s.branch taken off n) ∧ (taken = true ↔ p) ∧ off = BitVec.ofInt 64 o := by
  cases i with
  | beq a b k => cases h; exact ⟨_, _, rfl, beq_iff_eq, ofInt_shiftLeft _ _⟩
  | bne a b k => cases h; exact ⟨_, _, rfl, bne_iff_ne, ofInt_shiftLeft _ _⟩
  | blt a b k => cases h; exact ⟨_, _, rfl, sLt_iff _ _, ofInt_shiftLeft _ _⟩
  | bge a b k => cases h; exact ⟨_, _, rfl, not_sLt_iff _ _, ofInt_shiftLeft _ _⟩
  | bltu a b k => cases h; exact ⟨_, _, rfl, BitVec.ult_iff_toNat_lt, ofInt_shiftLeft _ _⟩
  | bgeu a b k => cases h; exact ⟨_, _, rfl, not_ult_iff _ _, ofInt_shiftLeft _ _⟩
  | cBeqz r k => cases h; exact ⟨_, _, rfl, by rw [beq_iff_eq, cReg_eq], ofInt_shiftLeft _ _⟩
  | cBnez r k => cases h; exact ⟨_, _, rfl, by rw [bne_iff_ne, cReg_eq], ofInt_shiftLeft _ _⟩
  | _ => nomatch h

/-- A safe point without a pending pre-emption retires (R129). -/
theorem safeOp_retires {s : State} (h : s.me.c.preq = false) (i : Instr) (idx : Nat) (n : Word) :
    safeOp s i idx n = .next (s.retire n) := by
  unfold safeOp
  rw [h]
  rfl

/-! The obligations. -/

/-- Settles O7: each row's meaning is a write of the value that the integers give. -/
theorem scalarArithmetic : Obligations.ScalarArithmetic :=
  ⟨fun _ s _ h => ⟨_, exec_opr h, wrote_write s _ _ _⟩, fun _ s _ _ _ h => ⟨_, exec_imm h, wrote_write s _ _ _⟩⟩

/-- Settles O8: a jump is a link and a go, a branch is a go by its decided condition, and the others retire. -/
theorem controlTransfers : Obligations.ControlTransfers := by
  refine ⟨fun i s d tgt n h => ⟨_, exec_jump h, wrote_jumpTo s d tgt n⟩, fun i s p o n h => ?_,
    fun s => ⟨?_, fun hpreq => ⟨?_, ?_⟩⟩⟩
  · obtain ⟨taken, off, hexec, htaken, rfl⟩ := exec_branch h
    have hpassed := passed_branch s taken (BitVec.ofInt 64 o) n
    refine ⟨_, hexec, fun hp => ?_, fun hp => ?_⟩
    · rwa [if_pos (htaken.mpr hp), add_ofInt_eq] at hpassed
    · rwa [if_neg (mt htaken.mp hp)] at hpassed
  · exact ⟨_, rfl, passed_retire s 2⟩
  · exact fun idx => ⟨_, safeOp_retires hpreq (.safe idx) idx.toNat 4, passed_retire s 4⟩
  · exact fun idx => ⟨_, safeOp_retires hpreq (.cSafe idx) idx.toNat 2, passed_retire s 2⟩

end Sys2Proof.Machine
end
